-- ==== Sys2Proof/Word.lean ====
section
/-!
DEFINITION. The machine's value widths (00_scope.md R7, R8): byte, word and long bit patterns and addresses.
-/

namespace Sys2Proof

/-- A byte operand, 8 bits. -/
abbrev Byte := BitVec 8

/-- A word operand, 16 bits. -/
abbrev Word := BitVec 16

/-- A long operand, 32 bits. -/
abbrev Long := BitVec 32

/-- An address while it is computed. The address space has `2^ADDR_BITS` bytes, `ADDR_BITS` being 24 or 32
(00_scope.md R6), so an address fits 32 bits; `State.addr` takes it modulo `2^ADDR_BITS`. -/
abbrev Addr := BitVec 32

end Sys2Proof
end

