-- ==== Sys2Proof/Config.lean ====
section
/-!
DEFINITION. What an implementation fixes (00_scope.md R6) and the free values of the spec, its `draw()`
(00_scope.md R9, 92_eei_decisions.md D37).
-/

namespace Sys2Proof

/-- The parameter `ADDR_BITS` (00_scope.md R6, 92_eei_decisions.md D3). -/
inductive AddrBits where
  | bits24
  | bits32
deriving DecidableEq, Repr

/-- `ADDR_BITS` as a number. -/
def AddrBits.toNat : AddrBits → Nat
  | .bits24 => 24
  | .bits32 => 32

/-- `AMASK = 2^ADDR_BITS - 1` (00_scope.md R6). -/
def AddrBits.mask : AddrBits → Addr
  | .bits24 => 0x00FFFFFF
  | .bits32 => 0xFFFFFFFF

/-- The parameter `INTM`, the interrupt control mode (00_scope.md R6, 92_eei_decisions.md D9). -/
inductive IntMode where
  | mode0
  | mode2
deriving DecidableEq, Repr

/-- The implementation parameters, fixed for a run (00_scope.md R6, 70_reset_and_hazards.md R1200). -/
structure Params where
  addrBits  : AddrBits
  intm      : IntMode
  hasEClock : Bool
  irqShadow : Bool
deriving DecidableEq, Repr

/-- The values 00_scope.md R6 assigns to the hardware. -/
def Params.default : Params :=
  { addrBits := .bits24, intm := .mode0, hasEClock := false, irqShadow := true }

/-- The places of the spec that draw a free value. One step uses each at most once, so a site and the step's
epoch name one draw. -/
inductive DrawSite where
  /-- `callPad`, the top byte of a pushed return address (45_branch.md R903). -/
  | callPad
  /-- The low byte STC.W writes (46_system_control.md R1001). -/
  | stcPad
  /-- The pad byte of the EXR stack word (60_exceptions.md R1112). -/
  | exrPad
  /-- The undefined CCR bits a copy of the whole CCR reads (10_state.md R113). -/
  | ccrBits
  /-- `@ERr+` / `@-ERr` with a view of ERr as data register (40_data_transfer.md R419). -/
  | sameRegister
  /-- The result of DAA / DAS outside its table (41_arithmetic.md R518, R528). -/
  | adjustResult
  /-- N, Z, C, H and V of DAA / DAS where the rule draws them (41_arithmetic.md R518, R528). -/
  | adjustN
  | adjustZ
  | adjustC
  | adjustH
  | adjustV
  /-- The destination of DIVXU / DIVXS on a zero divisor or an overflow (41_arithmetic.md R544 to R547). -/
  | divResult
  /-- N of DIVXS where the rule draws it (41_arithmetic.md R546, R547). -/
  | divN
  /-- The answer of a device register read as data at this address (20_memory.md R211). -/
  | deviceRead (addr : Nat)
  /-- The answer of a device register read by instruction fetch at this address (20_memory.md R211). -/
  | deviceFetch (addr : Nat)
deriving DecidableEq, Repr

/-- A free value of `w` bits: the spec's `draw()` at a site in the step whose epoch is given. It has no body, so
a statement that holds of it holds of every value (92_eei_decisions.md D37). Log 5. -/
opaque Config.draw (w : Nat) (site : DrawSite) (epoch : Nat) : BitVec w

end Sys2Proof
end

