-- ==== Sys2Proof/Machine/State.lean ====
section
/-!
DEFINITION. The machine state as plain data (10_state.md), the reasons a step can stop (00_scope.md R10,
60_exceptions.md R1100, R1101) and the state right after reset (10_state.md R119).
-/

namespace Sys2Proof.Machine

/-- The reasons of an `Unmodelled` outcome (60_exceptions.md R1101). -/
inductive UnmodelledReason where
  /-- A read of a register view with an undefined byte (10_state.md R106). Raised by the driver port
  `getRegister` only (R107); a step reads the register's value instead and goes on. Log 1. -/
  | readOfUnwrittenRegister
  /-- A read of an undefined flag (10_state.md R113). Raised by the driver port `getFlag` only. Log 1. -/
  | readOfUnwrittenFlag
  /-- A taken control transfer, or a vector, to an odd address (10_state.md R110). -/
  | oddBranchTarget
  /-- A store into `[va, pc_next + 4)` (20_memory.md R214). -/
  | storeIntoPrefetchWindow
  /-- LDM.L with ER7 in its list (40_data_transfer.md R415). -/
  | ldmWithEr7
  /-- STM.L with ER7 in its list (40_data_transfer.md R416). -/
  | stmWithEr7
  /-- MOVFPE while `HAS_E_CLOCK` is false (40_data_transfer.md R413). -/
  | movfpe
  /-- MOVTPE while `HAS_E_CLOCK` is false (40_data_transfer.md R414). -/
  | movtpe
  /-- Exception entry with a return address of 2^24 or more, `ADDR_BITS` = 32 (60_exceptions.md R1112). -/
  | returnAddressBeyond24Bits
deriving DecidableEq, Repr

/-- The fault outcomes of a step and of the ports (60_exceptions.md R1100). Each stops the run, as the spec says;
the spec leaves the state after it unspecified (R1103), so a fault carries no state. -/
inductive Fault where
  /-- The host refused an access to the byte at `addr`. Raised by every memory access: fetch, operands, stack,
  table and vector reads. Safe: the spec's own outcome. -/
  | memoryAccess (addr : Nat)
  /-- No row matches the bytes at `va`; `bytes` is the window read. Raised by fetch and the decode port. Safe: the
  spec's own outcome (a real CPU's behaviour is undefined, 93_implementation_defined.md U1). -/
  | invalidInstruction (va : Nat) (bytes : List (BitVec 8))
  /-- The byte sequence at `va`, `present` bytes long, ends inside an instruction. Raised by the decode port; fetch
  turns it into `memoryAccess` (20_memory.md R210). Safe: the spec's own outcome. -/
  | truncatedInstruction (va : Nat) (present : Nat)
  /-- A case the spec gives no meaning. Raised by the instruction at `va` for the reason given. Safe: the model
  stops where the spec does. -/
  | unmodelled (reason : UnmodelledReason) (va : Nat)
deriving DecidableEq, Repr

/-- The reasons a step is refused. -/
inductive Refusal where
  /-- The instruction has no meaning in the model. Raised by no arm: every row of the table has its meaning.
  Safe: a refusal proves nothing about the hardware. -/
  | notModelled (mnemonic : String)
deriving DecidableEq, Repr

/-- One extended register: its 32 bits and the definedness of its four bytes, bit `k` for byte `k`, byte 0 the
least significant (10_state.md R100, R106). -/
structure Reg where
  val : BitVec 32
  dfn : BitVec 4
deriving DecidableEq, Repr

/-- One asserted interrupt request (60_exceptions.md R1120): a vector in 16 to 255 and a level 0 to 7. -/
structure IrqRequest where
  vector : BitVec 8
  level  : BitVec 3
deriving DecidableEq, Repr

/-- A range of addresses the host treats specially (20_memory.md R200, R208, R211): refused for reading or writing,
or a device whose reads the host answers. -/
structure Region where
  base     : Nat
  size     : Nat
  readable : Bool
  writable : Bool
  device   : Bool
deriving DecidableEq, Repr

/-- Memory: (address, byte) pairs, addresses strictly rising, no byte equal to what an unlisted address reads as.
Log 2. -/
abbrev Memory := List Host.Cell

/-- The machine state. Fields in the order of INVENTORY.md: registers (10_state.md R100 to R115), hidden state
(R117), memory (20_memory.md R201), the inputs the outside world sets between steps (60_exceptions.md R1120, R1121;
70_reset_and_hazards.md R1200; 20_memory.md R200), the parameters (00_scope.md R6), and the model's own fields. -/
structure State where
  /-- ER0 to ER7 with their definedness bits (R100, R106). -/
  er : Vector Reg 8
  /-- The program counter; while an instruction executes, its own address `va` (R108). -/
  pc : BitVec 32
  /-- The condition-code register (R111). -/
  ccr : BitVec 8
  /-- Which CCR bits are defined (R113). -/
  ccrDfn : BitVec 8
  /-- The extended control register (R114). -/
  exr : BitVec 8
  /-- The sleep state (R117, 60_exceptions.md R1140). -/
  sleeping : Bool
  /-- Interrupts are held off at the next boundary (R117, 70_reset_and_hazards.md R1210). -/
  irqHold : Bool
  /-- An NMI event not yet accepted (R117, 60_exceptions.md R1121). -/
  nmiPending : Bool
  /-- An EEPMOV.W is part-way through its bytes (R117, 40_data_transfer.md R418). -/
  eepmovActive : Bool
  /-- The fault record: once set it is never cleared by a step (R117, 00_scope.md R10). -/
  fault : Option Fault
  /-- The bytes of the one address space (20_memory.md R201). -/
  mem : Memory
  /-- Input: the asserted interrupt requests (60_exceptions.md R1120). -/
  irq : List IrqRequest
  /-- Input: the reset input (70_reset_and_hazards.md R1200, R1201). `some k`: it is asserted during the coming step, once
  `k` of that step's memory writes are completed, so `some 0` is a reset before it. Log 9. -/
  resetIn : Option Nat
  /-- Input: the host's permissions and devices (20_memory.md R200, R209, R211). -/
  hostMap : List Region
  /-- The implementation parameters, fixed for a run (00_scope.md R6). -/
  params : Params
  /-- The model's own: a run has just started, by the reset sequence or by the driver, so the next instruction has no
  boundary check before it (70_reset_and_hazards.md R1200, R1202). Log 8. -/
  fresh : Bool
  /-- The model's own: a trace exception is due at the next boundary (60_exceptions.md R1133). Log 8. -/
  traceDue : Bool
  /-- The model's own: the index at which this step's free values are read (92_eei_decisions.md D37). Log 5. -/
  epoch : Nat
deriving DecidableEq, Repr

/-- An extended register after reset: every byte undefined (10_state.md R106, R119). The value is the model's,
DESIGN CHOICE, log 1. -/
def Reg.reset : Reg := { val := 0, dfn := 0 }

/-- The machine right after reset (10_state.md R119, 70_reset_and_hazards.md R1200): CCR.I = 1, EXR = 0x7F, hidden
state false, no fault. The other registers and flags are undefined and hold the values log 1 names; memory lists
nothing, so the reset vector reads 0 and `pc` is 0 (log 2, log 3). -/
def State.reset : State :=
  { er := Vector.replicate 8 Reg.reset
    pc := 0
    ccr := 0x80
    ccrDfn := 0x80
    exr := 0x7F
    sleeping := false
    irqHold := false
    nmiPending := false
    eepmovActive := false
    fault := none
    mem := []
    irq := []
    resetIn := none
    hostMap := []
    params := Params.default
    fresh := true
    traceDue := false
    epoch := 0 }

end Sys2Proof.Machine
end

