-- ==== Sys2Proof/Machine/Flags.lean ====
section
/-!
DEFINITION. The CCR flags and every flag computation the spec gives: the adder and subtracter of
41_arithmetic.md R500 and R501, the shift step of 43_shift_rotate.md R701, the decimal-adjust tables of
41_arithmetic.md R518 and R528, and the branch conditions of 45_branch.md R900. All are functions of bit
patterns; the state is not used here.
-/

namespace Sys2Proof.Machine

/-- The flags of CCR (10_state.md R111). -/
inductive Flag where
  | i
  | ui
  | h
  | u
  | n
  | z
  | v
  | c
deriving DecidableEq, Repr

/-- The bit of CCR a flag is (10_state.md R111). -/
def Flag.bit : Flag → Nat
  | .i => 7
  | .ui => 6
  | .h => 5
  | .u => 4
  | .n => 3
  | .z => 2
  | .v => 1
  | .c => 0

/-- The five arithmetic flags a rule computes (00_scope.md R11). -/
structure Flags where
  h : Bool
  n : Bool
  z : Bool
  v : Bool
  c : Bool
deriving DecidableEq, Repr

/-- A result and its flags. -/
structure AluResult (w : Nat) where
  val : BitVec w
  flags : Flags
deriving DecidableEq, Repr

/-! ### Addition and subtraction -/

/-- `AddCore(w, a, b, cin)` (41_arithmetic.md R500). -/
def addCore {w : Nat} (a b : BitVec w) (cin : Bool) : AluResult w :=
  let s := a.toNat + b.toNat + cin.toNat
  let r := BitVec.ofNat w s
  { val := r
    flags :=
      { c := decide (2 ^ w ≤ s)
        h := decide (2 ^ (w - 4) ≤ a.toNat % 2 ^ (w - 4) + b.toNat % 2 ^ (w - 4) + cin.toNat)
        v := a.msb == b.msb && r.msb != a.msb
        n := r.msb
        z := r == 0 } }

/-- `SubCore(w, a, b, cin)`, `a - b - cin` (41_arithmetic.md R501). -/
def subCore {w : Nat} (a b : BitVec w) (cin : Bool) : AluResult w :=
  let r := BitVec.ofInt w ((a.toNat : Int) - b.toNat - cin.toNat)
  { val := r
    flags :=
      { c := decide (a.toNat < b.toNat + cin.toNat)
        h := decide (a.toNat % 2 ^ (w - 4) < b.toNat % 2 ^ (w - 4) + cin.toNat)
        v := a.msb != b.msb && r.msb != a.msb
        n := r.msb
        z := r == 0 } }

/-- Z of ADDX and SUBX: cleared when the result is nonzero, else kept (41_arithmetic.md R513, R523). -/
def AluResult.stickyZ {w : Nat} (r : AluResult w) (z : Bool) : AluResult w :=
  { r with flags := { r.flags with z := z && r.flags.z } }

/-! ### Shifts and rotates -/

/-- The eight shift and rotate operations (43_shift_rotate.md R702). -/
inductive ShiftOp where
  | shal
  | shll
  | shar
  | shlr
  | rotl
  | rotr
  | rotxl
  | rotxr
deriving DecidableEq, Repr

/-- The bit moved into the vacated position by one step, given the top bit, the low bit and the carry
(43_shift_rotate.md R701). -/
def ShiftOp.fill (op : ShiftOp) (msb lsb c : Bool) : Bool :=
  match op with
  | .shal | .shll | .shlr => false
  | .shar => msb
  | .rotl => msb
  | .rotr => lsb
  | .rotxl | .rotxr => c

/-- Whether a step moves bits toward the top. -/
def ShiftOp.left : ShiftOp → Bool
  | .shal | .shll | .rotl | .rotxl => true
  | .shar | .shlr | .rotr | .rotxr => false

/-- The value, carry and sign-change of a shift in progress (43_shift_rotate.md R700: `v`, `c`, `vf`). -/
structure ShiftState (w : Nat) where
  val : BitVec w
  c : Bool
  v : Bool
deriving DecidableEq, Repr

/-- `Step(op, w, v, c)` (43_shift_rotate.md R701), `vf` collecting `ov`. -/
def shiftStep {w : Nat} (op : ShiftOp) (s : ShiftState w) : ShiftState w :=
  let msb := s.val.msb
  let lsb := s.val.getLsbD 0
  let f := op.fill msb lsb s.c
  if op.left then
    let r := (s.val <<< 1) ||| (if f then 1#w else 0#w)
    { val := r, c := msb, v := s.v || (op == .shal && msb != r.msb) }
  else
    let r := (s.val >>> 1) ||| (if f then BitVec.twoPow w (w - 1) else 0#w)
    { val := r, c := lsb, v := s.v }

/-- `k` steps (43_shift_rotate.md R700). -/
def shiftSteps {w : Nat} (op : ShiftOp) : Nat → ShiftState w → ShiftState w
  | 0, s => s
  | k + 1, s => shiftSteps op k (shiftStep op s)

/-- The whole shift or rotate by `k` from a value and the old C; V is 0 but for SHAL, whose steps alone collect it
(43_shift_rotate.md R700). -/
def shiftCore {w : Nat} (op : ShiftOp) (k : Nat) (v : BitVec w) (c : Bool) : ShiftState w :=
  shiftSteps op k { val := v, c := c, v := false }

/-! ### Decimal adjust -/

/-- A row of a decimal-adjust table: C before, the range of the high digit, H before, the range of the low digit,
the adjustment, C after (41_arithmetic.md R518, R528). -/
structure AdjustRow where
  c : Bool
  hiMin : Nat
  hiMax : Nat
  h : Bool
  loMin : Nat
  loMax : Nat
  add : BitVec 8
  cAfter : Bool
deriving DecidableEq, Repr

/-- DAA's table (41_arithmetic.md R518). -/
def daaTable : List AdjustRow := [
  ⟨false, 0x0, 0x9, false, 0x0, 0x9, 0x00, false⟩,
  ⟨false, 0x0, 0x8, false, 0xA, 0xF, 0x06, false⟩,
  ⟨false, 0x0, 0x9, true,  0x0, 0x3, 0x06, false⟩,
  ⟨false, 0xA, 0xF, false, 0x0, 0x9, 0x60, true⟩,
  ⟨false, 0x9, 0xF, false, 0xA, 0xF, 0x66, true⟩,
  ⟨false, 0xA, 0xF, true,  0x0, 0x3, 0x66, true⟩,
  ⟨true,  0x0, 0x2, false, 0x0, 0x9, 0x60, true⟩,
  ⟨true,  0x0, 0x2, false, 0xA, 0xF, 0x66, true⟩,
  ⟨true,  0x0, 0x3, true,  0x0, 0x3, 0x66, true⟩]

/-- DAS's table (41_arithmetic.md R528). -/
def dasTable : List AdjustRow := [
  ⟨false, 0x0, 0x9, false, 0x0, 0x9, 0x00, false⟩,
  ⟨false, 0x0, 0x8, true,  0x6, 0xF, 0xFA, false⟩,
  ⟨true,  0x7, 0xF, false, 0x0, 0x9, 0xA0, true⟩,
  ⟨true,  0x6, 0xF, true,  0x6, 0xF, 0x9A, true⟩]

/-- The row matches (C, hi, H, lo). -/
def AdjustRow.accepts (r : AdjustRow) (c h : Bool) (b : BitVec 8) : Bool :=
  r.c == c && r.h == h &&
    (decide (r.hiMin ≤ b.toNat / 16) && decide (b.toNat / 16 ≤ r.hiMax)) &&
    (decide (r.loMin ≤ b.toNat % 16) && decide (b.toNat % 16 ≤ r.loMax))

/-- The row of a table that matches, if any. -/
def adjustRow? (table : List AdjustRow) (c h : Bool) (b : BitVec 8) : Option AdjustRow :=
  table.find? fun r => r.accepts c h b

/-! ### Branch conditions -/

/-- The sixteen condition fields (45_branch.md R900). -/
inductive Cond where
  | always
  | never
  | hi
  | ls
  | cc
  | cs
  | ne
  | eq
  | vc
  | vs
  | pl
  | mi
  | ge
  | lt
  | gt
  | le
deriving DecidableEq, Repr

/-- The predicate of a condition over N, Z, V and C (45_branch.md R900). -/
def Cond.holds (cond : Cond) (n z v c : Bool) : Bool :=
  match cond with
  | .always => true
  | .never => false
  | .hi => !(c || z)
  | .ls => c || z
  | .cc => !c
  | .cs => c
  | .ne => !z
  | .eq => z
  | .vc => !v
  | .vs => v
  | .pl => !n
  | .mi => n
  | .ge => !(n ^^ v)
  | .lt => n ^^ v
  | .gt => !(z || (n ^^ v))
  | .le => z || (n ^^ v)

end Sys2Proof.Machine
end

