-- ==== Sys2Proof/Machine/Memory.lean ====
section
/-!
DEFINITION. Memory as plain data (20_memory.md R200, R201): reading and writing one byte of a list of
(address, byte) pairs in its canonical form.
-/

namespace Sys2Proof.Machine

/-- What a byte nothing has written reads as. The spec leaves memory's contents to the host (20_memory.md R200);
DESIGN CHOICE 0x00, unsafe, log 2. -/
def Memory.unlisted : BitVec 8 := 0

/-- The byte at address `a`. -/
def Memory.get : Memory → Nat → BitVec 8
  | [], _ => Memory.unlisted
  | (k, v) :: m, a => if k = a then v else Memory.get m a

/-- Memory with the byte at address `a` replaced. An entry equal to what an unlisted address reads as is not kept,
so that equal memories are equal lists. -/
def Memory.set : Memory → Nat → BitVec 8 → Memory
  | [], a, v => if v = Memory.unlisted then [] else [(a, v)]
  | (k, x) :: m, a, v =>
    if a < k then
      if v = Memory.unlisted then (k, x) :: m else (a, v) :: (k, x) :: m
    else if a = k then
      if v = Memory.unlisted then m else (k, v) :: m
    else (k, x) :: Memory.set m a v

/-- The canonical form: addresses strictly rising, and no entry equal to what an unlisted address reads as. -/
abbrev Memory.wf (m : Memory) : Prop :=
  m.Pairwise (fun c d => c.1 < d.1) ∧ ∀ c ∈ m, c.2 ≠ Memory.unlisted

end Sys2Proof.Machine
end

