-- ==== Sys2Proof/Machine/Ops.lean ====
section
/-!
DEFINITION. The named operations over registers, flags, control registers and memory, and taking an exception and
returning from one (10_state.md, 20_memory.md, 60_exceptions.md R1112, R1113; 70_reset_and_hazards.md R1200).
-/

namespace Sys2Proof.Machine

/-- The outcome of an instruction's meaning. -/
abbrev Out := Host.Outcome State Fault Refusal

/-- The next state, or the fault the operation met first (60_exceptions.md R1103). -/
def Out.of : Except Fault State → Out
  | .ok s => .next s
  | .error f => .fault f

/-! ### Addresses and the program counter -/

/-- An address modulo `2^ADDR_BITS` (92_eei_decisions.md D3). -/
def State.addr (s : State) (a : Addr) : Addr := a &&& s.params.addrBits.mask

/-- The program counter set as it is given. -/
def State.setPc (s : State) (a : Addr) : State := { s with pc := a }

/-- `pc_next` of an instruction of `len` bytes at `pc` (10_state.md R108, R109). -/
def State.pcNext (s : State) (len : Nat) : Addr := s.addr (s.pc + BitVec.ofNat 32 len)

/-- `pc <- pc_next` (10_state.md R108). -/
def State.advance (s : State) (len : Nat) : State := s.setPc (s.pcNext len)

/-- An `Unmodelled` outcome at the instruction's own address (60_exceptions.md R1100). Where no instruction raises it, on
entering an interrupt, trace or reset or in a read by the driver, the record's `va` is the pc held there: DESIGN CHOICE,
log 26. -/
def State.unmodelled (s : State) (why : UnmodelledReason) : Fault := .unmodelled why s.pc.toNat

/-- `pc <- target`; a target that is odd is `Unmodelled` (10_state.md R110). For the vector of an interrupt, of trace or of
reset the record names the pc held before the entry: DESIGN CHOICE, log 26. -/
def State.jumpTo (s : State) (target : Addr) : Except Fault State :=
  if target.getLsbD 0 then .error (s.unmodelled .oddBranchTarget) else .ok (s.setPc target)

/-! ### General registers and their views -/

/-- ERn with its definedness bits (10_state.md R100, R103). -/
def State.reg (s : State) (n : BitVec 3) : Reg := s.er[n.toNat]'n.isLt

/-- ERn replaced. -/
def State.setReg (s : State) (n : BitVec 3) (r : Reg) : State := { s with er := s.er.set n.toNat r n.isLt }

/-- The extended register a 4-bit byte or word register field is a view of (10_state.md R101, R102). -/
def ern (n : BitVec 4) : BitVec 3 := n.extractLsb' 0 3

/-- `R8[n]` (10_state.md R101): fields 0 to 7 are RnH, bits 15:8; fields 8 to 15 are RnL, bits 7:0. -/
def State.readB (s : State) (n : BitVec 4) : Byte :=
  if n.msb then (s.reg (ern n)).val.extractLsb' 0 8 else (s.reg (ern n)).val.extractLsb' 8 8

/-- `R8[n] <- v` (10_state.md R101, R104): only those 8 bits change, and they become defined (R106). -/
def State.writeB (s : State) (n : BitVec 4) (v : Byte) : State :=
  let r := s.reg (ern n)
  s.setReg (ern n) <|
    if n.msb then
      { val := r.val.extractLsb' 8 24 ++ v, dfn := r.dfn ||| 0b0001 }
    else
      { val := r.val.extractLsb' 16 16 ++ v ++ r.val.extractLsb' 0 8, dfn := r.dfn ||| 0b0010 }

/-- `R16[n]` (10_state.md R102): fields 0 to 7 are Rn, bits 15:0; fields 8 to 15 are En, bits 31:16. -/
def State.readW (s : State) (n : BitVec 4) : Word :=
  if n.msb then (s.reg (ern n)).val.extractLsb' 16 16 else (s.reg (ern n)).val.extractLsb' 0 16

/-- `R16[n] <- v` (10_state.md R102, R104, R106). -/
def State.writeW (s : State) (n : BitVec 4) (v : Word) : State :=
  let r := s.reg (ern n)
  s.setReg (ern n) <|
    if n.msb then
      { val := v ++ r.val.extractLsb' 0 16, dfn := r.dfn ||| 0b1100 }
    else
      { val := r.val.extractLsb' 16 16 ++ v, dfn := r.dfn ||| 0b0011 }

/-- `R32[n]` (10_state.md R103). -/
def State.readL (s : State) (n : BitVec 3) : Long := (s.reg n).val

/-- `R32[n] <- v` (10_state.md R103, R106). -/
def State.writeL (s : State) (n : BitVec 3) (v : Long) : State := s.setReg n { val := v, dfn := 0b1111 }

/-- ER7, the stack pointer SP (10_state.md R105). -/
def sp : BitVec 3 := 7

/-! ### CCR and EXR -/

/-- `CCR.X` (10_state.md R111). -/
def State.flag (s : State) (f : Flag) : Bool := s.ccr.getLsbD f.bit

/-- A byte with one bit replaced. -/
def putBit (b : Byte) (k : Nat) (x : Bool) : Byte :=
  (b &&& ~~~(BitVec.twoPow 8 k)) ||| (if x then BitVec.twoPow 8 k else 0)

/-- `CCR.X <- e` (00_scope.md R11); the flag becomes defined (10_state.md R113). -/
def State.setFlag (s : State) (f : Flag) (x : Bool) : State :=
  { s with ccr := putBit s.ccr f.bit x, ccrDfn := putBit s.ccrDfn f.bit true }

/-- N and Z written. -/
def State.setNZ (s : State) (n z : Bool) : State := (s.setFlag .n n).setFlag .z z

/-- N, Z and V written; H and C unchanged. -/
def State.setNZV (s : State) (n z v : Bool) : State := (s.setNZ n z).setFlag .v v

/-- H, N, Z, V and C written (41_arithmetic.md R500, R501). -/
def State.setFlags (s : State) (f : Flags) : State := ((s.setNZV f.n f.z f.v).setFlag .h f.h).setFlag .c f.c

/-- `MovFlags(w, v)` and `LogicFlags(w, r)`: N and Z from the value, V <- 0, H and C unchanged
(40_data_transfer.md R400, 42_logic.md R600). -/
def State.setNZ0 {w : Nat} (s : State) (v : BitVec w) : State := s.setNZV v.msb (v == 0) false

/-- The whole CCR as a copy reads it: a defined bit as it is, an undefined bit a draw (10_state.md R113). -/
def State.ccrImage (s : State) : Byte :=
  (s.ccr &&& s.ccrDfn) ||| (Config.draw 8 .ccrBits s.epoch &&& ~~~s.ccrDfn)

/-- The whole CCR written: every bit becomes defined (10_state.md R112, R113). -/
def State.writeCcr (s : State) (v : Byte) : State := { s with ccr := v, ccrDfn := 0xFF }

/-- What a write stores in EXR: bits 6:3 read as 1 and ignore writes (10_state.md R114). -/
def exrStored (v : Byte) : Byte := (v &&& 0x87) ||| 0x78

/-- EXR written (10_state.md R114). -/
def State.writeExr (s : State) (v : Byte) : State := { s with exr := exrStored v }

/-- `EXR.T` (10_state.md R114). -/
def State.traceBit (s : State) : Bool := s.exr.getLsbD 7

/-- `EXR[2:0]`, the interrupt mask level (10_state.md R114). -/
def State.maskLevel (s : State) : BitVec 3 := s.exr.extractLsb' 0 3

/-- The interrupt shadow of a control-register write: `irqHold <- true` (46_system_control.md R1000); with
`IRQ_SHADOW` false it is never set (70_reset_and_hazards.md R1210). -/
def State.shadow (s : State) : State := { s with irqHold := s.irqHold || s.params.irqShadow }

/-! ### The memory port -/

/-- The host's entry for an address, if it treats the address specially. -/
def State.region? (s : State) (a : Nat) : Option Region :=
  s.hostMap.find? fun r => decide (r.base ≤ a) && decide (a < r.base + r.size)

/-- The host answers a read of the byte at `a` (20_memory.md R200, R209). -/
def State.canRead (s : State) (a : Nat) : Bool :=
  match s.region? a with
  | some r => r.readable
  | none => true

/-- The host takes a write of the byte at `a` (20_memory.md R200, R209). -/
def State.canWrite (s : State) (a : Nat) : Bool :=
  match s.region? a with
  | some r => r.writable
  | none => true

/-- The byte at `a` belongs to a device (20_memory.md R211, 93_implementation_defined.md U22). -/
def State.isDevice (s : State) (a : Nat) : Bool :=
  match s.region? a with
  | some r => r.device
  | none => false

/-- The byte a permitted read of `a` answers: memory's, or a device's, a draw (20_memory.md R211). -/
def State.byteAt (s : State) (a : Addr) : Byte :=
  if s.isDevice a.toNat then Config.draw 8 (.deviceRead a.toNat) s.epoch else s.mem.get a.toNat

/-- One byte read through the port (20_memory.md R202). -/
def State.readByte (s : State) (a : Addr) : Except Fault Byte :=
  if s.canRead a.toNat then .ok (s.byteAt a) else .error (.memoryAccess a.toNat)

/-- Memory replaced. -/
def State.setMem (s : State) (m : Memory) : State := { s with mem := m }

/-- One byte written through the port (20_memory.md R203). What a device makes of a write is the host's; its
later reads are draws, so nothing is stored. -/
def State.writeByte (s : State) (a : Addr) (v : Byte) : Except Fault State :=
  if s.canWrite a.toNat then
    .ok (if s.isDevice a.toNat then s else s.setMem (s.mem.set a.toNat v))
  else .error (.memoryAccess a.toNat)

/-- The address of a word or long access: modulo `2^ADDR_BITS`, bit 0 ignored (20_memory.md R202, R205). -/
def State.evenAddr (s : State) (a : Addr) : Addr := s.addr a &&& ~~~1#32

/-- The address `i` bytes after `a`, modulo `2^ADDR_BITS` (20_memory.md R202). -/
def State.offset (s : State) (a : Addr) (i : Nat) : Addr := s.addr (a + BitVec.ofNat 32 i)

/-- `MemRead(a, 1)` (20_memory.md R202). -/
def State.read8 (s : State) (a : Addr) : Except Fault Byte := s.readByte (s.addr a)

/-- `MemRead(a, 2)`, big-endian (20_memory.md R202, R204). -/
def State.read16 (s : State) (a : Addr) : Except Fault Word := do
  let b0 ← s.readByte (s.evenAddr a)
  let b1 ← s.readByte (s.offset (s.evenAddr a) 1)
  pure (b0 ++ b1)

/-- `MemRead(a, 4)`, big-endian (20_memory.md R202, R204). -/
def State.read32 (s : State) (a : Addr) : Except Fault Long := do
  let b0 ← s.readByte (s.evenAddr a)
  let b1 ← s.readByte (s.offset (s.evenAddr a) 1)
  let b2 ← s.readByte (s.offset (s.evenAddr a) 2)
  let b3 ← s.readByte (s.offset (s.evenAddr a) 3)
  pure (b0 ++ b1 ++ b2 ++ b3)

/-- The byte at `a` is in `[va, pc_next + 4)`, `len` the length of the storing instruction at `pc`
(20_memory.md R214). -/
def State.inPrefetch (s : State) (len : Nat) (a : Addr) : Bool :=
  decide ((s.addr (a - s.pc)).toNat < len + 4)

/-- A store by an instruction into its own bytes or the four after them is `Unmodelled` (20_memory.md R214).
`by_` is the length of the storing instruction, none for the stack frame of an interrupt or of trace, which no
instruction stores. Log 12. -/
def State.guardStore (s : State) (by_ : Option Nat) (addrs : List Addr) : Except Fault Unit :=
  match by_ with
  | none => .ok ()
  | some len =>
    if addrs.any fun a => s.inPrefetch len a then .error (s.unmodelled .storeIntoPrefetchWindow) else .ok ()

/-- `MemWrite(a, 1, v)` (20_memory.md R203). -/
def State.write8 (s : State) (by_ : Option Nat) (a : Addr) (v : Byte) : Except Fault State := do
  s.guardStore by_ [s.addr a]
  s.writeByte (s.addr a) v

/-- `MemWrite(a, 2, v)`, big-endian (20_memory.md R203, R204). -/
def State.write16 (s : State) (by_ : Option Nat) (a : Addr) (v : Word) : Except Fault State := do
  s.guardStore by_ [s.evenAddr a, s.offset (s.evenAddr a) 1]
  let s1 ← s.writeByte (s.evenAddr a) (v.extractLsb' 8 8)
  s1.writeByte (s.offset (s.evenAddr a) 1) (v.extractLsb' 0 8)

/-- `MemWrite(a, 4, v)`, big-endian (20_memory.md R203, R204). -/
def State.write32 (s : State) (by_ : Option Nat) (a : Addr) (v : Long) : Except Fault State := do
  s.guardStore by_ [s.evenAddr a, s.offset (s.evenAddr a) 1, s.offset (s.evenAddr a) 2, s.offset (s.evenAddr a) 3]
  let s1 ← s.writeByte (s.evenAddr a) (v.extractLsb' 24 8)
  let s2 ← s1.writeByte (s.offset (s.evenAddr a) 1) (v.extractLsb' 16 8)
  let s3 ← s2.writeByte (s.offset (s.evenAddr a) 2) (v.extractLsb' 8 8)
  s3.writeByte (s.offset (s.evenAddr a) 3) (v.extractLsb' 0 8)

/-! ### The stack -/

/-- A long pushed: the store at `SP - 4` first, then ER7 (45_branch.md R903, 60_exceptions.md R1112). -/
def State.push32 (s : State) (by_ : Option Nat) (v : Long) : Except Fault State := do
  let t ← s.write32 by_ (s.readL sp - 4) v
  pure (t.writeL sp (s.readL sp - 4))

/-- A word pushed (60_exceptions.md R1112). -/
def State.push16 (s : State) (by_ : Option Nat) (v : Word) : Except Fault State := do
  let t ← s.write16 by_ (s.readL sp - 2) v
  pure (t.writeL sp (s.readL sp - 2))

/-- A long popped: its value, and the state with ER7 moved (45_branch.md R903). -/
def State.pop32 (s : State) : Except Fault (Long × State) := do
  let v ← s.read32 (s.readL sp)
  pure (v, s.writeL sp (s.readL sp + 4))

/-- A word popped (46_system_control.md R1011). -/
def State.pop16 (s : State) : Except Fault (Word × State) := do
  let v ← s.read16 (s.readL sp)
  pure (v, s.writeL sp (s.readL sp + 2))

/-- The long a call pushes (45_branch.md R903): `callPad`, a draw, above the 24-bit return address; with
`ADDR_BITS` = 32 the return address itself. -/
def State.callFrame (s : State) (ret : Addr) : Long :=
  match s.params.addrBits with
  | .bits24 => Config.draw 8 .callPad s.epoch ++ ret.extractLsb' 0 24
  | .bits32 => ret

/-! ### Taking an exception and returning from one -/

/-- The handler address of a vector: the entry at `4 * vector` modulo `2^ADDR_BITS` (60_exceptions.md R1110). -/
def State.vectorEntry (s : State) (vector : Nat) : Except Fault Addr := do
  let h ← s.read32 (BitVec.ofNat 32 (4 * vector))
  pure (s.addr h)

/-- Asleep and mid-EEPMOV.W states left (60_exceptions.md R1112). -/
def State.awake (s : State) : State := { s with sleeping := false, eepmovActive := false }

/-- The part of `ExceptionEntry` between the saved frame and the vector fetch (60_exceptions.md R1112): I set;
under `INTM` = 2, T cleared and the mask level set when one is given; asleep and EEPMOV.W states left. -/
def State.enterHandler (s : State) (level : Option (BitVec 3)) : State :=
  let s1 := s.setFlag .i true
  let s2 :=
    match s.params.intm with
    | .mode0 => s1
    | .mode2 =>
      match level with
      | none => s1.writeExr (s1.exr &&& 0x7F)
      | some l => s1.writeExr ((s1.exr &&& 0x78) ||| l.zeroExtend 8)
  s2.awake

/-- The frame of `ExceptionEntry` (60_exceptions.md R1112): the long of the CCR image and the return address's
low 24 bits, and under `INTM` = 2 below it the word of EXR and a pad, a draw. -/
def State.pushFrame (s : State) (by_ : Option Nat) (ret : Addr) : Except Fault State := do
  let s1 ← s.push32 by_ (s.ccrImage ++ ret.extractLsb' 0 24)
  match s.params.intm with
  | .mode0 => pure s1
  | .mode2 => s1.push16 by_ (s1.exr ++ Config.draw 8 .exrPad s.epoch)

/-- `ExceptionEntry(vector, ret, level)` (60_exceptions.md R1112). `by_` is the length of the trapping instruction
when an instruction stores the frame (TRAPA), none otherwise. -/
def State.exceptionEntry (s : State) (by_ : Option Nat) (vector : Nat) (ret : Addr) (level : Option (BitVec 3)) :
    Except Fault State :=
  if s.params.addrBits = .bits32 ∧ 2 ^ 24 ≤ ret.toNat then .error (s.unmodelled .returnAddressBeyond24Bits)
  else do
    let s1 ← s.pushFrame by_ ret
    let s2 := s1.enterHandler level
    let h ← s2.vectorEntry vector
    s2.jumpTo h

/-- EXR popped under `INTM` = 2, reserved bits 1 (46_system_control.md R1011). -/
def State.popExr (s : State) : Except Fault State :=
  match s.params.intm with
  | .mode0 => .ok s
  | .mode2 =>
    match s.pop16 with
    | .error f => .error f
    | .ok (w, t) => .ok (t.writeExr (w.extractLsb' 8 8))

/-- What RTE restores (46_system_control.md R1011, 60_exceptions.md R1113): EXR first under `INTM` = 2, then the
whole CCR and the 24-bit PC. `irqHold` is not set. -/
def State.exceptionReturn (s : State) : Except Fault State := do
  let s1 ← s.popExr
  let (v, s2) ← s1.pop32
  (s2.writeCcr (v.extractLsb' 24 8)).jumpTo ((v.extractLsb' 0 24).zeroExtend 32)

/-- The state the reset sequence leaves before it fetches its vector (70_reset_and_hazards.md R1200): registers,
CCR, EXR and hidden state at their reset values, memory and inputs as they are. The fault record is cleared: a
reset starts a new run. Log 9. -/
def State.resetState (s : State) : State :=
  { s with
    er := State.reset.er
    ccr := State.reset.ccr
    ccrDfn := State.reset.ccrDfn
    exr := State.reset.exr
    sleeping := false
    irqHold := false
    nmiPending := false
    eepmovActive := false
    fault := none
    resetIn := none
    fresh := true
    traceDue := false }

/-- The reset sequence (70_reset_and_hazards.md R1200, R1201): stacks nothing, leaves memory unchanged, takes PC
from vector 0. The record of an odd reset vector names the pc held before the reset: DESIGN CHOICE, log 26. -/
def State.resetSequence (s : State) : Except Fault State := do
  let h ← s.resetState.vectorEntry 0
  s.resetState.jumpTo h

end Sys2Proof.Machine
end

