-- ==== Sys2Proof/Machine/Boundary.lean ====
section
/-!
DEFINITION. The boundary between instructions (60_exceptions.md R1120 to R1133, R1140): what is due, the choice
among interrupt requests, and entering the exception that is due.
-/

namespace Sys2Proof.Machine

/-- A request the mask lets through: a vector of 16 to 255 (60_exceptions.md R1110, R1120), and CCR.I clear under
`INTM` = 0 or a level above EXR[2:0] under `INTM` = 2 (R1122). Log 18. -/
def State.acceptable (s : State) (r : IrqRequest) : Bool :=
  decide (16 ≤ r.vector.toNat) &&
    match s.params.intm with
    | .mode0 => !s.flag .i
    | .mode2 => decide (s.maskLevel.toNat < r.level.toNat)

/-- The request served first of two: the lowest vector; under `INTM` = 2 the highest level before that
(60_exceptions.md R1122). -/
def State.preferred (s : State) (a b : IrqRequest) : IrqRequest :=
  match s.params.intm with
  | .mode0 => if b.vector.toNat < a.vector.toNat then b else a
  | .mode2 =>
    if a.level.toNat < b.level.toNat then b
    else if b.level.toNat < a.level.toNat then a
    else if b.vector.toNat < a.vector.toNat then b else a

/-- The acceptable request served first, if any (60_exceptions.md R1122, R1130). -/
def State.chosenIrq (s : State) : Option IrqRequest :=
  (s.irq.filter s.acceptable).foldl
    (fun best r =>
      match best with
      | none => some r
      | some b => some (s.preferred b r)) none

/-- What a boundary decides (60_exceptions.md R1130). -/
inductive Due where
  | reset
  | trace
  | nmi
  | irq (r : IrqRequest)
  | asleep
  | run
deriving DecidableEq, Repr

/-- What happens where no exception is entered: the CPU stays asleep or runs (60_exceptions.md R1130, R1140). -/
def State.quiet (s : State) : Due := if s.sleeping then .asleep else .run

/-- The boundary check in its order: reset, trace, the interrupt shadow, NMI, IRQ (60_exceptions.md R1130). The
first instruction of a run has no check before it (70_reset_and_hazards.md R1200, R1202). Log 8. -/
def State.due (s : State) : Due :=
  if s.resetIn.isSome then .reset
  else if s.fresh && !s.sleeping then .run
  else if s.traceDue then .trace
  else if s.irqHold then s.quiet
  else if s.nmiPending then .nmi
  else
    match s.chosenIrq with
    | some r => .irq r
    | none => s.quiet

/-- The bookkeeping after an event or an instruction: whether trace is due at the next boundary, and a new index
for free values. Logs 5, 8. -/
def State.close (s : State) (trace : Bool) : State := { s with traceDue := trace, epoch := s.epoch + 1 }

/-- The state an instruction starts from: the shadow has held this boundary and is over, the first instruction of
the run is under way (60_exceptions.md R1130 step 3; 70_reset_and_hazards.md R1210). -/
def State.opened (s : State) : State := { s with irqHold := false, fresh := false, traceDue := false }

/-- The NMI taken note of (60_exceptions.md R1121). -/
def State.clearNmi (s : State) : State := { s with nmiPending := false }

/-- An exception entered at a boundary, by no instruction, returning to `pc` (60_exceptions.md R1112, R1130,
R1131). -/
def State.enter (s : State) (vector : Nat) (level : Option (BitVec 3)) : Except Fault State :=
  match s.exceptionEntry none vector s.pc level with
  | .error f => .error f
  | .ok t => .ok (t.close false)

/-- The reset sequence as a step, over the memory `s` has (70_reset_and_hazards.md R1200). -/
def State.enterReset (s : State) : Except Fault State :=
  match s.resetSequence with
  | .error f => .error f
  | .ok t => .ok (t.close false)

/-- The NMI accepted: vector 7 at level 7 (60_exceptions.md R1110, R1112, R1130). -/
def State.enterNmi (s : State) : Except Fault State :=
  match s.enter 7 (some 7) with
  | .error f => .error f
  | .ok t => .ok t.clearNmi

/-- A step while asleep with nothing acceptable: only the shadow is over (60_exceptions.md R1130, R1140). -/
def State.stayAsleep (s : State) : State := { s with irqHold := false }

end Sys2Proof.Machine
end

