-- ==== Sys2Proof/Syntax.lean ====
section
/-!
DEFINITION. The instructions, in the order of spec/opcode_table.json (30_encoding.md R331). Every row of the table
is a constructor, or a constructor at one addressing mode: the rows of one rule that differ only in the memory
operand (`@ERr`, `@(d:16,ERr)`, ...) share a constructor that carries the mode. (Lean's runtime allows a type 244
constructors with fields; the table has 349 rows. Log 25.)

A field has the width its row gives it (30_encoding.md R302): `rs`, `rd`, `rn` are byte or word register fields
(4 bits) or long register fields (3 bits), `ra` an address register, `imm` an immediate, `disp` a displacement, `aa`
an absolute address, `bit` a bit number, `tn` a trap number. The comment of a constructor is its rows: mnemonic,
operands, rule.
-/

namespace Sys2Proof

/-- A memory operand of a data transfer: the addressing modes of 30_encoding.md R311 to R317. -/
inductive Mode where
  /-- `@ERr` (R311) -/
  | ind (ra : BitVec 3)
  /-- `@(d:16,ERr)` (R312) -/
  | disp16 (disp : BitVec 16) (ra : BitVec 3)
  /-- `@(d:32,ERr)` (R312) -/
  | disp32 (disp : BitVec 32) (ra : BitVec 3)
  /-- `@ERr+`, loads only (R317) -/
  | inc (ra : BitVec 3)
  /-- `@-ERr`, stores only (R317) -/
  | dec (ra : BitVec 3)
  /-- `@aa:8`, byte transfers only (R313) -/
  | abs8 (aa : BitVec 8)
  /-- `@aa:16` (R314) -/
  | abs16 (aa : BitVec 16)
  /-- `@aa:32` (R315) -/
  | abs32 (aa : BitVec 32)
deriving DecidableEq, Repr

/-- The target byte of a bit instruction: the five target forms of 44_bit_manipulation.md R802. -/
inductive BitTarget where
  /-- `Rd8` -/
  | reg (rd : BitVec 4)
  /-- `@ERd` -/
  | ind (ra : BitVec 3)
  /-- `@aa:8` -/
  | abs8 (aa : BitVec 8)
  /-- `@aa:16` -/
  | abs16 (aa : BitVec 16)
  /-- `@aa:32` -/
  | abs32 (aa : BitVec 32)
deriving DecidableEq, Repr

/-- An instruction of the block. -/
inductive Instr where
  -- 46_system_control.md
  | nop  -- nop (R1023)
  -- 40_data_transfer.md
  | movBReg (rs : BitVec 4) (rd : BitVec 4)  -- mov.b Rs8, Rd8 (R401)
  | movWReg (rs : BitVec 4) (rd : BitVec 4)  -- mov.w Rs16, Rd16 (R402)
  | movLReg (rs : BitVec 3) (rd : BitVec 3)  -- mov.l ERs, ERd (R403)
  | movBImm (imm : BitVec 8) (rd : BitVec 4)  -- mov.b #xx:8, Rd8 (R404)
  | movWImm (imm : BitVec 16) (rd : BitVec 4)  -- mov.w #xx:16, Rd16 (R405)
  | movLImm (imm : BitVec 32) (rd : BitVec 3)  -- mov.l #xx:32, ERd (R406)
  | movBLoad (mem : Mode) (rd : BitVec 4)  -- mov.b with Rd8: 7 rows (R407)
  | movBStore (rs : BitVec 4) (mem : Mode)  -- mov.b with Rs8: 7 rows (R410)
  | movWLoad (mem : Mode) (rd : BitVec 4)  -- mov.w with Rd16: 6 rows (R408)
  | movWStore (rs : BitVec 4) (mem : Mode)  -- mov.w with Rs16: 6 rows (R411)
  | movLLoad (mem : Mode) (rd : BitVec 3)  -- mov.l with ERd: 6 rows (R409)
  | movLStore (rs : BitVec 3) (mem : Mode)  -- mov.l with ERs: 6 rows (R412)
  | movfpe (aa : BitVec 16) (rd : BitVec 4)  -- movfpe @aa:16, Rd8 (R413)
  | movtpe (rs : BitVec 4) (aa : BitVec 16)  -- movtpe Rs8, @aa:16 (R414)
  | ldm2 (rd : BitVec 3)  -- ldm.l @ER7+, (ER(d-1)-ERd) (R415)
  | stm2 (rs : BitVec 3)  -- stm.l (ERs-ER(s+1)), @-ER7 (R416)
  | ldm3 (rd : BitVec 3)  -- ldm.l @ER7+, (ER(d-2)-ERd) (R415)
  | stm3 (rs : BitVec 3)  -- stm.l (ERs-ER(s+2)), @-ER7 (R416)
  | ldm4 (rd : BitVec 3)  -- ldm.l @ER7+, (ER(d-3)-ERd) (R415)
  | stm4 (rs : BitVec 3)  -- stm.l (ERs-ER(s+3)), @-ER7 (R416)
  | eepmovB  -- eepmov.b (R417)
  | eepmovW  -- eepmov.w (R418)
  -- 41_arithmetic.md
  | addBImm (imm : BitVec 8) (rd : BitVec 4)  -- add.b #xx:8, Rd8 (R510)
  | addBReg (rs : BitVec 4) (rd : BitVec 4)  -- add.b Rs8, Rd8 (R510)
  | addWImm (imm : BitVec 16) (rd : BitVec 4)  -- add.w #xx:16, Rd16 (R511)
  | addWReg (rs : BitVec 4) (rd : BitVec 4)  -- add.w Rs16, Rd16 (R511)
  | addLImm (imm : BitVec 32) (rd : BitVec 3)  -- add.l #xx:32, ERd (R512)
  | addLReg (rs : BitVec 3) (rd : BitVec 3)  -- add.l ERs, ERd (R512)
  | addxImm (imm : BitVec 8) (rd : BitVec 4)  -- addx #xx:8, Rd8 (R513)
  | addxReg (rs : BitVec 4) (rd : BitVec 4)  -- addx Rs8, Rd8 (R513)
  | adds1 (rd : BitVec 3)  -- adds #1, ERd (R514)
  | adds2 (rd : BitVec 3)  -- adds #2, ERd (R514)
  | adds4 (rd : BitVec 3)  -- adds #4, ERd (R514)
  | incB (rd : BitVec 4)  -- inc.b Rd8 (R515)
  | incW1 (rd : BitVec 4)  -- inc.w #1, Rd16 (R516)
  | incW2 (rd : BitVec 4)  -- inc.w #2, Rd16 (R516)
  | incL1 (rd : BitVec 3)  -- inc.l #1, ERd (R517)
  | incL2 (rd : BitVec 3)  -- inc.l #2, ERd (R517)
  | daa (rd : BitVec 4)  -- daa Rd8 (R518)
  | subBReg (rs : BitVec 4) (rd : BitVec 4)  -- sub.b Rs8, Rd8 (R520)
  | subWImm (imm : BitVec 16) (rd : BitVec 4)  -- sub.w #xx:16, Rd16 (R521)
  | subWReg (rs : BitVec 4) (rd : BitVec 4)  -- sub.w Rs16, Rd16 (R521)
  | subLImm (imm : BitVec 32) (rd : BitVec 3)  -- sub.l #xx:32, ERd (R522)
  | subLReg (rs : BitVec 3) (rd : BitVec 3)  -- sub.l ERs, ERd (R522)
  | subxImm (imm : BitVec 8) (rd : BitVec 4)  -- subx #xx:8, Rd8 (R523)
  | subxReg (rs : BitVec 4) (rd : BitVec 4)  -- subx Rs8, Rd8 (R523)
  | subs1 (rd : BitVec 3)  -- subs #1, ERd (R524)
  | subs2 (rd : BitVec 3)  -- subs #2, ERd (R524)
  | subs4 (rd : BitVec 3)  -- subs #4, ERd (R524)
  | decB (rd : BitVec 4)  -- dec.b Rd8 (R525)
  | decW1 (rd : BitVec 4)  -- dec.w #1, Rd16 (R526)
  | decW2 (rd : BitVec 4)  -- dec.w #2, Rd16 (R526)
  | decL1 (rd : BitVec 3)  -- dec.l #1, ERd (R527)
  | decL2 (rd : BitVec 3)  -- dec.l #2, ERd (R527)
  | das (rd : BitVec 4)  -- das Rd8 (R528)
  | cmpBImm (imm : BitVec 8) (rd : BitVec 4)  -- cmp.b #xx:8, Rd8 (R530)
  | cmpBReg (rs : BitVec 4) (rd : BitVec 4)  -- cmp.b Rs8, Rd8 (R530)
  | cmpWImm (imm : BitVec 16) (rd : BitVec 4)  -- cmp.w #xx:16, Rd16 (R531)
  | cmpWReg (rs : BitVec 4) (rd : BitVec 4)  -- cmp.w Rs16, Rd16 (R531)
  | cmpLImm (imm : BitVec 32) (rd : BitVec 3)  -- cmp.l #xx:32, ERd (R532)
  | cmpLReg (rs : BitVec 3) (rd : BitVec 3)  -- cmp.l ERs, ERd (R532)
  | negB (rd : BitVec 4)  -- neg.b Rd8 (R533)
  | negW (rd : BitVec 4)  -- neg.w Rd16 (R534)
  | negL (rd : BitVec 3)  -- neg.l ERd (R535)
  | extuW (rd : BitVec 4)  -- extu.w Rd16 (R536)
  | extuL (rd : BitVec 3)  -- extu.l ERd (R537)
  | extsW (rd : BitVec 4)  -- exts.w Rd16 (R538)
  | extsL (rd : BitVec 3)  -- exts.l ERd (R539)
  | mulxuB (rs : BitVec 4) (rd : BitVec 4)  -- mulxu.b Rs8, Rd16 (R540)
  | mulxuW (rs : BitVec 4) (rd : BitVec 3)  -- mulxu.w Rs16, ERd (R541)
  | mulxsB (rs : BitVec 4) (rd : BitVec 4)  -- mulxs.b Rs8, Rd16 (R542)
  | mulxsW (rs : BitVec 4) (rd : BitVec 3)  -- mulxs.w Rs16, ERd (R543)
  | divxuB (rs : BitVec 4) (rd : BitVec 4)  -- divxu.b Rs8, Rd16 (R544)
  | divxuW (rs : BitVec 4) (rd : BitVec 3)  -- divxu.w Rs16, ERd (R545)
  | divxsB (rs : BitVec 4) (rd : BitVec 4)  -- divxs.b Rs8, Rd16 (R546)
  | divxsW (rs : BitVec 4) (rd : BitVec 3)  -- divxs.w Rs16, ERd (R547)
  | tas (ra : BitVec 3)  -- tas @ERr (R548)
  -- 42_logic.md
  | andBImm (imm : BitVec 8) (rd : BitVec 4)  -- and.b #xx:8, Rd8 (R601)
  | andBReg (rs : BitVec 4) (rd : BitVec 4)  -- and.b Rs8, Rd8 (R601)
  | andWImm (imm : BitVec 16) (rd : BitVec 4)  -- and.w #xx:16, Rd16 (R602)
  | andWReg (rs : BitVec 4) (rd : BitVec 4)  -- and.w Rs16, Rd16 (R602)
  | andLImm (imm : BitVec 32) (rd : BitVec 3)  -- and.l #xx:32, ERd (R603)
  | andLReg (rs : BitVec 3) (rd : BitVec 3)  -- and.l ERs, ERd (R603)
  | orBImm (imm : BitVec 8) (rd : BitVec 4)  -- or.b #xx:8, Rd8 (R604)
  | orBReg (rs : BitVec 4) (rd : BitVec 4)  -- or.b Rs8, Rd8 (R604)
  | orWImm (imm : BitVec 16) (rd : BitVec 4)  -- or.w #xx:16, Rd16 (R605)
  | orWReg (rs : BitVec 4) (rd : BitVec 4)  -- or.w Rs16, Rd16 (R605)
  | orLImm (imm : BitVec 32) (rd : BitVec 3)  -- or.l #xx:32, ERd (R606)
  | orLReg (rs : BitVec 3) (rd : BitVec 3)  -- or.l ERs, ERd (R606)
  | xorBImm (imm : BitVec 8) (rd : BitVec 4)  -- xor.b #xx:8, Rd8 (R607)
  | xorBReg (rs : BitVec 4) (rd : BitVec 4)  -- xor.b Rs8, Rd8 (R607)
  | xorWImm (imm : BitVec 16) (rd : BitVec 4)  -- xor.w #xx:16, Rd16 (R608)
  | xorWReg (rs : BitVec 4) (rd : BitVec 4)  -- xor.w Rs16, Rd16 (R608)
  | xorLImm (imm : BitVec 32) (rd : BitVec 3)  -- xor.l #xx:32, ERd (R609)
  | xorLReg (rs : BitVec 3) (rd : BitVec 3)  -- xor.l ERs, ERd (R609)
  | notB (rd : BitVec 4)  -- not.b Rd8 (R610)
  | notW (rd : BitVec 4)  -- not.w Rd16 (R611)
  | notL (rd : BitVec 3)  -- not.l ERd (R612)
  -- 43_shift_rotate.md
  | shllB (rd : BitVec 4)  -- shll.b Rd8 (R712)
  | shllW (rd : BitVec 4)  -- shll.w Rd16 (R712)
  | shllL (rd : BitVec 3)  -- shll.l ERd (R712)
  | shllB2 (rd : BitVec 4)  -- shll.b #2, Rd8 (R712)
  | shllW2 (rd : BitVec 4)  -- shll.w #2, Rd16 (R712)
  | shllL2 (rd : BitVec 3)  -- shll.l #2, ERd (R712)
  | shalB (rd : BitVec 4)  -- shal.b Rd8 (R710)
  | shalW (rd : BitVec 4)  -- shal.w Rd16 (R710)
  | shalL (rd : BitVec 3)  -- shal.l ERd (R710)
  | shalB2 (rd : BitVec 4)  -- shal.b #2, Rd8 (R710)
  | shalW2 (rd : BitVec 4)  -- shal.w #2, Rd16 (R710)
  | shalL2 (rd : BitVec 3)  -- shal.l #2, ERd (R710)
  | shlrB (rd : BitVec 4)  -- shlr.b Rd8 (R713)
  | shlrW (rd : BitVec 4)  -- shlr.w Rd16 (R713)
  | shlrL (rd : BitVec 3)  -- shlr.l ERd (R713)
  | shlrB2 (rd : BitVec 4)  -- shlr.b #2, Rd8 (R713)
  | shlrW2 (rd : BitVec 4)  -- shlr.w #2, Rd16 (R713)
  | shlrL2 (rd : BitVec 3)  -- shlr.l #2, ERd (R713)
  | sharB (rd : BitVec 4)  -- shar.b Rd8 (R711)
  | sharW (rd : BitVec 4)  -- shar.w Rd16 (R711)
  | sharL (rd : BitVec 3)  -- shar.l ERd (R711)
  | sharB2 (rd : BitVec 4)  -- shar.b #2, Rd8 (R711)
  | sharW2 (rd : BitVec 4)  -- shar.w #2, Rd16 (R711)
  | sharL2 (rd : BitVec 3)  -- shar.l #2, ERd (R711)
  | rotxlB (rd : BitVec 4)  -- rotxl.b Rd8 (R716)
  | rotxlW (rd : BitVec 4)  -- rotxl.w Rd16 (R716)
  | rotxlL (rd : BitVec 3)  -- rotxl.l ERd (R716)
  | rotxlB2 (rd : BitVec 4)  -- rotxl.b #2, Rd8 (R716)
  | rotxlW2 (rd : BitVec 4)  -- rotxl.w #2, Rd16 (R716)
  | rotxlL2 (rd : BitVec 3)  -- rotxl.l #2, ERd (R716)
  | rotlB (rd : BitVec 4)  -- rotl.b Rd8 (R714)
  | rotlW (rd : BitVec 4)  -- rotl.w Rd16 (R714)
  | rotlL (rd : BitVec 3)  -- rotl.l ERd (R714)
  | rotlB2 (rd : BitVec 4)  -- rotl.b #2, Rd8 (R714)
  | rotlW2 (rd : BitVec 4)  -- rotl.w #2, Rd16 (R714)
  | rotlL2 (rd : BitVec 3)  -- rotl.l #2, ERd (R714)
  | rotxrB (rd : BitVec 4)  -- rotxr.b Rd8 (R717)
  | rotxrW (rd : BitVec 4)  -- rotxr.w Rd16 (R717)
  | rotxrL (rd : BitVec 3)  -- rotxr.l ERd (R717)
  | rotxrB2 (rd : BitVec 4)  -- rotxr.b #2, Rd8 (R717)
  | rotxrW2 (rd : BitVec 4)  -- rotxr.w #2, Rd16 (R717)
  | rotxrL2 (rd : BitVec 3)  -- rotxr.l #2, ERd (R717)
  | rotrB (rd : BitVec 4)  -- rotr.b Rd8 (R715)
  | rotrW (rd : BitVec 4)  -- rotr.w Rd16 (R715)
  | rotrL (rd : BitVec 3)  -- rotr.l ERd (R715)
  | rotrB2 (rd : BitVec 4)  -- rotr.b #2, Rd8 (R715)
  | rotrW2 (rd : BitVec 4)  -- rotr.w #2, Rd16 (R715)
  | rotrL2 (rd : BitVec 3)  -- rotr.l #2, ERd (R715)
  -- 44_bit_manipulation.md
  | bsetImm (bit : BitVec 3) (tgt : BitTarget)  -- bset with #xx:3: 5 rows (R810)
  | bsetRn (rn : BitVec 4) (tgt : BitTarget)  -- bset with Rn8: 5 rows (R810)
  | bnotImm (bit : BitVec 3) (tgt : BitTarget)  -- bnot with #xx:3: 5 rows (R812)
  | bnotRn (rn : BitVec 4) (tgt : BitTarget)  -- bnot with Rn8: 5 rows (R812)
  | bclrImm (bit : BitVec 3) (tgt : BitTarget)  -- bclr with #xx:3: 5 rows (R811)
  | bclrRn (rn : BitVec 4) (tgt : BitTarget)  -- bclr with Rn8: 5 rows (R811)
  | btstImm (bit : BitVec 3) (tgt : BitTarget)  -- btst with #xx:3: 5 rows (R813)
  | btstRn (rn : BitVec 4) (tgt : BitTarget)  -- btst with Rn8: 5 rows (R813)
  | bor (bit : BitVec 3) (tgt : BitTarget)  -- bor with #xx:3: 5 rows (R820)
  | bior (bit : BitVec 3) (tgt : BitTarget)  -- bior with #xx:3: 5 rows (R821)
  | bxor (bit : BitVec 3) (tgt : BitTarget)  -- bxor with #xx:3: 5 rows (R822)
  | bixor (bit : BitVec 3) (tgt : BitTarget)  -- bixor with #xx:3: 5 rows (R823)
  | band (bit : BitVec 3) (tgt : BitTarget)  -- band with #xx:3: 5 rows (R818)
  | biand (bit : BitVec 3) (tgt : BitTarget)  -- biand with #xx:3: 5 rows (R819)
  | bld (bit : BitVec 3) (tgt : BitTarget)  -- bld with #xx:3: 5 rows (R814)
  | bild (bit : BitVec 3) (tgt : BitTarget)  -- bild with #xx:3: 5 rows (R815)
  | bst (bit : BitVec 3) (tgt : BitTarget)  -- bst with #xx:3: 5 rows (R816)
  | bist (bit : BitVec 3) (tgt : BitTarget)  -- bist with #xx:3: 5 rows (R817)
  -- 45_branch.md
  | bra8 (disp : BitVec 8)  -- bra d:8 (R910)
  | bra16 (disp : BitVec 16)  -- bra d:16 (R910)
  | brn8 (disp : BitVec 8)  -- brn d:8 (R911)
  | brn16 (disp : BitVec 16)  -- brn d:16 (R911)
  | bhi8 (disp : BitVec 8)  -- bhi d:8 (R912)
  | bhi16 (disp : BitVec 16)  -- bhi d:16 (R912)
  | bls8 (disp : BitVec 8)  -- bls d:8 (R913)
  | bls16 (disp : BitVec 16)  -- bls d:16 (R913)
  | bcc8 (disp : BitVec 8)  -- bcc d:8 (R914)
  | bcc16 (disp : BitVec 16)  -- bcc d:16 (R914)
  | bcs8 (disp : BitVec 8)  -- bcs d:8 (R915)
  | bcs16 (disp : BitVec 16)  -- bcs d:16 (R915)
  | bne8 (disp : BitVec 8)  -- bne d:8 (R916)
  | bne16 (disp : BitVec 16)  -- bne d:16 (R916)
  | beq8 (disp : BitVec 8)  -- beq d:8 (R917)
  | beq16 (disp : BitVec 16)  -- beq d:16 (R917)
  | bvc8 (disp : BitVec 8)  -- bvc d:8 (R918)
  | bvc16 (disp : BitVec 16)  -- bvc d:16 (R918)
  | bvs8 (disp : BitVec 8)  -- bvs d:8 (R919)
  | bvs16 (disp : BitVec 16)  -- bvs d:16 (R919)
  | bpl8 (disp : BitVec 8)  -- bpl d:8 (R920)
  | bpl16 (disp : BitVec 16)  -- bpl d:16 (R920)
  | bmi8 (disp : BitVec 8)  -- bmi d:8 (R921)
  | bmi16 (disp : BitVec 16)  -- bmi d:16 (R921)
  | bge8 (disp : BitVec 8)  -- bge d:8 (R922)
  | bge16 (disp : BitVec 16)  -- bge d:16 (R922)
  | blt8 (disp : BitVec 8)  -- blt d:8 (R923)
  | blt16 (disp : BitVec 16)  -- blt d:16 (R923)
  | bgt8 (disp : BitVec 8)  -- bgt d:8 (R924)
  | bgt16 (disp : BitVec 16)  -- bgt d:16 (R924)
  | ble8 (disp : BitVec 8)  -- ble d:8 (R925)
  | ble16 (disp : BitVec 16)  -- ble d:16 (R925)
  | jmpInd (ra : BitVec 3)  -- jmp @ERr (R930)
  | jmpAbs24 (aa : BitVec 24)  -- jmp @aa:24 (R930)
  | jmpMemInd (aa : BitVec 8)  -- jmp @@aa:8 (R930)
  | bsr8 (disp : BitVec 8)  -- bsr d:8 (R931)
  | bsr16 (disp : BitVec 16)  -- bsr d:16 (R931)
  | jsrInd (ra : BitVec 3)  -- jsr @ERr (R932)
  | jsrAbs24 (aa : BitVec 24)  -- jsr @aa:24 (R932)
  | jsrMemInd (aa : BitVec 8)  -- jsr @@aa:8 (R932)
  | rts  -- rts (R933)
  -- 46_system_control.md
  | trapa (tn : BitVec 2)  -- trapa #x:2 (R1010)
  | rte  -- rte (R1011)
  | sleep  -- sleep (R1012)
  | ldcImmCcr (imm : BitVec 8)  -- ldc #xx:8, CCR (R1013)
  | andcCcr (imm : BitVec 8)  -- andc #xx:8, CCR (R1017)
  | orcCcr (imm : BitVec 8)  -- orc #xx:8, CCR (R1019)
  | xorcCcr (imm : BitVec 8)  -- xorc #xx:8, CCR (R1021)
  | ldcRegCcr (rs : BitVec 4)  -- ldc Rs8, CCR (R1013)
  | stcRegCcr (rd : BitVec 4)  -- stc CCR, Rd8 (R1015)
  | ldcWCcr (mem : Mode)  -- ldc.w with CCR: 6 rows (R1013)
  | stcWCcr (mem : Mode)  -- stc.w with CCR: 6 rows (R1015)
  | ldcImmExr (imm : BitVec 8)  -- ldc #xx:8, EXR (R1014)
  | andcExr (imm : BitVec 8)  -- andc #xx:8, EXR (R1018)
  | orcExr (imm : BitVec 8)  -- orc #xx:8, EXR (R1020)
  | xorcExr (imm : BitVec 8)  -- xorc #xx:8, EXR (R1022)
  | ldcRegExr (rs : BitVec 4)  -- ldc Rs8, EXR (R1014)
  | stcRegExr (rd : BitVec 4)  -- stc EXR, Rd8 (R1016)
  | ldcWExr (mem : Mode)  -- ldc.w with EXR: 6 rows (R1014)
  | stcWExr (mem : Mode)  -- stc.w with EXR: 6 rows (R1016)
deriving DecidableEq, Repr

end Sys2Proof
end

