-- ==== Sys2Proof/Machine/Operands.lean ====
section
/-!
DEFINITION. Operand forms (30_encoding.md R310 to R319, 40_data_transfer.md R400, R419, 44_bit_manipulation.md
R800, R801) and the shared shapes of the instructions' meanings: read the operands, write the result and the
flags, advance the program counter.
-/

namespace Sys2Proof.Machine

/-! ### Effective addresses -/

/-- `@ERr` (30_encoding.md R311). -/
def State.eaInd (s : State) (ra : BitVec 3) : Addr := s.addr (s.readL ra)

/-- `@(d:16,ERr)`: the displacement is sign-extended (30_encoding.md R312). -/
def State.eaDisp16 (s : State) (disp : BitVec 16) (ra : BitVec 3) : Addr := s.addr (s.readL ra + disp.signExtend 32)

/-- `@(d:32,ERr)` (30_encoding.md R312). -/
def State.eaDisp32 (s : State) (disp : BitVec 32) (ra : BitVec 3) : Addr := s.addr (s.readL ra + disp)

/-- `@aa:8`: the top 256 bytes of the address space (30_encoding.md R313). -/
def State.eaAbs8 (s : State) (aa : BitVec 8) : Addr := s.addr ((0xFFFFFF : BitVec 24) ++ aa)

/-- `@aa:16`: sign-extended (30_encoding.md R314). -/
def State.eaAbs16 (s : State) (aa : BitVec 16) : Addr := s.addr (aa.signExtend 32)

/-- `@aa:24`, JMP and JSR (30_encoding.md R315). -/
def eaAbs24 (aa : BitVec 24) : Addr := aa.zeroExtend 32

/-- `@aa:32` (30_encoding.md R315). -/
def State.eaAbs32 (s : State) (aa : BitVec 32) : Addr := s.addr aa

/-- The target of `@@aa:8`: the long at the zero-extended table address, modulo `2^ADDR_BITS` (30_encoding.md
R316). -/
def State.memIndTarget (s : State) (aa : BitVec 8) : Except Fault Addr := do
  let v ← s.read32 (aa.zeroExtend 32)
  pure (s.addr v)

/-- The target of a PC-relative displacement of an instruction of `len` bytes: from the address after it
(30_encoding.md R319, 45_branch.md R901). -/
def State.pcRelTarget {n : Nat} (s : State) (len : Nat) (disp : BitVec n) : Addr :=
  s.addr (s.pcNext len + disp.signExtend 32)

end Sys2Proof.Machine

namespace Sys2Proof

open Sys2Proof.Machine

/-- The effective address of a data operand of `size` bytes (30_encoding.md R311 to R317). -/
def Mode.ea (m : Mode) (size : Nat) (s : State) : Addr :=
  match m with
  | .ind ra => s.eaInd ra
  | .disp16 disp ra => s.eaDisp16 disp ra
  | .disp32 disp ra => s.eaDisp32 disp ra
  | .inc ra => s.eaInd ra
  | .dec ra => s.addr (s.readL ra - BitVec.ofNat 32 size)
  | .abs8 aa => s.eaAbs8 aa
  | .abs16 aa => s.eaAbs16 aa
  | .abs32 aa => s.eaAbs32 aa

/-- The address register after the access: post-increment and pre-decrement by the size, all 32 bits
(30_encoding.md R317). -/
def Mode.update (m : Mode) (size : Nat) (s : State) : State :=
  match m with
  | .inc ra => s.writeL ra (s.readL ra + BitVec.ofNat 32 size)
  | .dec ra => s.writeL ra (s.readL ra - BitVec.ofNat 32 size)
  | .ind _ | .disp16 _ _ | .disp32 _ _ | .abs8 _ | .abs16 _ | .abs32 _ => s

/-- The mode steps the extended register `n`: with `n` the data operand's register this is the case of
40_data_transfer.md R419. -/
def Mode.steps (m : Mode) (n : BitVec 3) : Bool :=
  match m with
  | .inc ra | .dec ra => ra == n
  | .ind _ | .disp16 _ _ | .disp32 _ _ | .abs8 _ | .abs16 _ | .abs32 _ => false

/-- The bytes a memory operand adds to the first opcode word: the row lengths of MOV.B, MOV.W (30_encoding.md R345,
F_IND, F_D16, F_D32, F_A8, F_A16, F_A32). -/
def Mode.len : Mode → Nat
  | .ind _ | .inc _ | .dec _ | .abs8 _ => 2
  | .disp16 _ _ | .abs16 _ => 4
  | .abs32 _ => 6
  | .disp32 _ _ => 8

end Sys2Proof

namespace Sys2Proof.Machine

/-! ### MOV between a register and memory -/

/-- ERn left a draw, all 32 bits (40_data_transfer.md R419). -/
def State.drawReg (s : State) (n : BitVec 3) : State := s.writeL n (Config.draw 32 .sameRegister s.epoch)

/-- MOV.B from memory (40_data_transfer.md R407, R419). In the case of R419 the flags follow the drawn value; log
11. -/
def loadB (len : Nat) (m : Mode) (rd : BitVec 4) (s : State) : Out :=
  match s.read8 (m.ea 1 s) with
  | .error f => .fault f
  | .ok v =>
    if m.steps (ern rd) then
      .next (((s.drawReg (ern rd)).setNZ0 ((s.drawReg (ern rd)).readB rd)).advance len)
    else .next ((((m.update 1 s).writeB rd v).setNZ0 v).advance len)

/-- MOV.W from memory (40_data_transfer.md R408, R419). -/
def loadW (len : Nat) (m : Mode) (rd : BitVec 4) (s : State) : Out :=
  match s.read16 (m.ea 2 s) with
  | .error f => .fault f
  | .ok v =>
    if m.steps (ern rd) then
      .next (((s.drawReg (ern rd)).setNZ0 ((s.drawReg (ern rd)).readW rd)).advance len)
    else .next ((((m.update 2 s).writeW rd v).setNZ0 v).advance len)

/-- MOV.L from memory (40_data_transfer.md R409, R419). -/
def loadL (len : Nat) (m : Mode) (rd : BitVec 3) (s : State) : Out :=
  match s.read32 (m.ea 4 s) with
  | .error f => .fault f
  | .ok v =>
    if m.steps rd then
      .next (((s.drawReg rd).setNZ0 ((s.drawReg rd).readL rd)).advance len)
    else .next ((((m.update 4 s).writeL rd v).setNZ0 v).advance len)

/-- The byte MOV.B stores: the register, or a draw where the mode steps its extended register
(40_data_transfer.md R410, R419). -/
def storedB (m : Mode) (rs : BitVec 4) (s : State) : Byte :=
  if m.steps (ern rs) then Config.draw 8 .sameRegister s.epoch else s.readB rs

/-- The word MOV.W stores (40_data_transfer.md R411, R419). -/
def storedW (m : Mode) (rs : BitVec 4) (s : State) : Word :=
  if m.steps (ern rs) then Config.draw 16 .sameRegister s.epoch else s.readW rs

/-- The long MOV.L stores (40_data_transfer.md R412, R419). -/
def storedL (m : Mode) (rs : BitVec 3) (s : State) : Long :=
  if m.steps rs then Config.draw 32 .sameRegister s.epoch else s.readL rs

/-- MOV.B to memory (40_data_transfer.md R410, R419). -/
def storeB (len : Nat) (rs : BitVec 4) (m : Mode) (s : State) : Out :=
  match s.write8 (some len) (m.ea 1 s) (storedB m rs s) with
  | .error f => .fault f
  | .ok t => .next (((m.update 1 t).setNZ0 (storedB m rs s)).advance len)

/-- MOV.W to memory (40_data_transfer.md R411, R419). -/
def storeW (len : Nat) (rs : BitVec 4) (m : Mode) (s : State) : Out :=
  match s.write16 (some len) (m.ea 2 s) (storedW m rs s) with
  | .error f => .fault f
  | .ok t => .next (((m.update 2 t).setNZ0 (storedW m rs s)).advance len)

/-- MOV.L to memory (40_data_transfer.md R412, R419). -/
def storeL (len : Nat) (rs : BitVec 3) (m : Mode) (s : State) : Out :=
  match s.write32 (some len) (m.ea 4 s) (storedL m rs s) with
  | .error f => .fault f
  | .ok t => .next (((m.update 4 t).setNZ0 (storedL m rs s)).advance len)

/-! ### Register results -/

/-- A byte result in `rd`, flags by `fl`, `pc_next`. -/
def putB (len : Nat) (rd : BitVec 4) (v : Byte) (fl : State → State) (s : State) : Out :=
  .next ((fl (s.writeB rd v)).advance len)

/-- A word result in `rd`, flags by `fl`, `pc_next`. -/
def putW (len : Nat) (rd : BitVec 4) (v : Word) (fl : State → State) (s : State) : Out :=
  .next ((fl (s.writeW rd v)).advance len)

/-- A long result in `rd`, flags by `fl`, `pc_next`. -/
def putL (len : Nat) (rd : BitVec 3) (v : Long) (fl : State → State) (s : State) : Out :=
  .next ((fl (s.writeL rd v)).advance len)

/-- All five flags of a computed result. -/
def allFlags {w : Nat} (r : AluResult w) (s : State) : State := s.setFlags r.flags

/-- N, Z and V of a computed result, H and C unchanged (INC, DEC: 41_arithmetic.md R515). -/
def nzvFlags {w : Nat} (r : AluResult w) (s : State) : State := s.setNZV r.flags.n r.flags.z r.flags.v

/-- N and Z from a value, V cleared, H and C unchanged (40_data_transfer.md R400, 42_logic.md R600). -/
def movFlags {w : Nat} (v : BitVec w) (s : State) : State := s.setNZ0 v

/-- C, V, N and Z of a shift or rotate, H unchanged (43_shift_rotate.md R700). -/
def shiftFlags {w : Nat} (r : ShiftState w) (s : State) : State :=
  ((s.setNZV r.val.msb (r.val == 0) r.v)).setFlag .c r.c

/-- N and Z from a value, H, V and C unchanged (MULXS: 41_arithmetic.md R542, R543). -/
def nzFlags {w : Nat} (v : BitVec w) (s : State) : State := s.setNZ v.msb (v == 0)

/-- No flag changes. -/
def noFlags (s : State) : State := s

/-! ### The shapes of the register families -/

/-- ADD, SUB and relatives: the full result of `f` (41_arithmetic.md R502). -/
def aluB (len : Nat) (rd : BitVec 4) (r : AluResult 8) (s : State) : Out := putB len rd r.val (allFlags r) s

def aluW (len : Nat) (rd : BitVec 4) (r : AluResult 16) (s : State) : Out := putW len rd r.val (allFlags r) s

def aluL (len : Nat) (rd : BitVec 3) (r : AluResult 32) (s : State) : Out := putL len rd r.val (allFlags r) s

/-- CMP: the flags only (41_arithmetic.md R530 to R532). -/
def compare {w : Nat} (len : Nat) (r : AluResult w) (s : State) : Out := .next ((allFlags r s).advance len)

/-- INC and DEC: the result, N, Z and V (41_arithmetic.md R515 to R517, R525 to R527). -/
def stepB (len : Nat) (rd : BitVec 4) (r : AluResult 8) (s : State) : Out := putB len rd r.val (nzvFlags r) s

def stepW (len : Nat) (rd : BitVec 4) (r : AluResult 16) (s : State) : Out := putW len rd r.val (nzvFlags r) s

def stepL (len : Nat) (rd : BitVec 3) (r : AluResult 32) (s : State) : Out := putL len rd r.val (nzvFlags r) s

/-- MOV to a register and the logic family: the value, N, Z and V = 0 (40_data_transfer.md R400, 42_logic.md
R600). -/
def moveB (len : Nat) (rd : BitVec 4) (v : Byte) (s : State) : Out := putB len rd v (movFlags v) s

def moveW (len : Nat) (rd : BitVec 4) (v : Word) (s : State) : Out := putW len rd v (movFlags v) s

def moveL (len : Nat) (rd : BitVec 3) (v : Long) (s : State) : Out := putL len rd v (movFlags v) s

/-- A shift or rotate of a byte register by `k` (43_shift_rotate.md R700). -/
def shiftB (op : ShiftOp) (k : Nat) (rd : BitVec 4) (s : State) : Out :=
  let r := shiftCore op k (s.readB rd) (s.flag .c)
  putB 2 rd r.val (shiftFlags r) s

def shiftW (op : ShiftOp) (k : Nat) (rd : BitVec 4) (s : State) : Out :=
  let r := shiftCore op k (s.readW rd) (s.flag .c)
  putW 2 rd r.val (shiftFlags r) s

def shiftL (op : ShiftOp) (k : Nat) (rd : BitVec 3) (s : State) : Out :=
  let r := shiftCore op k (s.readL rd) (s.flag .c)
  putL 2 rd r.val (shiftFlags r) s

/-! ### Bit instructions -/

end Sys2Proof.Machine

namespace Sys2Proof

open Sys2Proof.Machine

/-- The memory address of a bit target; none for a register (44_bit_manipulation.md R800). -/
def BitTarget.ea? (t : BitTarget) (s : State) : Option Addr :=
  match t with
  | .reg _ => none
  | .ind ra => some (s.eaInd ra)
  | .abs8 aa => some (s.eaAbs8 aa)
  | .abs16 aa => some (s.eaAbs16 aa)
  | .abs32 aa => some (s.eaAbs32 aa)

/-- The length of a bit instruction with this target (30_encoding.md R304: F_BIT_R, F_BIT_IND, F_BIT_A8,
F_BIT_A16, F_BIT_A32). -/
def BitTarget.len : BitTarget → Nat
  | .reg _ => 2
  | .ind _ | .abs8 _ => 4
  | .abs16 _ => 6
  | .abs32 _ => 8

/-- The target byte (44_bit_manipulation.md R800). -/
def BitTarget.read (t : BitTarget) (s : State) : Except Fault Byte :=
  match t with
  | .reg rd => .ok (s.readB rd)
  | .ind ra => s.read8 (s.eaInd ra)
  | .abs8 aa => s.read8 (s.eaAbs8 aa)
  | .abs16 aa => s.read8 (s.eaAbs16 aa)
  | .abs32 aa => s.read8 (s.eaAbs32 aa)

/-- The target byte written back (44_bit_manipulation.md R801). -/
def BitTarget.write (t : BitTarget) (v : Byte) (s : State) : Except Fault State :=
  match t with
  | .reg rd => .ok (s.writeB rd v)
  | .ind ra => s.write8 (some 4) (s.eaInd ra) v
  | .abs8 aa => s.write8 (some 4) (s.eaAbs8 aa) v
  | .abs16 aa => s.write8 (some 6) (s.eaAbs16 aa) v
  | .abs32 aa => s.write8 (some 8) (s.eaAbs32 aa) v

end Sys2Proof

namespace Sys2Proof.Machine

/-- The bit number of a register form: the low 3 bits of Rn8 (44_bit_manipulation.md R800). -/
def State.bitNumber (s : State) (rn : BitVec 4) : BitVec 3 := (s.readB rn).extractLsb' 0 3

/-- The modifying members: one read, one write of the whole byte, no flag (44_bit_manipulation.md R801). -/
def bitModify (t : BitTarget) (f : Byte → Byte) (s : State) : Out :=
  match t.read s with
  | .error e => .fault e
  | .ok b =>
    match t.write (f b) s with
    | .error e => .fault e
    | .ok u => .next (u.advance t.len)

/-- The testing members: one read, one flag written (44_bit_manipulation.md R801, R813 to R823). -/
def bitTest (t : BitTarget) (fl : Flag) (f : Byte → Bool) (s : State) : Out :=
  match t.read s with
  | .error e => .fault e
  | .ok b => .next ((s.setFlag fl (f b)).advance t.len)

/-! ### LDC and STC -/

/-- LDC.W: the high byte of the memory word (46_system_control.md R1001), given to `put`, then the interrupt shadow
of R1000. -/
def loadControl (len : Nat) (m : Mode) (put : State → Byte → State) (s : State) : Out :=
  match s.read16 (m.ea 2 s) with
  | .error f => .fault f
  | .ok w => .next (((put (m.update 2 s) (w.extractLsb' 8 8)).shadow).advance len)

/-- STC.W: the control register above a pad, a draw (46_system_control.md R1001). -/
def storeControl (len : Nat) (m : Mode) (v : Byte) (s : State) : Out :=
  match s.write16 (some len) (m.ea 2 s) (v ++ Config.draw 8 .stcPad s.epoch) with
  | .error f => .fault f
  | .ok t => .next ((m.update 2 t).advance len)

/-- A control register written by LDC, ANDC, ORC or XORC (46_system_control.md R1000). -/
def putCcr (len : Nat) (v : Byte) (s : State) : Out := .next (((s.writeCcr v).shadow).advance len)

def putExr (len : Nat) (v : Byte) (s : State) : Out := .next (((s.writeExr v).shadow).advance len)

/-! ### Signed and unsigned division, decimal adjust -/

/-- The `w`-bit remainder and quotient of an unsigned division; none on a zero divisor or a quotient of `2^w` or
more (41_arithmetic.md R544, R545). -/
def divUnsigned (w : Nat) (dd dv : Nat) : Option (BitVec w × BitVec w) :=
  if dv = 0 ∨ 2 ^ w ≤ dd / dv then none else some (BitVec.ofNat w (dd % dv), BitVec.ofNat w (dd / dv))

/-- The `w`-bit remainder and quotient of a signed division rounded toward zero, the remainder with the sign of
the dividend; none on a zero divisor or a quotient outside `-2^(w-1) .. 2^(w-1) - 1` (41_arithmetic.md R546,
R547). -/
def divSigned (w : Nat) (dd dv : Int) : Option (BitVec w × BitVec w) :=
  if dv = 0 ∨ dd.tdiv dv < -2 ^ (w - 1) ∨ 2 ^ (w - 1) ≤ dd.tdiv dv then none
  else some (BitVec.ofInt w (dd - dd.tdiv dv * dv), BitVec.ofInt w (dd.tdiv dv))

/-- One bit of free value (00_scope.md R9). -/
def State.drawBit (s : State) (site : DrawSite) : Bool := (Config.draw 1 site s.epoch).getLsbD 0

/-- N of a signed division that has a result: the quotient is negative; a draw where the quotient is 0 and the
operands' signs differ (41_arithmetic.md R546, R547; 93_implementation_defined.md U20). A dividend of 0 has the sign of a
non-negative number: DESIGN CHOICE, log 29. -/
def State.divNegative (s : State) (dd dv : Int) : Bool :=
  if dd.tdiv dv = 0 ∧ decide (dd < 0) ≠ decide (dv < 0) then s.drawBit .divN else decide (dd.tdiv dv < 0)

/-- DAA and DAS by a table: the adjusted byte, N and Z from it, C from the table, H and V draws; where no row
matches, the byte and all five flags are draws (41_arithmetic.md R518, R528). -/
def decimalAdjust (table : List AdjustRow) (rd : BitVec 4) (s : State) : Out :=
  let b := s.readB rd
  match adjustRow? table (s.flag .c) (s.flag .h) b with
  | some row =>
    .next (((s.writeB rd (b + row.add)).setFlags
      { h := s.drawBit .adjustH, n := (b + row.add).msb, z := b + row.add == 0, v := s.drawBit .adjustV,
        c := row.cAfter }).advance 2)
  | none =>
    .next (((s.writeB rd (Config.draw 8 .adjustResult s.epoch)).setFlags
      { h := s.drawBit .adjustH, n := s.drawBit .adjustN, z := s.drawBit .adjustZ, v := s.drawBit .adjustV,
        c := s.drawBit .adjustC }).advance 2)

/-! ### Register lists and block moves -/

/-- The registers of a list popped in the order given (40_data_transfer.md R415). -/
def popRegs : List (BitVec 3) → State → Except Fault State
  | [], s => .ok s
  | r :: rs, s =>
    match s.pop32 with
    | .error f => .error f
    | .ok (v, t) => popRegs rs (t.writeL r v)

/-- The registers of a list pushed in the order given by an instruction of 4 bytes (40_data_transfer.md R416). -/
def pushRegs : List (BitVec 3) → State → Except Fault State
  | [], s => .ok s
  | r :: rs, s =>
    match s.push32 (some 4) (s.readL r) with
    | .error f => .error f
    | .ok t => pushRegs rs t

/-- LDM.L of a list, last register first; a list with ER7 is `Unmodelled` (40_data_transfer.md R415). -/
def loadList (regs : List (BitVec 3)) (s : State) : Out :=
  if regs.contains sp then .fault (s.unmodelled .ldmWithEr7)
  else
    match popRegs regs s with
    | .error f => .fault f
    | .ok t => .next (t.advance 4)

/-- STM.L of a list, first register first; a list with ER7 is `Unmodelled` (40_data_transfer.md R416). -/
def storeList (regs : List (BitVec 3)) (s : State) : Out :=
  if regs.contains sp then .fault (s.unmodelled .stmWithEr7)
  else
    match pushRegs regs s with
    | .error f => .fault f
    | .ok t => .next (t.advance 4)

/-- One byte of a block move from `@ER5` to `@ER6`, both pointers stepped (40_data_transfer.md R417). -/
def State.moveByte (s : State) : Except Fault State :=
  match s.read8 (s.readL 5) with
  | .error f => .error f
  | .ok v =>
    match s.write8 (some 4) (s.readL 6) v with
    | .error f => .error f
    | .ok t => .ok ((t.writeL 5 (t.readL 5 + 1)).writeL 6 (t.readL 6 + 1))

/-- The bytes of EEPMOV.B, R4L counting down (40_data_transfer.md R417). -/
def moveBytes : Nat → State → Except Fault State
  | 0, s => .ok s
  | k + 1, s =>
    match s.moveByte with
    | .error f => .error f
    | .ok t => moveBytes k (t.writeB 12 (t.readB 12 - 1))

/-- The EEPMOV.W state of R117 set (40_data_transfer.md R418). -/
def State.setMoving (s : State) (x : Bool) : State := { s with eepmovActive := x }

/-- The sleep state set (46_system_control.md R1012). -/
def State.setSleeping (s : State) (x : Bool) : State := { s with sleeping := x }

/-! ### Branches and calls -/

/-- A conditional branch: the target when the condition holds, else `pc_next` (45_branch.md R901, R910 to R925). -/
def branch {n : Nat} (len : Nat) (cond : Cond) (disp : BitVec n) (s : State) : Out :=
  if cond.holds (s.flag .n) (s.flag .z) (s.flag .v) (s.flag .c) then Out.of (s.jumpTo (s.pcRelTarget len disp))
  else .next (s.advance len)

/-- A call to a target already formed: the return frame pushed, then the transfer (45_branch.md R903, R931,
R932). -/
def call (len : Nat) (target : Addr) (s : State) : Out :=
  match s.push32 (some len) (s.callFrame (s.pcNext len)) with
  | .error f => .fault f
  | .ok t => Out.of (t.jumpTo target)

end Sys2Proof.Machine
end

