-- ==== Sys2Proof/Machine/Arithmetic.lean ====
section
/-!
DEFINITION. The meanings of addition, subtraction, comparison, extension, multiplication, division and TAS (41_arithmetic.md), one definition per constructor.
-/

namespace Sys2Proof.Machine

/-- ADD.B #xx:8, Rd8 (41_arithmetic.md R510). -/
def execAddBImm (imm : BitVec 8) (rd : BitVec 4) (s : State) : Out := aluB 2 rd (addCore (s.readB rd) imm false) s

/-- ADD.B Rs8, Rd8 (41_arithmetic.md R510). -/
def execAddBReg (rs : BitVec 4) (rd : BitVec 4) (s : State) : Out :=
  aluB 2 rd (addCore (s.readB rd) (s.readB rs) false) s

/-- ADD.W #xx:16, Rd16 (41_arithmetic.md R511). -/
def execAddWImm (imm : BitVec 16) (rd : BitVec 4) (s : State) : Out := aluW 4 rd (addCore (s.readW rd) imm false) s

/-- ADD.W Rs16, Rd16 (41_arithmetic.md R511). -/
def execAddWReg (rs : BitVec 4) (rd : BitVec 4) (s : State) : Out :=
  aluW 2 rd (addCore (s.readW rd) (s.readW rs) false) s

/-- ADD.L #xx:32, ERd (41_arithmetic.md R512). -/
def execAddLImm (imm : BitVec 32) (rd : BitVec 3) (s : State) : Out := aluL 6 rd (addCore (s.readL rd) imm false) s

/-- ADD.L ERs, ERd (41_arithmetic.md R512). -/
def execAddLReg (rs : BitVec 3) (rd : BitVec 3) (s : State) : Out :=
  aluL 2 rd (addCore (s.readL rd) (s.readL rs) false) s

/-- ADDX #xx:8, Rd8 (41_arithmetic.md R513). -/
def execAddxImm (imm : BitVec 8) (rd : BitVec 4) (s : State) : Out :=
  aluB 2 rd ((addCore (s.readB rd) imm (s.flag .c)).stickyZ (s.flag .z)) s

/-- ADDX Rs8, Rd8 (41_arithmetic.md R513). -/
def execAddxReg (rs : BitVec 4) (rd : BitVec 4) (s : State) : Out :=
  aluB 2 rd ((addCore (s.readB rd) (s.readB rs) (s.flag .c)).stickyZ (s.flag .z)) s

/-- ADDS #1, ERd (41_arithmetic.md R514). -/
def execAdds1 (rd : BitVec 3) (s : State) : Out := putL 2 rd (s.readL rd + 1) noFlags s

/-- ADDS #2, ERd (41_arithmetic.md R514). -/
def execAdds2 (rd : BitVec 3) (s : State) : Out := putL 2 rd (s.readL rd + 2) noFlags s

/-- ADDS #4, ERd (41_arithmetic.md R514). -/
def execAdds4 (rd : BitVec 3) (s : State) : Out := putL 2 rd (s.readL rd + 4) noFlags s

/-- INC.B Rd8 (41_arithmetic.md R515). -/
def execIncB (rd : BitVec 4) (s : State) : Out := stepB 2 rd (addCore (s.readB rd) 1 false) s

/-- INC.W #1, Rd16 (41_arithmetic.md R516). -/
def execIncW1 (rd : BitVec 4) (s : State) : Out := stepW 2 rd (addCore (s.readW rd) 1 false) s

/-- INC.W #2, Rd16 (41_arithmetic.md R516). -/
def execIncW2 (rd : BitVec 4) (s : State) : Out := stepW 2 rd (addCore (s.readW rd) 2 false) s

/-- INC.L #1, ERd (41_arithmetic.md R517). -/
def execIncL1 (rd : BitVec 3) (s : State) : Out := stepL 2 rd (addCore (s.readL rd) 1 false) s

/-- INC.L #2, ERd (41_arithmetic.md R517). -/
def execIncL2 (rd : BitVec 3) (s : State) : Out := stepL 2 rd (addCore (s.readL rd) 2 false) s

/-- DAA Rd8 (41_arithmetic.md R518). -/
def execDaa (rd : BitVec 4) (s : State) : Out := decimalAdjust daaTable rd s

/-- SUB.B Rs8, Rd8 (41_arithmetic.md R520). -/
def execSubBReg (rs : BitVec 4) (rd : BitVec 4) (s : State) : Out :=
  aluB 2 rd (subCore (s.readB rd) (s.readB rs) false) s

/-- SUB.W #xx:16, Rd16 (41_arithmetic.md R521). -/
def execSubWImm (imm : BitVec 16) (rd : BitVec 4) (s : State) : Out := aluW 4 rd (subCore (s.readW rd) imm false) s

/-- SUB.W Rs16, Rd16 (41_arithmetic.md R521). -/
def execSubWReg (rs : BitVec 4) (rd : BitVec 4) (s : State) : Out :=
  aluW 2 rd (subCore (s.readW rd) (s.readW rs) false) s

/-- SUB.L #xx:32, ERd (41_arithmetic.md R522). -/
def execSubLImm (imm : BitVec 32) (rd : BitVec 3) (s : State) : Out := aluL 6 rd (subCore (s.readL rd) imm false) s

/-- SUB.L ERs, ERd (41_arithmetic.md R522). -/
def execSubLReg (rs : BitVec 3) (rd : BitVec 3) (s : State) : Out :=
  aluL 2 rd (subCore (s.readL rd) (s.readL rs) false) s

/-- SUBX #xx:8, Rd8 (41_arithmetic.md R523). -/
def execSubxImm (imm : BitVec 8) (rd : BitVec 4) (s : State) : Out :=
  aluB 2 rd ((subCore (s.readB rd) imm (s.flag .c)).stickyZ (s.flag .z)) s

/-- SUBX Rs8, Rd8 (41_arithmetic.md R523). -/
def execSubxReg (rs : BitVec 4) (rd : BitVec 4) (s : State) : Out :=
  aluB 2 rd ((subCore (s.readB rd) (s.readB rs) (s.flag .c)).stickyZ (s.flag .z)) s

/-- SUBS #1, ERd (41_arithmetic.md R524). -/
def execSubs1 (rd : BitVec 3) (s : State) : Out := putL 2 rd (s.readL rd - 1) noFlags s

/-- SUBS #2, ERd (41_arithmetic.md R524). -/
def execSubs2 (rd : BitVec 3) (s : State) : Out := putL 2 rd (s.readL rd - 2) noFlags s

/-- SUBS #4, ERd (41_arithmetic.md R524). -/
def execSubs4 (rd : BitVec 3) (s : State) : Out := putL 2 rd (s.readL rd - 4) noFlags s

/-- DEC.B Rd8 (41_arithmetic.md R525). -/
def execDecB (rd : BitVec 4) (s : State) : Out := stepB 2 rd (subCore (s.readB rd) 1 false) s

/-- DEC.W #1, Rd16 (41_arithmetic.md R526). -/
def execDecW1 (rd : BitVec 4) (s : State) : Out := stepW 2 rd (subCore (s.readW rd) 1 false) s

/-- DEC.W #2, Rd16 (41_arithmetic.md R526). -/
def execDecW2 (rd : BitVec 4) (s : State) : Out := stepW 2 rd (subCore (s.readW rd) 2 false) s

/-- DEC.L #1, ERd (41_arithmetic.md R527). -/
def execDecL1 (rd : BitVec 3) (s : State) : Out := stepL 2 rd (subCore (s.readL rd) 1 false) s

/-- DEC.L #2, ERd (41_arithmetic.md R527). -/
def execDecL2 (rd : BitVec 3) (s : State) : Out := stepL 2 rd (subCore (s.readL rd) 2 false) s

/-- DAS Rd8 (41_arithmetic.md R528). -/
def execDas (rd : BitVec 4) (s : State) : Out := decimalAdjust dasTable rd s

/-- CMP.B #xx:8, Rd8 (41_arithmetic.md R530). -/
def execCmpBImm (imm : BitVec 8) (rd : BitVec 4) (s : State) : Out := compare 2 (subCore (s.readB rd) imm false) s

/-- CMP.B Rs8, Rd8 (41_arithmetic.md R530). -/
def execCmpBReg (rs : BitVec 4) (rd : BitVec 4) (s : State) : Out :=
  compare 2 (subCore (s.readB rd) (s.readB rs) false) s

/-- CMP.W #xx:16, Rd16 (41_arithmetic.md R531). -/
def execCmpWImm (imm : BitVec 16) (rd : BitVec 4) (s : State) : Out := compare 4 (subCore (s.readW rd) imm false) s

/-- CMP.W Rs16, Rd16 (41_arithmetic.md R531). -/
def execCmpWReg (rs : BitVec 4) (rd : BitVec 4) (s : State) : Out :=
  compare 2 (subCore (s.readW rd) (s.readW rs) false) s

/-- CMP.L #xx:32, ERd (41_arithmetic.md R532). -/
def execCmpLImm (imm : BitVec 32) (rd : BitVec 3) (s : State) : Out := compare 6 (subCore (s.readL rd) imm false) s

/-- CMP.L ERs, ERd (41_arithmetic.md R532). -/
def execCmpLReg (rs : BitVec 3) (rd : BitVec 3) (s : State) : Out :=
  compare 2 (subCore (s.readL rd) (s.readL rs) false) s

/-- NEG.B Rd8 (41_arithmetic.md R533). -/
def execNegB (rd : BitVec 4) (s : State) : Out := aluB 2 rd (subCore 0 (s.readB rd) false) s

/-- NEG.W Rd16 (41_arithmetic.md R534). -/
def execNegW (rd : BitVec 4) (s : State) : Out := aluW 2 rd (subCore 0 (s.readW rd) false) s

/-- NEG.L ERd (41_arithmetic.md R535). -/
def execNegL (rd : BitVec 3) (s : State) : Out := aluL 2 rd (subCore 0 (s.readL rd) false) s

/-- EXTU.W Rd16 (41_arithmetic.md R536). -/
def execExtuW (rd : BitVec 4) (s : State) : Out := moveW 2 rd (((s.readW rd).extractLsb' 0 8).zeroExtend 16) s

/-- EXTU.L ERd (41_arithmetic.md R537). -/
def execExtuL (rd : BitVec 3) (s : State) : Out := moveL 2 rd (((s.readL rd).extractLsb' 0 16).zeroExtend 32) s

/-- EXTS.W Rd16 (41_arithmetic.md R538). -/
def execExtsW (rd : BitVec 4) (s : State) : Out := moveW 2 rd (((s.readW rd).extractLsb' 0 8).signExtend 16) s

/-- EXTS.L ERd (41_arithmetic.md R539). -/
def execExtsL (rd : BitVec 3) (s : State) : Out := moveL 2 rd (((s.readL rd).extractLsb' 0 16).signExtend 32) s

/-- MULXU.B Rs8, Rd16 (41_arithmetic.md R540). -/
def execMulxuB (rs : BitVec 4) (rd : BitVec 4) (s : State) : Out :=
  let r := BitVec.ofNat 16 ((s.readB rs).toNat * ((s.readW rd).extractLsb' 0 8).toNat)
  putW 2 rd r noFlags s

/-- MULXU.W Rs16, ERd (41_arithmetic.md R541). -/
def execMulxuW (rs : BitVec 4) (rd : BitVec 3) (s : State) : Out :=
  let r := BitVec.ofNat 32 ((s.readW rs).toNat * ((s.readL rd).extractLsb' 0 16).toNat)
  putL 2 rd r noFlags s

/-- MULXS.B Rs8, Rd16 (41_arithmetic.md R542). -/
def execMulxsB (rs : BitVec 4) (rd : BitVec 4) (s : State) : Out :=
  let r := BitVec.ofInt 16 ((s.readB rs).toInt * ((s.readW rd).extractLsb' 0 8).toInt)
  putW 4 rd r (nzFlags r) s

/-- MULXS.W Rs16, ERd (41_arithmetic.md R543). -/
def execMulxsW (rs : BitVec 4) (rd : BitVec 3) (s : State) : Out :=
  let r := BitVec.ofInt 32 ((s.readW rs).toInt * ((s.readL rd).extractLsb' 0 16).toInt)
  putL 4 rd r (nzFlags r) s

/-- DIVXU.B Rs8, Rd16 (41_arithmetic.md R544). -/
def execDivxuB (rs : BitVec 4) (rd : BitVec 4) (s : State) : Out :=
  let dv := s.readB rs
  let t := s.setNZ dv.msb (dv == 0)
  match divUnsigned 8 (s.readW rd).toNat dv.toNat with
  | none => .next ((t.writeW rd (Config.draw 16 .divResult s.epoch)).advance 2)
  | some (m, q) => .next ((t.writeW rd (m ++ q)).advance 2)

/-- DIVXU.W Rs16, ERd (41_arithmetic.md R545). -/
def execDivxuW (rs : BitVec 4) (rd : BitVec 3) (s : State) : Out :=
  let dv := s.readW rs
  let t := s.setNZ dv.msb (dv == 0)
  match divUnsigned 16 (s.readL rd).toNat dv.toNat with
  | none => .next ((t.writeL rd (Config.draw 32 .divResult s.epoch)).advance 2)
  | some (m, q) => .next ((t.writeL rd (m ++ q)).advance 2)

/-- DIVXS.B Rs8, Rd16 (41_arithmetic.md R546). -/
def execDivxsB (rs : BitVec 4) (rd : BitVec 4) (s : State) : Out :=
  let dv := (s.readB rs).toInt
  let dd := (s.readW rd).toInt
  match divSigned 8 dd dv with
  | none =>
    .next (((s.setNZ (s.drawBit .divN) (dv == 0)).writeW rd (Config.draw 16 .divResult s.epoch)).advance 4)
  | some (m, q) => .next (((s.setNZ (s.divNegative dd dv) (dv == 0)).writeW rd (m ++ q)).advance 4)

/-- DIVXS.W Rs16, ERd (41_arithmetic.md R547). -/
def execDivxsW (rs : BitVec 4) (rd : BitVec 3) (s : State) : Out :=
  let dv := (s.readW rs).toInt
  let dd := (s.readL rd).toInt
  match divSigned 16 dd dv with
  | none =>
    .next (((s.setNZ (s.drawBit .divN) (dv == 0)).writeL rd (Config.draw 32 .divResult s.epoch)).advance 4)
  | some (m, q) => .next (((s.setNZ (s.divNegative dd dv) (dv == 0)).writeL rd (m ++ q)).advance 4)

/-- TAS @ERr (41_arithmetic.md R548). -/
def execTas (ra : BitVec 3) (s : State) : Out :=
  match s.read8 (s.readL ra) with
  | .error f => .fault f
  | .ok v =>
    match s.write8 (some 4) (s.readL ra) (v ||| 0x80) with
    | .error f => .fault f
    | .ok t => .next ((t.setNZ0 v).advance 4)

end Sys2Proof.Machine
end

