-- ==== Sys2Proof/Machine/Bit.lean ====
section
/-!
DEFINITION. The meanings of the bit-manipulation instructions (44_bit_manipulation.md), one definition per constructor.
-/

namespace Sys2Proof.Machine

/-- BSET #xx:3, <target> (44_bit_manipulation.md R810). -/
def execBsetImm (bit : BitVec 3) (tgt : BitTarget) (s : State) : Out :=
  bitModify tgt (fun b => putBit b bit.toNat true) s

/-- BSET Rn8, <target> (44_bit_manipulation.md R810). -/
def execBsetRn (rn : BitVec 4) (tgt : BitTarget) (s : State) : Out :=
  bitModify tgt (fun b => putBit b (s.bitNumber rn).toNat true) s

/-- BNOT #xx:3, <target> (44_bit_manipulation.md R812). -/
def execBnotImm (bit : BitVec 3) (tgt : BitTarget) (s : State) : Out :=
  bitModify tgt (fun b => putBit b bit.toNat (!b.getLsbD bit.toNat)) s

/-- BNOT Rn8, <target> (44_bit_manipulation.md R812). -/
def execBnotRn (rn : BitVec 4) (tgt : BitTarget) (s : State) : Out :=
  bitModify tgt (fun b => putBit b (s.bitNumber rn).toNat (!b.getLsbD (s.bitNumber rn).toNat)) s

/-- BCLR #xx:3, <target> (44_bit_manipulation.md R811). -/
def execBclrImm (bit : BitVec 3) (tgt : BitTarget) (s : State) : Out :=
  bitModify tgt (fun b => putBit b bit.toNat false) s

/-- BCLR Rn8, <target> (44_bit_manipulation.md R811). -/
def execBclrRn (rn : BitVec 4) (tgt : BitTarget) (s : State) : Out :=
  bitModify tgt (fun b => putBit b (s.bitNumber rn).toNat false) s

/-- BTST #xx:3, <target> (44_bit_manipulation.md R813). -/
def execBtstImm (bit : BitVec 3) (tgt : BitTarget) (s : State) : Out :=
  bitTest tgt .z (fun b => !b.getLsbD bit.toNat) s

/-- BTST Rn8, <target> (44_bit_manipulation.md R813). -/
def execBtstRn (rn : BitVec 4) (tgt : BitTarget) (s : State) : Out :=
  bitTest tgt .z (fun b => !b.getLsbD (s.bitNumber rn).toNat) s

/-- BOR #xx:3, <target> (44_bit_manipulation.md R820). -/
def execBor (bit : BitVec 3) (tgt : BitTarget) (s : State) : Out :=
  bitTest tgt .c (fun b => s.flag .c || b.getLsbD bit.toNat) s

/-- BIOR #xx:3, <target> (44_bit_manipulation.md R821). -/
def execBior (bit : BitVec 3) (tgt : BitTarget) (s : State) : Out :=
  bitTest tgt .c (fun b => s.flag .c || !b.getLsbD bit.toNat) s

/-- BXOR #xx:3, <target> (44_bit_manipulation.md R822). -/
def execBxor (bit : BitVec 3) (tgt : BitTarget) (s : State) : Out :=
  bitTest tgt .c (fun b => s.flag .c ^^ b.getLsbD bit.toNat) s

/-- BIXOR #xx:3, <target> (44_bit_manipulation.md R823). -/
def execBixor (bit : BitVec 3) (tgt : BitTarget) (s : State) : Out :=
  bitTest tgt .c (fun b => s.flag .c ^^ !b.getLsbD bit.toNat) s

/-- BAND #xx:3, <target> (44_bit_manipulation.md R818). -/
def execBand (bit : BitVec 3) (tgt : BitTarget) (s : State) : Out :=
  bitTest tgt .c (fun b => s.flag .c && b.getLsbD bit.toNat) s

/-- BIAND #xx:3, <target> (44_bit_manipulation.md R819). -/
def execBiand (bit : BitVec 3) (tgt : BitTarget) (s : State) : Out :=
  bitTest tgt .c (fun b => s.flag .c && !b.getLsbD bit.toNat) s

/-- BLD #xx:3, <target> (44_bit_manipulation.md R814). -/
def execBld (bit : BitVec 3) (tgt : BitTarget) (s : State) : Out := bitTest tgt .c (fun b => b.getLsbD bit.toNat) s

/-- BILD #xx:3, <target> (44_bit_manipulation.md R815). -/
def execBild (bit : BitVec 3) (tgt : BitTarget) (s : State) : Out := bitTest tgt .c (fun b => !b.getLsbD bit.toNat) s

/-- BST #xx:3, <target> (44_bit_manipulation.md R816). -/
def execBst (bit : BitVec 3) (tgt : BitTarget) (s : State) : Out :=
  bitModify tgt (fun b => putBit b bit.toNat (s.flag .c)) s

/-- BIST #xx:3, <target> (44_bit_manipulation.md R817). -/
def execBist (bit : BitVec 3) (tgt : BitTarget) (s : State) : Out :=
  bitModify tgt (fun b => putBit b bit.toNat (!s.flag .c)) s

end Sys2Proof.Machine
end

