-- ==== Sys2Proof/Machine/Branch.lean ====
section
/-!
DEFINITION. The meanings of Bcc, JMP, BSR, JSR and RTS (45_branch.md), one definition per constructor.
-/

namespace Sys2Proof.Machine

/-- BRA d:8 (45_branch.md R910). -/
def execBra8 (disp : BitVec 8) (s : State) : Out := branch 2 .always disp s

/-- BRA d:16 (45_branch.md R910). -/
def execBra16 (disp : BitVec 16) (s : State) : Out := branch 4 .always disp s

/-- BRN d:8 (45_branch.md R911). -/
def execBrn8 (disp : BitVec 8) (s : State) : Out := branch 2 .never disp s

/-- BRN d:16 (45_branch.md R911). -/
def execBrn16 (disp : BitVec 16) (s : State) : Out := branch 4 .never disp s

/-- BHI d:8 (45_branch.md R912). -/
def execBhi8 (disp : BitVec 8) (s : State) : Out := branch 2 .hi disp s

/-- BHI d:16 (45_branch.md R912). -/
def execBhi16 (disp : BitVec 16) (s : State) : Out := branch 4 .hi disp s

/-- BLS d:8 (45_branch.md R913). -/
def execBls8 (disp : BitVec 8) (s : State) : Out := branch 2 .ls disp s

/-- BLS d:16 (45_branch.md R913). -/
def execBls16 (disp : BitVec 16) (s : State) : Out := branch 4 .ls disp s

/-- BCC d:8 (45_branch.md R914). -/
def execBcc8 (disp : BitVec 8) (s : State) : Out := branch 2 .cc disp s

/-- BCC d:16 (45_branch.md R914). -/
def execBcc16 (disp : BitVec 16) (s : State) : Out := branch 4 .cc disp s

/-- BCS d:8 (45_branch.md R915). -/
def execBcs8 (disp : BitVec 8) (s : State) : Out := branch 2 .cs disp s

/-- BCS d:16 (45_branch.md R915). -/
def execBcs16 (disp : BitVec 16) (s : State) : Out := branch 4 .cs disp s

/-- BNE d:8 (45_branch.md R916). -/
def execBne8 (disp : BitVec 8) (s : State) : Out := branch 2 .ne disp s

/-- BNE d:16 (45_branch.md R916). -/
def execBne16 (disp : BitVec 16) (s : State) : Out := branch 4 .ne disp s

/-- BEQ d:8 (45_branch.md R917). -/
def execBeq8 (disp : BitVec 8) (s : State) : Out := branch 2 .eq disp s

/-- BEQ d:16 (45_branch.md R917). -/
def execBeq16 (disp : BitVec 16) (s : State) : Out := branch 4 .eq disp s

/-- BVC d:8 (45_branch.md R918). -/
def execBvc8 (disp : BitVec 8) (s : State) : Out := branch 2 .vc disp s

/-- BVC d:16 (45_branch.md R918). -/
def execBvc16 (disp : BitVec 16) (s : State) : Out := branch 4 .vc disp s

/-- BVS d:8 (45_branch.md R919). -/
def execBvs8 (disp : BitVec 8) (s : State) : Out := branch 2 .vs disp s

/-- BVS d:16 (45_branch.md R919). -/
def execBvs16 (disp : BitVec 16) (s : State) : Out := branch 4 .vs disp s

/-- BPL d:8 (45_branch.md R920). -/
def execBpl8 (disp : BitVec 8) (s : State) : Out := branch 2 .pl disp s

/-- BPL d:16 (45_branch.md R920). -/
def execBpl16 (disp : BitVec 16) (s : State) : Out := branch 4 .pl disp s

/-- BMI d:8 (45_branch.md R921). -/
def execBmi8 (disp : BitVec 8) (s : State) : Out := branch 2 .mi disp s

/-- BMI d:16 (45_branch.md R921). -/
def execBmi16 (disp : BitVec 16) (s : State) : Out := branch 4 .mi disp s

/-- BGE d:8 (45_branch.md R922). -/
def execBge8 (disp : BitVec 8) (s : State) : Out := branch 2 .ge disp s

/-- BGE d:16 (45_branch.md R922). -/
def execBge16 (disp : BitVec 16) (s : State) : Out := branch 4 .ge disp s

/-- BLT d:8 (45_branch.md R923). -/
def execBlt8 (disp : BitVec 8) (s : State) : Out := branch 2 .lt disp s

/-- BLT d:16 (45_branch.md R923). -/
def execBlt16 (disp : BitVec 16) (s : State) : Out := branch 4 .lt disp s

/-- BGT d:8 (45_branch.md R924). -/
def execBgt8 (disp : BitVec 8) (s : State) : Out := branch 2 .gt disp s

/-- BGT d:16 (45_branch.md R924). -/
def execBgt16 (disp : BitVec 16) (s : State) : Out := branch 4 .gt disp s

/-- BLE d:8 (45_branch.md R925). -/
def execBle8 (disp : BitVec 8) (s : State) : Out := branch 2 .le disp s

/-- BLE d:16 (45_branch.md R925). -/
def execBle16 (disp : BitVec 16) (s : State) : Out := branch 4 .le disp s

/-- JMP @ERr (45_branch.md R930). -/
def execJmpInd (ra : BitVec 3) (s : State) : Out := Out.of (s.jumpTo (s.eaInd ra))

/-- JMP @aa:24 (45_branch.md R930). -/
def execJmpAbs24 (aa : BitVec 24) (s : State) : Out := Out.of (s.jumpTo (eaAbs24 aa))

/-- JMP @@aa:8 (45_branch.md R930). -/
def execJmpMemInd (aa : BitVec 8) (s : State) : Out :=
  match s.memIndTarget aa with
  | .error f => .fault f
  | .ok target => Out.of (s.jumpTo target)

/-- BSR d:8 (45_branch.md R931). -/
def execBsr8 (disp : BitVec 8) (s : State) : Out := call 2 (s.pcRelTarget 2 disp) s

/-- BSR d:16 (45_branch.md R931). -/
def execBsr16 (disp : BitVec 16) (s : State) : Out := call 4 (s.pcRelTarget 4 disp) s

/-- JSR @ERr (45_branch.md R932). -/
def execJsrInd (ra : BitVec 3) (s : State) : Out := call 2 (s.eaInd ra) s

/-- JSR @aa:24 (45_branch.md R932). -/
def execJsrAbs24 (aa : BitVec 24) (s : State) : Out := call 4 (eaAbs24 aa) s

/-- JSR @@aa:8 (45_branch.md R932). -/
def execJsrMemInd (aa : BitVec 8) (s : State) : Out :=
  match s.memIndTarget aa with
  | .error f => .fault f
  | .ok target => call 2 target s

/-- RTS (45_branch.md R933). -/
def execRts (s : State) : Out :=
  match s.pop32 with
  | .error f => .fault f
  | .ok (v, t) => Out.of (t.jumpTo (s.addr v))

end Sys2Proof.Machine
end

