-- ==== Sys2Proof/Machine/DataTransfer.lean ====
section
/-!
DEFINITION. The meanings of MOV, MOVFPE, MOVTPE, LDM.L, STM.L and EEPMOV (40_data_transfer.md), one definition per constructor.
-/

namespace Sys2Proof.Machine

/-- MOV.B Rs8, Rd8 (40_data_transfer.md R401). -/
def execMovBReg (rs : BitVec 4) (rd : BitVec 4) (s : State) : Out := moveB 2 rd (s.readB rs) s

/-- MOV.W Rs16, Rd16 (40_data_transfer.md R402). -/
def execMovWReg (rs : BitVec 4) (rd : BitVec 4) (s : State) : Out := moveW 2 rd (s.readW rs) s

/-- MOV.L ERs, ERd (40_data_transfer.md R403). -/
def execMovLReg (rs : BitVec 3) (rd : BitVec 3) (s : State) : Out := moveL 2 rd (s.readL rs) s

/-- MOV.B #xx:8, Rd8 (40_data_transfer.md R404). -/
def execMovBImm (imm : BitVec 8) (rd : BitVec 4) (s : State) : Out := moveB 2 rd imm s

/-- MOV.W #xx:16, Rd16 (40_data_transfer.md R405). -/
def execMovWImm (imm : BitVec 16) (rd : BitVec 4) (s : State) : Out := moveW 4 rd imm s

/-- MOV.L #xx:32, ERd (40_data_transfer.md R406). -/
def execMovLImm (imm : BitVec 32) (rd : BitVec 3) (s : State) : Out := moveL 6 rd imm s

/-- MOV.B <ea>, Rd (40_data_transfer.md R407). -/
def execMovBLoad (mem : Mode) (rd : BitVec 4) (s : State) : Out := loadB mem.len mem rd s

/-- MOV.B Rs, <ea> (40_data_transfer.md R410). -/
def execMovBStore (rs : BitVec 4) (mem : Mode) (s : State) : Out := storeB mem.len rs mem s

/-- MOV.W <ea>, Rd (40_data_transfer.md R408). -/
def execMovWLoad (mem : Mode) (rd : BitVec 4) (s : State) : Out := loadW mem.len mem rd s

/-- MOV.W Rs, <ea> (40_data_transfer.md R411). -/
def execMovWStore (rs : BitVec 4) (mem : Mode) (s : State) : Out := storeW mem.len rs mem s

/-- MOV.L <ea>, Rd (40_data_transfer.md R409). -/
def execMovLLoad (mem : Mode) (rd : BitVec 3) (s : State) : Out := loadL (mem.len + 2) mem rd s

/-- MOV.L Rs, <ea> (40_data_transfer.md R412). -/
def execMovLStore (rs : BitVec 3) (mem : Mode) (s : State) : Out := storeL (mem.len + 2) rs mem s

/-- MOVFPE @aa:16, Rd8 (40_data_transfer.md R413). -/
def execMovfpe (aa : BitVec 16) (rd : BitVec 4) (s : State) : Out :=
  if s.params.hasEClock then loadB 4 (.abs16 aa) rd s else .fault (s.unmodelled .movfpe)

/-- MOVTPE Rs8, @aa:16 (40_data_transfer.md R414). -/
def execMovtpe (rs : BitVec 4) (aa : BitVec 16) (s : State) : Out :=
  if s.params.hasEClock then storeB 4 rs (.abs16 aa) s else .fault (s.unmodelled .movtpe)

/-- LDM.L @ER7+, (ER(d-1)-ERd) (40_data_transfer.md R415). -/
def execLdm2 (rd : BitVec 3) (s : State) : Out := loadList [rd, rd - 1] s

/-- STM.L (ERs-ER(s+1)), @-ER7 (40_data_transfer.md R416). -/
def execStm2 (rs : BitVec 3) (s : State) : Out := storeList [rs, rs + 1] s

/-- LDM.L @ER7+, (ER(d-2)-ERd) (40_data_transfer.md R415). -/
def execLdm3 (rd : BitVec 3) (s : State) : Out := loadList [rd, rd - 1, rd - 2] s

/-- STM.L (ERs-ER(s+2)), @-ER7 (40_data_transfer.md R416). -/
def execStm3 (rs : BitVec 3) (s : State) : Out := storeList [rs, rs + 1, rs + 2] s

/-- LDM.L @ER7+, (ER(d-3)-ERd) (40_data_transfer.md R415). -/
def execLdm4 (rd : BitVec 3) (s : State) : Out := loadList [rd, rd - 1, rd - 2, rd - 3] s

/-- STM.L (ERs-ER(s+3)), @-ER7 (40_data_transfer.md R416). -/
def execStm4 (rs : BitVec 3) (s : State) : Out := storeList [rs, rs + 1, rs + 2, rs + 3] s

/-- EEPMOV.B (40_data_transfer.md R417). No boundary inside. -/
def execEepmovB (s : State) : Out :=
  match moveBytes (s.readB 12).toNat s with
  | .error f => .fault f
  | .ok t => .next (t.advance 4)

/-- EEPMOV.W (40_data_transfer.md R418). One byte per execution; `pc` stays until the count is 0, so a boundary lies after each byte.
Log 10. -/
def execEepmovW (s : State) : Out :=
  if s.readW 4 = 0 then .next ((s.setMoving false).advance 4)
  else
    match s.moveByte with
    | .error f => .fault f
    | .ok t =>
      if t.readW 4 = 1 then .next (((t.writeW 4 0).setMoving false).advance 4)
      else .next ((t.writeW 4 (t.readW 4 - 1)).setMoving true)

end Sys2Proof.Machine
end

