-- ==== Sys2Proof/Machine/Logic.lean ====
section
/-!
DEFINITION. The meanings of AND, OR, XOR and NOT (42_logic.md), one definition per constructor.
-/

namespace Sys2Proof.Machine

/-- AND.B #xx:8, Rd8 (42_logic.md R601). -/
def execAndBImm (imm : BitVec 8) (rd : BitVec 4) (s : State) : Out := moveB 2 rd (s.readB rd &&& imm) s

/-- AND.B Rs8, Rd8 (42_logic.md R601). -/
def execAndBReg (rs : BitVec 4) (rd : BitVec 4) (s : State) : Out := moveB 2 rd (s.readB rd &&& s.readB rs) s

/-- AND.W #xx:16, Rd16 (42_logic.md R602). -/
def execAndWImm (imm : BitVec 16) (rd : BitVec 4) (s : State) : Out := moveW 4 rd (s.readW rd &&& imm) s

/-- AND.W Rs16, Rd16 (42_logic.md R602). -/
def execAndWReg (rs : BitVec 4) (rd : BitVec 4) (s : State) : Out := moveW 2 rd (s.readW rd &&& s.readW rs) s

/-- AND.L #xx:32, ERd (42_logic.md R603). -/
def execAndLImm (imm : BitVec 32) (rd : BitVec 3) (s : State) : Out := moveL 6 rd (s.readL rd &&& imm) s

/-- AND.L ERs, ERd (42_logic.md R603). -/
def execAndLReg (rs : BitVec 3) (rd : BitVec 3) (s : State) : Out := moveL 4 rd (s.readL rd &&& s.readL rs) s

/-- OR.B #xx:8, Rd8 (42_logic.md R604). -/
def execOrBImm (imm : BitVec 8) (rd : BitVec 4) (s : State) : Out := moveB 2 rd (s.readB rd ||| imm) s

/-- OR.B Rs8, Rd8 (42_logic.md R604). -/
def execOrBReg (rs : BitVec 4) (rd : BitVec 4) (s : State) : Out := moveB 2 rd (s.readB rd ||| s.readB rs) s

/-- OR.W #xx:16, Rd16 (42_logic.md R605). -/
def execOrWImm (imm : BitVec 16) (rd : BitVec 4) (s : State) : Out := moveW 4 rd (s.readW rd ||| imm) s

/-- OR.W Rs16, Rd16 (42_logic.md R605). -/
def execOrWReg (rs : BitVec 4) (rd : BitVec 4) (s : State) : Out := moveW 2 rd (s.readW rd ||| s.readW rs) s

/-- OR.L #xx:32, ERd (42_logic.md R606). -/
def execOrLImm (imm : BitVec 32) (rd : BitVec 3) (s : State) : Out := moveL 6 rd (s.readL rd ||| imm) s

/-- OR.L ERs, ERd (42_logic.md R606). -/
def execOrLReg (rs : BitVec 3) (rd : BitVec 3) (s : State) : Out := moveL 4 rd (s.readL rd ||| s.readL rs) s

/-- XOR.B #xx:8, Rd8 (42_logic.md R607). -/
def execXorBImm (imm : BitVec 8) (rd : BitVec 4) (s : State) : Out := moveB 2 rd (s.readB rd ^^^ imm) s

/-- XOR.B Rs8, Rd8 (42_logic.md R607). -/
def execXorBReg (rs : BitVec 4) (rd : BitVec 4) (s : State) : Out := moveB 2 rd (s.readB rd ^^^ s.readB rs) s

/-- XOR.W #xx:16, Rd16 (42_logic.md R608). -/
def execXorWImm (imm : BitVec 16) (rd : BitVec 4) (s : State) : Out := moveW 4 rd (s.readW rd ^^^ imm) s

/-- XOR.W Rs16, Rd16 (42_logic.md R608). -/
def execXorWReg (rs : BitVec 4) (rd : BitVec 4) (s : State) : Out := moveW 2 rd (s.readW rd ^^^ s.readW rs) s

/-- XOR.L #xx:32, ERd (42_logic.md R609). -/
def execXorLImm (imm : BitVec 32) (rd : BitVec 3) (s : State) : Out := moveL 6 rd (s.readL rd ^^^ imm) s

/-- XOR.L ERs, ERd (42_logic.md R609). -/
def execXorLReg (rs : BitVec 3) (rd : BitVec 3) (s : State) : Out := moveL 4 rd (s.readL rd ^^^ s.readL rs) s

/-- NOT.B Rd8 (42_logic.md R610). -/
def execNotB (rd : BitVec 4) (s : State) : Out := moveB 2 rd (~~~(s.readB rd)) s

/-- NOT.W Rd16 (42_logic.md R611). -/
def execNotW (rd : BitVec 4) (s : State) : Out := moveW 2 rd (~~~(s.readW rd)) s

/-- NOT.L ERd (42_logic.md R612). -/
def execNotL (rd : BitVec 3) (s : State) : Out := moveL 2 rd (~~~(s.readL rd)) s

end Sys2Proof.Machine
end

