-- ==== Sys2Proof/Machine/Shift.lean ====
section
/-!
DEFINITION. The meanings of the shifts and rotates (43_shift_rotate.md), one definition per constructor.
-/

namespace Sys2Proof.Machine

/-- SHLL.B Rd8 (43_shift_rotate.md R712). -/
def execShllB (rd : BitVec 4) (s : State) : Out := shiftB .shll 1 rd s

/-- SHLL.W Rd16 (43_shift_rotate.md R712). -/
def execShllW (rd : BitVec 4) (s : State) : Out := shiftW .shll 1 rd s

/-- SHLL.L ERd (43_shift_rotate.md R712). -/
def execShllL (rd : BitVec 3) (s : State) : Out := shiftL .shll 1 rd s

/-- SHLL.B #2, Rd8 (43_shift_rotate.md R712). -/
def execShllB2 (rd : BitVec 4) (s : State) : Out := shiftB .shll 2 rd s

/-- SHLL.W #2, Rd16 (43_shift_rotate.md R712). -/
def execShllW2 (rd : BitVec 4) (s : State) : Out := shiftW .shll 2 rd s

/-- SHLL.L #2, ERd (43_shift_rotate.md R712). -/
def execShllL2 (rd : BitVec 3) (s : State) : Out := shiftL .shll 2 rd s

/-- SHAL.B Rd8 (43_shift_rotate.md R710). -/
def execShalB (rd : BitVec 4) (s : State) : Out := shiftB .shal 1 rd s

/-- SHAL.W Rd16 (43_shift_rotate.md R710). -/
def execShalW (rd : BitVec 4) (s : State) : Out := shiftW .shal 1 rd s

/-- SHAL.L ERd (43_shift_rotate.md R710). -/
def execShalL (rd : BitVec 3) (s : State) : Out := shiftL .shal 1 rd s

/-- SHAL.B #2, Rd8 (43_shift_rotate.md R710). -/
def execShalB2 (rd : BitVec 4) (s : State) : Out := shiftB .shal 2 rd s

/-- SHAL.W #2, Rd16 (43_shift_rotate.md R710). -/
def execShalW2 (rd : BitVec 4) (s : State) : Out := shiftW .shal 2 rd s

/-- SHAL.L #2, ERd (43_shift_rotate.md R710). -/
def execShalL2 (rd : BitVec 3) (s : State) : Out := shiftL .shal 2 rd s

/-- SHLR.B Rd8 (43_shift_rotate.md R713). -/
def execShlrB (rd : BitVec 4) (s : State) : Out := shiftB .shlr 1 rd s

/-- SHLR.W Rd16 (43_shift_rotate.md R713). -/
def execShlrW (rd : BitVec 4) (s : State) : Out := shiftW .shlr 1 rd s

/-- SHLR.L ERd (43_shift_rotate.md R713). -/
def execShlrL (rd : BitVec 3) (s : State) : Out := shiftL .shlr 1 rd s

/-- SHLR.B #2, Rd8 (43_shift_rotate.md R713). -/
def execShlrB2 (rd : BitVec 4) (s : State) : Out := shiftB .shlr 2 rd s

/-- SHLR.W #2, Rd16 (43_shift_rotate.md R713). -/
def execShlrW2 (rd : BitVec 4) (s : State) : Out := shiftW .shlr 2 rd s

/-- SHLR.L #2, ERd (43_shift_rotate.md R713). -/
def execShlrL2 (rd : BitVec 3) (s : State) : Out := shiftL .shlr 2 rd s

/-- SHAR.B Rd8 (43_shift_rotate.md R711). -/
def execSharB (rd : BitVec 4) (s : State) : Out := shiftB .shar 1 rd s

/-- SHAR.W Rd16 (43_shift_rotate.md R711). -/
def execSharW (rd : BitVec 4) (s : State) : Out := shiftW .shar 1 rd s

/-- SHAR.L ERd (43_shift_rotate.md R711). -/
def execSharL (rd : BitVec 3) (s : State) : Out := shiftL .shar 1 rd s

/-- SHAR.B #2, Rd8 (43_shift_rotate.md R711). -/
def execSharB2 (rd : BitVec 4) (s : State) : Out := shiftB .shar 2 rd s

/-- SHAR.W #2, Rd16 (43_shift_rotate.md R711). -/
def execSharW2 (rd : BitVec 4) (s : State) : Out := shiftW .shar 2 rd s

/-- SHAR.L #2, ERd (43_shift_rotate.md R711). -/
def execSharL2 (rd : BitVec 3) (s : State) : Out := shiftL .shar 2 rd s

/-- ROTXL.B Rd8 (43_shift_rotate.md R716). -/
def execRotxlB (rd : BitVec 4) (s : State) : Out := shiftB .rotxl 1 rd s

/-- ROTXL.W Rd16 (43_shift_rotate.md R716). -/
def execRotxlW (rd : BitVec 4) (s : State) : Out := shiftW .rotxl 1 rd s

/-- ROTXL.L ERd (43_shift_rotate.md R716). -/
def execRotxlL (rd : BitVec 3) (s : State) : Out := shiftL .rotxl 1 rd s

/-- ROTXL.B #2, Rd8 (43_shift_rotate.md R716). -/
def execRotxlB2 (rd : BitVec 4) (s : State) : Out := shiftB .rotxl 2 rd s

/-- ROTXL.W #2, Rd16 (43_shift_rotate.md R716). -/
def execRotxlW2 (rd : BitVec 4) (s : State) : Out := shiftW .rotxl 2 rd s

/-- ROTXL.L #2, ERd (43_shift_rotate.md R716). -/
def execRotxlL2 (rd : BitVec 3) (s : State) : Out := shiftL .rotxl 2 rd s

/-- ROTL.B Rd8 (43_shift_rotate.md R714). -/
def execRotlB (rd : BitVec 4) (s : State) : Out := shiftB .rotl 1 rd s

/-- ROTL.W Rd16 (43_shift_rotate.md R714). -/
def execRotlW (rd : BitVec 4) (s : State) : Out := shiftW .rotl 1 rd s

/-- ROTL.L ERd (43_shift_rotate.md R714). -/
def execRotlL (rd : BitVec 3) (s : State) : Out := shiftL .rotl 1 rd s

/-- ROTL.B #2, Rd8 (43_shift_rotate.md R714). -/
def execRotlB2 (rd : BitVec 4) (s : State) : Out := shiftB .rotl 2 rd s

/-- ROTL.W #2, Rd16 (43_shift_rotate.md R714). -/
def execRotlW2 (rd : BitVec 4) (s : State) : Out := shiftW .rotl 2 rd s

/-- ROTL.L #2, ERd (43_shift_rotate.md R714). -/
def execRotlL2 (rd : BitVec 3) (s : State) : Out := shiftL .rotl 2 rd s

/-- ROTXR.B Rd8 (43_shift_rotate.md R717). -/
def execRotxrB (rd : BitVec 4) (s : State) : Out := shiftB .rotxr 1 rd s

/-- ROTXR.W Rd16 (43_shift_rotate.md R717). -/
def execRotxrW (rd : BitVec 4) (s : State) : Out := shiftW .rotxr 1 rd s

/-- ROTXR.L ERd (43_shift_rotate.md R717). -/
def execRotxrL (rd : BitVec 3) (s : State) : Out := shiftL .rotxr 1 rd s

/-- ROTXR.B #2, Rd8 (43_shift_rotate.md R717). -/
def execRotxrB2 (rd : BitVec 4) (s : State) : Out := shiftB .rotxr 2 rd s

/-- ROTXR.W #2, Rd16 (43_shift_rotate.md R717). -/
def execRotxrW2 (rd : BitVec 4) (s : State) : Out := shiftW .rotxr 2 rd s

/-- ROTXR.L #2, ERd (43_shift_rotate.md R717). -/
def execRotxrL2 (rd : BitVec 3) (s : State) : Out := shiftL .rotxr 2 rd s

/-- ROTR.B Rd8 (43_shift_rotate.md R715). -/
def execRotrB (rd : BitVec 4) (s : State) : Out := shiftB .rotr 1 rd s

/-- ROTR.W Rd16 (43_shift_rotate.md R715). -/
def execRotrW (rd : BitVec 4) (s : State) : Out := shiftW .rotr 1 rd s

/-- ROTR.L ERd (43_shift_rotate.md R715). -/
def execRotrL (rd : BitVec 3) (s : State) : Out := shiftL .rotr 1 rd s

/-- ROTR.B #2, Rd8 (43_shift_rotate.md R715). -/
def execRotrB2 (rd : BitVec 4) (s : State) : Out := shiftB .rotr 2 rd s

/-- ROTR.W #2, Rd16 (43_shift_rotate.md R715). -/
def execRotrW2 (rd : BitVec 4) (s : State) : Out := shiftW .rotr 2 rd s

/-- ROTR.L #2, ERd (43_shift_rotate.md R715). -/
def execRotrL2 (rd : BitVec 3) (s : State) : Out := shiftL .rotr 2 rd s

end Sys2Proof.Machine
end

