-- ==== Sys2Proof/Machine/System.lean ====
section
/-!
DEFINITION. The meanings of NOP, TRAPA, RTE, SLEEP, LDC, STC, ANDC, ORC and XORC (46_system_control.md), one definition per constructor.
-/

namespace Sys2Proof.Machine

/-- NOP (46_system_control.md R1023). -/
def execNop (s : State) : Out := .next (s.advance 2)

/-- TRAPA #x:2 (46_system_control.md R1010). -/
def execTrapa (tn : BitVec 2) (s : State) : Out := Out.of (s.exceptionEntry (some 2) (8 + tn.toNat) (s.pcNext 2) none)

/-- RTE (46_system_control.md R1011). -/
def execRte (s : State) : Out := Out.of s.exceptionReturn

/-- SLEEP (46_system_control.md R1012). -/
def execSleep (s : State) : Out := .next ((s.advance 2).setSleeping true)

/-- LDC #xx:8, CCR (46_system_control.md R1013). -/
def execLdcImmCcr (imm : BitVec 8) (s : State) : Out := putCcr 2 imm s

/-- ANDC #xx:8, CCR (46_system_control.md R1017). -/
def execAndcCcr (imm : BitVec 8) (s : State) : Out := putCcr 2 (s.ccrImage &&& imm) s

/-- ORC #xx:8, CCR (46_system_control.md R1019). -/
def execOrcCcr (imm : BitVec 8) (s : State) : Out := putCcr 2 (s.ccrImage ||| imm) s

/-- XORC #xx:8, CCR (46_system_control.md R1021). -/
def execXorcCcr (imm : BitVec 8) (s : State) : Out := putCcr 2 (s.ccrImage ^^^ imm) s

/-- LDC Rs8, CCR (46_system_control.md R1013). -/
def execLdcRegCcr (rs : BitVec 4) (s : State) : Out := putCcr 2 (s.readB rs) s

/-- STC CCR, Rd8 (46_system_control.md R1015). -/
def execStcRegCcr (rd : BitVec 4) (s : State) : Out := putB 2 rd s.ccrImage noFlags s

/-- LDC.W <ea>, CCR (46_system_control.md R1013). -/
def execLdcWCcr (mem : Mode) (s : State) : Out := loadControl (mem.len + 2) mem State.writeCcr s

/-- STC.W CCR, <ea> (46_system_control.md R1015). -/
def execStcWCcr (mem : Mode) (s : State) : Out := storeControl (mem.len + 2) mem s.ccrImage s

/-- LDC #xx:8, EXR (46_system_control.md R1014). -/
def execLdcImmExr (imm : BitVec 8) (s : State) : Out := putExr 4 imm s

/-- ANDC #xx:8, EXR (46_system_control.md R1018). -/
def execAndcExr (imm : BitVec 8) (s : State) : Out := putExr 4 (s.exr &&& imm) s

/-- ORC #xx:8, EXR (46_system_control.md R1020). -/
def execOrcExr (imm : BitVec 8) (s : State) : Out := putExr 4 (s.exr ||| imm) s

/-- XORC #xx:8, EXR (46_system_control.md R1022). -/
def execXorcExr (imm : BitVec 8) (s : State) : Out := putExr 4 (s.exr ^^^ imm) s

/-- LDC Rs8, EXR (46_system_control.md R1014). -/
def execLdcRegExr (rs : BitVec 4) (s : State) : Out := putExr 2 (s.readB rs) s

/-- STC EXR, Rd8 (46_system_control.md R1016). -/
def execStcRegExr (rd : BitVec 4) (s : State) : Out := putB 2 rd s.exr noFlags s

/-- LDC.W <ea>, EXR (46_system_control.md R1014). -/
def execLdcWExr (mem : Mode) (s : State) : Out := loadControl (mem.len + 2) mem State.writeExr s

/-- STC.W EXR, <ea> (46_system_control.md R1016). -/
def execStcWExr (mem : Mode) (s : State) : Out := storeControl (mem.len + 2) mem s.exr s

end Sys2Proof.Machine
end

