-- ==== Sys2Proof/Machine/Dispatch.lean ====
section
/-!
DEFINITION. Dispatch: one arm per constructor, each one call of its meaning.
-/

namespace Sys2Proof.Machine

def exec (i : Instr) (s : State) : Host.Outcome State Fault Refusal :=
  match i with
  | .nop => Sys2Proof.Machine.execNop s
  | .movBReg rs rd => Sys2Proof.Machine.execMovBReg rs rd s
  | .movWReg rs rd => Sys2Proof.Machine.execMovWReg rs rd s
  | .movLReg rs rd => Sys2Proof.Machine.execMovLReg rs rd s
  | .movBImm imm rd => Sys2Proof.Machine.execMovBImm imm rd s
  | .movWImm imm rd => Sys2Proof.Machine.execMovWImm imm rd s
  | .movLImm imm rd => Sys2Proof.Machine.execMovLImm imm rd s
  | .movBLoad mem rd => Sys2Proof.Machine.execMovBLoad mem rd s
  | .movBStore rs mem => Sys2Proof.Machine.execMovBStore rs mem s
  | .movWLoad mem rd => Sys2Proof.Machine.execMovWLoad mem rd s
  | .movWStore rs mem => Sys2Proof.Machine.execMovWStore rs mem s
  | .movLLoad mem rd => Sys2Proof.Machine.execMovLLoad mem rd s
  | .movLStore rs mem => Sys2Proof.Machine.execMovLStore rs mem s
  | .movfpe aa rd => Sys2Proof.Machine.execMovfpe aa rd s
  | .movtpe rs aa => Sys2Proof.Machine.execMovtpe rs aa s
  | .ldm2 rd => Sys2Proof.Machine.execLdm2 rd s
  | .stm2 rs => Sys2Proof.Machine.execStm2 rs s
  | .ldm3 rd => Sys2Proof.Machine.execLdm3 rd s
  | .stm3 rs => Sys2Proof.Machine.execStm3 rs s
  | .ldm4 rd => Sys2Proof.Machine.execLdm4 rd s
  | .stm4 rs => Sys2Proof.Machine.execStm4 rs s
  | .eepmovB => Sys2Proof.Machine.execEepmovB s
  | .eepmovW => Sys2Proof.Machine.execEepmovW s
  | .addBImm imm rd => Sys2Proof.Machine.execAddBImm imm rd s
  | .addBReg rs rd => Sys2Proof.Machine.execAddBReg rs rd s
  | .addWImm imm rd => Sys2Proof.Machine.execAddWImm imm rd s
  | .addWReg rs rd => Sys2Proof.Machine.execAddWReg rs rd s
  | .addLImm imm rd => Sys2Proof.Machine.execAddLImm imm rd s
  | .addLReg rs rd => Sys2Proof.Machine.execAddLReg rs rd s
  | .addxImm imm rd => Sys2Proof.Machine.execAddxImm imm rd s
  | .addxReg rs rd => Sys2Proof.Machine.execAddxReg rs rd s
  | .adds1 rd => Sys2Proof.Machine.execAdds1 rd s
  | .adds2 rd => Sys2Proof.Machine.execAdds2 rd s
  | .adds4 rd => Sys2Proof.Machine.execAdds4 rd s
  | .incB rd => Sys2Proof.Machine.execIncB rd s
  | .incW1 rd => Sys2Proof.Machine.execIncW1 rd s
  | .incW2 rd => Sys2Proof.Machine.execIncW2 rd s
  | .incL1 rd => Sys2Proof.Machine.execIncL1 rd s
  | .incL2 rd => Sys2Proof.Machine.execIncL2 rd s
  | .daa rd => Sys2Proof.Machine.execDaa rd s
  | .subBReg rs rd => Sys2Proof.Machine.execSubBReg rs rd s
  | .subWImm imm rd => Sys2Proof.Machine.execSubWImm imm rd s
  | .subWReg rs rd => Sys2Proof.Machine.execSubWReg rs rd s
  | .subLImm imm rd => Sys2Proof.Machine.execSubLImm imm rd s
  | .subLReg rs rd => Sys2Proof.Machine.execSubLReg rs rd s
  | .subxImm imm rd => Sys2Proof.Machine.execSubxImm imm rd s
  | .subxReg rs rd => Sys2Proof.Machine.execSubxReg rs rd s
  | .subs1 rd => Sys2Proof.Machine.execSubs1 rd s
  | .subs2 rd => Sys2Proof.Machine.execSubs2 rd s
  | .subs4 rd => Sys2Proof.Machine.execSubs4 rd s
  | .decB rd => Sys2Proof.Machine.execDecB rd s
  | .decW1 rd => Sys2Proof.Machine.execDecW1 rd s
  | .decW2 rd => Sys2Proof.Machine.execDecW2 rd s
  | .decL1 rd => Sys2Proof.Machine.execDecL1 rd s
  | .decL2 rd => Sys2Proof.Machine.execDecL2 rd s
  | .das rd => Sys2Proof.Machine.execDas rd s
  | .cmpBImm imm rd => Sys2Proof.Machine.execCmpBImm imm rd s
  | .cmpBReg rs rd => Sys2Proof.Machine.execCmpBReg rs rd s
  | .cmpWImm imm rd => Sys2Proof.Machine.execCmpWImm imm rd s
  | .cmpWReg rs rd => Sys2Proof.Machine.execCmpWReg rs rd s
  | .cmpLImm imm rd => Sys2Proof.Machine.execCmpLImm imm rd s
  | .cmpLReg rs rd => Sys2Proof.Machine.execCmpLReg rs rd s
  | .negB rd => Sys2Proof.Machine.execNegB rd s
  | .negW rd => Sys2Proof.Machine.execNegW rd s
  | .negL rd => Sys2Proof.Machine.execNegL rd s
  | .extuW rd => Sys2Proof.Machine.execExtuW rd s
  | .extuL rd => Sys2Proof.Machine.execExtuL rd s
  | .extsW rd => Sys2Proof.Machine.execExtsW rd s
  | .extsL rd => Sys2Proof.Machine.execExtsL rd s
  | .mulxuB rs rd => Sys2Proof.Machine.execMulxuB rs rd s
  | .mulxuW rs rd => Sys2Proof.Machine.execMulxuW rs rd s
  | .mulxsB rs rd => Sys2Proof.Machine.execMulxsB rs rd s
  | .mulxsW rs rd => Sys2Proof.Machine.execMulxsW rs rd s
  | .divxuB rs rd => Sys2Proof.Machine.execDivxuB rs rd s
  | .divxuW rs rd => Sys2Proof.Machine.execDivxuW rs rd s
  | .divxsB rs rd => Sys2Proof.Machine.execDivxsB rs rd s
  | .divxsW rs rd => Sys2Proof.Machine.execDivxsW rs rd s
  | .tas ra => Sys2Proof.Machine.execTas ra s
  | .andBImm imm rd => Sys2Proof.Machine.execAndBImm imm rd s
  | .andBReg rs rd => Sys2Proof.Machine.execAndBReg rs rd s
  | .andWImm imm rd => Sys2Proof.Machine.execAndWImm imm rd s
  | .andWReg rs rd => Sys2Proof.Machine.execAndWReg rs rd s
  | .andLImm imm rd => Sys2Proof.Machine.execAndLImm imm rd s
  | .andLReg rs rd => Sys2Proof.Machine.execAndLReg rs rd s
  | .orBImm imm rd => Sys2Proof.Machine.execOrBImm imm rd s
  | .orBReg rs rd => Sys2Proof.Machine.execOrBReg rs rd s
  | .orWImm imm rd => Sys2Proof.Machine.execOrWImm imm rd s
  | .orWReg rs rd => Sys2Proof.Machine.execOrWReg rs rd s
  | .orLImm imm rd => Sys2Proof.Machine.execOrLImm imm rd s
  | .orLReg rs rd => Sys2Proof.Machine.execOrLReg rs rd s
  | .xorBImm imm rd => Sys2Proof.Machine.execXorBImm imm rd s
  | .xorBReg rs rd => Sys2Proof.Machine.execXorBReg rs rd s
  | .xorWImm imm rd => Sys2Proof.Machine.execXorWImm imm rd s
  | .xorWReg rs rd => Sys2Proof.Machine.execXorWReg rs rd s
  | .xorLImm imm rd => Sys2Proof.Machine.execXorLImm imm rd s
  | .xorLReg rs rd => Sys2Proof.Machine.execXorLReg rs rd s
  | .notB rd => Sys2Proof.Machine.execNotB rd s
  | .notW rd => Sys2Proof.Machine.execNotW rd s
  | .notL rd => Sys2Proof.Machine.execNotL rd s
  | .shllB rd => Sys2Proof.Machine.execShllB rd s
  | .shllW rd => Sys2Proof.Machine.execShllW rd s
  | .shllL rd => Sys2Proof.Machine.execShllL rd s
  | .shllB2 rd => Sys2Proof.Machine.execShllB2 rd s
  | .shllW2 rd => Sys2Proof.Machine.execShllW2 rd s
  | .shllL2 rd => Sys2Proof.Machine.execShllL2 rd s
  | .shalB rd => Sys2Proof.Machine.execShalB rd s
  | .shalW rd => Sys2Proof.Machine.execShalW rd s
  | .shalL rd => Sys2Proof.Machine.execShalL rd s
  | .shalB2 rd => Sys2Proof.Machine.execShalB2 rd s
  | .shalW2 rd => Sys2Proof.Machine.execShalW2 rd s
  | .shalL2 rd => Sys2Proof.Machine.execShalL2 rd s
  | .shlrB rd => Sys2Proof.Machine.execShlrB rd s
  | .shlrW rd => Sys2Proof.Machine.execShlrW rd s
  | .shlrL rd => Sys2Proof.Machine.execShlrL rd s
  | .shlrB2 rd => Sys2Proof.Machine.execShlrB2 rd s
  | .shlrW2 rd => Sys2Proof.Machine.execShlrW2 rd s
  | .shlrL2 rd => Sys2Proof.Machine.execShlrL2 rd s
  | .sharB rd => Sys2Proof.Machine.execSharB rd s
  | .sharW rd => Sys2Proof.Machine.execSharW rd s
  | .sharL rd => Sys2Proof.Machine.execSharL rd s
  | .sharB2 rd => Sys2Proof.Machine.execSharB2 rd s
  | .sharW2 rd => Sys2Proof.Machine.execSharW2 rd s
  | .sharL2 rd => Sys2Proof.Machine.execSharL2 rd s
  | .rotxlB rd => Sys2Proof.Machine.execRotxlB rd s
  | .rotxlW rd => Sys2Proof.Machine.execRotxlW rd s
  | .rotxlL rd => Sys2Proof.Machine.execRotxlL rd s
  | .rotxlB2 rd => Sys2Proof.Machine.execRotxlB2 rd s
  | .rotxlW2 rd => Sys2Proof.Machine.execRotxlW2 rd s
  | .rotxlL2 rd => Sys2Proof.Machine.execRotxlL2 rd s
  | .rotlB rd => Sys2Proof.Machine.execRotlB rd s
  | .rotlW rd => Sys2Proof.Machine.execRotlW rd s
  | .rotlL rd => Sys2Proof.Machine.execRotlL rd s
  | .rotlB2 rd => Sys2Proof.Machine.execRotlB2 rd s
  | .rotlW2 rd => Sys2Proof.Machine.execRotlW2 rd s
  | .rotlL2 rd => Sys2Proof.Machine.execRotlL2 rd s
  | .rotxrB rd => Sys2Proof.Machine.execRotxrB rd s
  | .rotxrW rd => Sys2Proof.Machine.execRotxrW rd s
  | .rotxrL rd => Sys2Proof.Machine.execRotxrL rd s
  | .rotxrB2 rd => Sys2Proof.Machine.execRotxrB2 rd s
  | .rotxrW2 rd => Sys2Proof.Machine.execRotxrW2 rd s
  | .rotxrL2 rd => Sys2Proof.Machine.execRotxrL2 rd s
  | .rotrB rd => Sys2Proof.Machine.execRotrB rd s
  | .rotrW rd => Sys2Proof.Machine.execRotrW rd s
  | .rotrL rd => Sys2Proof.Machine.execRotrL rd s
  | .rotrB2 rd => Sys2Proof.Machine.execRotrB2 rd s
  | .rotrW2 rd => Sys2Proof.Machine.execRotrW2 rd s
  | .rotrL2 rd => Sys2Proof.Machine.execRotrL2 rd s
  | .bsetImm bit tgt => Sys2Proof.Machine.execBsetImm bit tgt s
  | .bsetRn rn tgt => Sys2Proof.Machine.execBsetRn rn tgt s
  | .bnotImm bit tgt => Sys2Proof.Machine.execBnotImm bit tgt s
  | .bnotRn rn tgt => Sys2Proof.Machine.execBnotRn rn tgt s
  | .bclrImm bit tgt => Sys2Proof.Machine.execBclrImm bit tgt s
  | .bclrRn rn tgt => Sys2Proof.Machine.execBclrRn rn tgt s
  | .btstImm bit tgt => Sys2Proof.Machine.execBtstImm bit tgt s
  | .btstRn rn tgt => Sys2Proof.Machine.execBtstRn rn tgt s
  | .bor bit tgt => Sys2Proof.Machine.execBor bit tgt s
  | .bior bit tgt => Sys2Proof.Machine.execBior bit tgt s
  | .bxor bit tgt => Sys2Proof.Machine.execBxor bit tgt s
  | .bixor bit tgt => Sys2Proof.Machine.execBixor bit tgt s
  | .band bit tgt => Sys2Proof.Machine.execBand bit tgt s
  | .biand bit tgt => Sys2Proof.Machine.execBiand bit tgt s
  | .bld bit tgt => Sys2Proof.Machine.execBld bit tgt s
  | .bild bit tgt => Sys2Proof.Machine.execBild bit tgt s
  | .bst bit tgt => Sys2Proof.Machine.execBst bit tgt s
  | .bist bit tgt => Sys2Proof.Machine.execBist bit tgt s
  | .bra8 disp => Sys2Proof.Machine.execBra8 disp s
  | .bra16 disp => Sys2Proof.Machine.execBra16 disp s
  | .brn8 disp => Sys2Proof.Machine.execBrn8 disp s
  | .brn16 disp => Sys2Proof.Machine.execBrn16 disp s
  | .bhi8 disp => Sys2Proof.Machine.execBhi8 disp s
  | .bhi16 disp => Sys2Proof.Machine.execBhi16 disp s
  | .bls8 disp => Sys2Proof.Machine.execBls8 disp s
  | .bls16 disp => Sys2Proof.Machine.execBls16 disp s
  | .bcc8 disp => Sys2Proof.Machine.execBcc8 disp s
  | .bcc16 disp => Sys2Proof.Machine.execBcc16 disp s
  | .bcs8 disp => Sys2Proof.Machine.execBcs8 disp s
  | .bcs16 disp => Sys2Proof.Machine.execBcs16 disp s
  | .bne8 disp => Sys2Proof.Machine.execBne8 disp s
  | .bne16 disp => Sys2Proof.Machine.execBne16 disp s
  | .beq8 disp => Sys2Proof.Machine.execBeq8 disp s
  | .beq16 disp => Sys2Proof.Machine.execBeq16 disp s
  | .bvc8 disp => Sys2Proof.Machine.execBvc8 disp s
  | .bvc16 disp => Sys2Proof.Machine.execBvc16 disp s
  | .bvs8 disp => Sys2Proof.Machine.execBvs8 disp s
  | .bvs16 disp => Sys2Proof.Machine.execBvs16 disp s
  | .bpl8 disp => Sys2Proof.Machine.execBpl8 disp s
  | .bpl16 disp => Sys2Proof.Machine.execBpl16 disp s
  | .bmi8 disp => Sys2Proof.Machine.execBmi8 disp s
  | .bmi16 disp => Sys2Proof.Machine.execBmi16 disp s
  | .bge8 disp => Sys2Proof.Machine.execBge8 disp s
  | .bge16 disp => Sys2Proof.Machine.execBge16 disp s
  | .blt8 disp => Sys2Proof.Machine.execBlt8 disp s
  | .blt16 disp => Sys2Proof.Machine.execBlt16 disp s
  | .bgt8 disp => Sys2Proof.Machine.execBgt8 disp s
  | .bgt16 disp => Sys2Proof.Machine.execBgt16 disp s
  | .ble8 disp => Sys2Proof.Machine.execBle8 disp s
  | .ble16 disp => Sys2Proof.Machine.execBle16 disp s
  | .jmpInd ra => Sys2Proof.Machine.execJmpInd ra s
  | .jmpAbs24 aa => Sys2Proof.Machine.execJmpAbs24 aa s
  | .jmpMemInd aa => Sys2Proof.Machine.execJmpMemInd aa s
  | .bsr8 disp => Sys2Proof.Machine.execBsr8 disp s
  | .bsr16 disp => Sys2Proof.Machine.execBsr16 disp s
  | .jsrInd ra => Sys2Proof.Machine.execJsrInd ra s
  | .jsrAbs24 aa => Sys2Proof.Machine.execJsrAbs24 aa s
  | .jsrMemInd aa => Sys2Proof.Machine.execJsrMemInd aa s
  | .rts => Sys2Proof.Machine.execRts s
  | .trapa tn => Sys2Proof.Machine.execTrapa tn s
  | .rte => Sys2Proof.Machine.execRte s
  | .sleep => Sys2Proof.Machine.execSleep s
  | .ldcImmCcr imm => Sys2Proof.Machine.execLdcImmCcr imm s
  | .andcCcr imm => Sys2Proof.Machine.execAndcCcr imm s
  | .orcCcr imm => Sys2Proof.Machine.execOrcCcr imm s
  | .xorcCcr imm => Sys2Proof.Machine.execXorcCcr imm s
  | .ldcRegCcr rs => Sys2Proof.Machine.execLdcRegCcr rs s
  | .stcRegCcr rd => Sys2Proof.Machine.execStcRegCcr rd s
  | .ldcWCcr mem => Sys2Proof.Machine.execLdcWCcr mem s
  | .stcWCcr mem => Sys2Proof.Machine.execStcWCcr mem s
  | .ldcImmExr imm => Sys2Proof.Machine.execLdcImmExr imm s
  | .andcExr imm => Sys2Proof.Machine.execAndcExr imm s
  | .orcExr imm => Sys2Proof.Machine.execOrcExr imm s
  | .xorcExr imm => Sys2Proof.Machine.execXorcExr imm s
  | .ldcRegExr rs => Sys2Proof.Machine.execLdcRegExr rs s
  | .stcRegExr rd => Sys2Proof.Machine.execStcRegExr rd s
  | .ldcWExr mem => Sys2Proof.Machine.execLdcWExr mem s
  | .stcWExr mem => Sys2Proof.Machine.execStcWExr mem s

end Sys2Proof.Machine
end

