-- ==== Sys2Proof/WellFormed.lean ====
section
/-!
DEFINITION. Which instruction terms are instructions. Every plain field has the width of its encoding field; what
remains to check is which addressing modes a data transfer has, and the register lists of LDM.L and STM.L
(30_encoding.md R342).
-/

namespace Sys2Proof

/-- The modes MOV.B has as a source: all but `@-ERr` (40_data_transfer.md R407). -/
def Mode.loadByteOk : Mode → Bool
  | .dec _ => false
  | .ind _ | .disp16 _ _ | .disp32 _ _ | .inc _ | .abs8 _ | .abs16 _ | .abs32 _ => true

/-- The modes MOV.B has as a destination: all but `@ERr+` (40_data_transfer.md R410). -/
def Mode.storeByteOk : Mode → Bool
  | .inc _ => false
  | .ind _ | .disp16 _ _ | .disp32 _ _ | .dec _ | .abs8 _ | .abs16 _ | .abs32 _ => true

/-- The modes of MOV.W, MOV.L and LDC.W as a source: no `@-ERr` and no `@aa:8` (40_data_transfer.md R408, R409;
46_system_control.md R1001). -/
def Mode.loadWideOk : Mode → Bool
  | .dec _ | .abs8 _ => false
  | .ind _ | .disp16 _ _ | .disp32 _ _ | .inc _ | .abs16 _ | .abs32 _ => true

/-- The modes of MOV.W, MOV.L and STC.W as a destination: no `@ERr+` and no `@aa:8` (40_data_transfer.md R411,
R412; 46_system_control.md R1001). -/
def Mode.storeWideOk : Mode → Bool
  | .inc _ | .abs8 _ => false
  | .ind _ | .disp16 _ _ | .disp32 _ _ | .dec _ | .abs16 _ | .abs32 _ => true

/-- The allowed first registers `m` of a list of `count` registers (30_encoding.md R342): the 2-register form
needs `m` in {0, 2, 4, 6}, the 3- and 4-register forms `m` in {0, 4}. -/
def listStartOk (count : Nat) (m : Nat) : Bool :=
  if count = 2 then m = 0 || m = 2 || m = 4 || m = 6 else m = 0 || m = 4

/-- LDM.L: the field holds the last register `n = m + count - 1` (30_encoding.md R342). -/
def ldmListOk (count : Nat) (last : BitVec 3) : Bool :=
  count - 1 ≤ last.toNat && listStartOk count (last.toNat - (count - 1))

/-- STM.L: the field holds the first register `m` (30_encoding.md R342). -/
def stmListOk (count : Nat) (first : BitVec 3) : Bool := listStartOk count first.toNat

/-- Well-formedness of an instruction term: its addressing mode is one its rule has, and its register list is an
allowed one. Every other constructor's fields are exactly as wide as their encoding fields, so there is nothing
more to check (30_encoding.md R342, R343). -/
def Instr.wf : Instr → Bool
  | .movBLoad mem _ => mem.loadByteOk
  | .movBStore _ mem => mem.storeByteOk
  | .movWLoad mem _ => mem.loadWideOk
  | .movWStore _ mem => mem.storeWideOk
  | .movLLoad mem _ => mem.loadWideOk
  | .movLStore _ mem => mem.storeWideOk
  | .ldcWCcr mem => mem.loadWideOk
  | .stcWCcr mem => mem.storeWideOk
  | .ldcWExr mem => mem.loadWideOk
  | .stcWExr mem => mem.storeWideOk
  | .ldm2 rd => ldmListOk 2 rd
  | .ldm3 rd => ldmListOk 3 rd
  | .ldm4 rd => ldmListOk 4 rd
  | .stm2 rs => stmListOk 2 rs
  | .stm3 rs => stmListOk 3 rs
  | .stm4 rs => stmListOk 4 rs
  | _ => true

end Sys2Proof
end

