-- ==== Sys2Proof/Decode.lean ====
section
/-!
DEFINITION. The decoder (30_encoding.md R300 to R345): the opcode table, row for row as spec/opcode_table.json
lists it, the table walk of R320, the encoder, and `decodeTableWord`, the decoder read from a number.
-/

namespace Sys2Proof

/-! ### Byte strings -/

/-- A byte string as one big-endian integer (30_encoding.md R302, R320). -/
def beNat (bytes : List Byte) : Nat := bytes.foldl (fun acc b => acc * 256 + b.toNat) 0

/-- The `len` big-endian bytes of `w`, the most significant first. -/
def beBytes : (len : Nat) → (w : Nat) → List Byte
  | 0, _ => []
  | n + 1, w => BitVec.ofNat 8 (w >>> (8 * n)) :: beBytes n w

/-- The first ten bytes of a byte string, zeros after its end, as one 80-bit integer. Ten bytes are the longest
instruction (30_encoding.md R301). -/
def window80 (bytes : List Byte) : Nat := beNat ((bytes ++ List.replicate 10 0).take 10)

/-- The operand field of `n` bits whose lowest bit is bit `lo` of the instruction (30_encoding.md R302, R303). -/
def field (w lo n : Nat) : BitVec n := BitVec.ofNat n (w >>> lo)

/-! ### The opcode table -/

/-- The operand width of a row (30_encoding.md R323, 10_state.md R118). -/
inductive OpWidth where
  | byte
  | word
  | long
  | none
deriving DecidableEq, Repr

/-- The classification flags of a row (30_encoding.md R330, 10_state.md R118). No execution rule reads them. -/
inductive InstrFlag where
  | returnsFromCall
  | doesNotFallThrough
  | isBranch
  | isConditionalBranch
  | isCall
  | noFallthroughTrap
deriving DecidableEq, Repr

/-- One row of the opcode table. `mask` has a 1 for every fixed bit and `mtch` the fixed bits' values, over the
whole instruction of `len` bytes read big-endian (30_encoding.md R302); `tag` is the rule number of the row's
semantic-effect tag (30_encoding.md R331); `constraint` is that of R342, on the instruction read as a number. -/
structure Row where
  mnemonic : String
  width : OpWidth
  flags : List InstrFlag
  tag : Nat
  len : Nat
  mtch : Nat
  mask : Nat
  build : Nat → Instr
  constraint : Nat → Bool := fun _ => true

/-- The instruction bytes a row looks at: the first `len` bytes of the window. -/
def Row.word (r : Row) (w80 : Nat) : Nat := w80 >>> (8 * (10 - r.len))

/-- `(instruction & mask) == match` and the row's constraint (30_encoding.md R302, R320). -/
def Row.accepts (r : Row) (w : Nat) : Bool := (w &&& r.mask) == r.mtch && r.constraint w

/-- A window of `avail` bytes, shorter than the row, agrees with the row on every fixed bit it holds
(30_encoding.md R320). `w` is the window read big-endian. -/
def Row.mayBecome (r : Row) (avail w : Nat) : Bool :=
  avail < r.len &&
    (w &&& (r.mask >>> (8 * (r.len - avail)))) == (r.mtch >>> (8 * (r.len - avail)))

/-- The NOP row (46_system_control.md R1023). -/
def rowsNop : List Row := [
  { mnemonic := "nop", width := .none, flags := [], tag := 1023, len := 2,
    mtch := 0x0000, mask := 0xFFFF, build := fun _ => .nop } ]

/-- Rows of 40_data_transfer.md, part 1 (30_encoding.md R331). -/
def rowsDataTransfer1 : List Row := [
  { mnemonic := "mov.b", width := .byte, flags := [], tag := 401, len := 2,
    mtch := 0x0C00, mask := 0xFF00, build := fun w => .movBReg (field w 4 4) (field w 0 4) },
  { mnemonic := "mov.w", width := .word, flags := [], tag := 402, len := 2,
    mtch := 0x0D00, mask := 0xFF00, build := fun w => .movWReg (field w 4 4) (field w 0 4) },
  { mnemonic := "mov.l", width := .long, flags := [], tag := 403, len := 2,
    mtch := 0x0F80, mask := 0xFF88, build := fun w => .movLReg (field w 4 3) (field w 0 3) },
  { mnemonic := "mov.b", width := .byte, flags := [], tag := 404, len := 2,
    mtch := 0xF000, mask := 0xF000, build := fun w => .movBImm (field w 0 8) (field w 8 4) },
  { mnemonic := "mov.w", width := .word, flags := [], tag := 405, len := 4,
    mtch := 0x79000000, mask := 0xFFF00000, build := fun w => .movWImm (field w 0 16) (field w 16 4) },
  { mnemonic := "mov.l", width := .long, flags := [], tag := 406, len := 6,
    mtch := 0x7A0000000000, mask := 0xFFF800000000, build := fun w => .movLImm (field w 0 32) (field w 32 3) },
  { mnemonic := "mov.b", width := .byte, flags := [], tag := 407, len := 2,
    mtch := 0x6800, mask := 0xFF80, build := fun w => .movBLoad (.ind (field w 4 3)) (field w 0 4) },
  { mnemonic := "mov.b", width := .byte, flags := [], tag := 410, len := 2,
    mtch := 0x6880, mask := 0xFF80, build := fun w => .movBStore (field w 0 4) (.ind (field w 4 3)) },
  { mnemonic := "mov.b", width := .byte, flags := [], tag := 407, len := 4,
    mtch := 0x6E000000, mask := 0xFF800000, build := fun w => .movBLoad (.disp16 (field w 0 16) (field w 20 3)) (field w 16 4) },
  { mnemonic := "mov.b", width := .byte, flags := [], tag := 410, len := 4,
    mtch := 0x6E800000, mask := 0xFF800000, build := fun w => .movBStore (field w 16 4) (.disp16 (field w 0 16) (field w 20 3)) },
  { mnemonic := "mov.b", width := .byte, flags := [], tag := 407, len := 8,
    mtch := 0x78006A2000000000, mask := 0xFF8FFFF000000000, build := fun w => .movBLoad (.disp32 (field w 0 32) (field w 52 3)) (field w 32 4) },
  { mnemonic := "mov.b", width := .byte, flags := [], tag := 410, len := 8,
    mtch := 0x78006AA000000000, mask := 0xFF8FFFF000000000, build := fun w => .movBStore (field w 32 4) (.disp32 (field w 0 32) (field w 52 3)) },
  { mnemonic := "mov.b", width := .byte, flags := [], tag := 407, len := 2,
    mtch := 0x6C00, mask := 0xFF80, build := fun w => .movBLoad (.inc (field w 4 3)) (field w 0 4) },
  { mnemonic := "mov.b", width := .byte, flags := [], tag := 410, len := 2,
    mtch := 0x6C80, mask := 0xFF80, build := fun w => .movBStore (field w 0 4) (.dec (field w 4 3)) },
  { mnemonic := "mov.b", width := .byte, flags := [], tag := 407, len := 2,
    mtch := 0x2000, mask := 0xF000, build := fun w => .movBLoad (.abs8 (field w 0 8)) (field w 8 4) },
  { mnemonic := "mov.b", width := .byte, flags := [], tag := 410, len := 2,
    mtch := 0x3000, mask := 0xF000, build := fun w => .movBStore (field w 8 4) (.abs8 (field w 0 8)) },
  { mnemonic := "mov.b", width := .byte, flags := [], tag := 407, len := 4,
    mtch := 0x6A000000, mask := 0xFFF00000, build := fun w => .movBLoad (.abs16 (field w 0 16)) (field w 16 4) },
  { mnemonic := "mov.b", width := .byte, flags := [], tag := 407, len := 6,
    mtch := 0x6A2000000000, mask := 0xFFF000000000, build := fun w => .movBLoad (.abs32 (field w 0 32)) (field w 32 4) },
  { mnemonic := "mov.b", width := .byte, flags := [], tag := 410, len := 4,
    mtch := 0x6A800000, mask := 0xFFF00000, build := fun w => .movBStore (field w 16 4) (.abs16 (field w 0 16)) },
  { mnemonic := "mov.b", width := .byte, flags := [], tag := 410, len := 6,
    mtch := 0x6AA000000000, mask := 0xFFF000000000, build := fun w => .movBStore (field w 32 4) (.abs32 (field w 0 32)) },
  { mnemonic := "mov.w", width := .word, flags := [], tag := 408, len := 2,
    mtch := 0x6900, mask := 0xFF80, build := fun w => .movWLoad (.ind (field w 4 3)) (field w 0 4) },
  { mnemonic := "mov.w", width := .word, flags := [], tag := 411, len := 2,
    mtch := 0x6980, mask := 0xFF80, build := fun w => .movWStore (field w 0 4) (.ind (field w 4 3)) },
  { mnemonic := "mov.w", width := .word, flags := [], tag := 408, len := 4,
    mtch := 0x6F000000, mask := 0xFF800000, build := fun w => .movWLoad (.disp16 (field w 0 16) (field w 20 3)) (field w 16 4) },
  { mnemonic := "mov.w", width := .word, flags := [], tag := 411, len := 4,
    mtch := 0x6F800000, mask := 0xFF800000, build := fun w => .movWStore (field w 16 4) (.disp16 (field w 0 16) (field w 20 3)) },
  { mnemonic := "mov.w", width := .word, flags := [], tag := 408, len := 8,
    mtch := 0x78006B2000000000, mask := 0xFF8FFFF000000000, build := fun w => .movWLoad (.disp32 (field w 0 32) (field w 52 3)) (field w 32 4) },
  { mnemonic := "mov.w", width := .word, flags := [], tag := 411, len := 8,
    mtch := 0x78006BA000000000, mask := 0xFF8FFFF000000000, build := fun w => .movWStore (field w 32 4) (.disp32 (field w 0 32) (field w 52 3)) },
  { mnemonic := "mov.w", width := .word, flags := [], tag := 408, len := 2,
    mtch := 0x6D00, mask := 0xFF80, build := fun w => .movWLoad (.inc (field w 4 3)) (field w 0 4) },
  { mnemonic := "mov.w", width := .word, flags := [], tag := 411, len := 2,
    mtch := 0x6D80, mask := 0xFF80, build := fun w => .movWStore (field w 0 4) (.dec (field w 4 3)) },
  { mnemonic := "mov.w", width := .word, flags := [], tag := 408, len := 4,
    mtch := 0x6B000000, mask := 0xFFF00000, build := fun w => .movWLoad (.abs16 (field w 0 16)) (field w 16 4) },
  { mnemonic := "mov.w", width := .word, flags := [], tag := 408, len := 6,
    mtch := 0x6B2000000000, mask := 0xFFF000000000, build := fun w => .movWLoad (.abs32 (field w 0 32)) (field w 32 4) } ]

/-- Rows of 40_data_transfer.md, part 2 (30_encoding.md R331). -/
def rowsDataTransfer2 : List Row := [
  { mnemonic := "mov.w", width := .word, flags := [], tag := 411, len := 4,
    mtch := 0x6B800000, mask := 0xFFF00000, build := fun w => .movWStore (field w 16 4) (.abs16 (field w 0 16)) },
  { mnemonic := "mov.w", width := .word, flags := [], tag := 411, len := 6,
    mtch := 0x6BA000000000, mask := 0xFFF000000000, build := fun w => .movWStore (field w 32 4) (.abs32 (field w 0 32)) },
  { mnemonic := "mov.l", width := .long, flags := [], tag := 409, len := 4,
    mtch := 0x01006900, mask := 0xFFFFFF88, build := fun w => .movLLoad (.ind (field w 4 3)) (field w 0 3) },
  { mnemonic := "mov.l", width := .long, flags := [], tag := 412, len := 4,
    mtch := 0x01006980, mask := 0xFFFFFF88, build := fun w => .movLStore (field w 0 3) (.ind (field w 4 3)) },
  { mnemonic := "mov.l", width := .long, flags := [], tag := 409, len := 6,
    mtch := 0x01006F000000, mask := 0xFFFFFF880000, build := fun w => .movLLoad (.disp16 (field w 0 16) (field w 20 3)) (field w 16 3) },
  { mnemonic := "mov.l", width := .long, flags := [], tag := 412, len := 6,
    mtch := 0x01006F800000, mask := 0xFFFFFF880000, build := fun w => .movLStore (field w 16 3) (.disp16 (field w 0 16) (field w 20 3)) },
  { mnemonic := "mov.l", width := .long, flags := [], tag := 409, len := 10,
    mtch := 0x010078006B2000000000, mask := 0xFFFFFF8FFFF800000000, build := fun w => .movLLoad (.disp32 (field w 0 32) (field w 52 3)) (field w 32 3) },
  { mnemonic := "mov.l", width := .long, flags := [], tag := 412, len := 10,
    mtch := 0x010078006BA000000000, mask := 0xFFFFFF8FFFF800000000, build := fun w => .movLStore (field w 32 3) (.disp32 (field w 0 32) (field w 52 3)) },
  { mnemonic := "mov.l", width := .long, flags := [], tag := 409, len := 4,
    mtch := 0x01006D00, mask := 0xFFFFFF88, build := fun w => .movLLoad (.inc (field w 4 3)) (field w 0 3) },
  { mnemonic := "mov.l", width := .long, flags := [], tag := 412, len := 4,
    mtch := 0x01006D80, mask := 0xFFFFFF88, build := fun w => .movLStore (field w 0 3) (.dec (field w 4 3)) },
  { mnemonic := "mov.l", width := .long, flags := [], tag := 409, len := 6,
    mtch := 0x01006B000000, mask := 0xFFFFFFF80000, build := fun w => .movLLoad (.abs16 (field w 0 16)) (field w 16 3) },
  { mnemonic := "mov.l", width := .long, flags := [], tag := 409, len := 8,
    mtch := 0x01006B2000000000, mask := 0xFFFFFFF800000000, build := fun w => .movLLoad (.abs32 (field w 0 32)) (field w 32 3) },
  { mnemonic := "mov.l", width := .long, flags := [], tag := 412, len := 6,
    mtch := 0x01006B800000, mask := 0xFFFFFFF80000, build := fun w => .movLStore (field w 16 3) (.abs16 (field w 0 16)) },
  { mnemonic := "mov.l", width := .long, flags := [], tag := 412, len := 8,
    mtch := 0x01006BA000000000, mask := 0xFFFFFFF800000000, build := fun w => .movLStore (field w 32 3) (.abs32 (field w 0 32)) },
  { mnemonic := "movfpe", width := .byte, flags := [], tag := 413, len := 4,
    mtch := 0x6A400000, mask := 0xFFF00000, build := fun w => .movfpe (field w 0 16) (field w 16 4) },
  { mnemonic := "movtpe", width := .byte, flags := [], tag := 414, len := 4,
    mtch := 0x6AC00000, mask := 0xFFF00000, build := fun w => .movtpe (field w 16 4) (field w 0 16) },
  { mnemonic := "ldm.l", width := .long, flags := [], tag := 415, len := 4,
    mtch := 0x01106D70, mask := 0xFFFFFFF8, build := fun w => .ldm2 (field w 0 3), constraint := fun w => ldmListOk 2 (field w 0 3) },
  { mnemonic := "stm.l", width := .long, flags := [], tag := 416, len := 4,
    mtch := 0x01106DF0, mask := 0xFFFFFFF8, build := fun w => .stm2 (field w 0 3), constraint := fun w => stmListOk 2 (field w 0 3) },
  { mnemonic := "ldm.l", width := .long, flags := [], tag := 415, len := 4,
    mtch := 0x01206D70, mask := 0xFFFFFFF8, build := fun w => .ldm3 (field w 0 3), constraint := fun w => ldmListOk 3 (field w 0 3) },
  { mnemonic := "stm.l", width := .long, flags := [], tag := 416, len := 4,
    mtch := 0x01206DF0, mask := 0xFFFFFFF8, build := fun w => .stm3 (field w 0 3), constraint := fun w => stmListOk 3 (field w 0 3) },
  { mnemonic := "ldm.l", width := .long, flags := [], tag := 415, len := 4,
    mtch := 0x01306D70, mask := 0xFFFFFFF8, build := fun w => .ldm4 (field w 0 3), constraint := fun w => ldmListOk 4 (field w 0 3) },
  { mnemonic := "stm.l", width := .long, flags := [], tag := 416, len := 4,
    mtch := 0x01306DF0, mask := 0xFFFFFFF8, build := fun w => .stm4 (field w 0 3), constraint := fun w => stmListOk 4 (field w 0 3) },
  { mnemonic := "eepmov.b", width := .byte, flags := [], tag := 417, len := 4,
    mtch := 0x7B5C598F, mask := 0xFFFFFFFF, build := fun _ => .eepmovB },
  { mnemonic := "eepmov.w", width := .word, flags := [], tag := 418, len := 4,
    mtch := 0x7BD4598F, mask := 0xFFFFFFFF, build := fun _ => .eepmovW } ]

/-- Rows of 41_arithmetic.md, part 1 (30_encoding.md R331). -/
def rowsArithmetic1 : List Row := [
  { mnemonic := "add.b", width := .byte, flags := [], tag := 510, len := 2,
    mtch := 0x8000, mask := 0xF000, build := fun w => .addBImm (field w 0 8) (field w 8 4) },
  { mnemonic := "add.b", width := .byte, flags := [], tag := 510, len := 2,
    mtch := 0x0800, mask := 0xFF00, build := fun w => .addBReg (field w 4 4) (field w 0 4) },
  { mnemonic := "add.w", width := .word, flags := [], tag := 511, len := 4,
    mtch := 0x79100000, mask := 0xFFF00000, build := fun w => .addWImm (field w 0 16) (field w 16 4) },
  { mnemonic := "add.w", width := .word, flags := [], tag := 511, len := 2,
    mtch := 0x0900, mask := 0xFF00, build := fun w => .addWReg (field w 4 4) (field w 0 4) },
  { mnemonic := "add.l", width := .long, flags := [], tag := 512, len := 6,
    mtch := 0x7A1000000000, mask := 0xFFF800000000, build := fun w => .addLImm (field w 0 32) (field w 32 3) },
  { mnemonic := "add.l", width := .long, flags := [], tag := 512, len := 2,
    mtch := 0x0A80, mask := 0xFF88, build := fun w => .addLReg (field w 4 3) (field w 0 3) },
  { mnemonic := "addx", width := .byte, flags := [], tag := 513, len := 2,
    mtch := 0x9000, mask := 0xF000, build := fun w => .addxImm (field w 0 8) (field w 8 4) },
  { mnemonic := "addx", width := .byte, flags := [], tag := 513, len := 2,
    mtch := 0x0E00, mask := 0xFF00, build := fun w => .addxReg (field w 4 4) (field w 0 4) },
  { mnemonic := "adds", width := .long, flags := [], tag := 514, len := 2,
    mtch := 0x0B00, mask := 0xFFF8, build := fun w => .adds1 (field w 0 3) },
  { mnemonic := "adds", width := .long, flags := [], tag := 514, len := 2,
    mtch := 0x0B80, mask := 0xFFF8, build := fun w => .adds2 (field w 0 3) },
  { mnemonic := "adds", width := .long, flags := [], tag := 514, len := 2,
    mtch := 0x0B90, mask := 0xFFF8, build := fun w => .adds4 (field w 0 3) },
  { mnemonic := "inc.b", width := .byte, flags := [], tag := 515, len := 2,
    mtch := 0x0A00, mask := 0xFFF0, build := fun w => .incB (field w 0 4) },
  { mnemonic := "inc.w", width := .word, flags := [], tag := 516, len := 2,
    mtch := 0x0B50, mask := 0xFFF0, build := fun w => .incW1 (field w 0 4) },
  { mnemonic := "inc.w", width := .word, flags := [], tag := 516, len := 2,
    mtch := 0x0BD0, mask := 0xFFF0, build := fun w => .incW2 (field w 0 4) },
  { mnemonic := "inc.l", width := .long, flags := [], tag := 517, len := 2,
    mtch := 0x0B70, mask := 0xFFF8, build := fun w => .incL1 (field w 0 3) },
  { mnemonic := "inc.l", width := .long, flags := [], tag := 517, len := 2,
    mtch := 0x0BF0, mask := 0xFFF8, build := fun w => .incL2 (field w 0 3) },
  { mnemonic := "daa", width := .byte, flags := [], tag := 518, len := 2,
    mtch := 0x0F00, mask := 0xFFF0, build := fun w => .daa (field w 0 4) },
  { mnemonic := "sub.b", width := .byte, flags := [], tag := 520, len := 2,
    mtch := 0x1800, mask := 0xFF00, build := fun w => .subBReg (field w 4 4) (field w 0 4) },
  { mnemonic := "sub.w", width := .word, flags := [], tag := 521, len := 4,
    mtch := 0x79300000, mask := 0xFFF00000, build := fun w => .subWImm (field w 0 16) (field w 16 4) },
  { mnemonic := "sub.w", width := .word, flags := [], tag := 521, len := 2,
    mtch := 0x1900, mask := 0xFF00, build := fun w => .subWReg (field w 4 4) (field w 0 4) },
  { mnemonic := "sub.l", width := .long, flags := [], tag := 522, len := 6,
    mtch := 0x7A3000000000, mask := 0xFFF800000000, build := fun w => .subLImm (field w 0 32) (field w 32 3) },
  { mnemonic := "sub.l", width := .long, flags := [], tag := 522, len := 2,
    mtch := 0x1A80, mask := 0xFF88, build := fun w => .subLReg (field w 4 3) (field w 0 3) },
  { mnemonic := "subx", width := .byte, flags := [], tag := 523, len := 2,
    mtch := 0xB000, mask := 0xF000, build := fun w => .subxImm (field w 0 8) (field w 8 4) },
  { mnemonic := "subx", width := .byte, flags := [], tag := 523, len := 2,
    mtch := 0x1E00, mask := 0xFF00, build := fun w => .subxReg (field w 4 4) (field w 0 4) },
  { mnemonic := "subs", width := .long, flags := [], tag := 524, len := 2,
    mtch := 0x1B00, mask := 0xFFF8, build := fun w => .subs1 (field w 0 3) },
  { mnemonic := "subs", width := .long, flags := [], tag := 524, len := 2,
    mtch := 0x1B80, mask := 0xFFF8, build := fun w => .subs2 (field w 0 3) },
  { mnemonic := "subs", width := .long, flags := [], tag := 524, len := 2,
    mtch := 0x1B90, mask := 0xFFF8, build := fun w => .subs4 (field w 0 3) },
  { mnemonic := "dec.b", width := .byte, flags := [], tag := 525, len := 2,
    mtch := 0x1A00, mask := 0xFFF0, build := fun w => .decB (field w 0 4) },
  { mnemonic := "dec.w", width := .word, flags := [], tag := 526, len := 2,
    mtch := 0x1B50, mask := 0xFFF0, build := fun w => .decW1 (field w 0 4) },
  { mnemonic := "dec.w", width := .word, flags := [], tag := 526, len := 2,
    mtch := 0x1BD0, mask := 0xFFF0, build := fun w => .decW2 (field w 0 4) } ]

/-- Rows of 41_arithmetic.md, part 2 (30_encoding.md R331). -/
def rowsArithmetic2 : List Row := [
  { mnemonic := "dec.l", width := .long, flags := [], tag := 527, len := 2,
    mtch := 0x1B70, mask := 0xFFF8, build := fun w => .decL1 (field w 0 3) },
  { mnemonic := "dec.l", width := .long, flags := [], tag := 527, len := 2,
    mtch := 0x1BF0, mask := 0xFFF8, build := fun w => .decL2 (field w 0 3) },
  { mnemonic := "das", width := .byte, flags := [], tag := 528, len := 2,
    mtch := 0x1F00, mask := 0xFFF0, build := fun w => .das (field w 0 4) },
  { mnemonic := "cmp.b", width := .byte, flags := [], tag := 530, len := 2,
    mtch := 0xA000, mask := 0xF000, build := fun w => .cmpBImm (field w 0 8) (field w 8 4) },
  { mnemonic := "cmp.b", width := .byte, flags := [], tag := 530, len := 2,
    mtch := 0x1C00, mask := 0xFF00, build := fun w => .cmpBReg (field w 4 4) (field w 0 4) },
  { mnemonic := "cmp.w", width := .word, flags := [], tag := 531, len := 4,
    mtch := 0x79200000, mask := 0xFFF00000, build := fun w => .cmpWImm (field w 0 16) (field w 16 4) },
  { mnemonic := "cmp.w", width := .word, flags := [], tag := 531, len := 2,
    mtch := 0x1D00, mask := 0xFF00, build := fun w => .cmpWReg (field w 4 4) (field w 0 4) },
  { mnemonic := "cmp.l", width := .long, flags := [], tag := 532, len := 6,
    mtch := 0x7A2000000000, mask := 0xFFF800000000, build := fun w => .cmpLImm (field w 0 32) (field w 32 3) },
  { mnemonic := "cmp.l", width := .long, flags := [], tag := 532, len := 2,
    mtch := 0x1F80, mask := 0xFF88, build := fun w => .cmpLReg (field w 4 3) (field w 0 3) },
  { mnemonic := "neg.b", width := .byte, flags := [], tag := 533, len := 2,
    mtch := 0x1780, mask := 0xFFF0, build := fun w => .negB (field w 0 4) },
  { mnemonic := "neg.w", width := .word, flags := [], tag := 534, len := 2,
    mtch := 0x1790, mask := 0xFFF0, build := fun w => .negW (field w 0 4) },
  { mnemonic := "neg.l", width := .long, flags := [], tag := 535, len := 2,
    mtch := 0x17B0, mask := 0xFFF8, build := fun w => .negL (field w 0 3) },
  { mnemonic := "extu.w", width := .word, flags := [], tag := 536, len := 2,
    mtch := 0x1750, mask := 0xFFF0, build := fun w => .extuW (field w 0 4) },
  { mnemonic := "extu.l", width := .long, flags := [], tag := 537, len := 2,
    mtch := 0x1770, mask := 0xFFF8, build := fun w => .extuL (field w 0 3) },
  { mnemonic := "exts.w", width := .word, flags := [], tag := 538, len := 2,
    mtch := 0x17D0, mask := 0xFFF0, build := fun w => .extsW (field w 0 4) },
  { mnemonic := "exts.l", width := .long, flags := [], tag := 539, len := 2,
    mtch := 0x17F0, mask := 0xFFF8, build := fun w => .extsL (field w 0 3) },
  { mnemonic := "mulxu.b", width := .byte, flags := [], tag := 540, len := 2,
    mtch := 0x5000, mask := 0xFF00, build := fun w => .mulxuB (field w 4 4) (field w 0 4) },
  { mnemonic := "mulxu.w", width := .word, flags := [], tag := 541, len := 2,
    mtch := 0x5200, mask := 0xFF08, build := fun w => .mulxuW (field w 4 4) (field w 0 3) },
  { mnemonic := "mulxs.b", width := .byte, flags := [], tag := 542, len := 4,
    mtch := 0x01C05000, mask := 0xFFFFFF00, build := fun w => .mulxsB (field w 4 4) (field w 0 4) },
  { mnemonic := "mulxs.w", width := .word, flags := [], tag := 543, len := 4,
    mtch := 0x01C05200, mask := 0xFFFFFF08, build := fun w => .mulxsW (field w 4 4) (field w 0 3) },
  { mnemonic := "divxu.b", width := .byte, flags := [], tag := 544, len := 2,
    mtch := 0x5100, mask := 0xFF00, build := fun w => .divxuB (field w 4 4) (field w 0 4) },
  { mnemonic := "divxu.w", width := .word, flags := [], tag := 545, len := 2,
    mtch := 0x5300, mask := 0xFF08, build := fun w => .divxuW (field w 4 4) (field w 0 3) },
  { mnemonic := "divxs.b", width := .byte, flags := [], tag := 546, len := 4,
    mtch := 0x01D05100, mask := 0xFFFFFF00, build := fun w => .divxsB (field w 4 4) (field w 0 4) },
  { mnemonic := "divxs.w", width := .word, flags := [], tag := 547, len := 4,
    mtch := 0x01D05300, mask := 0xFFFFFF08, build := fun w => .divxsW (field w 4 4) (field w 0 3) },
  { mnemonic := "tas", width := .byte, flags := [], tag := 548, len := 4,
    mtch := 0x01E07B0C, mask := 0xFFFFFF8F, build := fun w => .tas (field w 4 3) } ]

/-- Rows of 42_logic.md (30_encoding.md R331). -/
def rowsLogic : List Row := [
  { mnemonic := "and.b", width := .byte, flags := [], tag := 601, len := 2,
    mtch := 0xE000, mask := 0xF000, build := fun w => .andBImm (field w 0 8) (field w 8 4) },
  { mnemonic := "and.b", width := .byte, flags := [], tag := 601, len := 2,
    mtch := 0x1600, mask := 0xFF00, build := fun w => .andBReg (field w 4 4) (field w 0 4) },
  { mnemonic := "and.w", width := .word, flags := [], tag := 602, len := 4,
    mtch := 0x79600000, mask := 0xFFF00000, build := fun w => .andWImm (field w 0 16) (field w 16 4) },
  { mnemonic := "and.w", width := .word, flags := [], tag := 602, len := 2,
    mtch := 0x6600, mask := 0xFF00, build := fun w => .andWReg (field w 4 4) (field w 0 4) },
  { mnemonic := "and.l", width := .long, flags := [], tag := 603, len := 6,
    mtch := 0x7A6000000000, mask := 0xFFF800000000, build := fun w => .andLImm (field w 0 32) (field w 32 3) },
  { mnemonic := "and.l", width := .long, flags := [], tag := 603, len := 4,
    mtch := 0x01F06600, mask := 0xFFFFFF88, build := fun w => .andLReg (field w 4 3) (field w 0 3) },
  { mnemonic := "or.b", width := .byte, flags := [], tag := 604, len := 2,
    mtch := 0xC000, mask := 0xF000, build := fun w => .orBImm (field w 0 8) (field w 8 4) },
  { mnemonic := "or.b", width := .byte, flags := [], tag := 604, len := 2,
    mtch := 0x1400, mask := 0xFF00, build := fun w => .orBReg (field w 4 4) (field w 0 4) },
  { mnemonic := "or.w", width := .word, flags := [], tag := 605, len := 4,
    mtch := 0x79400000, mask := 0xFFF00000, build := fun w => .orWImm (field w 0 16) (field w 16 4) },
  { mnemonic := "or.w", width := .word, flags := [], tag := 605, len := 2,
    mtch := 0x6400, mask := 0xFF00, build := fun w => .orWReg (field w 4 4) (field w 0 4) },
  { mnemonic := "or.l", width := .long, flags := [], tag := 606, len := 6,
    mtch := 0x7A4000000000, mask := 0xFFF800000000, build := fun w => .orLImm (field w 0 32) (field w 32 3) },
  { mnemonic := "or.l", width := .long, flags := [], tag := 606, len := 4,
    mtch := 0x01F06400, mask := 0xFFFFFF88, build := fun w => .orLReg (field w 4 3) (field w 0 3) },
  { mnemonic := "xor.b", width := .byte, flags := [], tag := 607, len := 2,
    mtch := 0xD000, mask := 0xF000, build := fun w => .xorBImm (field w 0 8) (field w 8 4) },
  { mnemonic := "xor.b", width := .byte, flags := [], tag := 607, len := 2,
    mtch := 0x1500, mask := 0xFF00, build := fun w => .xorBReg (field w 4 4) (field w 0 4) },
  { mnemonic := "xor.w", width := .word, flags := [], tag := 608, len := 4,
    mtch := 0x79500000, mask := 0xFFF00000, build := fun w => .xorWImm (field w 0 16) (field w 16 4) },
  { mnemonic := "xor.w", width := .word, flags := [], tag := 608, len := 2,
    mtch := 0x6500, mask := 0xFF00, build := fun w => .xorWReg (field w 4 4) (field w 0 4) },
  { mnemonic := "xor.l", width := .long, flags := [], tag := 609, len := 6,
    mtch := 0x7A5000000000, mask := 0xFFF800000000, build := fun w => .xorLImm (field w 0 32) (field w 32 3) },
  { mnemonic := "xor.l", width := .long, flags := [], tag := 609, len := 4,
    mtch := 0x01F06500, mask := 0xFFFFFF88, build := fun w => .xorLReg (field w 4 3) (field w 0 3) },
  { mnemonic := "not.b", width := .byte, flags := [], tag := 610, len := 2,
    mtch := 0x1700, mask := 0xFFF0, build := fun w => .notB (field w 0 4) },
  { mnemonic := "not.w", width := .word, flags := [], tag := 611, len := 2,
    mtch := 0x1710, mask := 0xFFF0, build := fun w => .notW (field w 0 4) },
  { mnemonic := "not.l", width := .long, flags := [], tag := 612, len := 2,
    mtch := 0x1730, mask := 0xFFF8, build := fun w => .notL (field w 0 3) } ]

/-- Rows of 43_shift_rotate.md, part 1 (30_encoding.md R331). -/
def rowsShift1 : List Row := [
  { mnemonic := "shll.b", width := .byte, flags := [], tag := 712, len := 2,
    mtch := 0x1000, mask := 0xFFF0, build := fun w => .shllB (field w 0 4) },
  { mnemonic := "shll.w", width := .word, flags := [], tag := 712, len := 2,
    mtch := 0x1010, mask := 0xFFF0, build := fun w => .shllW (field w 0 4) },
  { mnemonic := "shll.l", width := .long, flags := [], tag := 712, len := 2,
    mtch := 0x1030, mask := 0xFFF8, build := fun w => .shllL (field w 0 3) },
  { mnemonic := "shll.b", width := .byte, flags := [], tag := 712, len := 2,
    mtch := 0x1040, mask := 0xFFF0, build := fun w => .shllB2 (field w 0 4) },
  { mnemonic := "shll.w", width := .word, flags := [], tag := 712, len := 2,
    mtch := 0x1050, mask := 0xFFF0, build := fun w => .shllW2 (field w 0 4) },
  { mnemonic := "shll.l", width := .long, flags := [], tag := 712, len := 2,
    mtch := 0x1070, mask := 0xFFF8, build := fun w => .shllL2 (field w 0 3) },
  { mnemonic := "shal.b", width := .byte, flags := [], tag := 710, len := 2,
    mtch := 0x1080, mask := 0xFFF0, build := fun w => .shalB (field w 0 4) },
  { mnemonic := "shal.w", width := .word, flags := [], tag := 710, len := 2,
    mtch := 0x1090, mask := 0xFFF0, build := fun w => .shalW (field w 0 4) },
  { mnemonic := "shal.l", width := .long, flags := [], tag := 710, len := 2,
    mtch := 0x10B0, mask := 0xFFF8, build := fun w => .shalL (field w 0 3) },
  { mnemonic := "shal.b", width := .byte, flags := [], tag := 710, len := 2,
    mtch := 0x10C0, mask := 0xFFF0, build := fun w => .shalB2 (field w 0 4) },
  { mnemonic := "shal.w", width := .word, flags := [], tag := 710, len := 2,
    mtch := 0x10D0, mask := 0xFFF0, build := fun w => .shalW2 (field w 0 4) },
  { mnemonic := "shal.l", width := .long, flags := [], tag := 710, len := 2,
    mtch := 0x10F0, mask := 0xFFF8, build := fun w => .shalL2 (field w 0 3) },
  { mnemonic := "shlr.b", width := .byte, flags := [], tag := 713, len := 2,
    mtch := 0x1100, mask := 0xFFF0, build := fun w => .shlrB (field w 0 4) },
  { mnemonic := "shlr.w", width := .word, flags := [], tag := 713, len := 2,
    mtch := 0x1110, mask := 0xFFF0, build := fun w => .shlrW (field w 0 4) },
  { mnemonic := "shlr.l", width := .long, flags := [], tag := 713, len := 2,
    mtch := 0x1130, mask := 0xFFF8, build := fun w => .shlrL (field w 0 3) },
  { mnemonic := "shlr.b", width := .byte, flags := [], tag := 713, len := 2,
    mtch := 0x1140, mask := 0xFFF0, build := fun w => .shlrB2 (field w 0 4) },
  { mnemonic := "shlr.w", width := .word, flags := [], tag := 713, len := 2,
    mtch := 0x1150, mask := 0xFFF0, build := fun w => .shlrW2 (field w 0 4) },
  { mnemonic := "shlr.l", width := .long, flags := [], tag := 713, len := 2,
    mtch := 0x1170, mask := 0xFFF8, build := fun w => .shlrL2 (field w 0 3) },
  { mnemonic := "shar.b", width := .byte, flags := [], tag := 711, len := 2,
    mtch := 0x1180, mask := 0xFFF0, build := fun w => .sharB (field w 0 4) },
  { mnemonic := "shar.w", width := .word, flags := [], tag := 711, len := 2,
    mtch := 0x1190, mask := 0xFFF0, build := fun w => .sharW (field w 0 4) },
  { mnemonic := "shar.l", width := .long, flags := [], tag := 711, len := 2,
    mtch := 0x11B0, mask := 0xFFF8, build := fun w => .sharL (field w 0 3) },
  { mnemonic := "shar.b", width := .byte, flags := [], tag := 711, len := 2,
    mtch := 0x11C0, mask := 0xFFF0, build := fun w => .sharB2 (field w 0 4) },
  { mnemonic := "shar.w", width := .word, flags := [], tag := 711, len := 2,
    mtch := 0x11D0, mask := 0xFFF0, build := fun w => .sharW2 (field w 0 4) },
  { mnemonic := "shar.l", width := .long, flags := [], tag := 711, len := 2,
    mtch := 0x11F0, mask := 0xFFF8, build := fun w => .sharL2 (field w 0 3) },
  { mnemonic := "rotxl.b", width := .byte, flags := [], tag := 716, len := 2,
    mtch := 0x1200, mask := 0xFFF0, build := fun w => .rotxlB (field w 0 4) },
  { mnemonic := "rotxl.w", width := .word, flags := [], tag := 716, len := 2,
    mtch := 0x1210, mask := 0xFFF0, build := fun w => .rotxlW (field w 0 4) },
  { mnemonic := "rotxl.l", width := .long, flags := [], tag := 716, len := 2,
    mtch := 0x1230, mask := 0xFFF8, build := fun w => .rotxlL (field w 0 3) },
  { mnemonic := "rotxl.b", width := .byte, flags := [], tag := 716, len := 2,
    mtch := 0x1240, mask := 0xFFF0, build := fun w => .rotxlB2 (field w 0 4) },
  { mnemonic := "rotxl.w", width := .word, flags := [], tag := 716, len := 2,
    mtch := 0x1250, mask := 0xFFF0, build := fun w => .rotxlW2 (field w 0 4) },
  { mnemonic := "rotxl.l", width := .long, flags := [], tag := 716, len := 2,
    mtch := 0x1270, mask := 0xFFF8, build := fun w => .rotxlL2 (field w 0 3) } ]

/-- Rows of 43_shift_rotate.md, part 2 (30_encoding.md R331). -/
def rowsShift2 : List Row := [
  { mnemonic := "rotl.b", width := .byte, flags := [], tag := 714, len := 2,
    mtch := 0x1280, mask := 0xFFF0, build := fun w => .rotlB (field w 0 4) },
  { mnemonic := "rotl.w", width := .word, flags := [], tag := 714, len := 2,
    mtch := 0x1290, mask := 0xFFF0, build := fun w => .rotlW (field w 0 4) },
  { mnemonic := "rotl.l", width := .long, flags := [], tag := 714, len := 2,
    mtch := 0x12B0, mask := 0xFFF8, build := fun w => .rotlL (field w 0 3) },
  { mnemonic := "rotl.b", width := .byte, flags := [], tag := 714, len := 2,
    mtch := 0x12C0, mask := 0xFFF0, build := fun w => .rotlB2 (field w 0 4) },
  { mnemonic := "rotl.w", width := .word, flags := [], tag := 714, len := 2,
    mtch := 0x12D0, mask := 0xFFF0, build := fun w => .rotlW2 (field w 0 4) },
  { mnemonic := "rotl.l", width := .long, flags := [], tag := 714, len := 2,
    mtch := 0x12F0, mask := 0xFFF8, build := fun w => .rotlL2 (field w 0 3) },
  { mnemonic := "rotxr.b", width := .byte, flags := [], tag := 717, len := 2,
    mtch := 0x1300, mask := 0xFFF0, build := fun w => .rotxrB (field w 0 4) },
  { mnemonic := "rotxr.w", width := .word, flags := [], tag := 717, len := 2,
    mtch := 0x1310, mask := 0xFFF0, build := fun w => .rotxrW (field w 0 4) },
  { mnemonic := "rotxr.l", width := .long, flags := [], tag := 717, len := 2,
    mtch := 0x1330, mask := 0xFFF8, build := fun w => .rotxrL (field w 0 3) },
  { mnemonic := "rotxr.b", width := .byte, flags := [], tag := 717, len := 2,
    mtch := 0x1340, mask := 0xFFF0, build := fun w => .rotxrB2 (field w 0 4) },
  { mnemonic := "rotxr.w", width := .word, flags := [], tag := 717, len := 2,
    mtch := 0x1350, mask := 0xFFF0, build := fun w => .rotxrW2 (field w 0 4) },
  { mnemonic := "rotxr.l", width := .long, flags := [], tag := 717, len := 2,
    mtch := 0x1370, mask := 0xFFF8, build := fun w => .rotxrL2 (field w 0 3) },
  { mnemonic := "rotr.b", width := .byte, flags := [], tag := 715, len := 2,
    mtch := 0x1380, mask := 0xFFF0, build := fun w => .rotrB (field w 0 4) },
  { mnemonic := "rotr.w", width := .word, flags := [], tag := 715, len := 2,
    mtch := 0x1390, mask := 0xFFF0, build := fun w => .rotrW (field w 0 4) },
  { mnemonic := "rotr.l", width := .long, flags := [], tag := 715, len := 2,
    mtch := 0x13B0, mask := 0xFFF8, build := fun w => .rotrL (field w 0 3) },
  { mnemonic := "rotr.b", width := .byte, flags := [], tag := 715, len := 2,
    mtch := 0x13C0, mask := 0xFFF0, build := fun w => .rotrB2 (field w 0 4) },
  { mnemonic := "rotr.w", width := .word, flags := [], tag := 715, len := 2,
    mtch := 0x13D0, mask := 0xFFF0, build := fun w => .rotrW2 (field w 0 4) },
  { mnemonic := "rotr.l", width := .long, flags := [], tag := 715, len := 2,
    mtch := 0x13F0, mask := 0xFFF8, build := fun w => .rotrL2 (field w 0 3) } ]

/-- Rows of 44_bit_manipulation.md, part 1 (30_encoding.md R331). -/
def rowsBit1 : List Row := [
  { mnemonic := "bset", width := .byte, flags := [], tag := 810, len := 2,
    mtch := 0x7000, mask := 0xFF80, build := fun w => .bsetImm (field w 4 3) (.reg (field w 0 4)) },
  { mnemonic := "bset", width := .byte, flags := [], tag := 810, len := 4,
    mtch := 0x7D007000, mask := 0xFF8FFF8F, build := fun w => .bsetImm (field w 4 3) (.ind (field w 20 3)) },
  { mnemonic := "bset", width := .byte, flags := [], tag := 810, len := 4,
    mtch := 0x7F007000, mask := 0xFF00FF8F, build := fun w => .bsetImm (field w 4 3) (.abs8 (field w 16 8)) },
  { mnemonic := "bset", width := .byte, flags := [], tag := 810, len := 6,
    mtch := 0x6A1800007000, mask := 0xFFFF0000FF8F, build := fun w => .bsetImm (field w 4 3) (.abs16 (field w 16 16)) },
  { mnemonic := "bset", width := .byte, flags := [], tag := 810, len := 8,
    mtch := 0x6A38000000007000, mask := 0xFFFF00000000FF8F, build := fun w => .bsetImm (field w 4 3) (.abs32 (field w 16 32)) },
  { mnemonic := "bset", width := .byte, flags := [], tag := 810, len := 2,
    mtch := 0x6000, mask := 0xFF00, build := fun w => .bsetRn (field w 4 4) (.reg (field w 0 4)) },
  { mnemonic := "bset", width := .byte, flags := [], tag := 810, len := 4,
    mtch := 0x7D006000, mask := 0xFF8FFF0F, build := fun w => .bsetRn (field w 4 4) (.ind (field w 20 3)) },
  { mnemonic := "bset", width := .byte, flags := [], tag := 810, len := 4,
    mtch := 0x7F006000, mask := 0xFF00FF0F, build := fun w => .bsetRn (field w 4 4) (.abs8 (field w 16 8)) },
  { mnemonic := "bset", width := .byte, flags := [], tag := 810, len := 6,
    mtch := 0x6A1800006000, mask := 0xFFFF0000FF0F, build := fun w => .bsetRn (field w 4 4) (.abs16 (field w 16 16)) },
  { mnemonic := "bset", width := .byte, flags := [], tag := 810, len := 8,
    mtch := 0x6A38000000006000, mask := 0xFFFF00000000FF0F, build := fun w => .bsetRn (field w 4 4) (.abs32 (field w 16 32)) },
  { mnemonic := "bnot", width := .byte, flags := [], tag := 812, len := 2,
    mtch := 0x7100, mask := 0xFF80, build := fun w => .bnotImm (field w 4 3) (.reg (field w 0 4)) },
  { mnemonic := "bnot", width := .byte, flags := [], tag := 812, len := 4,
    mtch := 0x7D007100, mask := 0xFF8FFF8F, build := fun w => .bnotImm (field w 4 3) (.ind (field w 20 3)) },
  { mnemonic := "bnot", width := .byte, flags := [], tag := 812, len := 4,
    mtch := 0x7F007100, mask := 0xFF00FF8F, build := fun w => .bnotImm (field w 4 3) (.abs8 (field w 16 8)) },
  { mnemonic := "bnot", width := .byte, flags := [], tag := 812, len := 6,
    mtch := 0x6A1800007100, mask := 0xFFFF0000FF8F, build := fun w => .bnotImm (field w 4 3) (.abs16 (field w 16 16)) },
  { mnemonic := "bnot", width := .byte, flags := [], tag := 812, len := 8,
    mtch := 0x6A38000000007100, mask := 0xFFFF00000000FF8F, build := fun w => .bnotImm (field w 4 3) (.abs32 (field w 16 32)) },
  { mnemonic := "bnot", width := .byte, flags := [], tag := 812, len := 2,
    mtch := 0x6100, mask := 0xFF00, build := fun w => .bnotRn (field w 4 4) (.reg (field w 0 4)) },
  { mnemonic := "bnot", width := .byte, flags := [], tag := 812, len := 4,
    mtch := 0x7D006100, mask := 0xFF8FFF0F, build := fun w => .bnotRn (field w 4 4) (.ind (field w 20 3)) },
  { mnemonic := "bnot", width := .byte, flags := [], tag := 812, len := 4,
    mtch := 0x7F006100, mask := 0xFF00FF0F, build := fun w => .bnotRn (field w 4 4) (.abs8 (field w 16 8)) },
  { mnemonic := "bnot", width := .byte, flags := [], tag := 812, len := 6,
    mtch := 0x6A1800006100, mask := 0xFFFF0000FF0F, build := fun w => .bnotRn (field w 4 4) (.abs16 (field w 16 16)) },
  { mnemonic := "bnot", width := .byte, flags := [], tag := 812, len := 8,
    mtch := 0x6A38000000006100, mask := 0xFFFF00000000FF0F, build := fun w => .bnotRn (field w 4 4) (.abs32 (field w 16 32)) },
  { mnemonic := "bclr", width := .byte, flags := [], tag := 811, len := 2,
    mtch := 0x7200, mask := 0xFF80, build := fun w => .bclrImm (field w 4 3) (.reg (field w 0 4)) },
  { mnemonic := "bclr", width := .byte, flags := [], tag := 811, len := 4,
    mtch := 0x7D007200, mask := 0xFF8FFF8F, build := fun w => .bclrImm (field w 4 3) (.ind (field w 20 3)) },
  { mnemonic := "bclr", width := .byte, flags := [], tag := 811, len := 4,
    mtch := 0x7F007200, mask := 0xFF00FF8F, build := fun w => .bclrImm (field w 4 3) (.abs8 (field w 16 8)) },
  { mnemonic := "bclr", width := .byte, flags := [], tag := 811, len := 6,
    mtch := 0x6A1800007200, mask := 0xFFFF0000FF8F, build := fun w => .bclrImm (field w 4 3) (.abs16 (field w 16 16)) },
  { mnemonic := "bclr", width := .byte, flags := [], tag := 811, len := 8,
    mtch := 0x6A38000000007200, mask := 0xFFFF00000000FF8F, build := fun w => .bclrImm (field w 4 3) (.abs32 (field w 16 32)) },
  { mnemonic := "bclr", width := .byte, flags := [], tag := 811, len := 2,
    mtch := 0x6200, mask := 0xFF00, build := fun w => .bclrRn (field w 4 4) (.reg (field w 0 4)) },
  { mnemonic := "bclr", width := .byte, flags := [], tag := 811, len := 4,
    mtch := 0x7D006200, mask := 0xFF8FFF0F, build := fun w => .bclrRn (field w 4 4) (.ind (field w 20 3)) },
  { mnemonic := "bclr", width := .byte, flags := [], tag := 811, len := 4,
    mtch := 0x7F006200, mask := 0xFF00FF0F, build := fun w => .bclrRn (field w 4 4) (.abs8 (field w 16 8)) },
  { mnemonic := "bclr", width := .byte, flags := [], tag := 811, len := 6,
    mtch := 0x6A1800006200, mask := 0xFFFF0000FF0F, build := fun w => .bclrRn (field w 4 4) (.abs16 (field w 16 16)) },
  { mnemonic := "bclr", width := .byte, flags := [], tag := 811, len := 8,
    mtch := 0x6A38000000006200, mask := 0xFFFF00000000FF0F, build := fun w => .bclrRn (field w 4 4) (.abs32 (field w 16 32)) } ]

/-- Rows of 44_bit_manipulation.md, part 2 (30_encoding.md R331). -/
def rowsBit2 : List Row := [
  { mnemonic := "btst", width := .byte, flags := [], tag := 813, len := 2,
    mtch := 0x7300, mask := 0xFF80, build := fun w => .btstImm (field w 4 3) (.reg (field w 0 4)) },
  { mnemonic := "btst", width := .byte, flags := [], tag := 813, len := 4,
    mtch := 0x7C007300, mask := 0xFF8FFF8F, build := fun w => .btstImm (field w 4 3) (.ind (field w 20 3)) },
  { mnemonic := "btst", width := .byte, flags := [], tag := 813, len := 4,
    mtch := 0x7E007300, mask := 0xFF00FF8F, build := fun w => .btstImm (field w 4 3) (.abs8 (field w 16 8)) },
  { mnemonic := "btst", width := .byte, flags := [], tag := 813, len := 6,
    mtch := 0x6A1000007300, mask := 0xFFFF0000FF8F, build := fun w => .btstImm (field w 4 3) (.abs16 (field w 16 16)) },
  { mnemonic := "btst", width := .byte, flags := [], tag := 813, len := 8,
    mtch := 0x6A30000000007300, mask := 0xFFFF00000000FF8F, build := fun w => .btstImm (field w 4 3) (.abs32 (field w 16 32)) },
  { mnemonic := "btst", width := .byte, flags := [], tag := 813, len := 2,
    mtch := 0x6300, mask := 0xFF00, build := fun w => .btstRn (field w 4 4) (.reg (field w 0 4)) },
  { mnemonic := "btst", width := .byte, flags := [], tag := 813, len := 4,
    mtch := 0x7C006300, mask := 0xFF8FFF0F, build := fun w => .btstRn (field w 4 4) (.ind (field w 20 3)) },
  { mnemonic := "btst", width := .byte, flags := [], tag := 813, len := 4,
    mtch := 0x7E006300, mask := 0xFF00FF0F, build := fun w => .btstRn (field w 4 4) (.abs8 (field w 16 8)) },
  { mnemonic := "btst", width := .byte, flags := [], tag := 813, len := 6,
    mtch := 0x6A1000006300, mask := 0xFFFF0000FF0F, build := fun w => .btstRn (field w 4 4) (.abs16 (field w 16 16)) },
  { mnemonic := "btst", width := .byte, flags := [], tag := 813, len := 8,
    mtch := 0x6A30000000006300, mask := 0xFFFF00000000FF0F, build := fun w => .btstRn (field w 4 4) (.abs32 (field w 16 32)) },
  { mnemonic := "bor", width := .byte, flags := [], tag := 820, len := 2,
    mtch := 0x7400, mask := 0xFF80, build := fun w => .bor (field w 4 3) (.reg (field w 0 4)) },
  { mnemonic := "bor", width := .byte, flags := [], tag := 820, len := 4,
    mtch := 0x7C007400, mask := 0xFF8FFF8F, build := fun w => .bor (field w 4 3) (.ind (field w 20 3)) },
  { mnemonic := "bor", width := .byte, flags := [], tag := 820, len := 4,
    mtch := 0x7E007400, mask := 0xFF00FF8F, build := fun w => .bor (field w 4 3) (.abs8 (field w 16 8)) },
  { mnemonic := "bor", width := .byte, flags := [], tag := 820, len := 6,
    mtch := 0x6A1000007400, mask := 0xFFFF0000FF8F, build := fun w => .bor (field w 4 3) (.abs16 (field w 16 16)) },
  { mnemonic := "bor", width := .byte, flags := [], tag := 820, len := 8,
    mtch := 0x6A30000000007400, mask := 0xFFFF00000000FF8F, build := fun w => .bor (field w 4 3) (.abs32 (field w 16 32)) },
  { mnemonic := "bior", width := .byte, flags := [], tag := 821, len := 2,
    mtch := 0x7480, mask := 0xFF80, build := fun w => .bior (field w 4 3) (.reg (field w 0 4)) },
  { mnemonic := "bior", width := .byte, flags := [], tag := 821, len := 4,
    mtch := 0x7C007480, mask := 0xFF8FFF8F, build := fun w => .bior (field w 4 3) (.ind (field w 20 3)) },
  { mnemonic := "bior", width := .byte, flags := [], tag := 821, len := 4,
    mtch := 0x7E007480, mask := 0xFF00FF8F, build := fun w => .bior (field w 4 3) (.abs8 (field w 16 8)) },
  { mnemonic := "bior", width := .byte, flags := [], tag := 821, len := 6,
    mtch := 0x6A1000007480, mask := 0xFFFF0000FF8F, build := fun w => .bior (field w 4 3) (.abs16 (field w 16 16)) },
  { mnemonic := "bior", width := .byte, flags := [], tag := 821, len := 8,
    mtch := 0x6A30000000007480, mask := 0xFFFF00000000FF8F, build := fun w => .bior (field w 4 3) (.abs32 (field w 16 32)) },
  { mnemonic := "bxor", width := .byte, flags := [], tag := 822, len := 2,
    mtch := 0x7500, mask := 0xFF80, build := fun w => .bxor (field w 4 3) (.reg (field w 0 4)) },
  { mnemonic := "bxor", width := .byte, flags := [], tag := 822, len := 4,
    mtch := 0x7C007500, mask := 0xFF8FFF8F, build := fun w => .bxor (field w 4 3) (.ind (field w 20 3)) },
  { mnemonic := "bxor", width := .byte, flags := [], tag := 822, len := 4,
    mtch := 0x7E007500, mask := 0xFF00FF8F, build := fun w => .bxor (field w 4 3) (.abs8 (field w 16 8)) },
  { mnemonic := "bxor", width := .byte, flags := [], tag := 822, len := 6,
    mtch := 0x6A1000007500, mask := 0xFFFF0000FF8F, build := fun w => .bxor (field w 4 3) (.abs16 (field w 16 16)) },
  { mnemonic := "bxor", width := .byte, flags := [], tag := 822, len := 8,
    mtch := 0x6A30000000007500, mask := 0xFFFF00000000FF8F, build := fun w => .bxor (field w 4 3) (.abs32 (field w 16 32)) },
  { mnemonic := "bixor", width := .byte, flags := [], tag := 823, len := 2,
    mtch := 0x7580, mask := 0xFF80, build := fun w => .bixor (field w 4 3) (.reg (field w 0 4)) },
  { mnemonic := "bixor", width := .byte, flags := [], tag := 823, len := 4,
    mtch := 0x7C007580, mask := 0xFF8FFF8F, build := fun w => .bixor (field w 4 3) (.ind (field w 20 3)) },
  { mnemonic := "bixor", width := .byte, flags := [], tag := 823, len := 4,
    mtch := 0x7E007580, mask := 0xFF00FF8F, build := fun w => .bixor (field w 4 3) (.abs8 (field w 16 8)) },
  { mnemonic := "bixor", width := .byte, flags := [], tag := 823, len := 6,
    mtch := 0x6A1000007580, mask := 0xFFFF0000FF8F, build := fun w => .bixor (field w 4 3) (.abs16 (field w 16 16)) },
  { mnemonic := "bixor", width := .byte, flags := [], tag := 823, len := 8,
    mtch := 0x6A30000000007580, mask := 0xFFFF00000000FF8F, build := fun w => .bixor (field w 4 3) (.abs32 (field w 16 32)) } ]

/-- Rows of 44_bit_manipulation.md, part 3 (30_encoding.md R331). -/
def rowsBit3 : List Row := [
  { mnemonic := "band", width := .byte, flags := [], tag := 818, len := 2,
    mtch := 0x7600, mask := 0xFF80, build := fun w => .band (field w 4 3) (.reg (field w 0 4)) },
  { mnemonic := "band", width := .byte, flags := [], tag := 818, len := 4,
    mtch := 0x7C007600, mask := 0xFF8FFF8F, build := fun w => .band (field w 4 3) (.ind (field w 20 3)) },
  { mnemonic := "band", width := .byte, flags := [], tag := 818, len := 4,
    mtch := 0x7E007600, mask := 0xFF00FF8F, build := fun w => .band (field w 4 3) (.abs8 (field w 16 8)) },
  { mnemonic := "band", width := .byte, flags := [], tag := 818, len := 6,
    mtch := 0x6A1000007600, mask := 0xFFFF0000FF8F, build := fun w => .band (field w 4 3) (.abs16 (field w 16 16)) },
  { mnemonic := "band", width := .byte, flags := [], tag := 818, len := 8,
    mtch := 0x6A30000000007600, mask := 0xFFFF00000000FF8F, build := fun w => .band (field w 4 3) (.abs32 (field w 16 32)) },
  { mnemonic := "biand", width := .byte, flags := [], tag := 819, len := 2,
    mtch := 0x7680, mask := 0xFF80, build := fun w => .biand (field w 4 3) (.reg (field w 0 4)) },
  { mnemonic := "biand", width := .byte, flags := [], tag := 819, len := 4,
    mtch := 0x7C007680, mask := 0xFF8FFF8F, build := fun w => .biand (field w 4 3) (.ind (field w 20 3)) },
  { mnemonic := "biand", width := .byte, flags := [], tag := 819, len := 4,
    mtch := 0x7E007680, mask := 0xFF00FF8F, build := fun w => .biand (field w 4 3) (.abs8 (field w 16 8)) },
  { mnemonic := "biand", width := .byte, flags := [], tag := 819, len := 6,
    mtch := 0x6A1000007680, mask := 0xFFFF0000FF8F, build := fun w => .biand (field w 4 3) (.abs16 (field w 16 16)) },
  { mnemonic := "biand", width := .byte, flags := [], tag := 819, len := 8,
    mtch := 0x6A30000000007680, mask := 0xFFFF00000000FF8F, build := fun w => .biand (field w 4 3) (.abs32 (field w 16 32)) },
  { mnemonic := "bld", width := .byte, flags := [], tag := 814, len := 2,
    mtch := 0x7700, mask := 0xFF80, build := fun w => .bld (field w 4 3) (.reg (field w 0 4)) },
  { mnemonic := "bld", width := .byte, flags := [], tag := 814, len := 4,
    mtch := 0x7C007700, mask := 0xFF8FFF8F, build := fun w => .bld (field w 4 3) (.ind (field w 20 3)) },
  { mnemonic := "bld", width := .byte, flags := [], tag := 814, len := 4,
    mtch := 0x7E007700, mask := 0xFF00FF8F, build := fun w => .bld (field w 4 3) (.abs8 (field w 16 8)) },
  { mnemonic := "bld", width := .byte, flags := [], tag := 814, len := 6,
    mtch := 0x6A1000007700, mask := 0xFFFF0000FF8F, build := fun w => .bld (field w 4 3) (.abs16 (field w 16 16)) },
  { mnemonic := "bld", width := .byte, flags := [], tag := 814, len := 8,
    mtch := 0x6A30000000007700, mask := 0xFFFF00000000FF8F, build := fun w => .bld (field w 4 3) (.abs32 (field w 16 32)) },
  { mnemonic := "bild", width := .byte, flags := [], tag := 815, len := 2,
    mtch := 0x7780, mask := 0xFF80, build := fun w => .bild (field w 4 3) (.reg (field w 0 4)) },
  { mnemonic := "bild", width := .byte, flags := [], tag := 815, len := 4,
    mtch := 0x7C007780, mask := 0xFF8FFF8F, build := fun w => .bild (field w 4 3) (.ind (field w 20 3)) },
  { mnemonic := "bild", width := .byte, flags := [], tag := 815, len := 4,
    mtch := 0x7E007780, mask := 0xFF00FF8F, build := fun w => .bild (field w 4 3) (.abs8 (field w 16 8)) },
  { mnemonic := "bild", width := .byte, flags := [], tag := 815, len := 6,
    mtch := 0x6A1000007780, mask := 0xFFFF0000FF8F, build := fun w => .bild (field w 4 3) (.abs16 (field w 16 16)) },
  { mnemonic := "bild", width := .byte, flags := [], tag := 815, len := 8,
    mtch := 0x6A30000000007780, mask := 0xFFFF00000000FF8F, build := fun w => .bild (field w 4 3) (.abs32 (field w 16 32)) },
  { mnemonic := "bst", width := .byte, flags := [], tag := 816, len := 2,
    mtch := 0x6700, mask := 0xFF80, build := fun w => .bst (field w 4 3) (.reg (field w 0 4)) },
  { mnemonic := "bst", width := .byte, flags := [], tag := 816, len := 4,
    mtch := 0x7D006700, mask := 0xFF8FFF8F, build := fun w => .bst (field w 4 3) (.ind (field w 20 3)) },
  { mnemonic := "bst", width := .byte, flags := [], tag := 816, len := 4,
    mtch := 0x7F006700, mask := 0xFF00FF8F, build := fun w => .bst (field w 4 3) (.abs8 (field w 16 8)) },
  { mnemonic := "bst", width := .byte, flags := [], tag := 816, len := 6,
    mtch := 0x6A1800006700, mask := 0xFFFF0000FF8F, build := fun w => .bst (field w 4 3) (.abs16 (field w 16 16)) },
  { mnemonic := "bst", width := .byte, flags := [], tag := 816, len := 8,
    mtch := 0x6A38000000006700, mask := 0xFFFF00000000FF8F, build := fun w => .bst (field w 4 3) (.abs32 (field w 16 32)) },
  { mnemonic := "bist", width := .byte, flags := [], tag := 817, len := 2,
    mtch := 0x6780, mask := 0xFF80, build := fun w => .bist (field w 4 3) (.reg (field w 0 4)) },
  { mnemonic := "bist", width := .byte, flags := [], tag := 817, len := 4,
    mtch := 0x7D006780, mask := 0xFF8FFF8F, build := fun w => .bist (field w 4 3) (.ind (field w 20 3)) },
  { mnemonic := "bist", width := .byte, flags := [], tag := 817, len := 4,
    mtch := 0x7F006780, mask := 0xFF00FF8F, build := fun w => .bist (field w 4 3) (.abs8 (field w 16 8)) },
  { mnemonic := "bist", width := .byte, flags := [], tag := 817, len := 6,
    mtch := 0x6A1800006780, mask := 0xFFFF0000FF8F, build := fun w => .bist (field w 4 3) (.abs16 (field w 16 16)) },
  { mnemonic := "bist", width := .byte, flags := [], tag := 817, len := 8,
    mtch := 0x6A38000000006780, mask := 0xFFFF00000000FF8F, build := fun w => .bist (field w 4 3) (.abs32 (field w 16 32)) } ]

/-- Rows of 45_branch.md, part 1 (30_encoding.md R331). -/
def rowsBranch1 : List Row := [
  { mnemonic := "bra", width := .none, flags := [.isBranch, .doesNotFallThrough], tag := 910, len := 2,
    mtch := 0x4000, mask := 0xFF00, build := fun w => .bra8 (field w 0 8) },
  { mnemonic := "bra", width := .none, flags := [.isBranch, .doesNotFallThrough], tag := 910, len := 4,
    mtch := 0x58000000, mask := 0xFFFF0000, build := fun w => .bra16 (field w 0 16) },
  { mnemonic := "brn", width := .none, flags := [.isBranch, .isConditionalBranch], tag := 911, len := 2,
    mtch := 0x4100, mask := 0xFF00, build := fun w => .brn8 (field w 0 8) },
  { mnemonic := "brn", width := .none, flags := [.isBranch, .isConditionalBranch], tag := 911, len := 4,
    mtch := 0x58100000, mask := 0xFFFF0000, build := fun w => .brn16 (field w 0 16) },
  { mnemonic := "bhi", width := .none, flags := [.isBranch, .isConditionalBranch], tag := 912, len := 2,
    mtch := 0x4200, mask := 0xFF00, build := fun w => .bhi8 (field w 0 8) },
  { mnemonic := "bhi", width := .none, flags := [.isBranch, .isConditionalBranch], tag := 912, len := 4,
    mtch := 0x58200000, mask := 0xFFFF0000, build := fun w => .bhi16 (field w 0 16) },
  { mnemonic := "bls", width := .none, flags := [.isBranch, .isConditionalBranch], tag := 913, len := 2,
    mtch := 0x4300, mask := 0xFF00, build := fun w => .bls8 (field w 0 8) },
  { mnemonic := "bls", width := .none, flags := [.isBranch, .isConditionalBranch], tag := 913, len := 4,
    mtch := 0x58300000, mask := 0xFFFF0000, build := fun w => .bls16 (field w 0 16) },
  { mnemonic := "bcc", width := .none, flags := [.isBranch, .isConditionalBranch], tag := 914, len := 2,
    mtch := 0x4400, mask := 0xFF00, build := fun w => .bcc8 (field w 0 8) },
  { mnemonic := "bcc", width := .none, flags := [.isBranch, .isConditionalBranch], tag := 914, len := 4,
    mtch := 0x58400000, mask := 0xFFFF0000, build := fun w => .bcc16 (field w 0 16) },
  { mnemonic := "bcs", width := .none, flags := [.isBranch, .isConditionalBranch], tag := 915, len := 2,
    mtch := 0x4500, mask := 0xFF00, build := fun w => .bcs8 (field w 0 8) },
  { mnemonic := "bcs", width := .none, flags := [.isBranch, .isConditionalBranch], tag := 915, len := 4,
    mtch := 0x58500000, mask := 0xFFFF0000, build := fun w => .bcs16 (field w 0 16) },
  { mnemonic := "bne", width := .none, flags := [.isBranch, .isConditionalBranch], tag := 916, len := 2,
    mtch := 0x4600, mask := 0xFF00, build := fun w => .bne8 (field w 0 8) },
  { mnemonic := "bne", width := .none, flags := [.isBranch, .isConditionalBranch], tag := 916, len := 4,
    mtch := 0x58600000, mask := 0xFFFF0000, build := fun w => .bne16 (field w 0 16) },
  { mnemonic := "beq", width := .none, flags := [.isBranch, .isConditionalBranch], tag := 917, len := 2,
    mtch := 0x4700, mask := 0xFF00, build := fun w => .beq8 (field w 0 8) },
  { mnemonic := "beq", width := .none, flags := [.isBranch, .isConditionalBranch], tag := 917, len := 4,
    mtch := 0x58700000, mask := 0xFFFF0000, build := fun w => .beq16 (field w 0 16) },
  { mnemonic := "bvc", width := .none, flags := [.isBranch, .isConditionalBranch], tag := 918, len := 2,
    mtch := 0x4800, mask := 0xFF00, build := fun w => .bvc8 (field w 0 8) },
  { mnemonic := "bvc", width := .none, flags := [.isBranch, .isConditionalBranch], tag := 918, len := 4,
    mtch := 0x58800000, mask := 0xFFFF0000, build := fun w => .bvc16 (field w 0 16) },
  { mnemonic := "bvs", width := .none, flags := [.isBranch, .isConditionalBranch], tag := 919, len := 2,
    mtch := 0x4900, mask := 0xFF00, build := fun w => .bvs8 (field w 0 8) },
  { mnemonic := "bvs", width := .none, flags := [.isBranch, .isConditionalBranch], tag := 919, len := 4,
    mtch := 0x58900000, mask := 0xFFFF0000, build := fun w => .bvs16 (field w 0 16) },
  { mnemonic := "bpl", width := .none, flags := [.isBranch, .isConditionalBranch], tag := 920, len := 2,
    mtch := 0x4A00, mask := 0xFF00, build := fun w => .bpl8 (field w 0 8) },
  { mnemonic := "bpl", width := .none, flags := [.isBranch, .isConditionalBranch], tag := 920, len := 4,
    mtch := 0x58A00000, mask := 0xFFFF0000, build := fun w => .bpl16 (field w 0 16) },
  { mnemonic := "bmi", width := .none, flags := [.isBranch, .isConditionalBranch], tag := 921, len := 2,
    mtch := 0x4B00, mask := 0xFF00, build := fun w => .bmi8 (field w 0 8) },
  { mnemonic := "bmi", width := .none, flags := [.isBranch, .isConditionalBranch], tag := 921, len := 4,
    mtch := 0x58B00000, mask := 0xFFFF0000, build := fun w => .bmi16 (field w 0 16) },
  { mnemonic := "bge", width := .none, flags := [.isBranch, .isConditionalBranch], tag := 922, len := 2,
    mtch := 0x4C00, mask := 0xFF00, build := fun w => .bge8 (field w 0 8) },
  { mnemonic := "bge", width := .none, flags := [.isBranch, .isConditionalBranch], tag := 922, len := 4,
    mtch := 0x58C00000, mask := 0xFFFF0000, build := fun w => .bge16 (field w 0 16) },
  { mnemonic := "blt", width := .none, flags := [.isBranch, .isConditionalBranch], tag := 923, len := 2,
    mtch := 0x4D00, mask := 0xFF00, build := fun w => .blt8 (field w 0 8) },
  { mnemonic := "blt", width := .none, flags := [.isBranch, .isConditionalBranch], tag := 923, len := 4,
    mtch := 0x58D00000, mask := 0xFFFF0000, build := fun w => .blt16 (field w 0 16) },
  { mnemonic := "bgt", width := .none, flags := [.isBranch, .isConditionalBranch], tag := 924, len := 2,
    mtch := 0x4E00, mask := 0xFF00, build := fun w => .bgt8 (field w 0 8) },
  { mnemonic := "bgt", width := .none, flags := [.isBranch, .isConditionalBranch], tag := 924, len := 4,
    mtch := 0x58E00000, mask := 0xFFFF0000, build := fun w => .bgt16 (field w 0 16) } ]

/-- Rows of 45_branch.md, part 2 (30_encoding.md R331). -/
def rowsBranch2 : List Row := [
  { mnemonic := "ble", width := .none, flags := [.isBranch, .isConditionalBranch], tag := 925, len := 2,
    mtch := 0x4F00, mask := 0xFF00, build := fun w => .ble8 (field w 0 8) },
  { mnemonic := "ble", width := .none, flags := [.isBranch, .isConditionalBranch], tag := 925, len := 4,
    mtch := 0x58F00000, mask := 0xFFFF0000, build := fun w => .ble16 (field w 0 16) },
  { mnemonic := "jmp", width := .none, flags := [.isBranch, .doesNotFallThrough], tag := 930, len := 2,
    mtch := 0x5900, mask := 0xFF8F, build := fun w => .jmpInd (field w 4 3) },
  { mnemonic := "jmp", width := .none, flags := [.isBranch, .doesNotFallThrough], tag := 930, len := 4,
    mtch := 0x5A000000, mask := 0xFF000000, build := fun w => .jmpAbs24 (field w 0 24) },
  { mnemonic := "jmp", width := .none, flags := [.isBranch, .doesNotFallThrough], tag := 930, len := 2,
    mtch := 0x5B00, mask := 0xFF00, build := fun w => .jmpMemInd (field w 0 8) },
  { mnemonic := "bsr", width := .none, flags := [.isCall], tag := 931, len := 2,
    mtch := 0x5500, mask := 0xFF00, build := fun w => .bsr8 (field w 0 8) },
  { mnemonic := "bsr", width := .none, flags := [.isCall], tag := 931, len := 4,
    mtch := 0x5C000000, mask := 0xFFFF0000, build := fun w => .bsr16 (field w 0 16) },
  { mnemonic := "jsr", width := .none, flags := [.isCall], tag := 932, len := 2,
    mtch := 0x5D00, mask := 0xFF8F, build := fun w => .jsrInd (field w 4 3) },
  { mnemonic := "jsr", width := .none, flags := [.isCall], tag := 932, len := 4,
    mtch := 0x5E000000, mask := 0xFF000000, build := fun w => .jsrAbs24 (field w 0 24) },
  { mnemonic := "jsr", width := .none, flags := [.isCall], tag := 932, len := 2,
    mtch := 0x5F00, mask := 0xFF00, build := fun w => .jsrMemInd (field w 0 8) },
  { mnemonic := "rts", width := .none, flags := [.returnsFromCall, .doesNotFallThrough], tag := 933, len := 2,
    mtch := 0x5470, mask := 0xFFFF, build := fun _ => .rts } ]

/-- Rows of 46_system_control.md, part 1 (30_encoding.md R331). -/
def rowsSystem1 : List Row := [
  { mnemonic := "trapa", width := .none, flags := [.noFallthroughTrap], tag := 1010, len := 2,
    mtch := 0x5700, mask := 0xFFCF, build := fun w => .trapa (field w 4 2) },
  { mnemonic := "rte", width := .none, flags := [.returnsFromCall, .doesNotFallThrough], tag := 1011, len := 2,
    mtch := 0x5670, mask := 0xFFFF, build := fun _ => .rte },
  { mnemonic := "sleep", width := .none, flags := [], tag := 1012, len := 2,
    mtch := 0x0180, mask := 0xFFFF, build := fun _ => .sleep },
  { mnemonic := "ldc", width := .byte, flags := [], tag := 1013, len := 2,
    mtch := 0x0700, mask := 0xFF00, build := fun w => .ldcImmCcr (field w 0 8) },
  { mnemonic := "andc", width := .byte, flags := [], tag := 1017, len := 2,
    mtch := 0x0600, mask := 0xFF00, build := fun w => .andcCcr (field w 0 8) },
  { mnemonic := "orc", width := .byte, flags := [], tag := 1019, len := 2,
    mtch := 0x0400, mask := 0xFF00, build := fun w => .orcCcr (field w 0 8) },
  { mnemonic := "xorc", width := .byte, flags := [], tag := 1021, len := 2,
    mtch := 0x0500, mask := 0xFF00, build := fun w => .xorcCcr (field w 0 8) },
  { mnemonic := "ldc", width := .byte, flags := [], tag := 1013, len := 2,
    mtch := 0x0300, mask := 0xFFF0, build := fun w => .ldcRegCcr (field w 0 4) },
  { mnemonic := "stc", width := .byte, flags := [], tag := 1015, len := 2,
    mtch := 0x0200, mask := 0xFFF0, build := fun w => .stcRegCcr (field w 0 4) },
  { mnemonic := "ldc.w", width := .word, flags := [], tag := 1013, len := 4,
    mtch := 0x01406900, mask := 0xFFFFFF8F, build := fun w => .ldcWCcr (.ind (field w 4 3)) },
  { mnemonic := "stc.w", width := .word, flags := [], tag := 1015, len := 4,
    mtch := 0x01406980, mask := 0xFFFFFF8F, build := fun w => .stcWCcr (.ind (field w 4 3)) },
  { mnemonic := "ldc.w", width := .word, flags := [], tag := 1013, len := 6,
    mtch := 0x01406F000000, mask := 0xFFFFFF8F0000, build := fun w => .ldcWCcr (.disp16 (field w 0 16) (field w 20 3)) },
  { mnemonic := "stc.w", width := .word, flags := [], tag := 1015, len := 6,
    mtch := 0x01406F800000, mask := 0xFFFFFF8F0000, build := fun w => .stcWCcr (.disp16 (field w 0 16) (field w 20 3)) },
  { mnemonic := "ldc.w", width := .word, flags := [], tag := 1013, len := 10,
    mtch := 0x014078006B2000000000, mask := 0xFFFFFF8FFFFF00000000, build := fun w => .ldcWCcr (.disp32 (field w 0 32) (field w 52 3)) },
  { mnemonic := "stc.w", width := .word, flags := [], tag := 1015, len := 10,
    mtch := 0x014078006BA000000000, mask := 0xFFFFFF8FFFFF00000000, build := fun w => .stcWCcr (.disp32 (field w 0 32) (field w 52 3)) },
  { mnemonic := "ldc.w", width := .word, flags := [], tag := 1013, len := 4,
    mtch := 0x01406D00, mask := 0xFFFFFF8F, build := fun w => .ldcWCcr (.inc (field w 4 3)) },
  { mnemonic := "stc.w", width := .word, flags := [], tag := 1015, len := 4,
    mtch := 0x01406D80, mask := 0xFFFFFF8F, build := fun w => .stcWCcr (.dec (field w 4 3)) },
  { mnemonic := "ldc.w", width := .word, flags := [], tag := 1013, len := 6,
    mtch := 0x01406B000000, mask := 0xFFFFFFFF0000, build := fun w => .ldcWCcr (.abs16 (field w 0 16)) },
  { mnemonic := "ldc.w", width := .word, flags := [], tag := 1013, len := 8,
    mtch := 0x01406B2000000000, mask := 0xFFFFFFFF00000000, build := fun w => .ldcWCcr (.abs32 (field w 0 32)) },
  { mnemonic := "stc.w", width := .word, flags := [], tag := 1015, len := 6,
    mtch := 0x01406B800000, mask := 0xFFFFFFFF0000, build := fun w => .stcWCcr (.abs16 (field w 0 16)) },
  { mnemonic := "stc.w", width := .word, flags := [], tag := 1015, len := 8,
    mtch := 0x01406BA000000000, mask := 0xFFFFFFFF00000000, build := fun w => .stcWCcr (.abs32 (field w 0 32)) },
  { mnemonic := "ldc", width := .byte, flags := [], tag := 1014, len := 4,
    mtch := 0x01410700, mask := 0xFFFFFF00, build := fun w => .ldcImmExr (field w 0 8) },
  { mnemonic := "andc", width := .byte, flags := [], tag := 1018, len := 4,
    mtch := 0x01410600, mask := 0xFFFFFF00, build := fun w => .andcExr (field w 0 8) },
  { mnemonic := "orc", width := .byte, flags := [], tag := 1020, len := 4,
    mtch := 0x01410400, mask := 0xFFFFFF00, build := fun w => .orcExr (field w 0 8) },
  { mnemonic := "xorc", width := .byte, flags := [], tag := 1022, len := 4,
    mtch := 0x01410500, mask := 0xFFFFFF00, build := fun w => .xorcExr (field w 0 8) },
  { mnemonic := "ldc", width := .byte, flags := [], tag := 1014, len := 2,
    mtch := 0x0310, mask := 0xFFF0, build := fun w => .ldcRegExr (field w 0 4) },
  { mnemonic := "stc", width := .byte, flags := [], tag := 1016, len := 2,
    mtch := 0x0210, mask := 0xFFF0, build := fun w => .stcRegExr (field w 0 4) },
  { mnemonic := "ldc.w", width := .word, flags := [], tag := 1014, len := 4,
    mtch := 0x01416900, mask := 0xFFFFFF8F, build := fun w => .ldcWExr (.ind (field w 4 3)) },
  { mnemonic := "stc.w", width := .word, flags := [], tag := 1016, len := 4,
    mtch := 0x01416980, mask := 0xFFFFFF8F, build := fun w => .stcWExr (.ind (field w 4 3)) },
  { mnemonic := "ldc.w", width := .word, flags := [], tag := 1014, len := 6,
    mtch := 0x01416F000000, mask := 0xFFFFFF8F0000, build := fun w => .ldcWExr (.disp16 (field w 0 16) (field w 20 3)) } ]

/-- Rows of 46_system_control.md, part 2 (30_encoding.md R331). -/
def rowsSystem2 : List Row := [
  { mnemonic := "stc.w", width := .word, flags := [], tag := 1016, len := 6,
    mtch := 0x01416F800000, mask := 0xFFFFFF8F0000, build := fun w => .stcWExr (.disp16 (field w 0 16) (field w 20 3)) },
  { mnemonic := "ldc.w", width := .word, flags := [], tag := 1014, len := 10,
    mtch := 0x014178006B2000000000, mask := 0xFFFFFF8FFFFF00000000, build := fun w => .ldcWExr (.disp32 (field w 0 32) (field w 52 3)) },
  { mnemonic := "stc.w", width := .word, flags := [], tag := 1016, len := 10,
    mtch := 0x014178006BA000000000, mask := 0xFFFFFF8FFFFF00000000, build := fun w => .stcWExr (.disp32 (field w 0 32) (field w 52 3)) },
  { mnemonic := "ldc.w", width := .word, flags := [], tag := 1014, len := 4,
    mtch := 0x01416D00, mask := 0xFFFFFF8F, build := fun w => .ldcWExr (.inc (field w 4 3)) },
  { mnemonic := "stc.w", width := .word, flags := [], tag := 1016, len := 4,
    mtch := 0x01416D80, mask := 0xFFFFFF8F, build := fun w => .stcWExr (.dec (field w 4 3)) },
  { mnemonic := "ldc.w", width := .word, flags := [], tag := 1014, len := 6,
    mtch := 0x01416B000000, mask := 0xFFFFFFFF0000, build := fun w => .ldcWExr (.abs16 (field w 0 16)) },
  { mnemonic := "ldc.w", width := .word, flags := [], tag := 1014, len := 8,
    mtch := 0x01416B2000000000, mask := 0xFFFFFFFF00000000, build := fun w => .ldcWExr (.abs32 (field w 0 32)) },
  { mnemonic := "stc.w", width := .word, flags := [], tag := 1016, len := 6,
    mtch := 0x01416B800000, mask := 0xFFFFFFFF0000, build := fun w => .stcWExr (.abs16 (field w 0 16)) },
  { mnemonic := "stc.w", width := .word, flags := [], tag := 1016, len := 8,
    mtch := 0x01416BA000000000, mask := 0xFFFFFFFF00000000, build := fun w => .stcWExr (.abs32 (field w 0 32)) } ]

/-- The opcode table: the 349 rows of spec/opcode_table.json, in its order (30_encoding.md R331). -/
def opcodeTable : List Row :=
  rowsNop ++ rowsDataTransfer1 ++ rowsDataTransfer2 ++ rowsArithmetic1 ++ rowsArithmetic2 ++
  rowsLogic ++ rowsShift1 ++ rowsShift2 ++ rowsBit1 ++ rowsBit2 ++ rowsBit3 ++ rowsBranch1 ++ rowsBranch2 ++ rowsSystem1 ++ rowsSystem2

/-! ### The decoder -/

/-- The two decode faults (30_encoding.md R320, R343). -/
inductive DecodeFault where
  /-- The byte window ended inside an instruction. -/
  | truncated
  /-- No row matches. -/
  | invalid
deriving DecidableEq, Repr

/-- The row that matches a window of `avail` bytes (30_encoding.md R320). No two rows overlap (R324), so the
first match is the only one. -/
def lookup (avail w80 : Nat) : Option Row :=
  opcodeTable.find? fun r => r.len ≤ avail && r.accepts (r.word w80)

/-- The row of a byte string and the string's window, or the decode fault (30_encoding.md R320). -/
def decodeRow (bytes : List Byte) : Except DecodeFault Row :=
  if bytes.length < 2 then .error .truncated
  else
    match lookup bytes.length (window80 bytes) with
    | some r => .ok r
    | none =>
      if opcodeTable.any fun r => r.mayBecome bytes.length (beNat bytes) then .error .truncated
      else .error .invalid

/-- `decode(bytes, 0, va)` of 30_encoding.md R320 without the address, which only the resolved branch target of
the output record needs (R319; `decodePort`). Total on any bytes; a whole instruction or one of the two faults
(R325). -/
def decode (bytes : List Byte) : Except DecodeFault Instr :=
  match decodeRow bytes with
  | .ok r => .ok (r.build (r.word (window80 bytes)))
  | .error e => .error e

/-! ### The encoder -/

/-- The length in bytes of an instruction and its bytes read as one big-endian number: the row's fixed bits and
its fields at their places (30_encoding.md R302, R331). A term whose mode the instruction does not have (not
well-formed) has no encoding: no bytes. -/
def encodeWord : Instr → Nat × Nat
  | .nop => (2, 0x0000)
  | .movBReg rs rd => (2, 0x0C00 + rs.toNat <<< 4 + rd.toNat)
  | .movWReg rs rd => (2, 0x0D00 + rs.toNat <<< 4 + rd.toNat)
  | .movLReg rs rd => (2, 0x0F80 + rs.toNat <<< 4 + rd.toNat)
  | .movBImm imm rd => (2, 0xF000 + imm.toNat + rd.toNat <<< 8)
  | .movWImm imm rd => (4, 0x79000000 + imm.toNat + rd.toNat <<< 16)
  | .movLImm imm rd => (6, 0x7A0000000000 + imm.toNat + rd.toNat <<< 32)
  | .movBLoad (.ind ra) rd => (2, 0x6800 + ra.toNat <<< 4 + rd.toNat)
  | .movBLoad (.disp16 disp ra) rd => (4, 0x6E000000 + ra.toNat <<< 20 + disp.toNat + rd.toNat <<< 16)
  | .movBLoad (.disp32 disp ra) rd => (8, 0x78006A2000000000 + ra.toNat <<< 52 + disp.toNat + rd.toNat <<< 32)
  | .movBLoad (.inc ra) rd => (2, 0x6C00 + ra.toNat <<< 4 + rd.toNat)
  | .movBLoad (.abs8 aa) rd => (2, 0x2000 + aa.toNat + rd.toNat <<< 8)
  | .movBLoad (.abs16 aa) rd => (4, 0x6A000000 + aa.toNat + rd.toNat <<< 16)
  | .movBLoad (.abs32 aa) rd => (6, 0x6A2000000000 + aa.toNat + rd.toNat <<< 32)
  | .movBLoad (.dec _) _ => (0, 0)
  | .movBStore rs (.ind ra) => (2, 0x6880 + rs.toNat + ra.toNat <<< 4)
  | .movBStore rs (.disp16 disp ra) => (4, 0x6E800000 + rs.toNat <<< 16 + ra.toNat <<< 20 + disp.toNat)
  | .movBStore rs (.disp32 disp ra) => (8, 0x78006AA000000000 + rs.toNat <<< 32 + ra.toNat <<< 52 + disp.toNat)
  | .movBStore rs (.dec ra) => (2, 0x6C80 + rs.toNat + ra.toNat <<< 4)
  | .movBStore rs (.abs8 aa) => (2, 0x3000 + rs.toNat <<< 8 + aa.toNat)
  | .movBStore rs (.abs16 aa) => (4, 0x6A800000 + rs.toNat <<< 16 + aa.toNat)
  | .movBStore rs (.abs32 aa) => (6, 0x6AA000000000 + rs.toNat <<< 32 + aa.toNat)
  | .movBStore _ (.inc _) => (0, 0)
  | .movWLoad (.ind ra) rd => (2, 0x6900 + ra.toNat <<< 4 + rd.toNat)
  | .movWLoad (.disp16 disp ra) rd => (4, 0x6F000000 + ra.toNat <<< 20 + disp.toNat + rd.toNat <<< 16)
  | .movWLoad (.disp32 disp ra) rd => (8, 0x78006B2000000000 + ra.toNat <<< 52 + disp.toNat + rd.toNat <<< 32)
  | .movWLoad (.inc ra) rd => (2, 0x6D00 + ra.toNat <<< 4 + rd.toNat)
  | .movWLoad (.abs16 aa) rd => (4, 0x6B000000 + aa.toNat + rd.toNat <<< 16)
  | .movWLoad (.abs32 aa) rd => (6, 0x6B2000000000 + aa.toNat + rd.toNat <<< 32)
  | .movWLoad (.dec _) _ => (0, 0)
  | .movWLoad (.abs8 _) _ => (0, 0)
  | .movWStore rs (.ind ra) => (2, 0x6980 + rs.toNat + ra.toNat <<< 4)
  | .movWStore rs (.disp16 disp ra) => (4, 0x6F800000 + rs.toNat <<< 16 + ra.toNat <<< 20 + disp.toNat)
  | .movWStore rs (.disp32 disp ra) => (8, 0x78006BA000000000 + rs.toNat <<< 32 + ra.toNat <<< 52 + disp.toNat)
  | .movWStore rs (.dec ra) => (2, 0x6D80 + rs.toNat + ra.toNat <<< 4)
  | .movWStore rs (.abs16 aa) => (4, 0x6B800000 + rs.toNat <<< 16 + aa.toNat)
  | .movWStore rs (.abs32 aa) => (6, 0x6BA000000000 + rs.toNat <<< 32 + aa.toNat)
  | .movWStore _ (.inc _) => (0, 0)
  | .movWStore _ (.abs8 _) => (0, 0)
  | .movLLoad (.ind ra) rd => (4, 0x01006900 + ra.toNat <<< 4 + rd.toNat)
  | .movLLoad (.disp16 disp ra) rd => (6, 0x01006F000000 + ra.toNat <<< 20 + disp.toNat + rd.toNat <<< 16)
  | .movLLoad (.disp32 disp ra) rd => (10, 0x010078006B2000000000 + ra.toNat <<< 52 + disp.toNat + rd.toNat <<< 32)
  | .movLLoad (.inc ra) rd => (4, 0x01006D00 + ra.toNat <<< 4 + rd.toNat)
  | .movLLoad (.abs16 aa) rd => (6, 0x01006B000000 + aa.toNat + rd.toNat <<< 16)
  | .movLLoad (.abs32 aa) rd => (8, 0x01006B2000000000 + aa.toNat + rd.toNat <<< 32)
  | .movLLoad (.dec _) _ => (0, 0)
  | .movLLoad (.abs8 _) _ => (0, 0)
  | .movLStore rs (.ind ra) => (4, 0x01006980 + rs.toNat + ra.toNat <<< 4)
  | .movLStore rs (.disp16 disp ra) => (6, 0x01006F800000 + rs.toNat <<< 16 + ra.toNat <<< 20 + disp.toNat)
  | .movLStore rs (.disp32 disp ra) => (10, 0x010078006BA000000000 + rs.toNat <<< 32 + ra.toNat <<< 52 + disp.toNat)
  | .movLStore rs (.dec ra) => (4, 0x01006D80 + rs.toNat + ra.toNat <<< 4)
  | .movLStore rs (.abs16 aa) => (6, 0x01006B800000 + rs.toNat <<< 16 + aa.toNat)
  | .movLStore rs (.abs32 aa) => (8, 0x01006BA000000000 + rs.toNat <<< 32 + aa.toNat)
  | .movLStore _ (.inc _) => (0, 0)
  | .movLStore _ (.abs8 _) => (0, 0)
  | .movfpe aa rd => (4, 0x6A400000 + aa.toNat + rd.toNat <<< 16)
  | .movtpe rs aa => (4, 0x6AC00000 + rs.toNat <<< 16 + aa.toNat)
  | .ldm2 rd => (4, 0x01106D70 + rd.toNat)
  | .stm2 rs => (4, 0x01106DF0 + rs.toNat)
  | .ldm3 rd => (4, 0x01206D70 + rd.toNat)
  | .stm3 rs => (4, 0x01206DF0 + rs.toNat)
  | .ldm4 rd => (4, 0x01306D70 + rd.toNat)
  | .stm4 rs => (4, 0x01306DF0 + rs.toNat)
  | .eepmovB => (4, 0x7B5C598F)
  | .eepmovW => (4, 0x7BD4598F)
  | .addBImm imm rd => (2, 0x8000 + imm.toNat + rd.toNat <<< 8)
  | .addBReg rs rd => (2, 0x0800 + rs.toNat <<< 4 + rd.toNat)
  | .addWImm imm rd => (4, 0x79100000 + imm.toNat + rd.toNat <<< 16)
  | .addWReg rs rd => (2, 0x0900 + rs.toNat <<< 4 + rd.toNat)
  | .addLImm imm rd => (6, 0x7A1000000000 + imm.toNat + rd.toNat <<< 32)
  | .addLReg rs rd => (2, 0x0A80 + rs.toNat <<< 4 + rd.toNat)
  | .addxImm imm rd => (2, 0x9000 + imm.toNat + rd.toNat <<< 8)
  | .addxReg rs rd => (2, 0x0E00 + rs.toNat <<< 4 + rd.toNat)
  | .adds1 rd => (2, 0x0B00 + rd.toNat)
  | .adds2 rd => (2, 0x0B80 + rd.toNat)
  | .adds4 rd => (2, 0x0B90 + rd.toNat)
  | .incB rd => (2, 0x0A00 + rd.toNat)
  | .incW1 rd => (2, 0x0B50 + rd.toNat)
  | .incW2 rd => (2, 0x0BD0 + rd.toNat)
  | .incL1 rd => (2, 0x0B70 + rd.toNat)
  | .incL2 rd => (2, 0x0BF0 + rd.toNat)
  | .daa rd => (2, 0x0F00 + rd.toNat)
  | .subBReg rs rd => (2, 0x1800 + rs.toNat <<< 4 + rd.toNat)
  | .subWImm imm rd => (4, 0x79300000 + imm.toNat + rd.toNat <<< 16)
  | .subWReg rs rd => (2, 0x1900 + rs.toNat <<< 4 + rd.toNat)
  | .subLImm imm rd => (6, 0x7A3000000000 + imm.toNat + rd.toNat <<< 32)
  | .subLReg rs rd => (2, 0x1A80 + rs.toNat <<< 4 + rd.toNat)
  | .subxImm imm rd => (2, 0xB000 + imm.toNat + rd.toNat <<< 8)
  | .subxReg rs rd => (2, 0x1E00 + rs.toNat <<< 4 + rd.toNat)
  | .subs1 rd => (2, 0x1B00 + rd.toNat)
  | .subs2 rd => (2, 0x1B80 + rd.toNat)
  | .subs4 rd => (2, 0x1B90 + rd.toNat)
  | .decB rd => (2, 0x1A00 + rd.toNat)
  | .decW1 rd => (2, 0x1B50 + rd.toNat)
  | .decW2 rd => (2, 0x1BD0 + rd.toNat)
  | .decL1 rd => (2, 0x1B70 + rd.toNat)
  | .decL2 rd => (2, 0x1BF0 + rd.toNat)
  | .das rd => (2, 0x1F00 + rd.toNat)
  | .cmpBImm imm rd => (2, 0xA000 + imm.toNat + rd.toNat <<< 8)
  | .cmpBReg rs rd => (2, 0x1C00 + rs.toNat <<< 4 + rd.toNat)
  | .cmpWImm imm rd => (4, 0x79200000 + imm.toNat + rd.toNat <<< 16)
  | .cmpWReg rs rd => (2, 0x1D00 + rs.toNat <<< 4 + rd.toNat)
  | .cmpLImm imm rd => (6, 0x7A2000000000 + imm.toNat + rd.toNat <<< 32)
  | .cmpLReg rs rd => (2, 0x1F80 + rs.toNat <<< 4 + rd.toNat)
  | .negB rd => (2, 0x1780 + rd.toNat)
  | .negW rd => (2, 0x1790 + rd.toNat)
  | .negL rd => (2, 0x17B0 + rd.toNat)
  | .extuW rd => (2, 0x1750 + rd.toNat)
  | .extuL rd => (2, 0x1770 + rd.toNat)
  | .extsW rd => (2, 0x17D0 + rd.toNat)
  | .extsL rd => (2, 0x17F0 + rd.toNat)
  | .mulxuB rs rd => (2, 0x5000 + rs.toNat <<< 4 + rd.toNat)
  | .mulxuW rs rd => (2, 0x5200 + rs.toNat <<< 4 + rd.toNat)
  | .mulxsB rs rd => (4, 0x01C05000 + rs.toNat <<< 4 + rd.toNat)
  | .mulxsW rs rd => (4, 0x01C05200 + rs.toNat <<< 4 + rd.toNat)
  | .divxuB rs rd => (2, 0x5100 + rs.toNat <<< 4 + rd.toNat)
  | .divxuW rs rd => (2, 0x5300 + rs.toNat <<< 4 + rd.toNat)
  | .divxsB rs rd => (4, 0x01D05100 + rs.toNat <<< 4 + rd.toNat)
  | .divxsW rs rd => (4, 0x01D05300 + rs.toNat <<< 4 + rd.toNat)
  | .tas ra => (4, 0x01E07B0C + ra.toNat <<< 4)
  | .andBImm imm rd => (2, 0xE000 + imm.toNat + rd.toNat <<< 8)
  | .andBReg rs rd => (2, 0x1600 + rs.toNat <<< 4 + rd.toNat)
  | .andWImm imm rd => (4, 0x79600000 + imm.toNat + rd.toNat <<< 16)
  | .andWReg rs rd => (2, 0x6600 + rs.toNat <<< 4 + rd.toNat)
  | .andLImm imm rd => (6, 0x7A6000000000 + imm.toNat + rd.toNat <<< 32)
  | .andLReg rs rd => (4, 0x01F06600 + rs.toNat <<< 4 + rd.toNat)
  | .orBImm imm rd => (2, 0xC000 + imm.toNat + rd.toNat <<< 8)
  | .orBReg rs rd => (2, 0x1400 + rs.toNat <<< 4 + rd.toNat)
  | .orWImm imm rd => (4, 0x79400000 + imm.toNat + rd.toNat <<< 16)
  | .orWReg rs rd => (2, 0x6400 + rs.toNat <<< 4 + rd.toNat)
  | .orLImm imm rd => (6, 0x7A4000000000 + imm.toNat + rd.toNat <<< 32)
  | .orLReg rs rd => (4, 0x01F06400 + rs.toNat <<< 4 + rd.toNat)
  | .xorBImm imm rd => (2, 0xD000 + imm.toNat + rd.toNat <<< 8)
  | .xorBReg rs rd => (2, 0x1500 + rs.toNat <<< 4 + rd.toNat)
  | .xorWImm imm rd => (4, 0x79500000 + imm.toNat + rd.toNat <<< 16)
  | .xorWReg rs rd => (2, 0x6500 + rs.toNat <<< 4 + rd.toNat)
  | .xorLImm imm rd => (6, 0x7A5000000000 + imm.toNat + rd.toNat <<< 32)
  | .xorLReg rs rd => (4, 0x01F06500 + rs.toNat <<< 4 + rd.toNat)
  | .notB rd => (2, 0x1700 + rd.toNat)
  | .notW rd => (2, 0x1710 + rd.toNat)
  | .notL rd => (2, 0x1730 + rd.toNat)
  | .shllB rd => (2, 0x1000 + rd.toNat)
  | .shllW rd => (2, 0x1010 + rd.toNat)
  | .shllL rd => (2, 0x1030 + rd.toNat)
  | .shllB2 rd => (2, 0x1040 + rd.toNat)
  | .shllW2 rd => (2, 0x1050 + rd.toNat)
  | .shllL2 rd => (2, 0x1070 + rd.toNat)
  | .shalB rd => (2, 0x1080 + rd.toNat)
  | .shalW rd => (2, 0x1090 + rd.toNat)
  | .shalL rd => (2, 0x10B0 + rd.toNat)
  | .shalB2 rd => (2, 0x10C0 + rd.toNat)
  | .shalW2 rd => (2, 0x10D0 + rd.toNat)
  | .shalL2 rd => (2, 0x10F0 + rd.toNat)
  | .shlrB rd => (2, 0x1100 + rd.toNat)
  | .shlrW rd => (2, 0x1110 + rd.toNat)
  | .shlrL rd => (2, 0x1130 + rd.toNat)
  | .shlrB2 rd => (2, 0x1140 + rd.toNat)
  | .shlrW2 rd => (2, 0x1150 + rd.toNat)
  | .shlrL2 rd => (2, 0x1170 + rd.toNat)
  | .sharB rd => (2, 0x1180 + rd.toNat)
  | .sharW rd => (2, 0x1190 + rd.toNat)
  | .sharL rd => (2, 0x11B0 + rd.toNat)
  | .sharB2 rd => (2, 0x11C0 + rd.toNat)
  | .sharW2 rd => (2, 0x11D0 + rd.toNat)
  | .sharL2 rd => (2, 0x11F0 + rd.toNat)
  | .rotxlB rd => (2, 0x1200 + rd.toNat)
  | .rotxlW rd => (2, 0x1210 + rd.toNat)
  | .rotxlL rd => (2, 0x1230 + rd.toNat)
  | .rotxlB2 rd => (2, 0x1240 + rd.toNat)
  | .rotxlW2 rd => (2, 0x1250 + rd.toNat)
  | .rotxlL2 rd => (2, 0x1270 + rd.toNat)
  | .rotlB rd => (2, 0x1280 + rd.toNat)
  | .rotlW rd => (2, 0x1290 + rd.toNat)
  | .rotlL rd => (2, 0x12B0 + rd.toNat)
  | .rotlB2 rd => (2, 0x12C0 + rd.toNat)
  | .rotlW2 rd => (2, 0x12D0 + rd.toNat)
  | .rotlL2 rd => (2, 0x12F0 + rd.toNat)
  | .rotxrB rd => (2, 0x1300 + rd.toNat)
  | .rotxrW rd => (2, 0x1310 + rd.toNat)
  | .rotxrL rd => (2, 0x1330 + rd.toNat)
  | .rotxrB2 rd => (2, 0x1340 + rd.toNat)
  | .rotxrW2 rd => (2, 0x1350 + rd.toNat)
  | .rotxrL2 rd => (2, 0x1370 + rd.toNat)
  | .rotrB rd => (2, 0x1380 + rd.toNat)
  | .rotrW rd => (2, 0x1390 + rd.toNat)
  | .rotrL rd => (2, 0x13B0 + rd.toNat)
  | .rotrB2 rd => (2, 0x13C0 + rd.toNat)
  | .rotrW2 rd => (2, 0x13D0 + rd.toNat)
  | .rotrL2 rd => (2, 0x13F0 + rd.toNat)
  | .bsetImm bit (.reg rd) => (2, 0x7000 + bit.toNat <<< 4 + rd.toNat)
  | .bsetImm bit (.ind ra) => (4, 0x7D007000 + bit.toNat <<< 4 + ra.toNat <<< 20)
  | .bsetImm bit (.abs8 aa) => (4, 0x7F007000 + bit.toNat <<< 4 + aa.toNat <<< 16)
  | .bsetImm bit (.abs16 aa) => (6, 0x6A1800007000 + bit.toNat <<< 4 + aa.toNat <<< 16)
  | .bsetImm bit (.abs32 aa) => (8, 0x6A38000000007000 + bit.toNat <<< 4 + aa.toNat <<< 16)
  | .bsetRn rn (.reg rd) => (2, 0x6000 + rn.toNat <<< 4 + rd.toNat)
  | .bsetRn rn (.ind ra) => (4, 0x7D006000 + rn.toNat <<< 4 + ra.toNat <<< 20)
  | .bsetRn rn (.abs8 aa) => (4, 0x7F006000 + rn.toNat <<< 4 + aa.toNat <<< 16)
  | .bsetRn rn (.abs16 aa) => (6, 0x6A1800006000 + rn.toNat <<< 4 + aa.toNat <<< 16)
  | .bsetRn rn (.abs32 aa) => (8, 0x6A38000000006000 + rn.toNat <<< 4 + aa.toNat <<< 16)
  | .bnotImm bit (.reg rd) => (2, 0x7100 + bit.toNat <<< 4 + rd.toNat)
  | .bnotImm bit (.ind ra) => (4, 0x7D007100 + bit.toNat <<< 4 + ra.toNat <<< 20)
  | .bnotImm bit (.abs8 aa) => (4, 0x7F007100 + bit.toNat <<< 4 + aa.toNat <<< 16)
  | .bnotImm bit (.abs16 aa) => (6, 0x6A1800007100 + bit.toNat <<< 4 + aa.toNat <<< 16)
  | .bnotImm bit (.abs32 aa) => (8, 0x6A38000000007100 + bit.toNat <<< 4 + aa.toNat <<< 16)
  | .bnotRn rn (.reg rd) => (2, 0x6100 + rn.toNat <<< 4 + rd.toNat)
  | .bnotRn rn (.ind ra) => (4, 0x7D006100 + rn.toNat <<< 4 + ra.toNat <<< 20)
  | .bnotRn rn (.abs8 aa) => (4, 0x7F006100 + rn.toNat <<< 4 + aa.toNat <<< 16)
  | .bnotRn rn (.abs16 aa) => (6, 0x6A1800006100 + rn.toNat <<< 4 + aa.toNat <<< 16)
  | .bnotRn rn (.abs32 aa) => (8, 0x6A38000000006100 + rn.toNat <<< 4 + aa.toNat <<< 16)
  | .bclrImm bit (.reg rd) => (2, 0x7200 + bit.toNat <<< 4 + rd.toNat)
  | .bclrImm bit (.ind ra) => (4, 0x7D007200 + bit.toNat <<< 4 + ra.toNat <<< 20)
  | .bclrImm bit (.abs8 aa) => (4, 0x7F007200 + bit.toNat <<< 4 + aa.toNat <<< 16)
  | .bclrImm bit (.abs16 aa) => (6, 0x6A1800007200 + bit.toNat <<< 4 + aa.toNat <<< 16)
  | .bclrImm bit (.abs32 aa) => (8, 0x6A38000000007200 + bit.toNat <<< 4 + aa.toNat <<< 16)
  | .bclrRn rn (.reg rd) => (2, 0x6200 + rn.toNat <<< 4 + rd.toNat)
  | .bclrRn rn (.ind ra) => (4, 0x7D006200 + rn.toNat <<< 4 + ra.toNat <<< 20)
  | .bclrRn rn (.abs8 aa) => (4, 0x7F006200 + rn.toNat <<< 4 + aa.toNat <<< 16)
  | .bclrRn rn (.abs16 aa) => (6, 0x6A1800006200 + rn.toNat <<< 4 + aa.toNat <<< 16)
  | .bclrRn rn (.abs32 aa) => (8, 0x6A38000000006200 + rn.toNat <<< 4 + aa.toNat <<< 16)
  | .btstImm bit (.reg rd) => (2, 0x7300 + bit.toNat <<< 4 + rd.toNat)
  | .btstImm bit (.ind ra) => (4, 0x7C007300 + bit.toNat <<< 4 + ra.toNat <<< 20)
  | .btstImm bit (.abs8 aa) => (4, 0x7E007300 + bit.toNat <<< 4 + aa.toNat <<< 16)
  | .btstImm bit (.abs16 aa) => (6, 0x6A1000007300 + bit.toNat <<< 4 + aa.toNat <<< 16)
  | .btstImm bit (.abs32 aa) => (8, 0x6A30000000007300 + bit.toNat <<< 4 + aa.toNat <<< 16)
  | .btstRn rn (.reg rd) => (2, 0x6300 + rn.toNat <<< 4 + rd.toNat)
  | .btstRn rn (.ind ra) => (4, 0x7C006300 + rn.toNat <<< 4 + ra.toNat <<< 20)
  | .btstRn rn (.abs8 aa) => (4, 0x7E006300 + rn.toNat <<< 4 + aa.toNat <<< 16)
  | .btstRn rn (.abs16 aa) => (6, 0x6A1000006300 + rn.toNat <<< 4 + aa.toNat <<< 16)
  | .btstRn rn (.abs32 aa) => (8, 0x6A30000000006300 + rn.toNat <<< 4 + aa.toNat <<< 16)
  | .bor bit (.reg rd) => (2, 0x7400 + bit.toNat <<< 4 + rd.toNat)
  | .bor bit (.ind ra) => (4, 0x7C007400 + bit.toNat <<< 4 + ra.toNat <<< 20)
  | .bor bit (.abs8 aa) => (4, 0x7E007400 + bit.toNat <<< 4 + aa.toNat <<< 16)
  | .bor bit (.abs16 aa) => (6, 0x6A1000007400 + bit.toNat <<< 4 + aa.toNat <<< 16)
  | .bor bit (.abs32 aa) => (8, 0x6A30000000007400 + bit.toNat <<< 4 + aa.toNat <<< 16)
  | .bior bit (.reg rd) => (2, 0x7480 + bit.toNat <<< 4 + rd.toNat)
  | .bior bit (.ind ra) => (4, 0x7C007480 + bit.toNat <<< 4 + ra.toNat <<< 20)
  | .bior bit (.abs8 aa) => (4, 0x7E007480 + bit.toNat <<< 4 + aa.toNat <<< 16)
  | .bior bit (.abs16 aa) => (6, 0x6A1000007480 + bit.toNat <<< 4 + aa.toNat <<< 16)
  | .bior bit (.abs32 aa) => (8, 0x6A30000000007480 + bit.toNat <<< 4 + aa.toNat <<< 16)
  | .bxor bit (.reg rd) => (2, 0x7500 + bit.toNat <<< 4 + rd.toNat)
  | .bxor bit (.ind ra) => (4, 0x7C007500 + bit.toNat <<< 4 + ra.toNat <<< 20)
  | .bxor bit (.abs8 aa) => (4, 0x7E007500 + bit.toNat <<< 4 + aa.toNat <<< 16)
  | .bxor bit (.abs16 aa) => (6, 0x6A1000007500 + bit.toNat <<< 4 + aa.toNat <<< 16)
  | .bxor bit (.abs32 aa) => (8, 0x6A30000000007500 + bit.toNat <<< 4 + aa.toNat <<< 16)
  | .bixor bit (.reg rd) => (2, 0x7580 + bit.toNat <<< 4 + rd.toNat)
  | .bixor bit (.ind ra) => (4, 0x7C007580 + bit.toNat <<< 4 + ra.toNat <<< 20)
  | .bixor bit (.abs8 aa) => (4, 0x7E007580 + bit.toNat <<< 4 + aa.toNat <<< 16)
  | .bixor bit (.abs16 aa) => (6, 0x6A1000007580 + bit.toNat <<< 4 + aa.toNat <<< 16)
  | .bixor bit (.abs32 aa) => (8, 0x6A30000000007580 + bit.toNat <<< 4 + aa.toNat <<< 16)
  | .band bit (.reg rd) => (2, 0x7600 + bit.toNat <<< 4 + rd.toNat)
  | .band bit (.ind ra) => (4, 0x7C007600 + bit.toNat <<< 4 + ra.toNat <<< 20)
  | .band bit (.abs8 aa) => (4, 0x7E007600 + bit.toNat <<< 4 + aa.toNat <<< 16)
  | .band bit (.abs16 aa) => (6, 0x6A1000007600 + bit.toNat <<< 4 + aa.toNat <<< 16)
  | .band bit (.abs32 aa) => (8, 0x6A30000000007600 + bit.toNat <<< 4 + aa.toNat <<< 16)
  | .biand bit (.reg rd) => (2, 0x7680 + bit.toNat <<< 4 + rd.toNat)
  | .biand bit (.ind ra) => (4, 0x7C007680 + bit.toNat <<< 4 + ra.toNat <<< 20)
  | .biand bit (.abs8 aa) => (4, 0x7E007680 + bit.toNat <<< 4 + aa.toNat <<< 16)
  | .biand bit (.abs16 aa) => (6, 0x6A1000007680 + bit.toNat <<< 4 + aa.toNat <<< 16)
  | .biand bit (.abs32 aa) => (8, 0x6A30000000007680 + bit.toNat <<< 4 + aa.toNat <<< 16)
  | .bld bit (.reg rd) => (2, 0x7700 + bit.toNat <<< 4 + rd.toNat)
  | .bld bit (.ind ra) => (4, 0x7C007700 + bit.toNat <<< 4 + ra.toNat <<< 20)
  | .bld bit (.abs8 aa) => (4, 0x7E007700 + bit.toNat <<< 4 + aa.toNat <<< 16)
  | .bld bit (.abs16 aa) => (6, 0x6A1000007700 + bit.toNat <<< 4 + aa.toNat <<< 16)
  | .bld bit (.abs32 aa) => (8, 0x6A30000000007700 + bit.toNat <<< 4 + aa.toNat <<< 16)
  | .bild bit (.reg rd) => (2, 0x7780 + bit.toNat <<< 4 + rd.toNat)
  | .bild bit (.ind ra) => (4, 0x7C007780 + bit.toNat <<< 4 + ra.toNat <<< 20)
  | .bild bit (.abs8 aa) => (4, 0x7E007780 + bit.toNat <<< 4 + aa.toNat <<< 16)
  | .bild bit (.abs16 aa) => (6, 0x6A1000007780 + bit.toNat <<< 4 + aa.toNat <<< 16)
  | .bild bit (.abs32 aa) => (8, 0x6A30000000007780 + bit.toNat <<< 4 + aa.toNat <<< 16)
  | .bst bit (.reg rd) => (2, 0x6700 + bit.toNat <<< 4 + rd.toNat)
  | .bst bit (.ind ra) => (4, 0x7D006700 + bit.toNat <<< 4 + ra.toNat <<< 20)
  | .bst bit (.abs8 aa) => (4, 0x7F006700 + bit.toNat <<< 4 + aa.toNat <<< 16)
  | .bst bit (.abs16 aa) => (6, 0x6A1800006700 + bit.toNat <<< 4 + aa.toNat <<< 16)
  | .bst bit (.abs32 aa) => (8, 0x6A38000000006700 + bit.toNat <<< 4 + aa.toNat <<< 16)
  | .bist bit (.reg rd) => (2, 0x6780 + bit.toNat <<< 4 + rd.toNat)
  | .bist bit (.ind ra) => (4, 0x7D006780 + bit.toNat <<< 4 + ra.toNat <<< 20)
  | .bist bit (.abs8 aa) => (4, 0x7F006780 + bit.toNat <<< 4 + aa.toNat <<< 16)
  | .bist bit (.abs16 aa) => (6, 0x6A1800006780 + bit.toNat <<< 4 + aa.toNat <<< 16)
  | .bist bit (.abs32 aa) => (8, 0x6A38000000006780 + bit.toNat <<< 4 + aa.toNat <<< 16)
  | .bra8 disp => (2, 0x4000 + disp.toNat)
  | .bra16 disp => (4, 0x58000000 + disp.toNat)
  | .brn8 disp => (2, 0x4100 + disp.toNat)
  | .brn16 disp => (4, 0x58100000 + disp.toNat)
  | .bhi8 disp => (2, 0x4200 + disp.toNat)
  | .bhi16 disp => (4, 0x58200000 + disp.toNat)
  | .bls8 disp => (2, 0x4300 + disp.toNat)
  | .bls16 disp => (4, 0x58300000 + disp.toNat)
  | .bcc8 disp => (2, 0x4400 + disp.toNat)
  | .bcc16 disp => (4, 0x58400000 + disp.toNat)
  | .bcs8 disp => (2, 0x4500 + disp.toNat)
  | .bcs16 disp => (4, 0x58500000 + disp.toNat)
  | .bne8 disp => (2, 0x4600 + disp.toNat)
  | .bne16 disp => (4, 0x58600000 + disp.toNat)
  | .beq8 disp => (2, 0x4700 + disp.toNat)
  | .beq16 disp => (4, 0x58700000 + disp.toNat)
  | .bvc8 disp => (2, 0x4800 + disp.toNat)
  | .bvc16 disp => (4, 0x58800000 + disp.toNat)
  | .bvs8 disp => (2, 0x4900 + disp.toNat)
  | .bvs16 disp => (4, 0x58900000 + disp.toNat)
  | .bpl8 disp => (2, 0x4A00 + disp.toNat)
  | .bpl16 disp => (4, 0x58A00000 + disp.toNat)
  | .bmi8 disp => (2, 0x4B00 + disp.toNat)
  | .bmi16 disp => (4, 0x58B00000 + disp.toNat)
  | .bge8 disp => (2, 0x4C00 + disp.toNat)
  | .bge16 disp => (4, 0x58C00000 + disp.toNat)
  | .blt8 disp => (2, 0x4D00 + disp.toNat)
  | .blt16 disp => (4, 0x58D00000 + disp.toNat)
  | .bgt8 disp => (2, 0x4E00 + disp.toNat)
  | .bgt16 disp => (4, 0x58E00000 + disp.toNat)
  | .ble8 disp => (2, 0x4F00 + disp.toNat)
  | .ble16 disp => (4, 0x58F00000 + disp.toNat)
  | .jmpInd ra => (2, 0x5900 + ra.toNat <<< 4)
  | .jmpAbs24 aa => (4, 0x5A000000 + aa.toNat)
  | .jmpMemInd aa => (2, 0x5B00 + aa.toNat)
  | .bsr8 disp => (2, 0x5500 + disp.toNat)
  | .bsr16 disp => (4, 0x5C000000 + disp.toNat)
  | .jsrInd ra => (2, 0x5D00 + ra.toNat <<< 4)
  | .jsrAbs24 aa => (4, 0x5E000000 + aa.toNat)
  | .jsrMemInd aa => (2, 0x5F00 + aa.toNat)
  | .rts => (2, 0x5470)
  | .trapa tn => (2, 0x5700 + tn.toNat <<< 4)
  | .rte => (2, 0x5670)
  | .sleep => (2, 0x0180)
  | .ldcImmCcr imm => (2, 0x0700 + imm.toNat)
  | .andcCcr imm => (2, 0x0600 + imm.toNat)
  | .orcCcr imm => (2, 0x0400 + imm.toNat)
  | .xorcCcr imm => (2, 0x0500 + imm.toNat)
  | .ldcRegCcr rs => (2, 0x0300 + rs.toNat)
  | .stcRegCcr rd => (2, 0x0200 + rd.toNat)
  | .ldcWCcr (.ind ra) => (4, 0x01406900 + ra.toNat <<< 4)
  | .ldcWCcr (.disp16 disp ra) => (6, 0x01406F000000 + ra.toNat <<< 20 + disp.toNat)
  | .ldcWCcr (.disp32 disp ra) => (10, 0x014078006B2000000000 + ra.toNat <<< 52 + disp.toNat)
  | .ldcWCcr (.inc ra) => (4, 0x01406D00 + ra.toNat <<< 4)
  | .ldcWCcr (.abs16 aa) => (6, 0x01406B000000 + aa.toNat)
  | .ldcWCcr (.abs32 aa) => (8, 0x01406B2000000000 + aa.toNat)
  | .ldcWCcr (.dec _) => (0, 0)
  | .ldcWCcr (.abs8 _) => (0, 0)
  | .stcWCcr (.ind ra) => (4, 0x01406980 + ra.toNat <<< 4)
  | .stcWCcr (.disp16 disp ra) => (6, 0x01406F800000 + ra.toNat <<< 20 + disp.toNat)
  | .stcWCcr (.disp32 disp ra) => (10, 0x014078006BA000000000 + ra.toNat <<< 52 + disp.toNat)
  | .stcWCcr (.dec ra) => (4, 0x01406D80 + ra.toNat <<< 4)
  | .stcWCcr (.abs16 aa) => (6, 0x01406B800000 + aa.toNat)
  | .stcWCcr (.abs32 aa) => (8, 0x01406BA000000000 + aa.toNat)
  | .stcWCcr (.inc _) => (0, 0)
  | .stcWCcr (.abs8 _) => (0, 0)
  | .ldcImmExr imm => (4, 0x01410700 + imm.toNat)
  | .andcExr imm => (4, 0x01410600 + imm.toNat)
  | .orcExr imm => (4, 0x01410400 + imm.toNat)
  | .xorcExr imm => (4, 0x01410500 + imm.toNat)
  | .ldcRegExr rs => (2, 0x0310 + rs.toNat)
  | .stcRegExr rd => (2, 0x0210 + rd.toNat)
  | .ldcWExr (.ind ra) => (4, 0x01416900 + ra.toNat <<< 4)
  | .ldcWExr (.disp16 disp ra) => (6, 0x01416F000000 + ra.toNat <<< 20 + disp.toNat)
  | .ldcWExr (.disp32 disp ra) => (10, 0x014178006B2000000000 + ra.toNat <<< 52 + disp.toNat)
  | .ldcWExr (.inc ra) => (4, 0x01416D00 + ra.toNat <<< 4)
  | .ldcWExr (.abs16 aa) => (6, 0x01416B000000 + aa.toNat)
  | .ldcWExr (.abs32 aa) => (8, 0x01416B2000000000 + aa.toNat)
  | .ldcWExr (.dec _) => (0, 0)
  | .ldcWExr (.abs8 _) => (0, 0)
  | .stcWExr (.ind ra) => (4, 0x01416980 + ra.toNat <<< 4)
  | .stcWExr (.disp16 disp ra) => (6, 0x01416F800000 + ra.toNat <<< 20 + disp.toNat)
  | .stcWExr (.disp32 disp ra) => (10, 0x014178006BA000000000 + ra.toNat <<< 52 + disp.toNat)
  | .stcWExr (.dec ra) => (4, 0x01416D80 + ra.toNat <<< 4)
  | .stcWExr (.abs16 aa) => (6, 0x01416B800000 + aa.toNat)
  | .stcWExr (.abs32 aa) => (8, 0x01416BA000000000 + aa.toNat)
  | .stcWExr (.inc _) => (0, 0)
  | .stcWExr (.abs8 _) => (0, 0)

/-- The bytes of an instruction, first byte first (30_encoding.md R300, R331). -/
def encode (x : Instr) : List Byte := beBytes (encodeWord x).1 (encodeWord x).2

/-- `Instruction.length` (30_encoding.md R321): the opcode bytes plus every extension field. -/
def Instr.length (x : Instr) : Nat := (encodeWord x).1

/-! ### The table's numbering -/

/-- The bytes of an instruction of `nbits` bits given as the number `w` with the first word in the highest bits:
spec/opcode_table.json's own numbering of `match`, `mask` and `fixed` (30_encoding.md R302). Zeros follow, up to
the longest instruction. -/
def bytesFirstWordHigh (nbits w : Nat) : List Byte := beBytes (nbits / 8) w ++ List.replicate (10 - nbits / 8) 0

/-- The same with the first 16-bit word in the lowest bits and each later word above it. -/
def bytesFirstWordLow (nbits w : Nat) : List Byte :=
  (List.range 5).flatMap fun k =>
    if 16 * k < nbits then beBytes 2 ((w >>> (16 * k)) % 65536) else [0, 0]

/-- The decoded instruction fills `nbits` bits. -/
def fillsBits (nbits : Nat) (bytes : List Byte) : Bool :=
  match decode bytes with
  | .ok x => x.length * 8 == nbits
  | .error _ => false

/-- The bytes of an instruction numbered as a table numbers it. spec/opcode_table.json reads a row as one
big-endian number, first word highest; a reader may also count words upward from the first. For one word the two
agree; for more, the reading under which the instruction fills its `nbits` bits is taken, the table's own
first. Log 14. -/
def tableBytes (nbits w : Nat) : List Byte :=
  if !fillsBits nbits (bytesFirstWordHigh nbits w) && fillsBits nbits (bytesFirstWordLow nbits w) then
    bytesFirstWordLow nbits w
  else bytesFirstWordHigh nbits w

/-- The instruction the decoder reads from an instruction whose bits are `w`, numbered as
spec/opcode_table.json numbers them; `none` where the decoder refuses. -/
def decodeTableWord (nbits w : Nat) : Option Instr :=
  match decode (tableBytes nbits w) with
  | .ok x => some x
  | .error _ => none

end Sys2Proof
end

