-- ==== Sys2Proof/Machine/Fetch.lean ====
section
/-!
DEFINITION. Instruction fetch (20_memory.md R210): the probed window at `pc` and its decoding, and placing an
instruction's bytes where the next fetch reads them.
-/

namespace Sys2Proof.Machine

/-- The byte instruction fetch reads at `a`: memory's, or a device's, a draw (20_memory.md R211). -/
def State.fetchByte (s : State) (a : Addr) : Byte :=
  if s.isDevice a.toNat then Config.draw 8 (.deviceFetch a.toNat) s.epoch else s.mem.get a.toNat

/-- The run of at most `k` bytes from `a` on before the first address the host refuses (20_memory.md R210). -/
def State.windowFrom (s : State) : (k : Nat) → (a : Addr) → List Byte
  | 0, _ => []
  | k + 1, a => if s.canRead a.toNat then s.fetchByte a :: s.windowFrom k (s.offset a 1) else []

/-- The fetch window: up to ten bytes from `pc` on (20_memory.md R210). -/
def State.window (s : State) : List Byte := s.windowFrom 10 (s.addr s.pc)

/-- The instruction of a fetch window at `pc`, or the fault (20_memory.md R210): an empty window is refused at
`pc`, a window that ends inside an instruction at the first refused byte. -/
def State.fetchFrom (s : State) (w : List Byte) : Except Fault Instr :=
  if w = [] then .error (.memoryAccess (s.addr s.pc).toNat)
  else
    match decode w with
    | .ok x => .ok x
    | .error .truncated => .error (.memoryAccess (s.offset (s.addr s.pc) w.length).toNat)
    | .error .invalid => .error (.invalidInstruction s.pc.toNat w)

/-- The fetch step (20_memory.md R210). -/
def State.fetch (s : State) : Except Fault Instr := s.fetchFrom s.window

/-- Bytes stored from `a` on, the first at `a`. -/
def State.placeFrom (s : State) : Addr → List Byte → Memory → Memory
  | _, [], m => m
  | a, b :: bs, m => s.placeFrom (s.offset a 1) bs (m.set a.toNat b)

/-- Bytes stored where the next fetch reads, memory only (logs 3, 15). -/
def State.place (s : State) (bytes : List Byte) : State :=
  s.setMem (s.placeFrom (s.addr s.pc) bytes s.mem)

end Sys2Proof.Machine
end

