-- ==== Sys2Proof/Machine/Abandon.lean ====
section
/-!
DEFINITION. What runs next, and a step that a reset cuts short (70_reset_and_hazards.md R1200, R1201; 60_exceptions.md
R1130): the memory writes it has completed stay, nothing else of it is applied.
-/

namespace Sys2Proof.Machine

/-- The instruction that runs next: EEPMOV.W between its bytes goes on without a fetch, since the rule fetches once and
loops (40_data_transfer.md R418, 20_memory.md R207); else the one fetched at `pc` (20_memory.md R210). Log 10. -/
def State.nextInstr (s : State) : Except Fault Instr := if s.eepmovActive then .ok .eepmovW else s.fetch

/-- The first `k` memory writes of an exception's frame (60_exceptions.md R1112): the long of CCR and PC, then under
`INTM` = 2 the word of EXR. -/
def State.framePart (s : State) (k : Nat) (by_ : Option Nat) (ret : Addr) : Except Fault State :=
  if s.params.addrBits = .bits32 ∧ 2 ^ 24 ≤ ret.toNat then .error (s.unmodelled .returnAddressBeyond24Bits)
  else
    match k with
    | 0 => .ok s
    | 1 => s.push32 by_ (s.ccrImage ++ ret.extractLsb' 0 24)
    | _ + 2 => s.pushFrame by_ ret

/-- The first `k` memory writes of STM.L of a list (40_data_transfer.md R416). -/
def pushPart (k : Nat) (regs : List (BitVec 3)) (s : State) : Except Fault State :=
  if regs.contains sp then .error (s.unmodelled .stmWithEr7) else pushRegs (regs.take k) s

/-- The return frame of a call of `len` bytes, its one memory write (45_branch.md R903). -/
def State.pushReturn (s : State) (len : Nat) : Except Fault State := s.push32 (some len) (s.callFrame (s.pcNext len))

/-- Instruction `x` up to its `k`-th memory write, `k` at least 1, or through its last if it makes fewer: of the state
answered only the memory counts. An instruction that stops before that write ends with its own fault
(60_exceptions.md R1103). The last arm is every instruction of at most one memory write that nothing after that write can
stop. -/
def untilWrite (x : Instr) (k : Nat) (s : State) : Out :=
  match x with
  | .stm2 rs => Out.of (pushPart k [rs, rs + 1] s)
  | .stm3 rs => Out.of (pushPart k [rs, rs + 1, rs + 2] s)
  | .stm4 rs => Out.of (pushPart k [rs, rs + 1, rs + 2, rs + 3] s)
  | .eepmovB => Out.of (moveBytes (min k (s.readB 12).toNat) s)
  | .trapa _ => Out.of (s.framePart k (some 2) (s.pcNext 2))
  | .bsr8 _ => Out.of (s.pushReturn 2)
  | .bsr16 _ => Out.of (s.pushReturn 4)
  | .jsrInd _ => Out.of (s.pushReturn 2)
  | .jsrAbs24 _ => Out.of (s.pushReturn 4)
  | .jsrMemInd aa =>
    match s.memIndTarget aa with
    | .error f => .fault f
    | .ok _ => Out.of (s.pushReturn 2)
  | x => exec x s

/-- What the coming step does up to its `k`-th memory write, `k` at least 1, were no reset asserted. -/
def State.stepUntilWrite (s : State) (k : Nat) : Out :=
  match ({ s with resetIn := none } : State).due with
  | .reset => .next s
  | .trace => Out.of (s.framePart k none s.pc)
  | .nmi => Out.of (s.framePart k none s.pc)
  | .irq _ => Out.of (s.framePart k none s.pc)
  | .asleep => .next s
  | .run =>
    match s.nextInstr with
    | .error f => .fault f
    | .ok x => untilWrite x k s.opened

/-- The step in progress, up to where the reset cuts it (70_reset_and_hazards.md R1200, R1201). After a fault the run is
over and nothing is in progress. -/
def State.abandoned (s : State) (k : Nat) : Out :=
  match s.fault with
  | some _ => .next s
  | none => s.stepUntilWrite k

/-- `s` with the memory the abandoned step has left; what the reset reads is read anew (logs 5, 9). -/
def State.leftWith (s : State) (m : Memory) : State := { s with mem := m, epoch := s.epoch + 1 }

/-- The reset input asserted once `k` memory writes of the coming step are completed: the step is abandoned, its completed
writes stay, and the reset sequence runs (70_reset_and_hazards.md R1200, R1201). A step that ends with a fault
before its `k`-th write ends the run there, before the reset. Log 9. -/
def State.cutByReset (s : State) (k : Nat) : Out :=
  match k with
  | 0 => Out.of s.enterReset
  | k + 1 =>
    match s.abandoned (k + 1) with
    | .next t => Out.of (s.leftWith t.mem).enterReset
    | .fault f => .fault f
    | .refused r => .refused r

end Sys2Proof.Machine
end

