-- ==== Sys2Proof/Machine/Cycle.lean ====
section
/-!
DEFINITION. The step of the whole block (00_scope.md R15, 92_eei_decisions.md D31): the boundary check, then an
exception's entry or the fetch, decoding and execution of one instruction.
-/

namespace Sys2Proof.Machine

/-- TRAPA clears T itself, so trace is never due after it (60_exceptions.md R1132, R1133). -/
def isTrapa : Instr → Bool
  | .trapa _ => true
  | _ => false

/-- Trace is due after instruction `x`, run from `s` to `t`: `INTM` is 2, EXR.T was 1 at its start, it is not TRAPA,
and it has ended, so not an EEPMOV.W between its bytes (60_exceptions.md R1133). Log 21. -/
def traceAfter (x : Instr) (s t : State) : Bool :=
  decide (s.params.intm = .mode2) && s.traceBit && !isTrapa x && !t.eepmovActive

/-- One instruction run from a boundary (00_scope.md R15). -/
def runInstr (x : Instr) (s : State) : Out :=
  match exec x s.opened with
  | .next t => .next (t.close (traceAfter x s t))
  | .fault f => .fault f
  | .refused r => .refused r

/-- The fetch, decoding and execution of one instruction (00_scope.md R15; 60_exceptions.md R1103: fetch comes
before decode, decode before execution), or one more byte of an EEPMOV.W under way. -/
def fetchAndRun (s : State) : Out :=
  match s.nextInstr with
  | .error f => .fault f
  | .ok x => runInstr x s

/-- The step where no reset is asserted: what the boundary decides, then that (60_exceptions.md R1130). A run that has
ended with a fault stays at it (00_scope.md R10, log 13). -/
def State.proceed (s : State) : Out :=
  match s.fault with
  | some f => .fault f
  | none =>
    match s.due with
    | .reset => Out.of s.enterReset
    | .trace => Out.of (s.enter 5 none)
    | .nmi => Out.of s.enterNmi
    | .irq r => Out.of (s.enter r.vector.toNat (some r.level))
    | .asleep => .next s.stayAsleep
    | .run => fetchAndRun s

/-- The step: a reset before everything else, which also starts a new run where the last one has ended with a fault
(70_reset_and_hazards.md R1200, R1201); else what the boundary decides (60_exceptions.md R1130). -/
def cycle (s : State) : Out :=
  match s.resetIn with
  | some k => s.cutByReset k
  | none => s.proceed

end Sys2Proof.Machine
end

