-- ==== Sys2Proof/Machine/Step.lean ====
section
/-!
DEFINITION. One step of the machine, and placing an instruction where the next step fetches it.
-/

namespace Sys2Proof.Machine

/-- One step (00_scope.md R15). -/
def step (s : State) : Host.Outcome State Fault Refusal := cycle s

/-- `s` with the instruction of bits `w` stored where `step` fetches next, at `pc`; an EEPMOV.W under way, which would go
on without a fetch, is left. Log 15. -/
def State.withFetchWord (s : State) (nbits w : Nat) : State :=
  { s.place (tableBytes nbits w) with eepmovActive := false }

end Sys2Proof.Machine
end

