-- ==== Sys2Proof/Machine/Record.lean ====
section
/-!
DEFINITION. The decode port and its output record (00_scope.md R14 (a); 10_state.md R118, R120; 30_encoding.md
R319 to R323, R330).
-/

namespace Sys2Proof.Machine

/-- An operand record (10_state.md R120). A width is in bits. -/
inductive Operand where
  | regB (n : BitVec 4)
  | regW (n : BitVec 4)
  | regL (n : BitVec 3)
  | ccr
  | exr
  | ind (n : BitVec 3)
  | inc (n : BitVec 3)
  | dec (n : BitVec 3)
  /-- A displacement field of this width, and the register. -/
  | disp (width : Nat) (d : Nat) (n : BitVec 3)
  | absolute (width : Nat) (aa : Nat)
  | memInd (aa : BitVec 8)
  | imm (width : Nat) (v : Nat)
  /-- The constant 1, 2 or 4 a sub-opcode stands for. -/
  | implicit (k : Nat)
  /-- A displacement field of this width, and the resolved target. -/
  | pcRel (width : Nat) (d : Nat) (target : Addr)
  | regList (first last : BitVec 3)
deriving DecidableEq, Repr

/-- The bits an operand of this variant contributes to the instruction's length, nothing executed (10_state.md R120): the
width of its extension field, the whole bytes it consumes beside the opcode bytes (30_encoding.md R321). A register, a
bit number, a trap number or an implicit constant lies within the opcode bytes and contributes none: DEDUCED, log 28. -/
def Operand.lengthBits : Operand → Nat
  | .disp width _ _ => width
  | .absolute width _ => width
  | .memInd _ => 8
  | .imm width _ => if width < 8 then 0 else width
  | .pcRel width _ _ => width
  | .regB _ | .regW _ | .regL _ | .ccr | .exr | .ind _ | .inc _ | .dec _ | .implicit _ | .regList _ _ => 0

/-- The contributions of a sequence of operands together. -/
def lengthBits (ops : List Operand) : Nat := (ops.map Operand.lengthBits).sum

/-- The decoder's output, the Instruction (10_state.md R118). `form` is the operation and its operand fields, which
`execute` takes; `tag` is the number of the rule that gives its meaning. -/
structure Record where
  mnemonic : String
  operandWidth : OpWidth
  operands : List Operand
  flags : List InstrFlag
  length : Nat
  virtualAddress : Addr
  tag : Nat
  form : Instr
deriving DecidableEq, Repr

/-- The resolved target of a displacement of an instruction of `len` bytes at `va` (30_encoding.md R319). -/
def pcRelative {n : Nat} (p : Params) (va : Addr) (len : Nat) (disp : BitVec n) : Addr :=
  (((va + BitVec.ofNat 32 len) &&& p.addrBits.mask) + disp.signExtend 32) &&& p.addrBits.mask

end Sys2Proof.Machine

namespace Sys2Proof

open Sys2Proof.Machine

/-- The operand record of a memory operand (10_state.md R120). -/
def Mode.operand : Mode → Operand
  | .ind ra => .ind ra
  | .disp16 d ra => .disp 16 d.toNat ra
  | .disp32 d ra => .disp 32 d.toNat ra
  | .inc ra => .inc ra
  | .dec ra => .dec ra
  | .abs8 aa => .absolute 8 aa.toNat
  | .abs16 aa => .absolute 16 aa.toNat
  | .abs32 aa => .absolute 32 aa.toNat

/-- The operand record of a bit instruction's target (10_state.md R120). -/
def BitTarget.operand : BitTarget → Operand
  | .reg rd => .regB rd
  | .ind ra => .ind ra
  | .abs8 aa => .absolute 8 aa.toNat
  | .abs16 aa => .absolute 16 aa.toNat
  | .abs32 aa => .absolute 32 aa.toNat

end Sys2Proof

namespace Sys2Proof.Machine

/-- The operand records of an instruction decoded at `va`, source first, destination last (10_state.md R118,
30_encoding.md R331, R350). -/
def operandsOf (p : Params) (va : Addr) : Instr → List Operand
  | .nop => []
  | .movBReg rs rd => [.regB rs, .regB rd]
  | .movWReg rs rd => [.regW rs, .regW rd]
  | .movLReg rs rd => [.regL rs, .regL rd]
  | .movBImm imm rd => [.imm 8 imm.toNat, .regB rd]
  | .movWImm imm rd => [.imm 16 imm.toNat, .regW rd]
  | .movLImm imm rd => [.imm 32 imm.toNat, .regL rd]
  | .movBLoad mem rd => [mem.operand, .regB rd]
  | .movBStore rs mem => [.regB rs, mem.operand]
  | .movWLoad mem rd => [mem.operand, .regW rd]
  | .movWStore rs mem => [.regW rs, mem.operand]
  | .movLLoad mem rd => [mem.operand, .regL rd]
  | .movLStore rs mem => [.regL rs, mem.operand]
  | .movfpe aa rd => [.absolute 16 aa.toNat, .regB rd]
  | .movtpe rs aa => [.regB rs, .absolute 16 aa.toNat]
  | .ldm2 rd => [.inc 7, .regList (rd - 1) rd]
  | .stm2 rs => [.regList rs (rs + 1), .dec 7]
  | .ldm3 rd => [.inc 7, .regList (rd - 2) rd]
  | .stm3 rs => [.regList rs (rs + 2), .dec 7]
  | .ldm4 rd => [.inc 7, .regList (rd - 3) rd]
  | .stm4 rs => [.regList rs (rs + 3), .dec 7]
  | .eepmovB => []
  | .eepmovW => []
  | .addBImm imm rd => [.imm 8 imm.toNat, .regB rd]
  | .addBReg rs rd => [.regB rs, .regB rd]
  | .addWImm imm rd => [.imm 16 imm.toNat, .regW rd]
  | .addWReg rs rd => [.regW rs, .regW rd]
  | .addLImm imm rd => [.imm 32 imm.toNat, .regL rd]
  | .addLReg rs rd => [.regL rs, .regL rd]
  | .addxImm imm rd => [.imm 8 imm.toNat, .regB rd]
  | .addxReg rs rd => [.regB rs, .regB rd]
  | .adds1 rd => [.implicit 1, .regL rd]
  | .adds2 rd => [.implicit 2, .regL rd]
  | .adds4 rd => [.implicit 4, .regL rd]
  | .incB rd => [.regB rd]
  | .incW1 rd => [.implicit 1, .regW rd]
  | .incW2 rd => [.implicit 2, .regW rd]
  | .incL1 rd => [.implicit 1, .regL rd]
  | .incL2 rd => [.implicit 2, .regL rd]
  | .daa rd => [.regB rd]
  | .subBReg rs rd => [.regB rs, .regB rd]
  | .subWImm imm rd => [.imm 16 imm.toNat, .regW rd]
  | .subWReg rs rd => [.regW rs, .regW rd]
  | .subLImm imm rd => [.imm 32 imm.toNat, .regL rd]
  | .subLReg rs rd => [.regL rs, .regL rd]
  | .subxImm imm rd => [.imm 8 imm.toNat, .regB rd]
  | .subxReg rs rd => [.regB rs, .regB rd]
  | .subs1 rd => [.implicit 1, .regL rd]
  | .subs2 rd => [.implicit 2, .regL rd]
  | .subs4 rd => [.implicit 4, .regL rd]
  | .decB rd => [.regB rd]
  | .decW1 rd => [.implicit 1, .regW rd]
  | .decW2 rd => [.implicit 2, .regW rd]
  | .decL1 rd => [.implicit 1, .regL rd]
  | .decL2 rd => [.implicit 2, .regL rd]
  | .das rd => [.regB rd]
  | .cmpBImm imm rd => [.imm 8 imm.toNat, .regB rd]
  | .cmpBReg rs rd => [.regB rs, .regB rd]
  | .cmpWImm imm rd => [.imm 16 imm.toNat, .regW rd]
  | .cmpWReg rs rd => [.regW rs, .regW rd]
  | .cmpLImm imm rd => [.imm 32 imm.toNat, .regL rd]
  | .cmpLReg rs rd => [.regL rs, .regL rd]
  | .negB rd => [.regB rd]
  | .negW rd => [.regW rd]
  | .negL rd => [.regL rd]
  | .extuW rd => [.regW rd]
  | .extuL rd => [.regL rd]
  | .extsW rd => [.regW rd]
  | .extsL rd => [.regL rd]
  | .mulxuB rs rd => [.regB rs, .regW rd]
  | .mulxuW rs rd => [.regW rs, .regL rd]
  | .mulxsB rs rd => [.regB rs, .regW rd]
  | .mulxsW rs rd => [.regW rs, .regL rd]
  | .divxuB rs rd => [.regB rs, .regW rd]
  | .divxuW rs rd => [.regW rs, .regL rd]
  | .divxsB rs rd => [.regB rs, .regW rd]
  | .divxsW rs rd => [.regW rs, .regL rd]
  | .tas ra => [.ind ra]
  | .andBImm imm rd => [.imm 8 imm.toNat, .regB rd]
  | .andBReg rs rd => [.regB rs, .regB rd]
  | .andWImm imm rd => [.imm 16 imm.toNat, .regW rd]
  | .andWReg rs rd => [.regW rs, .regW rd]
  | .andLImm imm rd => [.imm 32 imm.toNat, .regL rd]
  | .andLReg rs rd => [.regL rs, .regL rd]
  | .orBImm imm rd => [.imm 8 imm.toNat, .regB rd]
  | .orBReg rs rd => [.regB rs, .regB rd]
  | .orWImm imm rd => [.imm 16 imm.toNat, .regW rd]
  | .orWReg rs rd => [.regW rs, .regW rd]
  | .orLImm imm rd => [.imm 32 imm.toNat, .regL rd]
  | .orLReg rs rd => [.regL rs, .regL rd]
  | .xorBImm imm rd => [.imm 8 imm.toNat, .regB rd]
  | .xorBReg rs rd => [.regB rs, .regB rd]
  | .xorWImm imm rd => [.imm 16 imm.toNat, .regW rd]
  | .xorWReg rs rd => [.regW rs, .regW rd]
  | .xorLImm imm rd => [.imm 32 imm.toNat, .regL rd]
  | .xorLReg rs rd => [.regL rs, .regL rd]
  | .notB rd => [.regB rd]
  | .notW rd => [.regW rd]
  | .notL rd => [.regL rd]
  | .shllB rd => [.regB rd]
  | .shllW rd => [.regW rd]
  | .shllL rd => [.regL rd]
  | .shllB2 rd => [.implicit 2, .regB rd]
  | .shllW2 rd => [.implicit 2, .regW rd]
  | .shllL2 rd => [.implicit 2, .regL rd]
  | .shalB rd => [.regB rd]
  | .shalW rd => [.regW rd]
  | .shalL rd => [.regL rd]
  | .shalB2 rd => [.implicit 2, .regB rd]
  | .shalW2 rd => [.implicit 2, .regW rd]
  | .shalL2 rd => [.implicit 2, .regL rd]
  | .shlrB rd => [.regB rd]
  | .shlrW rd => [.regW rd]
  | .shlrL rd => [.regL rd]
  | .shlrB2 rd => [.implicit 2, .regB rd]
  | .shlrW2 rd => [.implicit 2, .regW rd]
  | .shlrL2 rd => [.implicit 2, .regL rd]
  | .sharB rd => [.regB rd]
  | .sharW rd => [.regW rd]
  | .sharL rd => [.regL rd]
  | .sharB2 rd => [.implicit 2, .regB rd]
  | .sharW2 rd => [.implicit 2, .regW rd]
  | .sharL2 rd => [.implicit 2, .regL rd]
  | .rotxlB rd => [.regB rd]
  | .rotxlW rd => [.regW rd]
  | .rotxlL rd => [.regL rd]
  | .rotxlB2 rd => [.implicit 2, .regB rd]
  | .rotxlW2 rd => [.implicit 2, .regW rd]
  | .rotxlL2 rd => [.implicit 2, .regL rd]
  | .rotlB rd => [.regB rd]
  | .rotlW rd => [.regW rd]
  | .rotlL rd => [.regL rd]
  | .rotlB2 rd => [.implicit 2, .regB rd]
  | .rotlW2 rd => [.implicit 2, .regW rd]
  | .rotlL2 rd => [.implicit 2, .regL rd]
  | .rotxrB rd => [.regB rd]
  | .rotxrW rd => [.regW rd]
  | .rotxrL rd => [.regL rd]
  | .rotxrB2 rd => [.implicit 2, .regB rd]
  | .rotxrW2 rd => [.implicit 2, .regW rd]
  | .rotxrL2 rd => [.implicit 2, .regL rd]
  | .rotrB rd => [.regB rd]
  | .rotrW rd => [.regW rd]
  | .rotrL rd => [.regL rd]
  | .rotrB2 rd => [.implicit 2, .regB rd]
  | .rotrW2 rd => [.implicit 2, .regW rd]
  | .rotrL2 rd => [.implicit 2, .regL rd]
  | .bsetImm bit tgt => [.imm 3 bit.toNat, tgt.operand]
  | .bsetRn rn tgt => [.regB rn, tgt.operand]
  | .bnotImm bit tgt => [.imm 3 bit.toNat, tgt.operand]
  | .bnotRn rn tgt => [.regB rn, tgt.operand]
  | .bclrImm bit tgt => [.imm 3 bit.toNat, tgt.operand]
  | .bclrRn rn tgt => [.regB rn, tgt.operand]
  | .btstImm bit tgt => [.imm 3 bit.toNat, tgt.operand]
  | .btstRn rn tgt => [.regB rn, tgt.operand]
  | .bor bit tgt => [.imm 3 bit.toNat, tgt.operand]
  | .bior bit tgt => [.imm 3 bit.toNat, tgt.operand]
  | .bxor bit tgt => [.imm 3 bit.toNat, tgt.operand]
  | .bixor bit tgt => [.imm 3 bit.toNat, tgt.operand]
  | .band bit tgt => [.imm 3 bit.toNat, tgt.operand]
  | .biand bit tgt => [.imm 3 bit.toNat, tgt.operand]
  | .bld bit tgt => [.imm 3 bit.toNat, tgt.operand]
  | .bild bit tgt => [.imm 3 bit.toNat, tgt.operand]
  | .bst bit tgt => [.imm 3 bit.toNat, tgt.operand]
  | .bist bit tgt => [.imm 3 bit.toNat, tgt.operand]
  | .bra8 disp => [.pcRel 8 disp.toNat (pcRelative p va 2 disp)]
  | .bra16 disp => [.pcRel 16 disp.toNat (pcRelative p va 4 disp)]
  | .brn8 disp => [.pcRel 8 disp.toNat (pcRelative p va 2 disp)]
  | .brn16 disp => [.pcRel 16 disp.toNat (pcRelative p va 4 disp)]
  | .bhi8 disp => [.pcRel 8 disp.toNat (pcRelative p va 2 disp)]
  | .bhi16 disp => [.pcRel 16 disp.toNat (pcRelative p va 4 disp)]
  | .bls8 disp => [.pcRel 8 disp.toNat (pcRelative p va 2 disp)]
  | .bls16 disp => [.pcRel 16 disp.toNat (pcRelative p va 4 disp)]
  | .bcc8 disp => [.pcRel 8 disp.toNat (pcRelative p va 2 disp)]
  | .bcc16 disp => [.pcRel 16 disp.toNat (pcRelative p va 4 disp)]
  | .bcs8 disp => [.pcRel 8 disp.toNat (pcRelative p va 2 disp)]
  | .bcs16 disp => [.pcRel 16 disp.toNat (pcRelative p va 4 disp)]
  | .bne8 disp => [.pcRel 8 disp.toNat (pcRelative p va 2 disp)]
  | .bne16 disp => [.pcRel 16 disp.toNat (pcRelative p va 4 disp)]
  | .beq8 disp => [.pcRel 8 disp.toNat (pcRelative p va 2 disp)]
  | .beq16 disp => [.pcRel 16 disp.toNat (pcRelative p va 4 disp)]
  | .bvc8 disp => [.pcRel 8 disp.toNat (pcRelative p va 2 disp)]
  | .bvc16 disp => [.pcRel 16 disp.toNat (pcRelative p va 4 disp)]
  | .bvs8 disp => [.pcRel 8 disp.toNat (pcRelative p va 2 disp)]
  | .bvs16 disp => [.pcRel 16 disp.toNat (pcRelative p va 4 disp)]
  | .bpl8 disp => [.pcRel 8 disp.toNat (pcRelative p va 2 disp)]
  | .bpl16 disp => [.pcRel 16 disp.toNat (pcRelative p va 4 disp)]
  | .bmi8 disp => [.pcRel 8 disp.toNat (pcRelative p va 2 disp)]
  | .bmi16 disp => [.pcRel 16 disp.toNat (pcRelative p va 4 disp)]
  | .bge8 disp => [.pcRel 8 disp.toNat (pcRelative p va 2 disp)]
  | .bge16 disp => [.pcRel 16 disp.toNat (pcRelative p va 4 disp)]
  | .blt8 disp => [.pcRel 8 disp.toNat (pcRelative p va 2 disp)]
  | .blt16 disp => [.pcRel 16 disp.toNat (pcRelative p va 4 disp)]
  | .bgt8 disp => [.pcRel 8 disp.toNat (pcRelative p va 2 disp)]
  | .bgt16 disp => [.pcRel 16 disp.toNat (pcRelative p va 4 disp)]
  | .ble8 disp => [.pcRel 8 disp.toNat (pcRelative p va 2 disp)]
  | .ble16 disp => [.pcRel 16 disp.toNat (pcRelative p va 4 disp)]
  | .jmpInd ra => [.ind ra]
  | .jmpAbs24 aa => [.absolute 24 aa.toNat]
  | .jmpMemInd aa => [.memInd aa]
  | .bsr8 disp => [.pcRel 8 disp.toNat (pcRelative p va 2 disp)]
  | .bsr16 disp => [.pcRel 16 disp.toNat (pcRelative p va 4 disp)]
  | .jsrInd ra => [.ind ra]
  | .jsrAbs24 aa => [.absolute 24 aa.toNat]
  | .jsrMemInd aa => [.memInd aa]
  | .rts => []
  | .trapa tn => [.imm 2 tn.toNat]
  | .rte => []
  | .sleep => []
  | .ldcImmCcr imm => [.imm 8 imm.toNat, .ccr]
  | .andcCcr imm => [.imm 8 imm.toNat, .ccr]
  | .orcCcr imm => [.imm 8 imm.toNat, .ccr]
  | .xorcCcr imm => [.imm 8 imm.toNat, .ccr]
  | .ldcRegCcr rs => [.regB rs, .ccr]
  | .stcRegCcr rd => [.ccr, .regB rd]
  | .ldcWCcr mem => [mem.operand, .ccr]
  | .stcWCcr mem => [.ccr, mem.operand]
  | .ldcImmExr imm => [.imm 8 imm.toNat, .exr]
  | .andcExr imm => [.imm 8 imm.toNat, .exr]
  | .orcExr imm => [.imm 8 imm.toNat, .exr]
  | .xorcExr imm => [.imm 8 imm.toNat, .exr]
  | .ldcRegExr rs => [.regB rs, .exr]
  | .stcRegExr rd => [.exr, .regB rd]
  | .ldcWExr mem => [mem.operand, .exr]
  | .stcWExr mem => [.exr, mem.operand]

/-- The record of an instruction whose row is `r`. -/
def recordOf (p : Params) (va : Addr) (r : Row) (x : Instr) : Record :=
  { mnemonic := r.mnemonic
    operandWidth := r.width
    operands := operandsOf p va x
    flags := r.flags
    length := r.len
    virtualAddress := va
    tag := r.tag
    form := x }

/-- The decode port `decode(bytes, offset, virtualAddress)` (00_scope.md R14 (a), 30_encoding.md R320, R325). -/
def decodePort (p : Params) (bytes : List Byte) (offset : Nat) (va : Addr) : Except Fault Record :=
  let b := bytes.drop offset
  match decodeRow b with
  | .ok r => .ok (recordOf p va r (r.build (r.word (window80 b))))
  | .error .truncated => .error (.truncatedInstruction va.toNat b.length)
  | .error .invalid => .error (.invalidInstruction va.toNat b)

end Sys2Proof.Machine
end

