-- ==== Sys2Proof/Machine/Execute.lean ====
section
/-!
DEFINITION. The execute port (00_scope.md R14 (b)): an Instruction record executed at the address it was decoded at.
-/

namespace Sys2Proof.Machine

/-- `s` while the instruction decoded at `va` executes: the program counter holds the instruction's own address
(10_state.md R108). -/
def State.atAddress (s : State) (va : Addr) : State := s.setPc (s.addr va)

/-- The execute port `execute(machineState, instruction)` (00_scope.md R14 (b)): `pc_next`, every PC-relative target and
the prefetch window are taken from the record's `virtualAddress`, whatever `pc` holds (10_state.md R108, R118). It does
not look at the fault record or at sleep, and calls with no step between them read their free values at one epoch: DESIGN
CHOICE, log 30. -/
def execute (s : State) (r : Record) : Out := exec r.form (s.atAddress r.virtualAddress)

end Sys2Proof.Machine
end

