-- ==== Sys2Proof/Machine/Driver.lean ====
section
/-!
DEFINITION. What the outside world does between steps: the state-access port of the driver (00_scope.md R14 (d);
10_state.md R107, R113; 92_eei_decisions.md D38) and the inputs (60_exceptions.md R1120, R1121;
70_reset_and_hazards.md R1200, R1202). No step calls these.
-/

namespace Sys2Proof.Machine

/-- The registers the driver names (10_state.md R107). -/
inductive RegName where
  | long (n : BitVec 3)
  | word (n : BitVec 4)
  | byte (n : BitVec 4)
  | pc
  | ccr
  | exr
deriving DecidableEq, Repr

/-- The names of 10_state.md R107, `sp` for ER7 among them. -/
def regNames : List (String × RegName) := [
  ("er0", .long 0), ("er1", .long 1), ("er2", .long 2), ("er3", .long 3),
  ("er4", .long 4), ("er5", .long 5), ("er6", .long 6), ("er7", .long 7), ("sp", .long 7),
  ("r0", .word 0), ("r1", .word 1), ("r2", .word 2), ("r3", .word 3),
  ("r4", .word 4), ("r5", .word 5), ("r6", .word 6), ("r7", .word 7),
  ("e0", .word 8), ("e1", .word 9), ("e2", .word 10), ("e3", .word 11),
  ("e4", .word 12), ("e5", .word 13), ("e6", .word 14), ("e7", .word 15),
  ("r0h", .byte 0), ("r1h", .byte 1), ("r2h", .byte 2), ("r3h", .byte 3),
  ("r4h", .byte 4), ("r5h", .byte 5), ("r6h", .byte 6), ("r7h", .byte 7),
  ("r0l", .byte 8), ("r1l", .byte 9), ("r2l", .byte 10), ("r3l", .byte 11),
  ("r4l", .byte 12), ("r5l", .byte 13), ("r6l", .byte 14), ("r7l", .byte 15),
  ("pc", .pc), ("ccr", .ccr), ("exr", .exr)]

/-- The register of a name (10_state.md R107). -/
def regNamed? (name : String) : Option RegName := (regNames.find? fun e => e.1 == name).map (·.2)

/-- The flag names of 10_state.md R113: the bit names and the document's names. -/
def flagNames : List (String × Flag) := [
  ("I", .i), ("UI", .ui), ("H", .h), ("U", .u), ("N", .n), ("Z", .z), ("V", .v), ("C", .c),
  ("interrupt-mask", .i), ("user", .u), ("half-carry", .h), ("negative", .n), ("zero", .z), ("overflow", .v),
  ("carry", .c)]

/-- The flag of a name (10_state.md R113). -/
def flagNamed? (name : String) : Option Flag := (flagNames.find? fun e => e.1 == name).map (·.2)

/-- Every byte of the long view ERn is defined (10_state.md R106). -/
def State.definedL (s : State) (n : BitVec 3) : Bool := (s.reg n).dfn == 0b1111

/-- Both bytes of the word view are defined (10_state.md R102, R106). -/
def State.definedW (s : State) (n : BitVec 4) : Bool :=
  if n.msb then (s.reg (ern n)).dfn.extractLsb' 2 2 == 0b11 else (s.reg (ern n)).dfn.extractLsb' 0 2 == 0b11

/-- The byte of the byte view is defined (10_state.md R101, R106). -/
def State.definedB (s : State) (n : BitVec 4) : Bool :=
  if n.msb then (s.reg (ern n)).dfn.getLsbD 0 else (s.reg (ern n)).dfn.getLsbD 1

/-- The flag is defined (10_state.md R113). -/
def State.definedFlag (s : State) (f : Flag) : Bool := s.ccrDfn.getLsbD f.bit

/-- A value if the condition holds, else the `Unmodelled` of a read of what nothing has written (10_state.md R106,
R113). -/
def State.ifDefined (s : State) (d : Bool) (why : UnmodelledReason) (v : Long) : Except Fault Long :=
  if d then .ok v else .error (s.unmodelled why)

/-- `getRegister` (10_state.md R107): the current value of the named view, or `Unmodelled` on an undefined byte.
The whole CCR is a copy: an undefined bit reads as a draw (R113), the same draw as the coming step's own copy of the CCR
reads: DESIGN CHOICE, log 27. -/
def State.getRegister (s : State) (r : RegName) : Except Fault Long :=
  match r with
  | .long n => s.ifDefined (s.definedL n) .readOfUnwrittenRegister (s.readL n)
  | .word n => s.ifDefined (s.definedW n) .readOfUnwrittenRegister ((s.readW n).zeroExtend 32)
  | .byte n => s.ifDefined (s.definedB n) .readOfUnwrittenRegister ((s.readB n).zeroExtend 32)
  | .pc => .ok s.pc
  | .ccr => .ok (s.ccrImage.zeroExtend 32)
  | .exr => .ok (s.exr.zeroExtend 32)

/-- `setRegister` (10_state.md R107): `value mod 2^width` into the view, its bytes become defined; nothing else
changes (92_eei_decisions.md D38). -/
def State.setRegister (s : State) (r : RegName) (value : Nat) : State :=
  match r with
  | .long n => s.writeL n (BitVec.ofNat 32 value)
  | .word n => s.writeW n (BitVec.ofNat 16 value)
  | .byte n => s.writeB n (BitVec.ofNat 8 value)
  | .pc => s.setPc (s.addr (BitVec.ofNat 32 value))
  | .ccr => s.writeCcr (BitVec.ofNat 8 value)
  | .exr => s.writeExr (BitVec.ofNat 8 value)

/-- `getFlag` (10_state.md R113): the flag, or `Unmodelled` where it is undefined. -/
def State.getFlag (s : State) (f : Flag) : Except Fault Bool :=
  if s.definedFlag f then .ok (s.flag f) else .error (s.unmodelled .readOfUnwrittenFlag)

/-- `setFlag` of the driver (10_state.md R113): the flag becomes defined, nothing else changes
(92_eei_decisions.md D38). -/
def State.driveFlag (s : State) (f : Flag) (x : Bool) : State := s.setFlag f x

/-- An event on the NMI input (60_exceptions.md R1121): an event while one is pending is lost. -/
def State.nmiEvent (s : State) : State := { s with nmiPending := true }

/-- The interrupt-request input as the platform holds it (60_exceptions.md R1120). -/
def State.driveIrq (s : State) (requests : List IrqRequest) : State := { s with irq := requests }

/-- The reset input asserted (70_reset_and_hazards.md R1200), once `k` memory writes of the coming step are completed.
Log 9. -/
def State.assertReset (s : State) (k : Nat) : State := { s with resetIn := some k }

/-- The fault outcome of a step kept as the run's record: never cleared by a step (10_state.md R117, 00_scope.md
R10). Log 13. -/
def State.recordFault (s : State) (f : Fault) : State :=
  match s.fault with
  | none => { s with fault := some f }
  | some _ => s

/-- A run started by the driver without the reset sequence (70_reset_and_hazards.md R1202): the reset values, at a
given `pc`, over given parameters and memory. The boundary check comes after an instruction (60_exceptions.md
R1130), so the first has none before it. Log 8. -/
def State.driven (p : Params) (m : Memory) (pc : Addr) : State :=
  { State.reset with params := p, mem := m, pc := pc }

end Sys2Proof.Machine
end

