-- ==== Sys2Proof/Safety.lean ====
section
/-!
DEFINITION. What counts as a good state and a safe run: the invariant every step keeps, and the reads for which
the spec asks a defined register or flag (10_state.md R106, R113).
-/

namespace Sys2Proof.Machine

/-- The program counter is even and inside the address space (10_state.md R108, R110). -/
def State.PcOk (s : State) : Prop := s.pc &&& s.params.addrBits.mask = s.pc ∧ s.pc.getLsbD 0 = false

/-- The reserved bits of EXR read as 1 (10_state.md R114). -/
def State.ExrOk (s : State) : Prop := s.exr &&& 0x78 = 0x78

/-- Memory is in its canonical form and lists only addresses of the address space (20_memory.md R201, log 2). -/
def State.MemOk (s : State) : Prop := s.mem.wf ∧ ∀ c ∈ s.mem, c.1 < 2 ^ s.params.addrBits.toNat

/-- The invariant of the model. -/
structure State.Inv (s : State) : Prop where
  pcOk : s.PcOk
  exrOk : s.ExrOk
  memOk : s.MemOk

/-- A run goes on from `s`. -/
def State.Steps (s : State) : Prop := ∃ t, step s = .next t

end Sys2Proof.Machine

namespace Sys2Proof

open Sys2Proof.Machine

/-- The address register of a memory operand (30_encoding.md R311, R312, R317). -/
def Mode.regReads : Mode → List RegName
  | .ind ra | .disp16 _ ra | .disp32 _ ra | .inc ra | .dec ra => [.long ra]
  | .abs8 _ | .abs16 _ | .abs32 _ => []

/-- The condition of a Bcc (45_branch.md R900). -/
def Instr.condition : Instr → Option Cond
  | .bra8 _ | .bra16 _ => some .always
  | .brn8 _ | .brn16 _ => some .never
  | .bhi8 _ | .bhi16 _ => some .hi
  | .bls8 _ | .bls16 _ => some .ls
  | .bcc8 _ | .bcc16 _ => some .cc
  | .bcs8 _ | .bcs16 _ => some .cs
  | .bne8 _ | .bne16 _ => some .ne
  | .beq8 _ | .beq16 _ => some .eq
  | .bvc8 _ | .bvc16 _ => some .vc
  | .bvs8 _ | .bvs16 _ => some .vs
  | .bpl8 _ | .bpl16 _ => some .pl
  | .bmi8 _ | .bmi16 _ => some .mi
  | .bge8 _ | .bge16 _ => some .ge
  | .blt8 _ | .blt16 _ => some .lt
  | .bgt8 _ | .bgt16 _ => some .gt
  | .ble8 _ | .ble16 _ => some .le
  | _ => none

/-- BSR and JSR (45_branch.md R903). -/
def Instr.isCall : Instr → Bool
  | .bsr8 _ | .bsr16 _ | .jsrInd _ | .jsrAbs24 _ | .jsrMemInd _ => true
  | _ => false

/-- BSR, JSR and RTS (45_branch.md R902). -/
def Instr.movesStack : Instr → Bool
  | .rts => true
  | x => x.isCall

/-- Bcc, JMP, BSR, JSR and RTS (45_branch.md R902). -/
def Instr.inBranchFamily : Instr → Bool
  | .jmpInd _ | .jmpAbs24 _ | .jmpMemInd _ => true
  | x => x.condition.isSome || x.movesStack

/-- The register a bit target reads (44_bit_manipulation.md R800). -/
def BitTarget.regReads : BitTarget → List RegName
  | .reg rd => [.byte rd]
  | .ind ra => [.long ra]
  | .abs8 _ | .abs16 _ | .abs32 _ => []

end Sys2Proof

namespace Sys2Proof.Machine

/-- The register views an instruction reads: those whose undefined byte the spec calls `Unmodelled` (10_state.md
R106 and the Exceptions line of each rule). Log 1. -/
def regReads (s : State) : Instr → List RegName
  | .nop => []
  | .movBReg rs _ => [.byte rs]
  | .movWReg rs _ => [.word rs]
  | .movLReg rs _ => [.long rs]
  | .movBImm _ _ => []
  | .movWImm _ _ => []
  | .movLImm _ _ => []
  | .movBLoad mem _ => mem.regReads
  | .movBStore rs mem => [.byte rs] ++ mem.regReads
  | .movWLoad mem _ => mem.regReads
  | .movWStore rs mem => [.word rs] ++ mem.regReads
  | .movLLoad mem _ => mem.regReads
  | .movLStore rs mem => [.long rs] ++ mem.regReads
  | .movfpe _ _ => []
  | .movtpe rs _ => [.byte rs]
  | .ldm2 _ => [.long 7]
  | .stm2 rs => [.long 7, .long rs, .long (rs + 1)]
  | .ldm3 _ => [.long 7]
  | .stm3 rs => [.long 7, .long rs, .long (rs + 1), .long (rs + 2)]
  | .ldm4 _ => [.long 7]
  | .stm4 rs => [.long 7, .long rs, .long (rs + 1), .long (rs + 2), .long (rs + 3)]
  | .eepmovB => if s.readB 12 = 0 then [.byte 12] else [.byte 12, .long 5, .long 6]
  | .eepmovW => if s.readW 4 = 0 then [.word 4] else [.word 4, .long 5, .long 6]
  | .addBImm _ rd => [.byte rd]
  | .addBReg rs rd => [.byte rs, .byte rd]
  | .addWImm _ rd => [.word rd]
  | .addWReg rs rd => [.word rs, .word rd]
  | .addLImm _ rd => [.long rd]
  | .addLReg rs rd => [.long rs, .long rd]
  | .addxImm _ rd => [.byte rd]
  | .addxReg rs rd => [.byte rs, .byte rd]
  | .adds1 rd => [.long rd]
  | .adds2 rd => [.long rd]
  | .adds4 rd => [.long rd]
  | .incB rd => [.byte rd]
  | .incW1 rd => [.word rd]
  | .incW2 rd => [.word rd]
  | .incL1 rd => [.long rd]
  | .incL2 rd => [.long rd]
  | .daa rd => [.byte rd]
  | .subBReg rs rd => [.byte rs, .byte rd]
  | .subWImm _ rd => [.word rd]
  | .subWReg rs rd => [.word rs, .word rd]
  | .subLImm _ rd => [.long rd]
  | .subLReg rs rd => [.long rs, .long rd]
  | .subxImm _ rd => [.byte rd]
  | .subxReg rs rd => [.byte rs, .byte rd]
  | .subs1 rd => [.long rd]
  | .subs2 rd => [.long rd]
  | .subs4 rd => [.long rd]
  | .decB rd => [.byte rd]
  | .decW1 rd => [.word rd]
  | .decW2 rd => [.word rd]
  | .decL1 rd => [.long rd]
  | .decL2 rd => [.long rd]
  | .das rd => [.byte rd]
  | .cmpBImm _ rd => [.byte rd]
  | .cmpBReg rs rd => [.byte rs, .byte rd]
  | .cmpWImm _ rd => [.word rd]
  | .cmpWReg rs rd => [.word rs, .word rd]
  | .cmpLImm _ rd => [.long rd]
  | .cmpLReg rs rd => [.long rs, .long rd]
  | .negB rd => [.byte rd]
  | .negW rd => [.word rd]
  | .negL rd => [.long rd]
  | .extuW rd => [.word rd]
  | .extuL rd => [.long rd]
  | .extsW rd => [.word rd]
  | .extsL rd => [.long rd]
  | .mulxuB rs rd => [.byte rs, .word rd]
  | .mulxuW rs rd => [.word rs, .long rd]
  | .mulxsB rs rd => [.byte rs, .word rd]
  | .mulxsW rs rd => [.word rs, .long rd]
  | .divxuB rs rd => [.byte rs, .word rd]
  | .divxuW rs rd => [.word rs, .long rd]
  | .divxsB rs rd => [.byte rs, .word rd]
  | .divxsW rs rd => [.word rs, .long rd]
  | .tas ra => [.long ra]
  | .andBImm _ rd => [.byte rd]
  | .andBReg rs rd => [.byte rs, .byte rd]
  | .andWImm _ rd => [.word rd]
  | .andWReg rs rd => [.word rs, .word rd]
  | .andLImm _ rd => [.long rd]
  | .andLReg rs rd => [.long rs, .long rd]
  | .orBImm _ rd => [.byte rd]
  | .orBReg rs rd => [.byte rs, .byte rd]
  | .orWImm _ rd => [.word rd]
  | .orWReg rs rd => [.word rs, .word rd]
  | .orLImm _ rd => [.long rd]
  | .orLReg rs rd => [.long rs, .long rd]
  | .xorBImm _ rd => [.byte rd]
  | .xorBReg rs rd => [.byte rs, .byte rd]
  | .xorWImm _ rd => [.word rd]
  | .xorWReg rs rd => [.word rs, .word rd]
  | .xorLImm _ rd => [.long rd]
  | .xorLReg rs rd => [.long rs, .long rd]
  | .notB rd => [.byte rd]
  | .notW rd => [.word rd]
  | .notL rd => [.long rd]
  | .shllB rd => [.byte rd]
  | .shllW rd => [.word rd]
  | .shllL rd => [.long rd]
  | .shllB2 rd => [.byte rd]
  | .shllW2 rd => [.word rd]
  | .shllL2 rd => [.long rd]
  | .shalB rd => [.byte rd]
  | .shalW rd => [.word rd]
  | .shalL rd => [.long rd]
  | .shalB2 rd => [.byte rd]
  | .shalW2 rd => [.word rd]
  | .shalL2 rd => [.long rd]
  | .shlrB rd => [.byte rd]
  | .shlrW rd => [.word rd]
  | .shlrL rd => [.long rd]
  | .shlrB2 rd => [.byte rd]
  | .shlrW2 rd => [.word rd]
  | .shlrL2 rd => [.long rd]
  | .sharB rd => [.byte rd]
  | .sharW rd => [.word rd]
  | .sharL rd => [.long rd]
  | .sharB2 rd => [.byte rd]
  | .sharW2 rd => [.word rd]
  | .sharL2 rd => [.long rd]
  | .rotxlB rd => [.byte rd]
  | .rotxlW rd => [.word rd]
  | .rotxlL rd => [.long rd]
  | .rotxlB2 rd => [.byte rd]
  | .rotxlW2 rd => [.word rd]
  | .rotxlL2 rd => [.long rd]
  | .rotlB rd => [.byte rd]
  | .rotlW rd => [.word rd]
  | .rotlL rd => [.long rd]
  | .rotlB2 rd => [.byte rd]
  | .rotlW2 rd => [.word rd]
  | .rotlL2 rd => [.long rd]
  | .rotxrB rd => [.byte rd]
  | .rotxrW rd => [.word rd]
  | .rotxrL rd => [.long rd]
  | .rotxrB2 rd => [.byte rd]
  | .rotxrW2 rd => [.word rd]
  | .rotxrL2 rd => [.long rd]
  | .rotrB rd => [.byte rd]
  | .rotrW rd => [.word rd]
  | .rotrL rd => [.long rd]
  | .rotrB2 rd => [.byte rd]
  | .rotrW2 rd => [.word rd]
  | .rotrL2 rd => [.long rd]
  | .bsetImm _ tgt => tgt.regReads
  | .bsetRn rn tgt => [.byte rn] ++ tgt.regReads
  | .bnotImm _ tgt => tgt.regReads
  | .bnotRn rn tgt => [.byte rn] ++ tgt.regReads
  | .bclrImm _ tgt => tgt.regReads
  | .bclrRn rn tgt => [.byte rn] ++ tgt.regReads
  | .btstImm _ tgt => tgt.regReads
  | .btstRn rn tgt => [.byte rn] ++ tgt.regReads
  | .bor _ tgt => tgt.regReads
  | .bior _ tgt => tgt.regReads
  | .bxor _ tgt => tgt.regReads
  | .bixor _ tgt => tgt.regReads
  | .band _ tgt => tgt.regReads
  | .biand _ tgt => tgt.regReads
  | .bld _ tgt => tgt.regReads
  | .bild _ tgt => tgt.regReads
  | .bst _ tgt => tgt.regReads
  | .bist _ tgt => tgt.regReads
  | .bra8 _ => []
  | .bra16 _ => []
  | .brn8 _ => []
  | .brn16 _ => []
  | .bhi8 _ => []
  | .bhi16 _ => []
  | .bls8 _ => []
  | .bls16 _ => []
  | .bcc8 _ => []
  | .bcc16 _ => []
  | .bcs8 _ => []
  | .bcs16 _ => []
  | .bne8 _ => []
  | .bne16 _ => []
  | .beq8 _ => []
  | .beq16 _ => []
  | .bvc8 _ => []
  | .bvc16 _ => []
  | .bvs8 _ => []
  | .bvs16 _ => []
  | .bpl8 _ => []
  | .bpl16 _ => []
  | .bmi8 _ => []
  | .bmi16 _ => []
  | .bge8 _ => []
  | .bge16 _ => []
  | .blt8 _ => []
  | .blt16 _ => []
  | .bgt8 _ => []
  | .bgt16 _ => []
  | .ble8 _ => []
  | .ble16 _ => []
  | .jmpInd ra => [.long ra]
  | .jmpAbs24 _ => []
  | .jmpMemInd _ => []
  | .bsr8 _ => [.long 7]
  | .bsr16 _ => [.long 7]
  | .jsrInd ra => [.long ra, .long 7]
  | .jsrAbs24 _ => [.long 7]
  | .jsrMemInd _ => [.long 7]
  | .rts => [.long 7]
  | .trapa _ => [.long 7]
  | .rte => [.long 7]
  | .sleep => []
  | .ldcImmCcr _ => []
  | .andcCcr _ => []
  | .orcCcr _ => []
  | .xorcCcr _ => []
  | .ldcRegCcr rs => [.byte rs]
  | .stcRegCcr _ => []
  | .ldcWCcr mem => mem.regReads
  | .stcWCcr mem => mem.regReads
  | .ldcImmExr _ => []
  | .andcExr _ => []
  | .orcExr _ => []
  | .xorcExr _ => []
  | .ldcRegExr rs => [.byte rs]
  | .stcRegExr _ => []
  | .ldcWExr mem => mem.regReads
  | .stcWExr mem => mem.regReads

/-- The flags on which an instruction's result or control flow depends (10_state.md R113; 45_branch.md R900). -/
def flagReads : Instr → List Flag
  | .nop => []
  | .movBReg _ _ => []
  | .movWReg _ _ => []
  | .movLReg _ _ => []
  | .movBImm _ _ => []
  | .movWImm _ _ => []
  | .movLImm _ _ => []
  | .movBLoad _ _ => []
  | .movBStore _ _ => []
  | .movWLoad _ _ => []
  | .movWStore _ _ => []
  | .movLLoad _ _ => []
  | .movLStore _ _ => []
  | .movfpe _ _ => []
  | .movtpe _ _ => []
  | .ldm2 _ => []
  | .stm2 _ => []
  | .ldm3 _ => []
  | .stm3 _ => []
  | .ldm4 _ => []
  | .stm4 _ => []
  | .eepmovB => []
  | .eepmovW => []
  | .addBImm _ _ => []
  | .addBReg _ _ => []
  | .addWImm _ _ => []
  | .addWReg _ _ => []
  | .addLImm _ _ => []
  | .addLReg _ _ => []
  | .addxImm _ _ => [.c, .z]
  | .addxReg _ _ => [.c, .z]
  | .adds1 _ => []
  | .adds2 _ => []
  | .adds4 _ => []
  | .incB _ => []
  | .incW1 _ => []
  | .incW2 _ => []
  | .incL1 _ => []
  | .incL2 _ => []
  | .daa _ => [.c, .h]
  | .subBReg _ _ => []
  | .subWImm _ _ => []
  | .subWReg _ _ => []
  | .subLImm _ _ => []
  | .subLReg _ _ => []
  | .subxImm _ _ => [.c, .z]
  | .subxReg _ _ => [.c, .z]
  | .subs1 _ => []
  | .subs2 _ => []
  | .subs4 _ => []
  | .decB _ => []
  | .decW1 _ => []
  | .decW2 _ => []
  | .decL1 _ => []
  | .decL2 _ => []
  | .das _ => [.c, .h]
  | .cmpBImm _ _ => []
  | .cmpBReg _ _ => []
  | .cmpWImm _ _ => []
  | .cmpWReg _ _ => []
  | .cmpLImm _ _ => []
  | .cmpLReg _ _ => []
  | .negB _ => []
  | .negW _ => []
  | .negL _ => []
  | .extuW _ => []
  | .extuL _ => []
  | .extsW _ => []
  | .extsL _ => []
  | .mulxuB _ _ => []
  | .mulxuW _ _ => []
  | .mulxsB _ _ => []
  | .mulxsW _ _ => []
  | .divxuB _ _ => []
  | .divxuW _ _ => []
  | .divxsB _ _ => []
  | .divxsW _ _ => []
  | .tas _ => []
  | .andBImm _ _ => []
  | .andBReg _ _ => []
  | .andWImm _ _ => []
  | .andWReg _ _ => []
  | .andLImm _ _ => []
  | .andLReg _ _ => []
  | .orBImm _ _ => []
  | .orBReg _ _ => []
  | .orWImm _ _ => []
  | .orWReg _ _ => []
  | .orLImm _ _ => []
  | .orLReg _ _ => []
  | .xorBImm _ _ => []
  | .xorBReg _ _ => []
  | .xorWImm _ _ => []
  | .xorWReg _ _ => []
  | .xorLImm _ _ => []
  | .xorLReg _ _ => []
  | .notB _ => []
  | .notW _ => []
  | .notL _ => []
  | .shllB _ => []
  | .shllW _ => []
  | .shllL _ => []
  | .shllB2 _ => []
  | .shllW2 _ => []
  | .shllL2 _ => []
  | .shalB _ => []
  | .shalW _ => []
  | .shalL _ => []
  | .shalB2 _ => []
  | .shalW2 _ => []
  | .shalL2 _ => []
  | .shlrB _ => []
  | .shlrW _ => []
  | .shlrL _ => []
  | .shlrB2 _ => []
  | .shlrW2 _ => []
  | .shlrL2 _ => []
  | .sharB _ => []
  | .sharW _ => []
  | .sharL _ => []
  | .sharB2 _ => []
  | .sharW2 _ => []
  | .sharL2 _ => []
  | .rotxlB _ => [.c]
  | .rotxlW _ => [.c]
  | .rotxlL _ => [.c]
  | .rotxlB2 _ => [.c]
  | .rotxlW2 _ => [.c]
  | .rotxlL2 _ => [.c]
  | .rotlB _ => []
  | .rotlW _ => []
  | .rotlL _ => []
  | .rotlB2 _ => []
  | .rotlW2 _ => []
  | .rotlL2 _ => []
  | .rotxrB _ => [.c]
  | .rotxrW _ => [.c]
  | .rotxrL _ => [.c]
  | .rotxrB2 _ => [.c]
  | .rotxrW2 _ => [.c]
  | .rotxrL2 _ => [.c]
  | .rotrB _ => []
  | .rotrW _ => []
  | .rotrL _ => []
  | .rotrB2 _ => []
  | .rotrW2 _ => []
  | .rotrL2 _ => []
  | .bsetImm _ _ => []
  | .bsetRn _ _ => []
  | .bnotImm _ _ => []
  | .bnotRn _ _ => []
  | .bclrImm _ _ => []
  | .bclrRn _ _ => []
  | .btstImm _ _ => []
  | .btstRn _ _ => []
  | .bor _ _ => [.c]
  | .bior _ _ => [.c]
  | .bxor _ _ => [.c]
  | .bixor _ _ => [.c]
  | .band _ _ => [.c]
  | .biand _ _ => [.c]
  | .bld _ _ => []
  | .bild _ _ => []
  | .bst _ _ => [.c]
  | .bist _ _ => [.c]
  | .bra8 _ => []
  | .bra16 _ => []
  | .brn8 _ => []
  | .brn16 _ => []
  | .bhi8 _ => [.c, .z]
  | .bhi16 _ => [.c, .z]
  | .bls8 _ => [.c, .z]
  | .bls16 _ => [.c, .z]
  | .bcc8 _ => [.c]
  | .bcc16 _ => [.c]
  | .bcs8 _ => [.c]
  | .bcs16 _ => [.c]
  | .bne8 _ => [.z]
  | .bne16 _ => [.z]
  | .beq8 _ => [.z]
  | .beq16 _ => [.z]
  | .bvc8 _ => [.v]
  | .bvc16 _ => [.v]
  | .bvs8 _ => [.v]
  | .bvs16 _ => [.v]
  | .bpl8 _ => [.n]
  | .bpl16 _ => [.n]
  | .bmi8 _ => [.n]
  | .bmi16 _ => [.n]
  | .bge8 _ => [.n, .v]
  | .bge16 _ => [.n, .v]
  | .blt8 _ => [.n, .v]
  | .blt16 _ => [.n, .v]
  | .bgt8 _ => [.z, .n, .v]
  | .bgt16 _ => [.z, .n, .v]
  | .ble8 _ => [.z, .n, .v]
  | .ble16 _ => [.z, .n, .v]
  | .jmpInd _ => []
  | .jmpAbs24 _ => []
  | .jmpMemInd _ => []
  | .bsr8 _ => []
  | .bsr16 _ => []
  | .jsrInd _ => []
  | .jsrAbs24 _ => []
  | .jsrMemInd _ => []
  | .rts => []
  | .trapa _ => []
  | .rte => []
  | .sleep => []
  | .ldcImmCcr _ => []
  | .andcCcr _ => []
  | .orcCcr _ => []
  | .xorcCcr _ => []
  | .ldcRegCcr _ => []
  | .stcRegCcr _ => []
  | .ldcWCcr _ => []
  | .stcWCcr _ => []
  | .ldcImmExr _ => []
  | .andcExr _ => []
  | .orcExr _ => []
  | .xorcExr _ => []
  | .ldcRegExr _ => []
  | .stcRegExr _ => []
  | .ldcWExr _ => []
  | .stcWExr _ => []

/-- Every byte of a named view is defined (10_state.md R106). -/
def State.definedReg (s : State) : RegName → Bool
  | .long n => s.definedL n
  | .word n => s.definedW n
  | .byte n => s.definedB n
  | .pc | .ccr | .exr => true

/-- The instruction reads only what is defined: outside this condition the spec stops with `Unmodelled` where the
model runs on (10_state.md R106, R113). Log 1. -/
def readsDefined (x : Instr) (s : State) : Bool :=
  (regReads s x).all s.definedReg && (flagReads x).all s.definedFlag

/-- The vector of the exception entered at a boundary, its frame stacked through ER7 (60_exceptions.md R1110, R1112,
R1130). -/
def Due.entered : Due → Option Nat
  | .trace => some 5
  | .nmi => some 7
  | .irq r => some r.vector.toNat
  | .reset | .asleep | .run => none

/-- A step inside the spec's own defined behaviour: it goes on, the instruction it runs, if it runs one, reads only
what is defined, and an exception it enters finds ER7 defined (70_reset_and_hazards.md R1203). Log 1. -/
def State.SafeStep (s : State) : Prop :=
  s.Steps ∧ (s.due = .run → ∀ x, s.nextInstr = .ok x → readsDefined x s = true) ∧
    (s.due.entered ≠ none → s.definedL sp = true)

/-! ### What an instruction leaves unchanged -/

/-- Byte `k` of ERn, byte 0 the least significant (10_state.md R104). -/
def State.lane (s : State) (n : BitVec 3) (k : Nat) : Byte := (s.readL n).extractLsb' (8 * k) 8

/-- Byte `k` of ERn is defined (10_state.md R106). -/
def State.laneDefined (s : State) (n : BitVec 3) (k : Nat) : Bool := (s.reg n).dfn.getLsbD k

/-- The view holds byte `k` of ERn (10_state.md R101 to R103). -/
def RegName.covers : RegName → BitVec 3 → Nat → Bool
  | .long d, n, _ => n == d
  | .word d, n, k => n == ern d && decide (2 ≤ k) == d.msb
  | .byte d, n, k => n == ern d && k == (if d.msb then 0 else 1)
  | .pc, _, _ | .ccr, _, _ | .exr, _, _ => false

/-- Some view of the list holds byte `k` of ERn. -/
def covered (dst : List RegName) (n : BitVec 3) (k : Nat) : Bool := dst.any fun r => r.covers n k

/-- From `s` to `t` no register byte outside the views `dst` changes, and exactly their bytes become defined
(10_state.md R104, R106). -/
structure KeepsRegs (s t : State) (dst : List RegName) : Prop where
  value : ∀ n k, k < 4 → covered dst n k = false → t.lane n k = s.lane n k
  defined : ∀ n k, k < 4 → t.laneDefined n k = (s.laneDefined n k || covered dst n k)

/-- No CCR flag outside `fl` changes, and exactly those of `fl` become defined (10_state.md R112, R113). -/
structure KeepsFlags (s t : State) (fl : List Flag) : Prop where
  value : ∀ f, f ∉ fl → t.flag f = s.flag f
  defined : ∀ f, t.definedFlag f = (s.definedFlag f || fl.contains f)

/-- Every byte of memory outside the addresses `stored` reads as before. -/
def KeepsMem (s t : State) (stored : List Addr) : Prop :=
  ∀ a : Nat, a ∉ stored.map BitVec.toNat → t.mem.get a = s.mem.get a

/-- EXR and the hidden state of 10_state.md R117 are unchanged. -/
structure KeepsControl (s t : State) : Prop where
  exr : t.exr = s.exr
  sleeping : t.sleeping = s.sleeping
  irqHold : t.irqHold = s.irqHold
  nmiPending : t.nmiPending = s.nmiPending
  eepmovActive : t.eepmovActive = s.eepmovActive

/-- The fault record, the inputs, the parameters and the model's own fields are unchanged. -/
structure KeepsOutside (s t : State) : Prop where
  fault : t.fault = s.fault
  irq : t.irq = s.irq
  resetIn : t.resetIn = s.resetIn
  hostMap : t.hostMap = s.hostMap
  params : t.params = s.params
  fresh : t.fresh = s.fresh
  traceDue : t.traceDue = s.traceDue
  epoch : t.epoch = s.epoch

/-- The frame of an instruction: only the views `dst`, the flags `fl`, the bytes at `stored` and the program counter
may change. -/
structure Frame (s t : State) (dst : List RegName) (fl : List Flag) (stored : List Addr) : Prop where
  regs : KeepsRegs s t dst
  flags : KeepsFlags s t fl
  mem : KeepsMem s t stored
  control : KeepsControl s t
  outside : KeepsOutside s t

/-! ### Accesses -/

/-- The addresses of a word access at `a` (20_memory.md R202, R205). -/
def State.wordSpan (s : State) (a : Addr) : List Addr := [s.evenAddr a, s.offset (s.evenAddr a) 1]

/-- The addresses of a long access at `a` (20_memory.md R202, R205). -/
def State.longSpan (s : State) (a : Addr) : List Addr :=
  [s.evenAddr a, s.offset (s.evenAddr a) 1, s.offset (s.evenAddr a) 2, s.offset (s.evenAddr a) 3]

/-- The host answers reads of these bytes (20_memory.md R200). -/
def State.MayRead (s : State) (as : List Addr) : Prop := ∀ a ∈ as, s.canRead a.toNat = true

/-- The host takes writes of these bytes (20_memory.md R200). -/
def State.MayWrite (s : State) (as : List Addr) : Prop := ∀ a ∈ as, s.canWrite a.toNat = true

/-- An instruction of `len` bytes at `pc` may store to these bytes: the host takes them and none lies in the prefetch
window (20_memory.md R200, R214). -/
def State.MayStore (s : State) (len : Nat) (as : List Addr) : Prop :=
  s.MayWrite as ∧ ∀ a ∈ as, s.inPrefetch len a = false

/-- Memory holds these bytes at these addresses; a device's answer is the host's (20_memory.md R211). -/
def State.Holds (t : State) (as : List Addr) (bs : List Byte) : Prop :=
  ∀ p ∈ as.zip bs, t.isDevice p.1.toNat = false → t.mem.get p.1.toNat = p.2

/-- The bytes of a word, most significant first (20_memory.md R204). -/
def wordBytes (v : Word) : List Byte := [v.extractLsb' 8 8, v.extractLsb' 0 8]

/-- The bytes of a long, most significant first (20_memory.md R204). -/
def longBytes (v : Long) : List Byte :=
  [v.extractLsb' 24 8, v.extractLsb' 16 8, v.extractLsb' 8 8, v.extractLsb' 0 8]

/-- The word a read of `a` answers (20_memory.md R202, R204). -/
def State.wordAt (s : State) (a : Addr) : Word := s.byteAt (s.evenAddr a) ++ s.byteAt (s.offset (s.evenAddr a) 1)

/-- The long a read of `a` answers (20_memory.md R202, R204). -/
def State.longAt (s : State) (a : Addr) : Long :=
  s.byteAt (s.evenAddr a) ++ s.byteAt (s.offset (s.evenAddr a) 1) ++ s.byteAt (s.offset (s.evenAddr a) 2) ++
    s.byteAt (s.offset (s.evenAddr a) 3)

/-! ### Results -/

/-- The values of the five arithmetic flags by name. -/
def Flags.val (f : Flags) : Flag → Bool
  | .h => f.h
  | .n => f.n
  | .z => f.z
  | .v => f.v
  | .c => f.c
  | .i | .ui | .u => false

/-- N and Z of a value, and V = 0 (40_data_transfer.md R400, 42_logic.md R600). -/
def nz0 {w : Nat} (v : BitVec w) : Flag → Bool
  | .n => v.msb
  | .z => v == 0
  | .v | .h | .c | .i | .ui | .u => false

/-- The flags of a shift or rotate by name (43_shift_rotate.md R700). -/
def shiftVal {w : Nat} (r : ShiftState w) : Flag → Bool
  | .n => r.val.msb
  | .z => r.val == 0
  | .v => r.v
  | .c => r.c
  | .h | .i | .ui | .u => false

/-- The flags of `fl` have the values `val`. -/
def HasFlags (t : State) (fl : List Flag) (val : Flag → Bool) : Prop := ∀ f ∈ fl, t.flag f = val f

/-- `x` completes from `s` in a state of which `P` holds. -/
def Ends (x : Instr) (s : State) (P : State → Prop) : Prop := ∃ t, exec x s = .next t ∧ P t

/-- `x`, of `len` bytes, completes: `v` in the byte register `rd`, the flags `fl` at `val`, `pc_next`, nothing else
changed. -/
def ResultB (x : Instr) (s : State) (len : Nat) (rd : BitVec 4) (v : Byte) (fl : List Flag) (val : Flag → Bool) :
    Prop :=
  Ends x s fun t => t.readB rd = v ∧ HasFlags t fl val ∧ t.pc = s.pcNext len ∧ Frame s t [.byte rd] fl []

/-- The same for a word register. -/
def ResultW (x : Instr) (s : State) (len : Nat) (rd : BitVec 4) (v : Word) (fl : List Flag) (val : Flag → Bool) :
    Prop :=
  Ends x s fun t => t.readW rd = v ∧ HasFlags t fl val ∧ t.pc = s.pcNext len ∧ Frame s t [.word rd] fl []

/-- The same for a long register. -/
def ResultL (x : Instr) (s : State) (len : Nat) (rd : BitVec 3) (v : Long) (fl : List Flag) (val : Flag → Bool) :
    Prop :=
  Ends x s fun t => t.readL rd = v ∧ HasFlags t fl val ∧ t.pc = s.pcNext len ∧ Frame s t [.long rd] fl []

/-- `x` completes and writes flags only. -/
def ResultFlags (x : Instr) (s : State) (len : Nat) (fl : List Flag) (val : Flag → Bool) : Prop :=
  Ends x s fun t => HasFlags t fl val ∧ t.pc = s.pcNext len ∧ Frame s t [] fl []

/-- `x` completes with control at `target` and nothing else changed. -/
def JumpsTo (x : Instr) (s : State) (target : Addr) : Prop := Ends x s fun t => t.pc = target ∧ Frame s t [] [] []

/-- The register a memory operand steps, if any, as a view (30_encoding.md R317). -/
def steppedViews : Mode → List RegName
  | .inc ra | .dec ra => [.long ra]
  | .ind _ | .disp16 _ _ | .disp32 _ _ | .abs8 _ | .abs16 _ | .abs32 _ => []

/-- After a transfer of `size` bytes the stepped register, if any, is one step on (30_encoding.md R317). -/
def Stepped (m : Mode) (size : Nat) (s t : State) : Prop :=
  match m with
  | .inc ra => t.readL ra = s.readL ra + BitVec.ofNat 32 size
  | .dec ra => t.readL ra = s.readL ra - BitVec.ofNat 32 size
  | .ind _ | .disp16 _ _ | .disp32 _ _ | .abs8 _ | .abs16 _ | .abs32 _ => True

/-! ### Arithmetic and shifts, said from the operands -/

/-- The two decimal digits of a number, binary-coded in a byte: its tens above its units. -/
def decimalByte (n : Nat) : Byte := BitVec.ofNat 8 (n / 10 % 10 * 16 + n % 10)

/-- `x` and then `adjust` complete from `s`, and leave the decimal digits of `n` in `rd` and C at `c`. -/
def GivesDecimal (x adjust : Instr) (s : State) (rd : BitVec 4) (n : Nat) (c : Bool) : Prop :=
  Ends x s fun t => Ends adjust t fun u => u.readB rd = decimalByte n ∧ u.flag .c = c

/-- The five flags an addition or a subtraction writes (41_arithmetic.md R500, R501). -/
def arithmeticFlags : List Flag := [.h, .n, .z, .v, .c]

/-- A carry or borrow as a number of the operand's width. -/
def carryIn (w : Nat) (cin : Bool) : BitVec w := if cin then 1 else 0

/-- `a + b + cin` modulo `2^w` (41_arithmetic.md R500). -/
def sumOf {w : Nat} (a b : BitVec w) (cin : Bool) : BitVec w := a + b + carryIn w cin

/-- `a - b - cin` modulo `2^w` (41_arithmetic.md R501). -/
def differenceOf {w : Nat} (a b : BitVec w) (cin : Bool) : BitVec w := a - b - carryIn w cin

/-- The flags of `a + b + cin` (41_arithmetic.md R500). -/
def sumFlags {w : Nat} (a b : BitVec w) (cin : Bool) : Flag → Bool
  | .c => decide (2 ^ w ≤ a.toNat + b.toNat + cin.toNat)
  | .h => decide (2 ^ (w - 4) ≤ a.toNat % 2 ^ (w - 4) + b.toNat % 2 ^ (w - 4) + cin.toNat)
  | .v => a.msb == b.msb && (sumOf a b cin).msb != a.msb
  | .n => (sumOf a b cin).msb
  | .z => sumOf a b cin == 0
  | .i | .ui | .u => false

/-- The flags of `a - b - cin` (41_arithmetic.md R501). -/
def differenceFlags {w : Nat} (a b : BitVec w) (cin : Bool) : Flag → Bool
  | .c => decide (a.toNat < b.toNat + cin.toNat)
  | .h => decide (a.toNat % 2 ^ (w - 4) < b.toNat % 2 ^ (w - 4) + cin.toNat)
  | .v => a.msb != b.msb && (differenceOf a b cin).msb != a.msb
  | .n => (differenceOf a b cin).msb
  | .z => differenceOf a b cin == 0
  | .i | .ui | .u => false

/-- The same flags, Z cleared by a nonzero result and else kept at `z` (41_arithmetic.md R513, R523). -/
def keepingZ (val : Flag → Bool) (z : Bool) : Flag → Bool
  | .z => z && val .z
  | .h => val .h
  | .n => val .n
  | .v => val .v
  | .c => val .c
  | .i | .ui | .u => false

/-- An integer a `w`-bit two's-complement number can be. -/
def fitsSigned (w : Nat) (x : Int) : Prop := -2 ^ (w - 1) ≤ x ∧ x < 2 ^ (w - 1)

/-- A value of C and the `w` bits below it, one pattern of `w + 1` bits (43_shift_rotate.md R716, R717). -/
def withCarry {w : Nat} (c : Bool) (v : BitVec w) : BitVec (w + 1) := BitVec.cons c v

/-- A value shifted or rotated by `k` at once (43_shift_rotate.md R710 to R717). -/
def shifted {w : Nat} (op : ShiftOp) (k : Nat) (v : BitVec w) (c : Bool) : BitVec w :=
  match op with
  | .shal | .shll => v <<< k
  | .shlr => v >>> k
  | .shar => v.sshiftRight k
  | .rotl => v.rotateLeft k
  | .rotr => v.rotateRight k
  | .rotxl => ((withCarry c v).rotateLeft k).extractLsb' 0 w
  | .rotxr => ((withCarry c v).rotateRight k).extractLsb' 0 w

/-- C after a shift or rotate by `k`: the bit moved out last (43_shift_rotate.md R700, R701). -/
def shiftedOut {w : Nat} (op : ShiftOp) (k : Nat) (v : BitVec w) : Bool :=
  match op with
  | .shal | .shll | .rotl | .rotxl => v.getLsbD (w - k)
  | .shlr | .shar | .rotr | .rotxr => v.getLsbD (k - 1)

/-- The sign changes at some step of an arithmetic left shift by `k`: the doubled number leaves the signed range
(43_shift_rotate.md R701). -/
def shiftOverflows {w : Nat} (op : ShiftOp) (k : Nat) (v : BitVec w) : Bool :=
  match op with
  | .shal => decide (v.toInt * 2 ^ k < -2 ^ (w - 1) ∨ 2 ^ (w - 1) ≤ v.toInt * 2 ^ k)
  | .shll | .shlr | .shar | .rotl | .rotr | .rotxl | .rotxr => false

/-- The flags of a shift or rotate by `k` (43_shift_rotate.md R700). -/
def shiftedFlags {w : Nat} (op : ShiftOp) (k : Nat) (v : BitVec w) (c : Bool) : Flag → Bool
  | .n => (shifted op k v c).msb
  | .z => shifted op k v c == 0
  | .v => shiftOverflows op k v
  | .c => shiftedOut op k v
  | .h | .i | .ui | .u => false

/-- `x` shifts or rotates a byte register by `k`. -/
def ShiftsB (x : Instr) (s : State) (op : ShiftOp) (k : Nat) (rd : BitVec 4) : Prop :=
  ResultB x s 2 rd (shifted op k (s.readB rd) (s.flag .c)) [.n, .z, .v, .c]
    (shiftedFlags op k (s.readB rd) (s.flag .c))

/-- The same for a word register. -/
def ShiftsW (x : Instr) (s : State) (op : ShiftOp) (k : Nat) (rd : BitVec 4) : Prop :=
  ResultW x s 2 rd (shifted op k (s.readW rd) (s.flag .c)) [.n, .z, .v, .c]
    (shiftedFlags op k (s.readW rd) (s.flag .c))

/-- The same for a long register. -/
def ShiftsL (x : Instr) (s : State) (op : ShiftOp) (k : Nat) (rd : BitVec 3) : Prop :=
  ResultL x s 2 rd (shifted op k (s.readL rd) (s.flag .c)) [.n, .z, .v, .c]
    (shiftedFlags op k (s.readL rd) (s.flag .c))

/-- `x` leaves `v` in a byte register, N and Z from it, V = 0 (40_data_transfer.md R400, 42_logic.md R600). -/
def MovesB (x : Instr) (s : State) (len : Nat) (rd : BitVec 4) (v : Byte) : Prop :=
  ResultB x s len rd v [.n, .z, .v] (nz0 v)

/-- The same for a word register. -/
def MovesW (x : Instr) (s : State) (len : Nat) (rd : BitVec 4) (v : Word) : Prop :=
  ResultW x s len rd v [.n, .z, .v] (nz0 v)

/-- The same for a long register. -/
def MovesL (x : Instr) (s : State) (len : Nat) (rd : BitVec 3) (v : Long) : Prop :=
  ResultL x s len rd v [.n, .z, .v] (nz0 v)

/-- The address a PC-relative displacement reaches (45_branch.md R901). -/
def State.relative {n : Nat} (s : State) (len : Nat) (disp : BitVec n) : Addr :=
  s.addr (s.pcNext len + disp.signExtend 32)

/-- The `Unmodelled` of a transfer to an odd address, at `s` (10_state.md R110). -/
def OddTarget (x : Instr) (s : State) : Prop := exec x s = .fault (.unmodelled .oddBranchTarget s.pc.toNat)

/-- A control transfer to `target`: to an even address it completes and changes nothing else, to an odd one it is
`Unmodelled` (10_state.md R110). -/
def TransfersTo (x : Instr) (s : State) (target : Addr) : Prop :=
  (target.getLsbD 0 = false → JumpsTo x s target) ∧ (target.getLsbD 0 = true → OddTarget x s)

/-- A conditional branch of `len` bytes: taken, a transfer to its target; else `pc_next` and nothing more
(45_branch.md R901, R902). -/
def Branches {n : Nat} (x : Instr) (s : State) (len : Nat) (disp : BitVec n) (taken : Bool) : Prop :=
  (taken = true → TransfersTo x s (s.relative len disp)) ∧ (taken = false → JumpsTo x s (s.pcNext len))

/-- A byte with bit `k` set (44_bit_manipulation.md R810). -/
def bitSet (b : Byte) (k : Nat) : Byte := b ||| (1#8 <<< k)

/-- A byte with bit `k` cleared (44_bit_manipulation.md R811). -/
def bitCleared (b : Byte) (k : Nat) : Byte := b &&& ~~~(1#8 <<< k)

/-- A byte with bit `k` inverted (44_bit_manipulation.md R812). -/
def bitInverted (b : Byte) (k : Nat) : Byte := b ^^^ (1#8 <<< k)

/-- A byte with bit `k` at `x` (44_bit_manipulation.md R816, R817). -/
def bitStored (b : Byte) (k : Nat) (x : Bool) : Byte := if x then bitSet b k else bitCleared b k

/-- The bit number a register gives (44_bit_manipulation.md R800). -/
def State.bitIndex (s : State) (rn : BitVec 4) : Nat := (s.readB rn).toNat % 8

/-! ### Transfers between registers and memory -/

/-- A MOV.B from memory: the byte in `rd`, N, Z and V from it, the address register stepped, nothing else changed
(40_data_transfer.md R400, R407). -/
def LoadsB (x : Instr) (s : State) (len : Nat) (m : Mode) (rd : BitVec 4) : Prop :=
  Ends x s fun t =>
    t.readB rd = s.byteAt (m.ea 1 s) ∧ HasFlags t [.n, .z, .v] (nz0 (s.byteAt (m.ea 1 s))) ∧
      t.pc = s.pcNext len ∧ Stepped m 1 s t ∧ Frame s t (.byte rd :: steppedViews m) [.n, .z, .v] []

/-- The same for a word (40_data_transfer.md R408). -/
def LoadsW (x : Instr) (s : State) (len : Nat) (m : Mode) (rd : BitVec 4) : Prop :=
  Ends x s fun t =>
    t.readW rd = s.wordAt (m.ea 2 s) ∧ HasFlags t [.n, .z, .v] (nz0 (s.wordAt (m.ea 2 s))) ∧
      t.pc = s.pcNext len ∧ Stepped m 2 s t ∧ Frame s t (.word rd :: steppedViews m) [.n, .z, .v] []

/-- The same for a long (40_data_transfer.md R409). -/
def LoadsL (x : Instr) (s : State) (len : Nat) (m : Mode) (rd : BitVec 3) : Prop :=
  Ends x s fun t =>
    t.readL rd = s.longAt (m.ea 4 s) ∧ HasFlags t [.n, .z, .v] (nz0 (s.longAt (m.ea 4 s))) ∧
      t.pc = s.pcNext len ∧ Stepped m 4 s t ∧ Frame s t (.long rd :: steppedViews m) [.n, .z, .v] []

/-- A load over its own address register `n` (40_data_transfer.md R419): all of ERn, N and Z are free values, V is 0,
nothing else changed. -/
def LoadsOver (x : Instr) (s : State) (len : Nat) (n : BitVec 3) : Prop :=
  Ends x s fun t => t.flag .v = false ∧ t.pc = s.pcNext len ∧ Frame s t [.long n] [.n, .z, .v] []

/-- `x` stores the bytes `bs` at `as` for a data transfer of `size` bytes, with the flags `fl` at `val`, the address
register stepped, nothing else changed (40_data_transfer.md R400, R410 to R412). -/
def Stores (x : Instr) (s : State) (len : Nat) (m : Mode) (size : Nat) (as : List Addr) (bs : List Byte)
    (fl : List Flag) (val : Flag → Bool) : Prop :=
  Ends x s fun t =>
    t.Holds as bs ∧ HasFlags t fl val ∧ t.pc = s.pcNext len ∧ Stepped m size s t ∧ Frame s t (steppedViews m) fl as

/-- MOV.B of the value `v` to memory (40_data_transfer.md R410). -/
def StoresB (x : Instr) (s : State) (len : Nat) (m : Mode) (v : Byte) : Prop :=
  Stores x s len m 1 [m.ea 1 s] [v] [.n, .z, .v] (nz0 v)

/-- MOV.W of the value `v` to memory (40_data_transfer.md R411). -/
def StoresW (x : Instr) (s : State) (len : Nat) (m : Mode) (v : Word) : Prop :=
  Stores x s len m 2 (s.wordSpan (m.ea 2 s)) (wordBytes v) [.n, .z, .v] (nz0 v)

/-- MOV.L of the value `v` to memory (40_data_transfer.md R412). -/
def StoresL (x : Instr) (s : State) (len : Nat) (m : Mode) (v : Long) : Prop :=
  Stores x s len m 4 (s.longSpan (m.ea 4 s)) (longBytes v) [.n, .z, .v] (nz0 v)

/-! ### Register lists and block moves -/

/-- The bytes `k` longs occupy from `a` upward (40_data_transfer.md R415). -/
def State.popSpan (s : State) : Nat → Addr → List Addr
  | 0, _ => []
  | k + 1, a => s.longSpan a ++ s.popSpan k (a + 4)

/-- The bytes `k` longs occupy pushed from `a` downward, the first at `a - 4` (40_data_transfer.md R416). -/
def State.pushSpan (s : State) : Nat → Addr → List Addr
  | 0, _ => []
  | k + 1, a => s.longSpan (a - 4) ++ s.pushSpan k (a - 4)

/-- The registers of a list hold the longs from `a` upward (40_data_transfer.md R415). -/
def ListLoaded (s t : State) : List (BitVec 3) → Addr → Prop
  | [], _ => True
  | r :: rs, a => t.readL r = s.longAt a ∧ ListLoaded s t rs (a + 4)

/-- LDM.L of a list, in the order of its pops: the longs from SP upward in its registers, SP moved up past them, nothing
else changed (40_data_transfer.md R415). -/
def LoadsList (x : Instr) (s : State) (regs : List (BitVec 3)) : Prop :=
  Ends x s fun t =>
    ListLoaded s t regs (s.readL sp) ∧ t.readL sp = s.readL sp + BitVec.ofNat 32 (4 * regs.length) ∧
      t.pc = s.pcNext 4 ∧ Frame s t (regs.map .long ++ [.long sp]) [] []

/-- STM.L of a list, in the order of its pushes: its registers below SP, the first highest, SP moved down past them,
nothing else changed (40_data_transfer.md R416). -/
def StoresList (x : Instr) (s : State) (regs : List (BitVec 3)) : Prop :=
  Ends x s fun t =>
    t.Holds (s.pushSpan regs.length (s.readL sp)) (regs.flatMap fun r => longBytes (s.readL r)) ∧
      t.readL sp = s.readL sp - BitVec.ofNat 32 (4 * regs.length) ∧ t.pc = s.pcNext 4 ∧
      Frame s t [.long sp] [] (s.pushSpan regs.length (s.readL sp))

/-- The addresses of `n` bytes from `a` upward, modulo `2^ADDR_BITS`. -/
def State.byteRange (s : State) (a : Addr) (n : Nat) : List Addr := (List.range n).map fun i => s.offset a i

/-- Memory after `n` bytes have been copied one by one from `src` to `dst` upward, each read after the copies before it, so
that overlapping ranges copy in ascending order (40_data_transfer.md R417); a device keeps nothing (20_memory.md
R211). -/
def State.copied (s : State) (src dst : Addr) : (n : Nat) → Memory
  | 0 => s.mem
  | n + 1 =>
    let m := s.copied src dst n
    if s.isDevice (s.offset dst n).toNat then m
    else m.set (s.offset dst n).toNat ((s.setMem m).byteAt (s.offset src n))

/-! ### Calls -/

/-- `x` calls `target`: the return frame on the stack, SP moved down, nothing else changed (45_branch.md R902,
R903). -/
def Calls (x : Instr) (s : State) (len : Nat) (target : Addr) : Prop :=
  Ends x s fun t =>
    t.pc = target ∧ t.readL sp = s.readL sp - 4 ∧
      t.Holds (s.longSpan (s.readL sp - 4)) (longBytes (s.callFrame (s.pcNext len))) ∧
      Frame s t [.long sp] [] (s.longSpan (s.readL sp - 4))

/-! ### Bit targets -/

/-- The byte a bit instruction reads (44_bit_manipulation.md R800). -/
def targetByte (t : BitTarget) (s : State) : Byte :=
  match t with
  | .reg rd => s.readB rd
  | .ind ra => s.byteAt (s.eaInd ra)
  | .abs8 aa => s.byteAt (s.eaAbs8 aa)
  | .abs16 aa => s.byteAt (s.eaAbs16 aa)
  | .abs32 aa => s.byteAt (s.eaAbs32 aa)

/-- `x` completes on the memory byte at `a`: it becomes `v`, `pc_next`, nothing else changed. -/
def StoresByte (x : Instr) (s : State) (len : Nat) (a : Addr) (v : Byte) : Prop :=
  Ends x s fun t => t.Holds [a] [v] ∧ t.pc = s.pcNext len ∧ Frame s t [] [] [a]

/-! ### Control registers -/

/-- `x` completes and writes the whole CCR, with the interrupt shadow (46_system_control.md R1000); the views `dst` may
change besides, nothing else. -/
def CcrWritten (x : Instr) (s : State) (len : Nat) (v : Byte) (dst : List RegName) (more : State → Prop) : Prop :=
  Ends x s fun t =>
    t.ccr = v ∧ t.ccrDfn = 0xFF ∧ t.irqHold = (s.irqHold || s.params.irqShadow) ∧ t.pc = s.pcNext len ∧ more t ∧
      KeepsRegs s t dst ∧ KeepsMem s t [] ∧ KeepsOutside s t ∧ t.exr = s.exr ∧ t.sleeping = s.sleeping ∧
      t.nmiPending = s.nmiPending ∧ t.eepmovActive = s.eepmovActive

/-- `x` completes and writes EXR, its reserved bits 1, with the interrupt shadow (46_system_control.md R1000); the
views `dst` may change besides, nothing else. -/
def ExrWritten (x : Instr) (s : State) (len : Nat) (v : Byte) (dst : List RegName) (more : State → Prop) : Prop :=
  Ends x s fun t =>
    t.exr = (v &&& 0x87) ||| 0x78 ∧ t.irqHold = (s.irqHold || s.params.irqShadow) ∧ t.pc = s.pcNext len ∧ more t ∧
      KeepsRegs s t dst ∧ KeepsFlags s t [] ∧ KeepsMem s t [] ∧ KeepsOutside s t ∧ t.sleeping = s.sleeping ∧
      t.nmiPending = s.nmiPending ∧ t.eepmovActive = s.eepmovActive

/-! ### Exceptions -/

/-- The bytes of the stack frame of an exception (60_exceptions.md R1112): the long of CCR and PC, and under `INTM` = 2
the word of EXR below it. -/
def State.frameSpan (s : State) : List Addr :=
  match s.params.intm with
  | .mode0 => s.longSpan (s.readL sp - 4)
  | .mode2 => s.longSpan (s.readL sp - 4) ++ s.wordSpan (s.readL sp - 4 - 2)

/-- What the frame holds (60_exceptions.md R1112). -/
def State.frameBytes (s : State) (ret : Addr) : List Byte :=
  match s.params.intm with
  | .mode0 => longBytes (s.ccrImage ++ ret.extractLsb' 0 24)
  | .mode2 => longBytes (s.ccrImage ++ ret.extractLsb' 0 24) ++ wordBytes (s.exr ++ Config.draw 8 .exrPad s.epoch)

/-- How far an exception moves ER7 down. -/
def State.frameSize (s : State) : Long :=
  match s.params.intm with
  | .mode0 => 4
  | .mode2 => 6

/-- The address of a vector's entry (60_exceptions.md R1110). -/
def vectorAddr (vector : Nat) : Addr := BitVec.ofNat 32 (4 * vector)

/-- The handler of a vector (60_exceptions.md R1110). -/
def State.handler (s : State) (vector : Nat) : Addr := s.addr (s.longAt (vectorAddr vector))

/-- An exception's entry meets no fault: the frame may be stored, `by_` being the length of the instruction that stores it
if one does, the vector's entry is readable, outside the frame and even, the return address fits the frame, and
memory is in its canonical form. -/
structure EntryOk (s : State) (by_ : Option Nat) (vector : Nat) (ret : Addr) : Prop where
  frame : s.MayWrite s.frameSpan
  window : ∀ len, by_ = some len → ∀ a ∈ s.frameSpan, s.inPrefetch len a = false
  readable : s.MayRead (s.longSpan (vectorAddr vector))
  apart : ∀ a ∈ s.longSpan (vectorAddr vector), a ∉ s.frameSpan
  even : (s.handler vector).getLsbD 0 = false
  fits : s.params.addrBits = .bits32 → ret.toNat < 2 ^ 24
  wf : s.mem.wf

/-- What an exception's entry leaves (60_exceptions.md R1112). -/
structure Entered (s t : State) (vector : Nat) (ret : Addr) (level : Option (BitVec 3)) : Prop where
  pc : t.pc = s.handler vector
  sp : t.readL sp = s.readL sp - s.frameSize
  holds : t.Holds s.frameSpan (s.frameBytes ret)
  masked : t.flag .i = true
  flags : KeepsFlags s t [.i]
  regs : KeepsRegs s t [.long Machine.sp]
  mem : KeepsMem s t s.frameSpan
  exr0 : s.params.intm = .mode0 → t.exr = s.exr
  exr2 : s.params.intm = .mode2 →
    t.exr = match level with
      | none => exrStored (s.exr &&& 0x7F)
      | some l => exrStored (l.zeroExtend 8)
  sleeping : t.sleeping = false
  eepmovActive : t.eepmovActive = false
  irqHold : t.irqHold = s.irqHold
  nmiPending : t.nmiPending = s.nmiPending
  outside : KeepsOutside s t

/-- What a return from exception leaves (46_system_control.md R1011): PC and CCR from the long `v`, EXR `x`, SP moved up by
`up`, nothing else changed. -/
structure Returned (s t : State) (up : Long) (v : Long) (x : Byte) : Prop where
  pc : t.pc = (v.extractLsb' 0 24).zeroExtend 32
  ccr : t.ccr = v.extractLsb' 24 8
  ccrDfn : t.ccrDfn = 0xFF
  exr : t.exr = x
  sp : t.readL sp = s.readL sp + up
  regs : KeepsRegs s t [.long Machine.sp]
  mem : KeepsMem s t []
  sleeping : t.sleeping = s.sleeping
  irqHold : t.irqHold = s.irqHold
  nmiPending : t.nmiPending = s.nmiPending
  eepmovActive : t.eepmovActive = s.eepmovActive
  outside : KeepsOutside s t

/-! ### The block move of EEPMOV.W -/

/-- One byte moved by EEPMOV.W, `left` bytes still to move: the byte at ER5 copied to ER6, both stepped, R4 at `left`,
nothing else changed but the mid-move state (40_data_transfer.md R418). -/
structure MovedOne (s t : State) (left : Word) : Prop where
  byte : t.Holds [s.addr (s.readL 6)] [s.byteAt (s.addr (s.readL 5))]
  source : t.readL 5 = s.readL 5 + 1
  target : t.readL 6 = s.readL 6 + 1
  count : t.readW 4 = left
  moving : t.eepmovActive = (left != 0)
  pc : t.pc = if left = 0 then s.pcNext 4 else s.pc
  regs : KeepsRegs s t [.word 4, .long 5, .long 6]
  flags : KeepsFlags s t []
  mem : KeepsMem s t [s.addr (s.readL 6)]
  exr : t.exr = s.exr
  sleeping : t.sleeping = s.sleeping
  irqHold : t.irqHold = s.irqHold
  nmiPending : t.nmiPending = s.nmiPending
  outside : KeepsOutside s t

/-! ### The boundary -/

/-- A request the mask lets through (60_exceptions.md R1122). -/
def State.LetsThrough (s : State) (r : IrqRequest) : Prop :=
  match s.params.intm with
  | .mode0 => s.flag .i = false
  | .mode2 => (s.exr.toNat % 8) < r.level.toNat

/-- `r` is served before or with `q` (60_exceptions.md R1122). -/
def State.ServedFirst (s : State) (r q : IrqRequest) : Prop :=
  match s.params.intm with
  | .mode0 => r.vector.toNat ≤ q.vector.toNat
  | .mode2 => q.level.toNat < r.level.toNat ∨ q.level = r.level ∧ r.vector.toNat ≤ q.vector.toNat

/-- The requests are requests of the interrupt input: vectors of 16 to 255 (60_exceptions.md R1120). -/
def State.IrqOk (s : State) : Prop := ∀ r ∈ s.irq, 16 ≤ r.vector.toNat

/-- The boundary before the next instruction is checked: it is not the first of a run (60_exceptions.md R1130;
70_reset_and_hazards.md R1200, log 8). -/
def State.Checked (s : State) : Prop := s.fault = none ∧ s.resetIn = none ∧ (s.fresh = false ∨ s.sleeping = true)

/-- No interrupt is taken at this boundary: the shadow holds it, or none is pending that the mask lets through
(60_exceptions.md R1130 steps 3 to 5). -/
def State.NoInterrupt (s : State) : Prop :=
  s.irqHold = true ∨ s.nmiPending = false ∧ ∀ r ∈ s.irq, ¬s.LetsThrough r

/-- An instruction runs next: the run goes on, awake, and the boundary, unless this is the first instruction of the run,
takes neither trace nor an interrupt (60_exceptions.md R1130). -/
def State.RunsNext (s : State) : Prop :=
  s.fault = none ∧ s.resetIn = none ∧ s.sleeping = false ∧
    (s.fresh = true ∨ s.traceDue = false ∧ s.NoInterrupt)

/-- What a step answers when it runs instruction `x` from the boundary at `s` and `x` answers `o`: the marks of the next
boundary (60_exceptions.md R1133; logs 5, 8, 21). -/
def State.afterRunning (s : State) (x : Instr) (o : Out) : Out :=
  match o with
  | .next t =>
    .next { t with
      traceDue := decide (s.params.intm = .mode2) && s.exr.getLsbD 7 && !isTrapa x && !t.eepmovActive
      epoch := t.epoch + 1 }
  | .fault f => .fault f
  | .refused r => .refused r

/-- `s` with the boundary passed: the shadow over, no boundary mark set (60_exceptions.md R1130; log 8). -/
def State.pastBoundary (s : State) : State := { s with irqHold := false, fresh := false, traceDue := false }

/-- `s` with no reset asserted. -/
def State.unreset (s : State) : State := { s with resetIn := none }

/-! ### Stops -/

/-- `a` lies in `[va, pc_next + 4)` of an instruction of `len` bytes at `pc` (20_memory.md R214). -/
def State.Prefetched (s : State) (len : Nat) (a : Addr) : Prop := ∃ k, k < len + 4 ∧ a = s.offset s.pc k

/-- `x` ends with `MemoryAccessError` at a byte of `as` the host does not allow (20_memory.md R200, R202, R203). -/
def FaultsAt (x : Instr) (s : State) (allowed : Nat → Bool) (as : List Addr) : Prop :=
  ∃ a ∈ as, allowed a.toNat = false ∧ exec x s = .fault (.memoryAccess a.toNat)

/-- A byte of `as` that the host refuses to read ends `x` (20_memory.md R200, R202). -/
def ReadRefused (x : Instr) (s : State) (as : List Addr) : Prop := ¬s.MayRead as → FaultsAt x s s.canRead as

/-- A byte of `as`, none of them in the prefetch window, that the host refuses to write ends `x`, of `len` bytes
(20_memory.md R200, R203). -/
def WriteRefused (x : Instr) (s : State) (len : Nat) (as : List Addr) : Prop :=
  ¬s.MayWrite as → (∀ a ∈ as, ¬s.Prefetched len a) → FaultsAt x s s.canWrite as

/-- A byte of `as` in the prefetch window of `x`, of `len` bytes, ends `x` (20_memory.md R214). -/
def WindowStops (x : Instr) (s : State) (len : Nat) (as : List Addr) : Prop :=
  (∃ a ∈ as, s.Prefetched len a) → exec x s = .fault (.unmodelled .storeIntoPrefetchWindow s.pc.toNat)

/-- The step ends with `MemoryAccessError` at a byte of `as` the host does not allow. -/
def StepFaultsAt (s : State) (allowed : Nat → Bool) (as : List Addr) : Prop :=
  ∃ a ∈ as, allowed a.toNat = false ∧ step s = .fault (.memoryAccess a.toNat)

/-- A return address fits an exception's frame (60_exceptions.md R1112). -/
def State.FitsFrame (s : State) (ret : Addr) : Prop := s.params.addrBits = .bits32 → ret.toNat < 2 ^ 24

/-! ### Reset -/

/-- What the reset sequence leaves when it runs from `u` (70_reset_and_hazards.md R1200, 10_state.md R119). -/
structure ResetFrom (u t : State) : Prop where
  pc : t.pc = u.handler 0
  regs : ∀ n k, t.laneDefined n k = false
  masked : t.flag .i = true
  flags : ∀ f, t.definedFlag f = decide (f = .i)
  exr : t.exr = 0x7F
  sleeping : t.sleeping = false
  irqHold : t.irqHold = false
  nmiPending : t.nmiPending = false
  eepmovActive : t.eepmovActive = false
  fault : t.fault = none
  mem : t.mem = u.mem
  irq : t.irq = u.irq
  resetIn : t.resetIn = none
  hostMap : t.hostMap = u.hostMap
  params : t.params = u.params
  fresh : t.fresh = true

/-- The step at `s` is the reset sequence from `u`, vector 0 readable: to an even entry it completes, to an odd one it is
`Unmodelled` (70_reset_and_hazards.md R1200, 10_state.md R110). -/
def ResetStep (s u : State) : Prop :=
  u.MayRead (u.longSpan 0) →
    ((u.handler 0).getLsbD 0 = false → ∃ t, step s = .next t ∧ ResetFrom u t) ∧
      ((u.handler 0).getLsbD 0 = true → step s = .fault (.unmodelled .oddBranchTarget s.pc.toNat))

/-- The step at `s` is a reset over the memory of `s` with just the bytes `bs` written at `as`: the writes the step in
progress had completed (70_reset_and_hazards.md R1200, R1201). -/
def CutAfter (s : State) (as : List Addr) (bs : List Byte) : Prop :=
  ∃ m, ResetStep s (s.leftWith m) ∧ (s.leftWith m).Holds as bs ∧ KeepsMem s (s.leftWith m) as

/-- STM.L, EEPMOV.B, TRAPA, BSR and JSR: more than one memory write, or one that something which can stop comes after. -/
def writesInParts : Instr → Bool
  | .stm2 _ | .stm3 _ | .stm4 _ | .eepmovB | .trapa _ => true
  | .bsr8 _ | .bsr16 _ | .jsrInd _ | .jsrAbs24 _ | .jsrMemInd _ => true
  | _ => false

/-- The bytes of the first `k` memory writes of an exception's frame, `k` at least 1 (60_exceptions.md R1112). -/
def frameLength (k : Nat) : Nat := if k = 1 then 4 else 6

end Sys2Proof.Machine
end

