-- ==== Sys2Proof/Certificates/Slice0/Obligations.lean ====
section
/-!
DEFINITION. The statements for the provers, each with the rules of spec/ it formalises. What an instruction does is said
from its operands in the words of Sys2Proof/Safety.lean, where every frame is spelled out.
-/

open Sys2Proof Sys2Proof.Machine

/-- Decoding an encoded instruction, whatever bytes follow it, gives the instruction back. Rules: 30_encoding.md R302,
30_encoding.md R320, 30_encoding.md R325, 30_encoding.md R331. -/
def Obligations.DecodeUndoesEncode : Prop :=
  ∀ (x : Instr) (rest : List Byte), x.wf = true → decode (encode x ++ rest) = .ok x

/-- What decodes is a well-formed instruction whose encoding is exactly the bytes read. Rules: 30_encoding.md R300,
30_encoding.md R320, 30_encoding.md R321, 30_encoding.md R342. -/
def Obligations.EncodeUndoesDecode : Prop :=
  ∀ (bytes : List Byte) (x : Instr), decode bytes = .ok x →
    x.wf = true ∧ encode x = bytes.take x.length ∧ x.length ≤ bytes.length ∧
      2 ≤ x.length ∧ x.length ≤ 10 ∧ x.length % 2 = 0

/-- Words written out from the encodings of the spec decode to the instructions they stand for. Rules: 30_encoding.md
R331, 40_data_transfer.md R404, 41_arithmetic.md R510, 44_bit_manipulation.md R802, 46_system_control.md R1013. -/
def Obligations.WordsOfTheSpecDecode : Prop :=
  decode [0xF8, 0x7F] = .ok (.movBImm 0x7F 8) ∧
    decode [0x01, 0x00, 0x78, 0x20, 0x6B, 0x23, 0x00, 0x01, 0x02, 0x04] = .ok (.movLLoad (.disp32 0x00010204 2) 3) ∧
    decode [0x08, 0x9A] = .ok (.addBReg 9 10) ∧
    decode [0x01, 0xC0, 0x52, 0x91] = .ok (.mulxsW 9 1) ∧
    decode [0x01, 0xF0, 0x66, 0x12] = .ok (.andLReg 1 2) ∧
    decode [0x10, 0x75] = .ok (.shllL2 5) ∧
    decode [0x7F, 0x40, 0x70, 0x50] = .ok (.bsetImm 5 (.abs8 0x40)) ∧
    decode [0x76, 0xB9] = .ok (.biand 3 (.reg 9)) ∧
    decode [0x58, 0x70, 0x12, 0x34] = .ok (.beq16 0x1234) ∧
    decode [0x5E, 0x12, 0x34, 0x56] = .ok (.jsrAbs24 0x123456) ∧
    decode [0x01, 0x41, 0x6D, 0x10] = .ok (.ldcWExr (.inc 1)) ∧
    decode [0x57, 0x20] = .ok (.trapa 2)

/-- No byte string matches two rows of the opcode table. Rules: R324. -/
def Obligations.NoTwoRowsOverlap : Prop :=
  ∀ (i j : Nat) (hi : i < opcodeTable.length) (hj : j < opcodeTable.length) (bytes : List Byte), i ≠ j →
    opcodeTable[i].len ≤ opcodeTable[j].len → bytes.length = opcodeTable[j].len →
      beNat bytes &&& opcodeTable[j].mask = opcodeTable[j].mtch →
        beNat (bytes.take opcodeTable[i].len) &&& opcodeTable[i].mask ≠ opcodeTable[i].mtch

/-- MOV between registers or of an immediate, EXTU and EXTS complete with their value, N, Z, V = 0 and their frame.
Going on where a register or a flag it reads is undefined is the model's choice, log 1. Rules: 40_data_transfer.md
R400, 40_data_transfer.md R401 to R403, 40_data_transfer.md R404 to R406, 41_arithmetic.md R536, 41_arithmetic.md
R537, 41_arithmetic.md R538, 41_arithmetic.md R539, notes/assumptions/1.md. -/
def Obligations.MoveAndExtendResults : Prop :=
  ∀ s : State,
    (∀ rs rd, MovesB (.movBReg rs rd) s 2 rd (s.readB rs)) ∧
    (∀ rs rd, MovesW (.movWReg rs rd) s 2 rd (s.readW rs)) ∧
    (∀ rs rd, MovesL (.movLReg rs rd) s 2 rd (s.readL rs)) ∧
    (∀ imm rd, MovesB (.movBImm imm rd) s 2 rd imm) ∧
    (∀ imm rd, MovesW (.movWImm imm rd) s 4 rd imm) ∧
    (∀ imm rd, MovesL (.movLImm imm rd) s 6 rd imm) ∧
    (∀ rd, MovesW (.extuW rd) s 2 rd (s.readW rd &&& 0x00FF)) ∧
    (∀ rd, MovesL (.extuL rd) s 2 rd (s.readL rd &&& 0x0000FFFF)) ∧
    (∀ rd, MovesW (.extsW rd) s 2 rd (BitVec.ofInt 16 ((s.readW rd).setWidth 8).toInt)) ∧
    (∀ rd, MovesL (.extsL rd) s 2 rd (BitVec.ofInt 32 ((s.readL rd).setWidth 16).toInt))

/-- AND, OR, XOR and NOT complete with the bitwise result, N, Z, V = 0 and their frame. Going on where a register or a
flag it reads is undefined is the model's choice, log 1. Rules: 42_logic.md R600, 42_logic.md R601 to R603,
42_logic.md R604 to R606, 42_logic.md R607 to R609, 42_logic.md R610 to R612, notes/assumptions/1.md. -/
def Obligations.LogicResults : Prop :=
  ∀ s : State,
    (∀ imm rd, MovesB (.andBImm imm rd) s 2 rd (s.readB rd &&& imm)) ∧
    (∀ rs rd, MovesB (.andBReg rs rd) s 2 rd (s.readB rd &&& s.readB rs)) ∧
    (∀ imm rd, MovesW (.andWImm imm rd) s 4 rd (s.readW rd &&& imm)) ∧
    (∀ rs rd, MovesW (.andWReg rs rd) s 2 rd (s.readW rd &&& s.readW rs)) ∧
    (∀ imm rd, MovesL (.andLImm imm rd) s 6 rd (s.readL rd &&& imm)) ∧
    (∀ rs rd, MovesL (.andLReg rs rd) s 4 rd (s.readL rd &&& s.readL rs)) ∧
    (∀ imm rd, MovesB (.orBImm imm rd) s 2 rd (s.readB rd ||| imm)) ∧
    (∀ rs rd, MovesB (.orBReg rs rd) s 2 rd (s.readB rd ||| s.readB rs)) ∧
    (∀ imm rd, MovesW (.orWImm imm rd) s 4 rd (s.readW rd ||| imm)) ∧
    (∀ rs rd, MovesW (.orWReg rs rd) s 2 rd (s.readW rd ||| s.readW rs)) ∧
    (∀ imm rd, MovesL (.orLImm imm rd) s 6 rd (s.readL rd ||| imm)) ∧
    (∀ rs rd, MovesL (.orLReg rs rd) s 4 rd (s.readL rd ||| s.readL rs)) ∧
    (∀ imm rd, MovesB (.xorBImm imm rd) s 2 rd (s.readB rd ^^^ imm)) ∧
    (∀ rs rd, MovesB (.xorBReg rs rd) s 2 rd (s.readB rd ^^^ s.readB rs)) ∧
    (∀ imm rd, MovesW (.xorWImm imm rd) s 4 rd (s.readW rd ^^^ imm)) ∧
    (∀ rs rd, MovesW (.xorWReg rs rd) s 2 rd (s.readW rd ^^^ s.readW rs)) ∧
    (∀ imm rd, MovesL (.xorLImm imm rd) s 6 rd (s.readL rd ^^^ imm)) ∧
    (∀ rs rd, MovesL (.xorLReg rs rd) s 4 rd (s.readL rd ^^^ s.readL rs)) ∧
    (∀ rd, MovesB (.notB rd) s 2 rd (~~~s.readB rd)) ∧
    (∀ rd, MovesW (.notW rd) s 2 rd (~~~s.readW rd)) ∧
    (∀ rd, MovesL (.notL rd) s 2 rd (~~~s.readL rd))

/-- ADD and ADDX complete with the sum modulo 2^w, the five flags of AddCore and their frame. Going on where a
register or a flag it reads is undefined is the model's choice, log 1. Rules: 41_arithmetic.md R500,
41_arithmetic.md R502, 41_arithmetic.md R510, 41_arithmetic.md R511, 41_arithmetic.md R512, 41_arithmetic.md R513,
notes/assumptions/1.md. -/
def Obligations.AddResults : Prop :=
  ∀ s : State,
    (∀ imm rd,
      ResultB (.addBImm imm rd) s 2 rd (sumOf (s.readB rd) imm false) arithmeticFlags
        (sumFlags (s.readB rd) imm false)) ∧
    (∀ rs rd,
      ResultB (.addBReg rs rd) s 2 rd (sumOf (s.readB rd) (s.readB rs) false) arithmeticFlags
        (sumFlags (s.readB rd) (s.readB rs) false)) ∧
    (∀ imm rd,
      ResultW (.addWImm imm rd) s 4 rd (sumOf (s.readW rd) imm false) arithmeticFlags
        (sumFlags (s.readW rd) imm false)) ∧
    (∀ rs rd,
      ResultW (.addWReg rs rd) s 2 rd (sumOf (s.readW rd) (s.readW rs) false) arithmeticFlags
        (sumFlags (s.readW rd) (s.readW rs) false)) ∧
    (∀ imm rd,
      ResultL (.addLImm imm rd) s 6 rd (sumOf (s.readL rd) imm false) arithmeticFlags
        (sumFlags (s.readL rd) imm false)) ∧
    (∀ rs rd,
      ResultL (.addLReg rs rd) s 2 rd (sumOf (s.readL rd) (s.readL rs) false) arithmeticFlags
        (sumFlags (s.readL rd) (s.readL rs) false)) ∧
    (∀ imm rd,
      ResultB (.addxImm imm rd) s 2 rd (sumOf (s.readB rd) imm (s.flag .c)) arithmeticFlags
        (keepingZ (sumFlags (s.readB rd) imm (s.flag .c)) (s.flag .z))) ∧
    (∀ rs rd,
      ResultB (.addxReg rs rd) s 2 rd (sumOf (s.readB rd) (s.readB rs) (s.flag .c)) arithmeticFlags
        (keepingZ (sumFlags (s.readB rd) (s.readB rs) (s.flag .c)) (s.flag .z)))

/-- SUB, SUBX, NEG and CMP complete with the difference modulo 2^w, the five flags of SubCore and their frame. Going
on where a register or a flag it reads is undefined is the model's choice, log 1. Rules: 41_arithmetic.md R501,
41_arithmetic.md R502, 41_arithmetic.md R520 to R522, 41_arithmetic.md R523, 41_arithmetic.md R530 to R532,
41_arithmetic.md R533 to R535, notes/assumptions/1.md. -/
def Obligations.SubtractAndCompareResults : Prop :=
  ∀ s : State,
    (∀ rs rd,
      ResultB (.subBReg rs rd) s 2 rd (differenceOf (s.readB rd) (s.readB rs) false) arithmeticFlags
        (differenceFlags (s.readB rd) (s.readB rs) false)) ∧
    (∀ imm rd,
      ResultW (.subWImm imm rd) s 4 rd (differenceOf (s.readW rd) imm false) arithmeticFlags
        (differenceFlags (s.readW rd) imm false)) ∧
    (∀ rs rd,
      ResultW (.subWReg rs rd) s 2 rd (differenceOf (s.readW rd) (s.readW rs) false) arithmeticFlags
        (differenceFlags (s.readW rd) (s.readW rs) false)) ∧
    (∀ imm rd,
      ResultL (.subLImm imm rd) s 6 rd (differenceOf (s.readL rd) imm false) arithmeticFlags
        (differenceFlags (s.readL rd) imm false)) ∧
    (∀ rs rd,
      ResultL (.subLReg rs rd) s 2 rd (differenceOf (s.readL rd) (s.readL rs) false) arithmeticFlags
        (differenceFlags (s.readL rd) (s.readL rs) false)) ∧
    (∀ imm rd,
      ResultB (.subxImm imm rd) s 2 rd (differenceOf (s.readB rd) imm (s.flag .c)) arithmeticFlags
        (keepingZ (differenceFlags (s.readB rd) imm (s.flag .c)) (s.flag .z))) ∧
    (∀ rs rd,
      ResultB (.subxReg rs rd) s 2 rd (differenceOf (s.readB rd) (s.readB rs) (s.flag .c)) arithmeticFlags
        (keepingZ (differenceFlags (s.readB rd) (s.readB rs) (s.flag .c)) (s.flag .z))) ∧
    (∀ rd,
      ResultB (.negB rd) s 2 rd (differenceOf 0 (s.readB rd) false) arithmeticFlags
        (differenceFlags 0 (s.readB rd) false)) ∧
    (∀ rd,
      ResultW (.negW rd) s 2 rd (differenceOf 0 (s.readW rd) false) arithmeticFlags
        (differenceFlags 0 (s.readW rd) false)) ∧
    (∀ rd,
      ResultL (.negL rd) s 2 rd (differenceOf 0 (s.readL rd) false) arithmeticFlags
        (differenceFlags 0 (s.readL rd) false)) ∧
    (∀ imm rd, ResultFlags (.cmpBImm imm rd) s 2 arithmeticFlags
      (differenceFlags (s.readB rd) imm false)) ∧
    (∀ rs rd, ResultFlags (.cmpBReg rs rd) s 2 arithmeticFlags
      (differenceFlags (s.readB rd) (s.readB rs) false)) ∧
    (∀ imm rd, ResultFlags (.cmpWImm imm rd) s 4 arithmeticFlags
      (differenceFlags (s.readW rd) imm false)) ∧
    (∀ rs rd, ResultFlags (.cmpWReg rs rd) s 2 arithmeticFlags
      (differenceFlags (s.readW rd) (s.readW rs) false)) ∧
    (∀ imm rd, ResultFlags (.cmpLImm imm rd) s 6 arithmeticFlags
      (differenceFlags (s.readL rd) imm false)) ∧
    (∀ rs rd, ResultFlags (.cmpLReg rs rd) s 2 arithmeticFlags
      (differenceFlags (s.readL rd) (s.readL rs) false))

/-- After CMP the branch conditions are the unsigned and signed orders of the operands. Rules: 41_arithmetic.md R501,
45_branch.md R900. -/
def Obligations.ComparisonsOrderTheBranches : Prop :=
  ∀ (w : Nat) (a b : BitVec w), w = 8 ∨ w = 16 ∨ w = 32 →
    let taken := fun cond : Cond =>
      cond.holds ((subCore a b false).flags.n) ((subCore a b false).flags.z) ((subCore a b false).flags.v)
        ((subCore a b false).flags.c)
    (taken .hi = true ↔ b.toNat < a.toNat) ∧
    (taken .ls = true ↔ a.toNat ≤ b.toNat) ∧
    (taken .cc = true ↔ b.toNat ≤ a.toNat) ∧
    (taken .cs = true ↔ a.toNat < b.toNat) ∧
    (taken .ne = true ↔ a ≠ b) ∧
    (taken .eq = true ↔ a = b) ∧
    (taken .ge = true ↔ b.toInt ≤ a.toInt) ∧
    (taken .lt = true ↔ a.toInt < b.toInt) ∧
    (taken .gt = true ↔ b.toInt < a.toInt) ∧
    (taken .le = true ↔ a.toInt ≤ b.toInt)

/-- INC and DEC write N, Z and V only, ADDS and SUBS no flag, and each completes with its value. Going on where a
register or a flag it reads is undefined is the model's choice, log 1. Rules: 41_arithmetic.md R514,
41_arithmetic.md R515, 41_arithmetic.md R516, 41_arithmetic.md R517, 41_arithmetic.md R524, 41_arithmetic.md R525,
41_arithmetic.md R526, 41_arithmetic.md R527, notes/assumptions/1.md. -/
def Obligations.IncrementDecrementResults : Prop :=
  ∀ s : State,
    (∀ rd, ResultB (.incB rd) s 2 rd (s.readB rd + 1) [.n, .z, .v] (sumFlags (s.readB rd) 1 false)) ∧
    (∀ rd, ResultW (.incW1 rd) s 2 rd (s.readW rd + 1) [.n, .z, .v] (sumFlags (s.readW rd) 1 false)) ∧
    (∀ rd, ResultW (.incW2 rd) s 2 rd (s.readW rd + 2) [.n, .z, .v] (sumFlags (s.readW rd) 2 false)) ∧
    (∀ rd, ResultL (.incL1 rd) s 2 rd (s.readL rd + 1) [.n, .z, .v] (sumFlags (s.readL rd) 1 false)) ∧
    (∀ rd, ResultL (.incL2 rd) s 2 rd (s.readL rd + 2) [.n, .z, .v] (sumFlags (s.readL rd) 2 false)) ∧
    (∀ rd, ResultB (.decB rd) s 2 rd (s.readB rd - 1) [.n, .z, .v] (differenceFlags (s.readB rd) 1 false)) ∧
    (∀ rd, ResultW (.decW1 rd) s 2 rd (s.readW rd - 1) [.n, .z, .v] (differenceFlags (s.readW rd) 1 false)) ∧
    (∀ rd, ResultW (.decW2 rd) s 2 rd (s.readW rd - 2) [.n, .z, .v] (differenceFlags (s.readW rd) 2 false)) ∧
    (∀ rd, ResultL (.decL1 rd) s 2 rd (s.readL rd - 1) [.n, .z, .v] (differenceFlags (s.readL rd) 1 false)) ∧
    (∀ rd, ResultL (.decL2 rd) s 2 rd (s.readL rd - 2) [.n, .z, .v] (differenceFlags (s.readL rd) 2 false)) ∧
    (∀ rd, ResultL (.adds1 rd) s 2 rd (s.readL rd + 1) [] fun _ => false) ∧
    (∀ rd, ResultL (.adds2 rd) s 2 rd (s.readL rd + 2) [] fun _ => false) ∧
    (∀ rd, ResultL (.adds4 rd) s 2 rd (s.readL rd + 4) [] fun _ => false) ∧
    (∀ rd, ResultL (.subs1 rd) s 2 rd (s.readL rd - 1) [] fun _ => false) ∧
    (∀ rd, ResultL (.subs2 rd) s 2 rd (s.readL rd - 2) [] fun _ => false) ∧
    (∀ rd, ResultL (.subs4 rd) s 2 rd (s.readL rd - 4) [] fun _ => false)

/-- DAA and DAS complete on every operand: by their table, or with free values where no row matches. Going on where a
register or a flag it reads is undefined is the model's choice, log 1. Rules: 41_arithmetic.md R518,
41_arithmetic.md R528, notes/assumptions/1.md. -/
def Obligations.DecimalAdjustResults : Prop :=
  ∀ s : State,
    (∀ rd, match adjustRow? daaTable (s.flag .c) (s.flag .h) (s.readB rd) with
      | some row =>
        Ends (.daa rd) s fun t =>
          t.readB rd = s.readB rd + row.add ∧ t.flag .c = row.cAfter ∧ t.flag .n = (s.readB rd + row.add).msb ∧
            t.flag .z = (s.readB rd + row.add == 0) ∧ t.pc = s.pcNext 2 ∧ Frame s t [.byte rd] arithmeticFlags []
      | none => Ends (.daa rd) s fun t => t.pc = s.pcNext 2 ∧ Frame s t [.byte rd] arithmeticFlags []) ∧
    (∀ rd, match adjustRow? dasTable (s.flag .c) (s.flag .h) (s.readB rd) with
      | some row =>
        Ends (.das rd) s fun t =>
          t.readB rd = s.readB rd + row.add ∧ t.flag .c = row.cAfter ∧ t.flag .n = (s.readB rd + row.add).msb ∧
            t.flag .z = (s.readB rd + row.add == 0) ∧ t.pc = s.pcNext 2 ∧ Frame s t [.byte rd] arithmeticFlags []
      | none => Ends (.das rd) s fun t => t.pc = s.pcNext 2 ∧ Frame s t [.byte rd] arithmeticFlags [])

/-- DAA after ADD.B or ADDX, and DAS after SUB.B or SUBX, of two decimal bytes gives the decimal result and carry.
Going on where a register or a flag it reads is undefined is the model's choice, log 1. Rules: 41_arithmetic.md
R510, 41_arithmetic.md R513, 41_arithmetic.md R518, 41_arithmetic.md R520, 41_arithmetic.md R523, 41_arithmetic.md
R528, notes/assumptions/1.md. -/
def Obligations.DecimalAdjustCorrectsDecimalSums : Prop :=
  ∀ (s : State) (x y : Fin 100) (rd : BitVec 4), s.readB rd = decimalByte x.val →
    let cin := (s.flag .c).toNat
    GivesDecimal (.addBImm (decimalByte y.val) rd) (.daa rd) s rd (x.val + y.val) (decide (100 ≤ x.val + y.val)) ∧
      GivesDecimal (.addxImm (decimalByte y.val) rd) (.daa rd) s rd (x.val + y.val + cin)
        (decide (100 ≤ x.val + y.val + cin)) ∧
      GivesDecimal (.subxImm (decimalByte y.val) rd) (.das rd) s rd (100 + x.val - y.val - cin)
        (decide (x.val < y.val + cin)) ∧
      ∀ rs, s.readB rs = decimalByte y.val →
        GivesDecimal (.addBReg rs rd) (.daa rd) s rd (x.val + y.val) (decide (100 ≤ x.val + y.val)) ∧
          GivesDecimal (.addxReg rs rd) (.daa rd) s rd (x.val + y.val + cin) (decide (100 ≤ x.val + y.val + cin)) ∧
          GivesDecimal (.subBReg rs rd) (.das rd) s rd (100 + x.val - y.val) (decide (x.val < y.val)) ∧
          GivesDecimal (.subxReg rs rd) (.das rd) s rd (100 + x.val - y.val - cin) (decide (x.val < y.val + cin))

/-- MULXU and MULXS complete with the double-width product, MULXS with N and Z, and their frame. Going on where a
register or a flag it reads is undefined is the model's choice, log 1. Rules: 41_arithmetic.md R540,
41_arithmetic.md R541, 41_arithmetic.md R542, 41_arithmetic.md R543, notes/assumptions/1.md. -/
def Obligations.MultiplyResults : Prop :=
  ∀ s : State,
    (∀ rs rd, ResultW (.mulxuB rs rd) s 2 rd
      ((s.readB rs).zeroExtend 16 * ((s.readW rd).setWidth 8).zeroExtend 16) [] fun _ => false) ∧
    (∀ rs rd, ResultL (.mulxuW rs rd) s 2 rd
      ((s.readW rs).zeroExtend 32 * ((s.readL rd).setWidth 16).zeroExtend 32) [] fun _ => false) ∧
    (∀ rs rd, ResultW (.mulxsB rs rd) s 4 rd
      ((s.readB rs).signExtend 16 * ((s.readW rd).setWidth 8).signExtend 16) [.n, .z]
      (nz0 ((s.readB rs).signExtend 16 * ((s.readW rd).setWidth 8).signExtend 16))) ∧
    (∀ rs rd, ResultL (.mulxsW rs rd) s 4 rd
      ((s.readW rs).signExtend 32 * ((s.readL rd).setWidth 16).signExtend 32) [.n, .z]
      (nz0 ((s.readW rs).signExtend 32 * ((s.readL rd).setWidth 16).signExtend 32)))

/-- DIVXU and DIVXS complete on every operand: remainder and quotient, or a free result on overflow or zero. Going on
where a register or a flag it reads is undefined is the model's choice, log 1. That DIVXS counts a dividend of 0
as non-negative, so that N is 0 under a positive divisor, is the model's choice (log 29). Rules: 41_arithmetic.md
R544, 41_arithmetic.md R545, 41_arithmetic.md R546, 41_arithmetic.md R547, notes/assumptions/1.md,
notes/assumptions/29.md. -/
def Obligations.DivideResults : Prop :=
  ∀ s : State,
    (∀ rs rd, (s.readB rs ≠ 0 → (s.readW rd).toNat / (s.readB rs).toNat < 2 ^ 8 →
        ResultW (.divxuB rs rd) s 2 rd
          (BitVec.ofNat 8 ((s.readW rd).toNat % (s.readB rs).toNat)
            ++ BitVec.ofNat 8 ((s.readW rd).toNat / (s.readB rs).toNat))
          [.n, .z] (nz0 (s.readB rs))) ∧
      (s.readB rs = 0 ∨ 2 ^ 8 ≤ (s.readW rd).toNat / (s.readB rs).toNat →
        Ends (.divxuB rs rd) s fun t =>
          HasFlags t [.n, .z] (nz0 (s.readB rs)) ∧ t.pc = s.pcNext 2 ∧ Frame s t [.word rd] [.n, .z] [])) ∧
    (∀ rs rd, (s.readW rs ≠ 0 → (s.readL rd).toNat / (s.readW rs).toNat < 2 ^ 16 →
        ResultL (.divxuW rs rd) s 2 rd
          (BitVec.ofNat 16 ((s.readL rd).toNat % (s.readW rs).toNat)
            ++ BitVec.ofNat 16 ((s.readL rd).toNat / (s.readW rs).toNat))
          [.n, .z] (nz0 (s.readW rs))) ∧
      (s.readW rs = 0 ∨ 2 ^ 16 ≤ (s.readL rd).toNat / (s.readW rs).toNat →
        Ends (.divxuW rs rd) s fun t =>
          HasFlags t [.n, .z] (nz0 (s.readW rs)) ∧ t.pc = s.pcNext 2 ∧ Frame s t [.long rd] [.n, .z] [])) ∧
    (∀ rs rd, (s.readB rs ≠ 0 → fitsSigned 8 ((s.readW rd).toInt.tdiv (s.readB rs).toInt) →
        Ends (.divxsB rs rd) s fun t =>
          t.readW rd = BitVec.ofInt 8 ((s.readW rd).toInt.tmod (s.readB rs).toInt)
            ++ BitVec.ofInt 8 ((s.readW rd).toInt.tdiv (s.readB rs).toInt) ∧ t.flag .z = false ∧
            ((s.readW rd).toInt.tdiv (s.readB rs).toInt ≠ 0 ∨ ((s.readW rd).toInt < 0 ↔ (s.readB rs).toInt < 0) →
              t.flag .n = decide ((s.readW rd).toInt.tdiv (s.readB rs).toInt < 0)) ∧
            t.pc = s.pcNext 4 ∧ Frame s t [.word rd] [.n, .z] []) ∧
      (s.readB rs = 0 ∨ ¬fitsSigned 8 ((s.readW rd).toInt.tdiv (s.readB rs).toInt) →
        Ends (.divxsB rs rd) s fun t =>
          t.flag .z = (s.readB rs == 0) ∧ t.pc = s.pcNext 4 ∧ Frame s t [.word rd] [.n, .z] [])) ∧
    (∀ rs rd, (s.readW rs ≠ 0 → fitsSigned 16 ((s.readL rd).toInt.tdiv (s.readW rs).toInt) →
        Ends (.divxsW rs rd) s fun t =>
          t.readL rd = BitVec.ofInt 16 ((s.readL rd).toInt.tmod (s.readW rs).toInt)
            ++ BitVec.ofInt 16 ((s.readL rd).toInt.tdiv (s.readW rs).toInt) ∧ t.flag .z = false ∧
            ((s.readL rd).toInt.tdiv (s.readW rs).toInt ≠ 0 ∨ ((s.readL rd).toInt < 0 ↔ (s.readW rs).toInt < 0) →
              t.flag .n = decide ((s.readL rd).toInt.tdiv (s.readW rs).toInt < 0)) ∧
            t.pc = s.pcNext 4 ∧ Frame s t [.long rd] [.n, .z] []) ∧
      (s.readW rs = 0 ∨ ¬fitsSigned 16 ((s.readL rd).toInt.tdiv (s.readW rs).toInt) →
        Ends (.divxsW rs rd) s fun t =>
          t.flag .z = (s.readW rs == 0) ∧ t.pc = s.pcNext 4 ∧ Frame s t [.long rd] [.n, .z] []))

/-- TAS sets bit 7 of its memory byte and takes N, Z and V = 0 from the byte before. Going on where a register or a
flag it reads is undefined is the model's choice, log 1. Rules: 41_arithmetic.md R548, 20_memory.md R213,
20_memory.md R214, notes/assumptions/1.md. -/
def Obligations.TestAndSetResult : Prop :=
  ∀ (s : State) (ra : BitVec 3), s.mem.wf → s.MayRead [s.eaInd ra] → s.MayStore 4 [s.eaInd ra] →
    Ends (.tas ra) s fun t =>
      t.Holds [s.eaInd ra] [s.byteAt (s.eaInd ra) ||| 0x80] ∧
        HasFlags t [.n, .z, .v] (nz0 (s.byteAt (s.eaInd ra))) ∧ t.pc = s.pcNext 4 ∧
        Frame s t [] [.n, .z, .v] [s.eaInd ra]

/-- The shifts and rotates of a byte register complete with the value and flags of one bulk shift. Going on where a
register or a flag it reads is undefined is the model's choice, log 1. Rules: 43_shift_rotate.md R700,
43_shift_rotate.md R701, 43_shift_rotate.md R710 to R713, 43_shift_rotate.md R714 to R717, notes/assumptions/1.md. -/
def Obligations.ShiftByteResults : Prop :=
  ∀ s : State,
    (∀ rd, ShiftsB (.shllB rd) s .shll 1 rd) ∧
    (∀ rd, ShiftsB (.shllB2 rd) s .shll 2 rd) ∧
    (∀ rd, ShiftsB (.shalB rd) s .shal 1 rd) ∧
    (∀ rd, ShiftsB (.shalB2 rd) s .shal 2 rd) ∧
    (∀ rd, ShiftsB (.shlrB rd) s .shlr 1 rd) ∧
    (∀ rd, ShiftsB (.shlrB2 rd) s .shlr 2 rd) ∧
    (∀ rd, ShiftsB (.sharB rd) s .shar 1 rd) ∧
    (∀ rd, ShiftsB (.sharB2 rd) s .shar 2 rd) ∧
    (∀ rd, ShiftsB (.rotxlB rd) s .rotxl 1 rd) ∧
    (∀ rd, ShiftsB (.rotxlB2 rd) s .rotxl 2 rd) ∧
    (∀ rd, ShiftsB (.rotlB rd) s .rotl 1 rd) ∧
    (∀ rd, ShiftsB (.rotlB2 rd) s .rotl 2 rd) ∧
    (∀ rd, ShiftsB (.rotxrB rd) s .rotxr 1 rd) ∧
    (∀ rd, ShiftsB (.rotxrB2 rd) s .rotxr 2 rd) ∧
    (∀ rd, ShiftsB (.rotrB rd) s .rotr 1 rd) ∧
    (∀ rd, ShiftsB (.rotrB2 rd) s .rotr 2 rd)

/-- The shifts and rotates of a word or long register complete with the value and flags of one bulk shift. Going on
where a register or a flag it reads is undefined is the model's choice, log 1. Rules: 43_shift_rotate.md R700,
43_shift_rotate.md R701, 43_shift_rotate.md R710 to R713, 43_shift_rotate.md R714 to R717, notes/assumptions/1.md. -/
def Obligations.ShiftWideResults : Prop :=
  ∀ s : State,
    (∀ rd, ShiftsW (.shllW rd) s .shll 1 rd) ∧
    (∀ rd, ShiftsW (.shllW2 rd) s .shll 2 rd) ∧
    (∀ rd, ShiftsW (.shalW rd) s .shal 1 rd) ∧
    (∀ rd, ShiftsW (.shalW2 rd) s .shal 2 rd) ∧
    (∀ rd, ShiftsW (.shlrW rd) s .shlr 1 rd) ∧
    (∀ rd, ShiftsW (.shlrW2 rd) s .shlr 2 rd) ∧
    (∀ rd, ShiftsW (.sharW rd) s .shar 1 rd) ∧
    (∀ rd, ShiftsW (.sharW2 rd) s .shar 2 rd) ∧
    (∀ rd, ShiftsW (.rotxlW rd) s .rotxl 1 rd) ∧
    (∀ rd, ShiftsW (.rotxlW2 rd) s .rotxl 2 rd) ∧
    (∀ rd, ShiftsW (.rotlW rd) s .rotl 1 rd) ∧
    (∀ rd, ShiftsW (.rotlW2 rd) s .rotl 2 rd) ∧
    (∀ rd, ShiftsW (.rotxrW rd) s .rotxr 1 rd) ∧
    (∀ rd, ShiftsW (.rotxrW2 rd) s .rotxr 2 rd) ∧
    (∀ rd, ShiftsW (.rotrW rd) s .rotr 1 rd) ∧
    (∀ rd, ShiftsW (.rotrW2 rd) s .rotr 2 rd) ∧
    (∀ rd, ShiftsL (.shllL rd) s .shll 1 rd) ∧
    (∀ rd, ShiftsL (.shllL2 rd) s .shll 2 rd) ∧
    (∀ rd, ShiftsL (.shalL rd) s .shal 1 rd) ∧
    (∀ rd, ShiftsL (.shalL2 rd) s .shal 2 rd) ∧
    (∀ rd, ShiftsL (.shlrL rd) s .shlr 1 rd) ∧
    (∀ rd, ShiftsL (.shlrL2 rd) s .shlr 2 rd) ∧
    (∀ rd, ShiftsL (.sharL rd) s .shar 1 rd) ∧
    (∀ rd, ShiftsL (.sharL2 rd) s .shar 2 rd) ∧
    (∀ rd, ShiftsL (.rotxlL rd) s .rotxl 1 rd) ∧
    (∀ rd, ShiftsL (.rotxlL2 rd) s .rotxl 2 rd) ∧
    (∀ rd, ShiftsL (.rotlL rd) s .rotl 1 rd) ∧
    (∀ rd, ShiftsL (.rotlL2 rd) s .rotl 2 rd) ∧
    (∀ rd, ShiftsL (.rotxrL rd) s .rotxr 1 rd) ∧
    (∀ rd, ShiftsL (.rotxrL2 rd) s .rotxr 2 rd) ∧
    (∀ rd, ShiftsL (.rotrL rd) s .rotr 1 rd) ∧
    (∀ rd, ShiftsL (.rotrL2 rd) s .rotr 2 rd)

/-- BSET, BCLR, BNOT, BST and BIST on a byte register change exactly the addressed bit and no flag. Going on where a
register or a flag it reads is undefined is the model's choice, log 1. Rules: 44_bit_manipulation.md R800,
44_bit_manipulation.md R801, 44_bit_manipulation.md R810, 44_bit_manipulation.md R811, 44_bit_manipulation.md
R812, 44_bit_manipulation.md R816, 44_bit_manipulation.md R817, notes/assumptions/1.md. -/
def Obligations.BitChangeOnRegister : Prop :=
  ∀ s : State,
    (∀ bit rd, ResultB (.bsetImm bit (.reg rd)) s 2 rd (bitSet (s.readB rd) bit.toNat) [] fun _ => false) ∧
    (∀ bit rd, ResultB (.bclrImm bit (.reg rd)) s 2 rd (bitCleared (s.readB rd) bit.toNat) [] fun _ => false) ∧
    (∀ bit rd, ResultB (.bnotImm bit (.reg rd)) s 2 rd (bitInverted (s.readB rd) bit.toNat) [] fun _ => false) ∧
    (∀ rn rd, ResultB (.bsetRn rn (.reg rd)) s 2 rd (bitSet (s.readB rd) (s.bitIndex rn)) [] fun _ => false) ∧
    (∀ rn rd, ResultB (.bclrRn rn (.reg rd)) s 2 rd (bitCleared (s.readB rd) (s.bitIndex rn)) [] fun _ => false) ∧
    (∀ rn rd, ResultB (.bnotRn rn (.reg rd)) s 2 rd (bitInverted (s.readB rd) (s.bitIndex rn)) [] fun _ => false) ∧
    (∀ bit rd, ResultB (.bst bit (.reg rd)) s 2 rd (bitStored (s.readB rd) bit.toNat (s.flag .c)) [] fun _ => false) ∧
    (∀ bit rd, ResultB (.bist bit (.reg rd)) s 2 rd (bitStored (s.readB rd) bit.toNat (!s.flag .c)) [] fun _ => false)

/-- BSET, BCLR, BNOT, BST and BIST on memory change one byte by the addressed bit and no flag. Going on where a
register or a flag it reads is undefined is the model's choice, log 1. Rules: 44_bit_manipulation.md R800,
44_bit_manipulation.md R801, 44_bit_manipulation.md R810, 44_bit_manipulation.md R811, 44_bit_manipulation.md
R812, 44_bit_manipulation.md R816, 44_bit_manipulation.md R817, 20_memory.md R214, notes/assumptions/1.md. -/
def Obligations.BitChangeOnMemory : Prop :=
  ∀ (s : State) (tgt : BitTarget) (a : Addr), tgt.ea? s = some a → s.mem.wf → s.MayRead [a] → s.MayStore tgt.len [a] →
    (∀ bit, StoresByte (.bsetImm bit tgt) s tgt.len a (bitSet (s.byteAt a) bit.toNat)) ∧
    (∀ bit, StoresByte (.bclrImm bit tgt) s tgt.len a (bitCleared (s.byteAt a) bit.toNat)) ∧
    (∀ bit, StoresByte (.bnotImm bit tgt) s tgt.len a (bitInverted (s.byteAt a) bit.toNat)) ∧
    (∀ rn, StoresByte (.bsetRn rn tgt) s tgt.len a (bitSet (s.byteAt a) (s.bitIndex rn))) ∧
    (∀ rn, StoresByte (.bclrRn rn tgt) s tgt.len a (bitCleared (s.byteAt a) (s.bitIndex rn))) ∧
    (∀ rn, StoresByte (.bnotRn rn tgt) s tgt.len a (bitInverted (s.byteAt a) (s.bitIndex rn))) ∧
    (∀ bit, StoresByte (.bst bit tgt) s tgt.len a (bitStored (s.byteAt a) bit.toNat (s.flag .c))) ∧
    (∀ bit, StoresByte (.bist bit tgt) s tgt.len a (bitStored (s.byteAt a) bit.toNat (!s.flag .c)))

/-- BTST writes Z and the bit-accumulator instructions write C, on every target, and nothing else. Going on where a
register or a flag it reads is undefined is the model's choice, log 1. Rules: 44_bit_manipulation.md R800,
44_bit_manipulation.md R801, 44_bit_manipulation.md R813 to R815, 44_bit_manipulation.md R818 to R823,
notes/assumptions/1.md. -/
def Obligations.BitTestResults : Prop :=
  ∀ (s : State) (tgt : BitTarget), (∀ a, tgt.ea? s = some a → s.MayRead [a]) →
    (∀ bit, ResultFlags (.btstImm bit tgt) s tgt.len [.z] fun _ => !(targetByte tgt s).getLsbD bit.toNat) ∧
    (∀ rn, ResultFlags (.btstRn rn tgt) s tgt.len [.z] fun _ => !(targetByte tgt s).getLsbD (s.bitIndex rn)) ∧
    (∀ bit, ResultFlags (.bld bit tgt) s tgt.len [.c] fun _ => (targetByte tgt s).getLsbD bit.toNat) ∧
    (∀ bit, ResultFlags (.bild bit tgt) s tgt.len [.c] fun _ => !(targetByte tgt s).getLsbD bit.toNat) ∧
    (∀ bit, ResultFlags (.band bit tgt) s tgt.len [.c] fun _ => s.flag .c && (targetByte tgt s).getLsbD bit.toNat) ∧
    (∀ bit, ResultFlags (.biand bit tgt) s tgt.len [.c] fun _ => s.flag .c && !(targetByte tgt s).getLsbD bit.toNat) ∧
    (∀ bit, ResultFlags (.bor bit tgt) s tgt.len [.c] fun _ => s.flag .c || (targetByte tgt s).getLsbD bit.toNat) ∧
    (∀ bit, ResultFlags (.bior bit tgt) s tgt.len [.c] fun _ => s.flag .c || !(targetByte tgt s).getLsbD bit.toNat) ∧
    (∀ bit, ResultFlags (.bxor bit tgt) s tgt.len [.c] fun _ => s.flag .c != (targetByte tgt s).getLsbD bit.toNat) ∧
    (∀ bit, ResultFlags (.bixor bit tgt) s tgt.len [.c] fun _ => s.flag .c == (targetByte tgt s).getLsbD bit.toNat)

/-- Each Bcc transfers to its PC-relative target exactly when its condition holds, and changes nothing else. Going on
where a register or a flag it reads is undefined is the model's choice, log 1. Rules: 45_branch.md R900,
45_branch.md R901, 45_branch.md R910 to R917, 45_branch.md R918 to R925, 10_state.md R110, notes/assumptions/1.md. -/
def Obligations.ConditionalBranchResults : Prop :=
  ∀ s : State,
    (∀ disp, Branches (.bra8 disp) s 2 disp true) ∧
    (∀ disp, Branches (.bra16 disp) s 4 disp true) ∧
    (∀ disp, Branches (.brn8 disp) s 2 disp false) ∧
    (∀ disp, Branches (.brn16 disp) s 4 disp false) ∧
    (∀ disp, Branches (.bhi8 disp) s 2 disp (!(s.flag .c || s.flag .z))) ∧
    (∀ disp, Branches (.bhi16 disp) s 4 disp (!(s.flag .c || s.flag .z))) ∧
    (∀ disp, Branches (.bls8 disp) s 2 disp (s.flag .c || s.flag .z)) ∧
    (∀ disp, Branches (.bls16 disp) s 4 disp (s.flag .c || s.flag .z)) ∧
    (∀ disp, Branches (.bcc8 disp) s 2 disp (!s.flag .c)) ∧
    (∀ disp, Branches (.bcc16 disp) s 4 disp (!s.flag .c)) ∧
    (∀ disp, Branches (.bcs8 disp) s 2 disp (s.flag .c)) ∧
    (∀ disp, Branches (.bcs16 disp) s 4 disp (s.flag .c)) ∧
    (∀ disp, Branches (.bne8 disp) s 2 disp (!s.flag .z)) ∧
    (∀ disp, Branches (.bne16 disp) s 4 disp (!s.flag .z)) ∧
    (∀ disp, Branches (.beq8 disp) s 2 disp (s.flag .z)) ∧
    (∀ disp, Branches (.beq16 disp) s 4 disp (s.flag .z)) ∧
    (∀ disp, Branches (.bvc8 disp) s 2 disp (!s.flag .v)) ∧
    (∀ disp, Branches (.bvc16 disp) s 4 disp (!s.flag .v)) ∧
    (∀ disp, Branches (.bvs8 disp) s 2 disp (s.flag .v)) ∧
    (∀ disp, Branches (.bvs16 disp) s 4 disp (s.flag .v)) ∧
    (∀ disp, Branches (.bpl8 disp) s 2 disp (!s.flag .n)) ∧
    (∀ disp, Branches (.bpl16 disp) s 4 disp (!s.flag .n)) ∧
    (∀ disp, Branches (.bmi8 disp) s 2 disp (s.flag .n)) ∧
    (∀ disp, Branches (.bmi16 disp) s 4 disp (s.flag .n)) ∧
    (∀ disp, Branches (.bge8 disp) s 2 disp (s.flag .n == s.flag .v)) ∧
    (∀ disp, Branches (.bge16 disp) s 4 disp (s.flag .n == s.flag .v)) ∧
    (∀ disp, Branches (.blt8 disp) s 2 disp (s.flag .n != s.flag .v)) ∧
    (∀ disp, Branches (.blt16 disp) s 4 disp (s.flag .n != s.flag .v)) ∧
    (∀ disp, Branches (.bgt8 disp) s 2 disp (!s.flag .z && s.flag .n == s.flag .v)) ∧
    (∀ disp, Branches (.bgt16 disp) s 4 disp (!s.flag .z && s.flag .n == s.flag .v)) ∧
    (∀ disp, Branches (.ble8 disp) s 2 disp (s.flag .z || s.flag .n != s.flag .v)) ∧
    (∀ disp, Branches (.ble16 disp) s 4 disp (s.flag .z || s.flag .n != s.flag .v))

/-- No Bcc, JMP, BSR, JSR or RTS changes a flag, a register but ER7, or memory but the return frame. Rules: R902. -/
def Obligations.BranchFamilyEffects : Prop :=
  ∀ (s t : State) (x : Instr), s.mem.wf → x.inBranchFamily = true → exec x s = .next t →
    (∀ f, t.flag f = s.flag f) ∧
      (∀ n, (n ≠ sp ∨ x.movesStack = false) → t.readL n = s.readL n) ∧
      (x.isCall = false → t.mem = s.mem) ∧
      (x.isCall = true →
        t.Holds (s.longSpan (s.readL sp - 4)) (longBytes (s.callFrame (s.pcNext x.length))) ∧
          KeepsMem s t (s.longSpan (s.readL sp - 4))) ∧
      (∀ cond, x.condition = some cond → cond.holds (s.flag .n) (s.flag .z) (s.flag .v) (s.flag .c) = false →
        t = s.setPc (s.pcNext x.length))

/-- JMP transfers to the address in its register, its operand or its table entry, and changes nothing else. Going on
where a register or a flag it reads is undefined is the model's choice, log 1. Rules: 45_branch.md R930,
30_encoding.md R311, 30_encoding.md R315, 30_encoding.md R316, 10_state.md R110, notes/assumptions/1.md. -/
def Obligations.JumpResults : Prop :=
  ∀ s : State,
    (∀ ra, TransfersTo (.jmpInd ra) s (s.addr (s.readL ra))) ∧
    (∀ aa : BitVec 24, TransfersTo (.jmpAbs24 aa) s (aa.zeroExtend 32)) ∧
    (∀ aa : BitVec 8, s.MayRead (s.longSpan (aa.zeroExtend 32)) →
      TransfersTo (.jmpMemInd aa) s (s.addr (s.longAt (aa.zeroExtend 32))))

/-- BSR and JSR push the return frame below SP, move SP down 4 and transfer to their target. Going on where a register
or a flag it reads is undefined is the model's choice, log 1. Rules: 45_branch.md R903, 45_branch.md R931,
45_branch.md R932, 45_branch.md R902, 10_state.md R110, notes/assumptions/1.md. -/
def Obligations.CallResults : Prop :=
  ∀ s : State, s.mem.wf →
    (∀ disp, s.MayStore 2 (s.longSpan (s.readL sp - 4)) → 
      (((s.relative 2 disp).getLsbD 0 = false → Calls (.bsr8 disp) s 2 (s.relative 2 disp)) ∧
      ((s.relative 2 disp).getLsbD 0 = true → OddTarget (.bsr8 disp) s))) ∧
    (∀ disp, s.MayStore 4 (s.longSpan (s.readL sp - 4)) → 
      (((s.relative 4 disp).getLsbD 0 = false → Calls (.bsr16 disp) s 4 (s.relative 4 disp)) ∧
      ((s.relative 4 disp).getLsbD 0 = true → OddTarget (.bsr16 disp) s))) ∧
    (∀ ra, s.MayStore 2 (s.longSpan (s.readL sp - 4)) → 
      (((s.addr (s.readL ra)).getLsbD 0 = false → Calls (.jsrInd ra) s 2 (s.addr (s.readL ra))) ∧
      ((s.addr (s.readL ra)).getLsbD 0 = true → OddTarget (.jsrInd ra) s))) ∧
    (∀ aa : BitVec 24, s.MayStore 4 (s.longSpan (s.readL sp - 4)) → 
      (((aa.zeroExtend 32).getLsbD 0 = false → Calls (.jsrAbs24 aa) s 4 (aa.zeroExtend 32)) ∧
      ((aa.zeroExtend 32).getLsbD 0 = true → OddTarget (.jsrAbs24 aa) s))) ∧
    (∀ aa : BitVec 8, s.MayStore 2 (s.longSpan (s.readL sp - 4)) → s.MayRead (s.longSpan (aa.zeroExtend 32)) →
      (((s.addr (s.longAt (aa.zeroExtend 32))).getLsbD 0 = false →
        Calls (.jsrMemInd aa) s 2 (s.addr (s.longAt (aa.zeroExtend 32)))) ∧
      ((s.addr (s.longAt (aa.zeroExtend 32))).getLsbD 0 = true → OddTarget (.jsrMemInd aa) s)))

/-- RTS takes pc from the long at SP, moves SP up 4 and changes nothing else. Going on where a register or a flag it
reads is undefined is the model's choice, log 1. Rules: 45_branch.md R903, 45_branch.md R933, 10_state.md R110,
notes/assumptions/1.md. -/
def Obligations.ReturnFromSubroutineResult : Prop :=
  ∀ s : State, s.MayRead (s.longSpan (s.readL sp)) →
    ((s.addr (s.longAt (s.readL sp))).getLsbD 0 = false →
      Ends .rts s fun t =>
        t.pc = s.addr (s.longAt (s.readL sp)) ∧ t.readL sp = s.readL sp + 4 ∧ Frame s t [.long sp] [] []) ∧
    ((s.addr (s.longAt (s.readL sp))).getLsbD 0 = true → OddTarget .rts s)

/-- MOV from memory completes with the value at its effective address, N, Z, V = 0 and the stepped register. Going on
where a register or a flag it reads is undefined is the model's choice, log 1. That V is 0, and N and Z follow the
free value, in the case of R419 is the model's reading (log 11). Rules: 40_data_transfer.md R400,
40_data_transfer.md R407, 40_data_transfer.md R408, 40_data_transfer.md R409, 40_data_transfer.md R419,
30_encoding.md R317, 20_memory.md R204, 20_memory.md R205, notes/assumptions/1.md, notes/assumptions/11.md. -/
def Obligations.LoadResults : Prop :=
  ∀ s : State,
    (∀ mem rd, mem.loadByteOk = true → s.MayRead [mem.ea 1 s] →
      (mem.steps (ern rd) = false → LoadsB (.movBLoad mem rd) s mem.len mem rd) ∧
        (mem.steps (ern rd) = true → LoadsOver (.movBLoad mem rd) s mem.len (ern rd))) ∧
    (∀ mem rd, mem.loadWideOk = true → s.MayRead (s.wordSpan (mem.ea 2 s)) →
      (mem.steps (ern rd) = false → LoadsW (.movWLoad mem rd) s mem.len mem rd) ∧
        (mem.steps (ern rd) = true → LoadsOver (.movWLoad mem rd) s mem.len (ern rd))) ∧
    (∀ mem rd, mem.loadWideOk = true → s.MayRead (s.longSpan (mem.ea 4 s)) →
      (mem.steps rd = false → LoadsL (.movLLoad mem rd) s (mem.len + 2) mem rd) ∧
        (mem.steps rd = true → LoadsOver (.movLLoad mem rd) s (mem.len + 2) rd))

/-- MOV to memory stores the register big-endian at its effective address and touches no other byte. Going on where a
register or a flag it reads is undefined is the model's choice, log 1. That N, Z and V follow the free value
stored in the case of R419 is the model's reading (log 11). Rules: 40_data_transfer.md R400, 40_data_transfer.md
R410, 40_data_transfer.md R411, 40_data_transfer.md R412, 40_data_transfer.md R419, 30_encoding.md R317,
20_memory.md R204, 20_memory.md R205, 20_memory.md R214, notes/assumptions/1.md, notes/assumptions/11.md. -/
def Obligations.StoreResults : Prop :=
  ∀ s : State, s.mem.wf →
    (∀ rs mem, mem.storeByteOk = true → s.MayStore mem.len [mem.ea 1 s] →
      (mem.steps (ern rs) = false → StoresB (.movBStore rs mem) s mem.len mem (s.readB rs)) ∧
        (mem.steps (ern rs) = true → ∃ v, StoresB (.movBStore rs mem) s mem.len mem v)) ∧
    (∀ rs mem, mem.storeWideOk = true → s.MayStore mem.len (s.wordSpan (mem.ea 2 s)) →
      (mem.steps (ern rs) = false → StoresW (.movWStore rs mem) s mem.len mem (s.readW rs)) ∧
        (mem.steps (ern rs) = true → ∃ v, StoresW (.movWStore rs mem) s mem.len mem v)) ∧
    (∀ rs mem, mem.storeWideOk = true → s.MayStore (mem.len + 2) (s.longSpan (mem.ea 4 s)) →
      (mem.steps rs = false → StoresL (.movLStore rs mem) s (mem.len + 2) mem (s.readL rs)) ∧
        (mem.steps rs = true → ∃ v, StoresL (.movLStore rs mem) s (mem.len + 2) mem v))

/-- MOVFPE and MOVTPE move a byte where HAS_E_CLOCK holds and are Unmodelled where it does not. Going on where a
register or a flag it reads is undefined is the model's choice, log 1. Rules: 40_data_transfer.md R413,
40_data_transfer.md R414, 00_scope.md R6, notes/assumptions/1.md. -/
def Obligations.PeripheralMoveResults : Prop :=
  ∀ (s : State) (aa : BitVec 16) (r : BitVec 4),
    (s.params.hasEClock = true → s.MayRead [s.eaAbs16 aa] → LoadsB (.movfpe aa r) s 4 (.abs16 aa) r) ∧
    (s.params.hasEClock = true → s.mem.wf → s.MayStore 4 [s.eaAbs16 aa] →
      StoresB (.movtpe r aa) s 4 (.abs16 aa) (s.readB r)) ∧
    (s.params.hasEClock = false → exec (.movfpe aa r) s = .fault (.unmodelled .movfpe s.pc.toNat) ∧
      exec (.movtpe r aa) s = .fault (.unmodelled .movtpe s.pc.toNat))

/-- LDM.L pops its registers from SP upward, the highest first, and moves SP past them. Going on where a register or a
flag it reads is undefined is the model's choice, log 1. Rules: 40_data_transfer.md R415, 30_encoding.md R342,
notes/assumptions/1.md. -/
def Obligations.LoadListResults : Prop :=
  ∀ s : State,
    (∀ r, (Instr.ldm2 r).wf = true →
      (sp ∉ [r, r - 1] → s.MayRead (s.popSpan 2 (s.readL sp)) →
        LoadsList (.ldm2 r) s [r, r - 1]) ∧
      (sp ∈ [r, r - 1] → exec (.ldm2 r) s = .fault (.unmodelled .ldmWithEr7 s.pc.toNat))) ∧
    (∀ r, (Instr.ldm3 r).wf = true →
      (sp ∉ [r, r - 1, r - 2] → s.MayRead (s.popSpan 3 (s.readL sp)) →
        LoadsList (.ldm3 r) s [r, r - 1, r - 2]) ∧
      (sp ∈ [r, r - 1, r - 2] → exec (.ldm3 r) s = .fault (.unmodelled .ldmWithEr7 s.pc.toNat))) ∧
    (∀ r, (Instr.ldm4 r).wf = true →
      (sp ∉ [r, r - 1, r - 2, r - 3] → s.MayRead (s.popSpan 4 (s.readL sp)) →
        LoadsList (.ldm4 r) s [r, r - 1, r - 2, r - 3]) ∧
      (sp ∈ [r, r - 1, r - 2, r - 3] → exec (.ldm4 r) s = .fault (.unmodelled .ldmWithEr7 s.pc.toNat)))

/-- STM.L pushes its registers below SP, the lowest first, and moves SP past them. Going on where a register or a flag
it reads is undefined is the model's choice, log 1. Rules: 40_data_transfer.md R416, 30_encoding.md R342,
20_memory.md R214, notes/assumptions/1.md. -/
def Obligations.StoreListResults : Prop :=
  ∀ s : State, s.mem.wf →
    (∀ r, (Instr.stm2 r).wf = true →
      (sp ∉ [r, r + 1] → s.MayStore 4 (s.pushSpan 2 (s.readL sp)) →
        StoresList (.stm2 r) s [r, r + 1]) ∧
      (sp ∈ [r, r + 1] → exec (.stm2 r) s = .fault (.unmodelled .stmWithEr7 s.pc.toNat))) ∧
    (∀ r, (Instr.stm3 r).wf = true →
      (sp ∉ [r, r + 1, r + 2] → s.MayStore 4 (s.pushSpan 3 (s.readL sp)) →
        StoresList (.stm3 r) s [r, r + 1, r + 2]) ∧
      (sp ∈ [r, r + 1, r + 2] → exec (.stm3 r) s = .fault (.unmodelled .stmWithEr7 s.pc.toNat))) ∧
    (∀ r, (Instr.stm4 r).wf = true →
      (sp ∉ [r, r + 1, r + 2, r + 3] → s.MayStore 4 (s.pushSpan 4 (s.readL sp)) →
        StoresList (.stm4 r) s [r, r + 1, r + 2, r + 3]) ∧
      (sp ∈ [r, r + 1, r + 2, r + 3] → exec (.stm4 r) s = .fault (.unmodelled .stmWithEr7 s.pc.toNat)))

/-- LDM.L of the list STM.L has just pushed gives every register back, SP included. Going on where a register or a
flag it reads is undefined is the model's choice, log 1. Rules: 40_data_transfer.md R415, 40_data_transfer.md
R416, notes/assumptions/1.md. -/
def Obligations.LoadListUndoesStoreList : Prop :=
  ∀ s : State, s.mem.wf →
    (∀ r, (Instr.stm2 r).wf = true → sp ∉ [r, r + 1] →
      s.MayStore 4 (s.pushSpan 2 (s.readL sp)) → s.MayRead (s.pushSpan 2 (s.readL sp)) →
      (∀ a ∈ s.pushSpan 2 (s.readL sp), s.isDevice a.toNat = false) →
      ∃ t u, exec (.stm2 r) s = .next t ∧ exec (.ldm2 (r + 1)) t = .next u ∧ ∀ n, u.readL n = s.readL n) ∧
    (∀ r, (Instr.stm3 r).wf = true → sp ∉ [r, r + 1, r + 2] →
      s.MayStore 4 (s.pushSpan 3 (s.readL sp)) → s.MayRead (s.pushSpan 3 (s.readL sp)) →
      (∀ a ∈ s.pushSpan 3 (s.readL sp), s.isDevice a.toNat = false) →
      ∃ t u, exec (.stm3 r) s = .next t ∧ exec (.ldm3 (r + 2)) t = .next u ∧ ∀ n, u.readL n = s.readL n) ∧
    (∀ r, (Instr.stm4 r).wf = true → sp ∉ [r, r + 1, r + 2, r + 3] →
      s.MayStore 4 (s.pushSpan 4 (s.readL sp)) → s.MayRead (s.pushSpan 4 (s.readL sp)) →
      (∀ a ∈ s.pushSpan 4 (s.readL sp), s.isDevice a.toNat = false) →
      ∃ t u, exec (.stm4 r) s = .next t ∧ exec (.ldm4 (r + 3)) t = .next u ∧ ∀ n, u.readL n = s.readL n)

/-- EEPMOV.B copies R4L bytes from ER5 to ER6 in one step and leaves R4L at 0. Going on where a register or a flag it
reads is undefined is the model's choice, log 1. Rules: 40_data_transfer.md R417, 20_memory.md R214,
notes/assumptions/1.md. -/
def Obligations.BlockMoveByteResult : Prop :=
  ∀ (s : State) (n : Nat), n = (s.readB 12).toNat →
    (n = 0 → JumpsTo .eepmovB s (s.pcNext 4)) ∧
    (0 < n → s.MayRead (s.byteRange (s.readL 5) n) → s.MayStore 4 (s.byteRange (s.readL 6) n) →
      Ends .eepmovB s fun t =>
        t.readL 5 = s.readL 5 + BitVec.ofNat 32 n ∧ t.readL 6 = s.readL 6 + BitVec.ofNat 32 n ∧ t.readB 12 = 0 ∧
          t.pc = s.pcNext 4 ∧ Frame s t [.byte 12, .long 5, .long 6] [] (s.byteRange (s.readL 6) n) ∧
          (s.mem.wf → (∀ a ∈ s.byteRange (s.readL 5) n, a ∉ s.byteRange (s.readL 6) n) →
            t.Holds (s.byteRange (s.readL 6) n) ((s.byteRange (s.readL 5) n).map s.byteAt)) ∧
          t.mem = s.copied (s.readL 5) (s.readL 6) n)

/-- EEPMOV.W moves one byte a step, staying at its own address until R4 is 0 (one byte a step: log 10). Going on where
a register or a flag it reads is undefined is the model's choice, log 1. Rules: 40_data_transfer.md R418,
60_exceptions.md R1130, notes/assumptions/10.md, notes/assumptions/1.md. -/
def Obligations.BlockMoveWordStep : Prop :=
  ∀ s : State,
    (s.readW 4 = 0 → exec .eepmovW s = .next ((s.setMoving false).setPc (s.pcNext 4))) ∧
    (s.readW 4 ≠ 0 → s.mem.wf → s.MayRead [s.addr (s.readL 5)] → s.MayStore 4 [s.addr (s.readL 6)] →
      Ends .eepmovW s fun t => MovedOne s t (s.readW 4 - 1))

/-- LDC, ANDC, ORC and XORC write the whole CCR, open the interrupt shadow and change nothing else. Going on where a
register or a flag it reads is undefined is the model's choice, log 1. Rules: 46_system_control.md R1000,
46_system_control.md R1013, 46_system_control.md R1017, 46_system_control.md R1019, 46_system_control.md R1021,
10_state.md R112, 10_state.md R113, notes/assumptions/1.md. -/
def Obligations.CcrWriteResults : Prop :=
  ∀ s : State,
    (∀ imm, CcrWritten (.ldcImmCcr imm) s 2 imm [] fun _ => True) ∧
    (∀ rs, CcrWritten (.ldcRegCcr rs) s 2 (s.readB rs) [] fun _ => True) ∧
    (∀ imm, CcrWritten (.andcCcr imm) s 2 (s.ccrImage &&& imm) [] fun _ => True) ∧
    (∀ imm, CcrWritten (.orcCcr imm) s 2 (s.ccrImage ||| imm) [] fun _ => True) ∧
    (∀ imm, CcrWritten (.xorcCcr imm) s 2 (s.ccrImage ^^^ imm) [] fun _ => True)

/-- LDC, ANDC, ORC and XORC to EXR keep its reserved bits at 1, open the shadow and change nothing else. Going on
where a register or a flag it reads is undefined is the model's choice, log 1. Rules: 46_system_control.md R1000,
46_system_control.md R1014, 46_system_control.md R1018, 46_system_control.md R1020, 46_system_control.md R1022,
10_state.md R114, notes/assumptions/1.md. -/
def Obligations.ExrWriteResults : Prop :=
  ∀ s : State,
    (∀ imm, ExrWritten (.ldcImmExr imm) s 4 imm [] fun _ => True) ∧
    (∀ rs, ExrWritten (.ldcRegExr rs) s 2 (s.readB rs) [] fun _ => True) ∧
    (∀ imm, ExrWritten (.andcExr imm) s 4 (s.exr &&& imm) [] fun _ => True) ∧
    (∀ imm, ExrWritten (.orcExr imm) s 4 (s.exr ||| imm) [] fun _ => True) ∧
    (∀ imm, ExrWritten (.xorcExr imm) s 4 (s.exr ^^^ imm) [] fun _ => True)

/-- LDC.W loads CCR or EXR from the high byte of a memory word and steps @ERs+ by 2. Going on where a register or a
flag it reads is undefined is the model's choice, log 1. Rules: 46_system_control.md R1000, 46_system_control.md
R1001, 46_system_control.md R1013, 46_system_control.md R1014, 30_encoding.md R317, notes/assumptions/1.md. -/
def Obligations.ControlRegisterLoadResults : Prop :=
  ∀ (s : State) (mem : Mode), mem.loadWideOk = true → s.MayRead (s.wordSpan (mem.ea 2 s)) →
    CcrWritten (.ldcWCcr mem) s (mem.len + 2) (s.byteAt (s.evenAddr (mem.ea 2 s))) (steppedViews mem)
      (Stepped mem 2 s) ∧
      ExrWritten (.ldcWExr mem) s (mem.len + 2) (s.byteAt (s.evenAddr (mem.ea 2 s))) (steppedViews mem)
        (Stepped mem 2 s)

/-- STC copies CCR or EXR to a byte register or, above a free byte, to a memory word. Going on where a register or a
flag it reads is undefined is the model's choice, log 1. Rules: 46_system_control.md R1001, 46_system_control.md
R1015, 46_system_control.md R1016, 20_memory.md R214, 30_encoding.md R317, notes/assumptions/1.md. -/
def Obligations.ControlRegisterStoreResults : Prop :=
  ∀ s : State,
    (∀ rd, ResultB (.stcRegCcr rd) s 2 rd s.ccrImage [] fun _ => false) ∧
    (∀ rd, ResultB (.stcRegExr rd) s 2 rd s.exr [] fun _ => false) ∧
    (∀ mem : Mode, mem.storeWideOk = true → s.mem.wf → s.MayStore (mem.len + 2) (s.wordSpan (mem.ea 2 s)) →
      (∃ pad : Byte, Stores (.stcWCcr mem) s (mem.len + 2) mem 2 (s.wordSpan (mem.ea 2 s))
          (wordBytes (s.ccrImage ++ pad)) [] fun _ => false) ∧
        ∃ pad : Byte, Stores (.stcWExr mem) s (mem.len + 2) mem 2 (s.wordSpan (mem.ea 2 s))
          (wordBytes (s.exr ++ pad)) [] fun _ => false)

/-- NOP only advances pc; SLEEP advances pc and enters the sleep state. Rules: 46_system_control.md R1012,
46_system_control.md R1023. -/
def Obligations.NopAndSleepResults : Prop :=
  ∀ s : State,
    exec .nop s = .next { s with pc := s.pcNext 2 } ∧
      exec .sleep s = .next { s with pc := s.pcNext 2, sleeping := true }

/-- TRAPA #n enters the handler of vector 8 + n with the frame, CCR.I and EXR that exception entry gives. Going on
where a register or a flag it reads is undefined is the model's choice, log 1. Rules: 46_system_control.md R1010,
60_exceptions.md R1110, 60_exceptions.md R1112, notes/assumptions/1.md. -/
def Obligations.TrapResult : Prop :=
  ∀ (s : State) (tn : BitVec 2),
    (EntryOk s (some 2) (8 + tn.toNat) (s.pcNext 2) →
      Ends (.trapa tn) s fun t => Entered s t (8 + tn.toNat) (s.pcNext 2) none) ∧
    (s.params.addrBits = .bits32 → 2 ^ 24 ≤ (s.pcNext 2).toNat →
      exec (.trapa tn) s = .fault (.unmodelled .returnAddressBeyond24Bits s.pc.toNat))

/-- RTE restores EXR (INTM = 2), CCR and pc from the frame at SP and moves SP past it. Going on where a register or a
flag it reads is undefined is the model's choice, log 1. Rules: 46_system_control.md R1011, 60_exceptions.md
R1113, 10_state.md R110, notes/assumptions/1.md. -/
def Obligations.ReturnFromExceptionResult : Prop :=
  ∀ s : State,
    (s.params.intm = .mode0 → s.MayRead (s.longSpan (s.readL sp)) →
      ((s.longAt (s.readL sp)).getLsbD 0 = false →
        Ends .rte s fun t => Returned s t 4 (s.longAt (s.readL sp)) s.exr) ∧
      ((s.longAt (s.readL sp)).getLsbD 0 = true → OddTarget .rte s)) ∧
    (s.params.intm = .mode2 → s.MayRead (s.wordSpan (s.readL sp)) → s.MayRead (s.longSpan (s.readL sp + 2)) →
      ((s.longAt (s.readL sp + 2)).getLsbD 0 = false →
        Ends .rte s fun t =>
          Returned s t 6 (s.longAt (s.readL sp + 2)) ((s.byteAt (s.evenAddr (s.readL sp)) &&& 0x87) ||| 0x78)) ∧
      ((s.longAt (s.readL sp + 2)).getLsbD 0 = true → OddTarget .rte s))

/-- RTE right after an exception's entry gives back pc, CCR, EXR and every register. Going on where a register or a
flag it reads is undefined is the model's choice, log 1. Rules: 60_exceptions.md R1112, 60_exceptions.md R1113,
46_system_control.md R1011, notes/assumptions/1.md. -/
def Obligations.ReturnUndoesExceptionEntry : Prop :=
  ∀ (s : State) (vector : Nat) (ret : Addr) (level : Option (BitVec 3)), EntryOk s none vector ret →
    s.MayRead s.frameSpan → (∀ a ∈ s.frameSpan, s.isDevice a.toNat = false) → ret.toNat < 2 ^ 24 →
      ret.getLsbD 0 = false → s.ExrOk →
        ∃ t u, s.exceptionEntry none vector ret level = .ok t ∧ Entered s t vector ret level ∧ exec .rte t = .next u ∧
          u.pc = ret ∧ u.ccr = s.ccrImage ∧ u.exr = s.exr ∧ ∀ n, u.readL n = s.readL n

/-- RTS right after BSR or JSR comes back to the instruction after the call with every register as before. Going on
where a register or a flag it reads is undefined is the model's choice, log 1. Rules: 45_branch.md R903,
45_branch.md R931, 45_branch.md R932, 45_branch.md R933, notes/assumptions/1.md. -/
def Obligations.ReturnUndoesCall : Prop :=
  ∀ s : State, s.mem.wf → s.PcOk → s.MayRead (s.longSpan (s.readL sp - 4)) →
    (∀ a ∈ s.longSpan (s.readL sp - 4), s.isDevice a.toNat = false) →
    (∀ disp, s.MayStore 2 (s.longSpan (s.readL sp - 4)) → (s.relative 2 disp).getLsbD 0 = false →
      ∃ t u, exec (.bsr8 disp) s = .next t ∧ t.pc = s.relative 2 disp ∧ exec .rts t = .next u ∧ u.pc = s.pcNext 2 ∧
        ∀ n, u.readL n = s.readL n) ∧
    (∀ disp, s.MayStore 4 (s.longSpan (s.readL sp - 4)) → (s.relative 4 disp).getLsbD 0 = false →
      ∃ t u, exec (.bsr16 disp) s = .next t ∧ t.pc = s.relative 4 disp ∧ exec .rts t = .next u ∧ u.pc = s.pcNext 4 ∧
        ∀ n, u.readL n = s.readL n) ∧
    (∀ ra, s.MayStore 2 (s.longSpan (s.readL sp - 4)) → (s.addr (s.readL ra)).getLsbD 0 = false →
      ∃ t u, exec (.jsrInd ra) s = .next t ∧ t.pc = s.addr (s.readL ra) ∧ exec .rts t = .next u ∧ u.pc = s.pcNext 2 ∧
        ∀ n, u.readL n = s.readL n) ∧
    (∀ aa : BitVec 24, s.MayStore 4 (s.longSpan (s.readL sp - 4)) → (aa.zeroExtend 32).getLsbD 0 = false →
      ∃ t u, exec (.jsrAbs24 aa) s = .next t ∧ t.pc = aa.zeroExtend 32 ∧ exec .rts t = .next u ∧ u.pc = s.pcNext 4 ∧
        ∀ n, u.readL n = s.readL n) ∧
    (∀ aa : BitVec 8, s.MayStore 2 (s.longSpan (s.readL sp - 4)) →
      (s.addr (s.longAt (aa.zeroExtend 32))).getLsbD 0 = false → s.MayRead (s.longSpan (aa.zeroExtend 32)) →
      ∃ t u, exec (.jsrMemInd aa) s = .next t ∧ t.pc = s.addr (s.longAt (aa.zeroExtend 32)) ∧
        exec .rts t = .next u ∧ u.pc = s.pcNext 2 ∧
        ∀ n, u.readL n = s.readL n)

/-- Where an instruction runs next and the window at pc decodes to it, step is exec of it and bookkeeping. The
bookkeeping is the model's choice: logs 5, 8, 10, 21 and 30. Rules: 00_scope.md R14, 00_scope.md R15,
60_exceptions.md R1130, 60_exceptions.md R1133, 70_reset_and_hazards.md R1210, 40_data_transfer.md R418,
notes/assumptions/5.md, notes/assumptions/8.md, notes/assumptions/10.md, notes/assumptions/21.md,
notes/assumptions/30.md. -/
def Obligations.StepRunsTheDecodedInstruction : Prop :=
  ∀ s : State, s.RunsNext →
    (∀ x, (s.eepmovActive = false ∧ decode s.window = .ok x ∨ s.eepmovActive = true ∧ x = .eepmovW) →
      step s = s.afterRunning x (exec x s.pastBoundary)) ∧
    (∀ r, s.PcOk → s.eepmovActive = false → decodePort s.params s.window 0 s.pc = .ok r →
      step s = s.afterRunning r.form (execute s.pastBoundary r))

/-- An instruction whose encoding stands at pc in readable ordinary memory is the one fetched. Rules: 20_memory.md
R210, 30_encoding.md R320, 30_encoding.md R325. -/
def Obligations.EncodedInstructionInMemoryIsFetched : Prop :=
  ∀ (s : State) (x : Instr), x.wf = true → s.MayRead (s.byteRange s.pc x.length) →
    (∀ a ∈ s.byteRange s.pc x.length, s.isDevice a.toNat = false) → s.Holds (s.byteRange s.pc x.length) (encode x) →
      s.fetch = .ok x

/-- A refused first byte, a window that ends inside an instruction and an invalid window each fault the step. Rules:
20_memory.md R210, 30_encoding.md R320, 60_exceptions.md R1100. -/
def Obligations.FetchFaults : Prop :=
  ∀ s : State, s.RunsNext → s.eepmovActive = false →
    (s.canRead (s.addr s.pc).toNat = false → step s = .fault (.memoryAccess (s.addr s.pc).toNat)) ∧
    (s.canRead (s.addr s.pc).toNat = true → decode s.window = .error .truncated →
      step s = .fault (.memoryAccess (s.offset (s.addr s.pc) s.window.length).toNat)) ∧
    (s.canRead (s.addr s.pc).toNat = true → decode s.window = .error .invalid →
      step s = .fault (.invalidInstruction s.pc.toNat s.window))

/-- Every step keeps pc even and in range, EXR's reserved bits at 1 and memory canonical and in range. Rules:
10_state.md R108, 10_state.md R110, 10_state.md R114, 20_memory.md R201, notes/assumptions/2.md. -/
def Obligations.EveryStepKeepsTheInvariant : Prop :=
  ∀ s t : State, s.Inv → step s = .next t → t.Inv

/-- The reset state meets the invariant that every step keeps. Rules: 10_state.md R110, 10_state.md R114, 10_state.md
R119, notes/assumptions/2.md, notes/assumptions/3.md. -/
def Obligations.ResetMeetsTheInvariant : Prop :=
  State.reset.Inv

/-- After reset every register byte and every flag but I is undefined, I is 1, EXR is 0x7F. Rules: R119. -/
def Obligations.ResetValues : Prop :=
  (∀ n k, State.reset.laneDefined n k = false) ∧ State.reset.pc = State.reset.handler 0 ∧
    State.reset.flag .i = true ∧ (∀ f, State.reset.definedFlag f = decide (f = .i)) ∧ State.reset.exr = 0x7F ∧
    State.reset.sleeping = false ∧ State.reset.irqHold = false ∧ State.reset.eepmovActive = false ∧
    State.reset.nmiPending = false ∧ State.reset.fault = none

/-- An asserted reset input takes pc from vector 0 before anything else, with the reset values and memory kept. The
reset input's form, a reset after a recorded fault and the address in the record are the model's choice: logs 9,
13 and 26. Rules: 70_reset_and_hazards.md R1200, 70_reset_and_hazards.md R1201, 10_state.md R119, 10_state.md
R110, 60_exceptions.md R1130, notes/assumptions/9.md, notes/assumptions/13.md, notes/assumptions/26.md. -/
def Obligations.ResetSequenceResult : Prop :=
  ∀ s : State, s.resetIn = some 0 → ResetStep s s

/-- A reset during a step keeps exactly the memory writes the step has completed and applies nothing else. The count
of writes, and what is read anew after the cut, are the model's choice: logs 5 and 9; that values no instruction
has defined are stored is log 1's. Rules: 70_reset_and_hazards.md R1200, 70_reset_and_hazards.md R1201,
60_exceptions.md R1130, 60_exceptions.md R1112, 60_exceptions.md R1103, 40_data_transfer.md R416,
40_data_transfer.md R417, 45_branch.md R903, 20_memory.md R207, notes/assumptions/1.md, notes/assumptions/5.md,
notes/assumptions/9.md. -/
def Obligations.ResetCutsAStepShort : Prop :=
  ∀ (s : State) (k : Nat), s.resetIn = some (k + 1) → s.mem.wf →
    (s.fault ≠ none ∨ s.unreset.due = .asleep → ResetStep s (s.leftWith s.mem)) ∧
    (s.unreset.RunsNext → ∀ f, s.nextInstr = .error f → step s = .fault f) ∧
    (s.unreset.RunsNext → ∀ x, s.nextInstr = .ok x → writesInParts x = false →
      (∀ t, exec x s.pastBoundary = .next t → ResetStep s (s.leftWith t.mem)) ∧
        ∀ f, exec x s.pastBoundary = .fault f → step s = .fault f) ∧
    (s.unreset.RunsNext → ∀ r, s.nextInstr = .ok (.stm2 r) → sp ∉ [r, r + 1] →
      s.MayStore 4 (s.pushSpan (min (k + 1) 2) (s.readL sp)) →
      CutAfter s (s.pushSpan (min (k + 1) 2) (s.readL sp))
        (([r, r + 1].take (k + 1)).flatMap fun r => longBytes (s.readL r))) ∧
    (s.unreset.RunsNext → ∀ r, s.nextInstr = .ok (.stm3 r) → sp ∉ [r, r + 1, r + 2] →
      s.MayStore 4 (s.pushSpan (min (k + 1) 3) (s.readL sp)) →
      CutAfter s (s.pushSpan (min (k + 1) 3) (s.readL sp))
        (([r, r + 1, r + 2].take (k + 1)).flatMap fun r => longBytes (s.readL r))) ∧
    (s.unreset.RunsNext → ∀ r, s.nextInstr = .ok (.stm4 r) → sp ∉ [r, r + 1, r + 2, r + 3] →
      s.MayStore 4 (s.pushSpan (min (k + 1) 4) (s.readL sp)) →
      CutAfter s (s.pushSpan (min (k + 1) 4) (s.readL sp))
        (([r, r + 1, r + 2, r + 3].take (k + 1)).flatMap fun r => longBytes (s.readL r))) ∧
    (s.unreset.RunsNext → s.nextInstr = .ok .eepmovB →
      s.MayRead (s.byteRange (s.readL 5) (min (k + 1) (s.readB 12).toNat)) →
      s.MayStore 4 (s.byteRange (s.readL 6) (min (k + 1) (s.readB 12).toNat)) →
      ResetStep s (s.leftWith (s.copied (s.readL 5) (s.readL 6) (min (k + 1) (s.readB 12).toNat)))) ∧
    (s.unreset.RunsNext → ∀ tn, s.nextInstr = .ok (.trapa tn) → s.FitsFrame (s.pcNext 2) →
      s.MayStore 2 (s.frameSpan.take (frameLength (k + 1))) →
      CutAfter s (s.frameSpan.take (frameLength (k + 1))) ((s.frameBytes (s.pcNext 2)).take (frameLength (k + 1)))) ∧
    (s.fault = none → s.unreset.due.entered ≠ none → s.FitsFrame s.pc →
      s.MayWrite (s.frameSpan.take (frameLength (k + 1))) →
      CutAfter s (s.frameSpan.take (frameLength (k + 1))) ((s.frameBytes s.pc).take (frameLength (k + 1)))) ∧
    (s.unreset.RunsNext → ∀ x, s.nextInstr = .ok x → x.isCall = true →
      (∀ aa, x = .jsrMemInd aa → s.MayRead (s.longSpan (aa.zeroExtend 32))) →
        s.MayStore x.length (s.longSpan (s.readL sp - 4)) →
      CutAfter s (s.longSpan (s.readL sp - 4)) (longBytes (s.callFrame (s.pcNext x.length))))

/-- No step changes the parameters, the host map or the interrupt requests, and a recorded fault stays. That a step at
a recorded fault answers that fault again is the model's choice: log 13. Rules: 00_scope.md R6, 00_scope.md R10,
10_state.md R117, 60_exceptions.md R1120, 20_memory.md R200, notes/assumptions/9.md, notes/assumptions/13.md. -/
def Obligations.StepKeepsInputsAndParameters : Prop :=
  (∀ s t : State, s.PcOk → step s = .next t →
      t.params = s.params ∧ t.hostMap = s.hostMap ∧ t.irq = s.irq ∧ t.fault = none ∧
        (s.resetIn = none → s.fault = none)) ∧
    ∀ (s : State) (f : Fault), s.resetIn = none → s.fault = some f → step s = .fault f

/-- No instruction makes a defined register byte or a defined flag undefined. Rules: 10_state.md R106, 10_state.md
R112, 10_state.md R113. -/
def Obligations.DefinednessGrows : Prop :=
  ∀ (x : Instr) (s t : State), s.PcOk → exec x s = .next t →
    (∀ n k, s.laneDefined n k = true → t.laneDefined n k = true) ∧
      ∀ f, s.definedFlag f = true → t.definedFlag f = true

/-- A due trace enters vector 5 at the next boundary, before any interrupt and in spite of the shadow. Going on where
a register or a flag it reads is undefined is the model's choice, log 1. That irqHold survives the entry (log 22)
and the marks of the next boundary (logs 5, 8) are the model's choices. Rules: 60_exceptions.md R1130,
60_exceptions.md R1133, 60_exceptions.md R1112, notes/assumptions/1.md, notes/assumptions/5.md,
notes/assumptions/8.md, notes/assumptions/22.md. -/
def Obligations.TraceEntryResult : Prop :=
  ∀ s : State, s.Checked → s.traceDue = true → EntryOk s none 5 s.pc →
    ∃ u, Entered s u 5 s.pc none ∧ step s = .next { u with traceDue := false, epoch := s.epoch + 1 }

/-- An NMI event is held pending until accepted, a second one meanwhile is lost, and acceptance clears it. Going on
where a register or a flag it reads is undefined is the model's choice, log 1. The marks of the next boundary
(logs 5, 8) are the model's choices. Rules: 60_exceptions.md R1121, 60_exceptions.md R1110, 60_exceptions.md
R1112, 60_exceptions.md R1122, 60_exceptions.md R1130, notes/assumptions/1.md, notes/assumptions/5.md,
notes/assumptions/8.md. -/
def Obligations.NmiEntryResult : Prop :=
  ∀ s : State,
    s.nmiEvent = { s with nmiPending := true } ∧ (s.nmiPending = true → s.nmiEvent = s) ∧
    (s.Checked → s.traceDue = false → s.irqHold = false → s.nmiPending = true → EntryOk s none 7 s.pc →
      ∃ u, Entered s u 7 s.pc (some 7) ∧
        step s = .next { u with nmiPending := false, traceDue := false, epoch := s.epoch + 1 })

/-- The request chosen is one the mask lets through, of the highest level (INTM = 2), then the lowest vector. Rules:
R1122. -/
def Obligations.InterruptChoice : Prop :=
  ∀ s : State, s.IrqOk →
    (s.chosenIrq = none ↔ ∀ r ∈ s.irq, ¬s.LetsThrough r) ∧
    (∀ r, s.chosenIrq = some r → r ∈ s.irq ∧ s.LetsThrough r ∧ ∀ q ∈ s.irq, s.LetsThrough q → s.ServedFirst r q) ∧
    (s.Checked → s.traceDue = false → s.irqHold = false → s.nmiPending = true → s.due = .nmi)

/-- A chosen request enters its vector at its level with return address pc, awake or asleep. Going on where a register
or a flag it reads is undefined is the model's choice, log 1. The marks of the next boundary (logs 5, 8) are the
model's choices. Rules: 60_exceptions.md R1130, 60_exceptions.md R1131, 60_exceptions.md R1112, 60_exceptions.md
R1120, notes/assumptions/1.md, notes/assumptions/5.md, notes/assumptions/8.md. -/
def Obligations.InterruptEntryResult : Prop :=
  ∀ (s : State) (r : IrqRequest), s.Checked → s.traceDue = false → s.irqHold = false → s.nmiPending = false →
    s.chosenIrq = some r → EntryOk s none r.vector.toNat s.pc →
      ∃ u, Entered s u r.vector.toNat s.pc (some r.level) ∧ u.irq = s.irq ∧
        step s = .next { u with traceDue := false, epoch := s.epoch + 1 }

/-- Asleep with nothing to accept a step changes nothing but the shadow, and fetches nothing. Rules: 60_exceptions.md
R1130, 60_exceptions.md R1140, 46_system_control.md R1012. -/
def Obligations.SleepWaits : Prop :=
  ∀ s : State, s.fault = none → s.resetIn = none → s.sleeping = true → s.traceDue = false → s.NoInterrupt →
    step s = .next { s with irqHold := false }

/-- A word or long written at an even address reads back, its most significant byte at the lowest address. Rules:
R204. -/
def Obligations.BytesAreBigEndian : Prop :=
  (∀ (s : State) (a : Addr) (v : Word), s.mem.wf → s.evenAddr a = a → s.MayRead (s.wordSpan a) →
      s.MayWrite (s.wordSpan a) → (∀ b ∈ s.wordSpan a, s.isDevice b.toNat = false) →
        ∃ t, s.write16 none a v = .ok t ∧ t.read8 a = .ok (v.extractLsb' 8 8) ∧
          t.read8 (a + 1) = .ok (v.extractLsb' 0 8) ∧ t.read16 a = .ok v) ∧
    (∀ (s : State) (a : Addr) (v : Long), s.mem.wf → s.evenAddr a = a → s.MayRead (s.longSpan a) →
      s.MayWrite (s.longSpan a) → (∀ b ∈ s.longSpan a, s.isDevice b.toNat = false) →
        ∃ t, s.write32 none a v = .ok t ∧ t.read8 a = .ok (v.extractLsb' 24 8) ∧
          t.read8 (a + 1) = .ok (v.extractLsb' 16 8) ∧ t.read8 (a + 2) = .ok (v.extractLsb' 8 8) ∧
          t.read8 (a + 3) = .ok (v.extractLsb' 0 8) ∧ t.read32 a = .ok v) ∧
    decode [0x79, 0x00, 0x12, 0x34] = .ok (.movWImm 0x1234 0)

/-- A store into the storing instruction or the four bytes after it is Unmodelled, whatever the host would say. Going
on where a register or a flag it reads is undefined is the model's choice, log 1. That the window is checked
before the host is asked and covers the frames an instruction stores is the model's choice: log 12. Rules:
20_memory.md R214, notes/assumptions/1.md, notes/assumptions/12.md. -/
def Obligations.StoresIntoThePrefetchWindowStop : Prop :=
  ∀ s : State,
    (∀ rs mem, WindowStops (.movBStore rs mem) s mem.len [mem.ea 1 s]) ∧
    (∀ rs mem, WindowStops (.movWStore rs mem) s mem.len (s.wordSpan (mem.ea 2 s))) ∧
    (∀ rs mem, WindowStops (.movLStore rs mem) s (mem.len + 2) (s.longSpan (mem.ea 4 s))) ∧
    (∀ mem, WindowStops (.stcWCcr mem) s (mem.len + 2) (s.wordSpan (mem.ea 2 s))) ∧
    (∀ mem, WindowStops (.stcWExr mem) s (mem.len + 2) (s.wordSpan (mem.ea 2 s))) ∧
    (∀ rs aa, s.params.hasEClock = true → WindowStops (.movtpe rs aa) s 4 [s.eaAbs16 aa]) ∧
    (∀ ra, s.MayRead [s.eaInd ra] → WindowStops (.tas ra) s 4 [s.eaInd ra]) ∧
    (∀ tgt a, tgt.ea? s = some a → s.MayRead [a] →
      ((∀ bit, WindowStops (.bsetImm bit tgt) s tgt.len [a]) ∧
        (∀ rn, WindowStops (.bsetRn rn tgt) s tgt.len [a]) ∧
        (∀ bit, WindowStops (.bclrImm bit tgt) s tgt.len [a]) ∧
        (∀ rn, WindowStops (.bclrRn rn tgt) s tgt.len [a]) ∧
        (∀ bit, WindowStops (.bnotImm bit tgt) s tgt.len [a]) ∧
        (∀ rn, WindowStops (.bnotRn rn tgt) s tgt.len [a]) ∧
        (∀ bit, WindowStops (.bst bit tgt) s tgt.len [a]) ∧
        (∀ bit, WindowStops (.bist bit tgt) s tgt.len [a]))) ∧
    (∀ r, sp ∉ [r, r + 1] → s.MayWrite (s.pushSpan 2 (s.readL sp)) →
      WindowStops (.stm2 r) s 4 (s.pushSpan 2 (s.readL sp))) ∧
    (∀ r, sp ∉ [r, r + 1, r + 2] → s.MayWrite (s.pushSpan 3 (s.readL sp)) →
      WindowStops (.stm3 r) s 4 (s.pushSpan 3 (s.readL sp))) ∧
    (∀ r, sp ∉ [r, r + 1, r + 2, r + 3] → s.MayWrite (s.pushSpan 4 (s.readL sp)) →
      WindowStops (.stm4 r) s 4 (s.pushSpan 4 (s.readL sp))) ∧
    (s.MayRead (s.byteRange (s.readL 5) (s.readB 12).toNat) → s.MayWrite (s.byteRange (s.readL 6) (s.readB 12).toNat) →
      WindowStops (.eepmovB) s 4 (s.byteRange (s.readL 6) (s.readB 12).toNat)) ∧
    (s.readW 4 ≠ 0 → s.MayRead [s.addr (s.readL 5)] → WindowStops (.eepmovW) s 4 [s.addr (s.readL 6)]) ∧
    (∀ disp, WindowStops (.bsr8 disp) s 2 (s.longSpan (s.readL sp - 4))) ∧
    (∀ disp, WindowStops (.bsr16 disp) s 4 (s.longSpan (s.readL sp - 4))) ∧
    (∀ ra, WindowStops (.jsrInd ra) s 2 (s.longSpan (s.readL sp - 4))) ∧
    (∀ aa, WindowStops (.jsrAbs24 aa) s 4 (s.longSpan (s.readL sp - 4))) ∧
    (∀ aa : BitVec 8, s.MayRead (s.longSpan (aa.zeroExtend 32)) →
      WindowStops (.jsrMemInd aa) s 2 (s.longSpan (s.readL sp - 4))) ∧
    (∀ tn, s.FitsFrame (s.pcNext 2) → s.MayWrite s.frameSpan → WindowStops (.trapa tn) s 2 s.frameSpan)

/-- A load or store of a byte the host refuses ends with MemoryAccessError at a refused byte of the access. Going on
where a register or a flag it reads is undefined is the model's choice, log 1. That the prefetch window is checked
before the host is asked is the model's choice: log 12. Rules: 20_memory.md R200, 20_memory.md R202, 20_memory.md
R203, 20_memory.md R209, 60_exceptions.md R1103, 60_exceptions.md R1112, 70_reset_and_hazards.md R1200,
notes/assumptions/1.md, notes/assumptions/12.md. -/
def Obligations.RefusedAccessesFault : Prop :=
  ∀ s : State,
    (∀ mem rd, ReadRefused (.movBLoad mem rd) s [mem.ea 1 s]) ∧
    (∀ mem rd, ReadRefused (.movWLoad mem rd) s (s.wordSpan (mem.ea 2 s))) ∧
    (∀ mem rd, ReadRefused (.movLLoad mem rd) s (s.longSpan (mem.ea 4 s))) ∧
    (∀ mem, ReadRefused (.ldcWCcr mem) s (s.wordSpan (mem.ea 2 s))) ∧
    (∀ mem, ReadRefused (.ldcWExr mem) s (s.wordSpan (mem.ea 2 s))) ∧
    (∀ aa rd, s.params.hasEClock = true → ReadRefused (.movfpe aa rd) s [s.eaAbs16 aa]) ∧
    (∀ rs mem, WriteRefused (.movBStore rs mem) s mem.len [mem.ea 1 s]) ∧
    (∀ rs mem, WriteRefused (.movWStore rs mem) s mem.len (s.wordSpan (mem.ea 2 s))) ∧
    (∀ rs mem, WriteRefused (.movLStore rs mem) s (mem.len + 2) (s.longSpan (mem.ea 4 s))) ∧
    (∀ mem, WriteRefused (.stcWCcr mem) s (mem.len + 2) (s.wordSpan (mem.ea 2 s))) ∧
    (∀ mem, WriteRefused (.stcWExr mem) s (mem.len + 2) (s.wordSpan (mem.ea 2 s))) ∧
    (∀ rs aa, s.params.hasEClock = true → WriteRefused (.movtpe rs aa) s 4 [s.eaAbs16 aa]) ∧
    (∀ ra, s.MayRead [s.eaInd ra] → WriteRefused (.tas ra) s 4 [s.eaInd ra]) ∧
    (∀ ra, ReadRefused (.tas ra) s [s.eaInd ra]) ∧
    (∀ tgt a, tgt.ea? s = some a →
      ((∀ bit, ReadRefused (.bsetImm bit tgt) s [a]) ∧
        (∀ rn, ReadRefused (.bsetRn rn tgt) s [a]) ∧
        (∀ bit, ReadRefused (.bclrImm bit tgt) s [a]) ∧
        (∀ rn, ReadRefused (.bclrRn rn tgt) s [a]) ∧
        (∀ bit, ReadRefused (.bnotImm bit tgt) s [a]) ∧
        (∀ rn, ReadRefused (.bnotRn rn tgt) s [a]) ∧
        (∀ bit, ReadRefused (.bst bit tgt) s [a]) ∧
        (∀ bit, ReadRefused (.bist bit tgt) s [a]) ∧
        (∀ bit, ReadRefused (.btstImm bit tgt) s [a]) ∧
        (∀ rn, ReadRefused (.btstRn rn tgt) s [a]) ∧
        (∀ bit, ReadRefused (.bld bit tgt) s [a]) ∧
        (∀ bit, ReadRefused (.bild bit tgt) s [a]) ∧
        (∀ bit, ReadRefused (.band bit tgt) s [a]) ∧
        (∀ bit, ReadRefused (.biand bit tgt) s [a]) ∧
        (∀ bit, ReadRefused (.bor bit tgt) s [a]) ∧
        (∀ bit, ReadRefused (.bior bit tgt) s [a]) ∧
        (∀ bit, ReadRefused (.bxor bit tgt) s [a]) ∧
        (∀ bit, ReadRefused (.bixor bit tgt) s [a]))) ∧
    (∀ tgt a, tgt.ea? s = some a → s.MayRead [a] →
      ((∀ bit, WriteRefused (.bsetImm bit tgt) s tgt.len [a]) ∧
        (∀ rn, WriteRefused (.bsetRn rn tgt) s tgt.len [a]) ∧
        (∀ bit, WriteRefused (.bclrImm bit tgt) s tgt.len [a]) ∧
        (∀ rn, WriteRefused (.bclrRn rn tgt) s tgt.len [a]) ∧
        (∀ bit, WriteRefused (.bnotImm bit tgt) s tgt.len [a]) ∧
        (∀ rn, WriteRefused (.bnotRn rn tgt) s tgt.len [a]) ∧
        (∀ bit, WriteRefused (.bst bit tgt) s tgt.len [a]) ∧
        (∀ bit, WriteRefused (.bist bit tgt) s tgt.len [a]))) ∧
    (∀ r, sp ∉ [r, r - 1] → ReadRefused (.ldm2 r) s (s.popSpan 2 (s.readL sp))) ∧
    (∀ r, sp ∉ [r, r - 1, r - 2] → ReadRefused (.ldm3 r) s (s.popSpan 3 (s.readL sp))) ∧
    (∀ r, sp ∉ [r, r - 1, r - 2, r - 3] → ReadRefused (.ldm4 r) s (s.popSpan 4 (s.readL sp))) ∧
    (∀ r, sp ∉ [r, r + 1] → WriteRefused (.stm2 r) s 4 (s.pushSpan 2 (s.readL sp))) ∧
    (∀ r, sp ∉ [r, r + 1, r + 2] → WriteRefused (.stm3 r) s 4 (s.pushSpan 3 (s.readL sp))) ∧
    (∀ r, sp ∉ [r, r + 1, r + 2, r + 3] → WriteRefused (.stm4 r) s 4 (s.pushSpan 4 (s.readL sp))) ∧
    (s.MayStore 4 (s.byteRange (s.readL 6) (s.readB 12).toNat) →
      ReadRefused (.eepmovB) s (s.byteRange (s.readL 5) (s.readB 12).toNat)) ∧
    (s.MayRead (s.byteRange (s.readL 5) (s.readB 12).toNat) →
      WriteRefused (.eepmovB) s 4 (s.byteRange (s.readL 6) (s.readB 12).toNat)) ∧
    (s.readW 4 ≠ 0 → ReadRefused (.eepmovW) s [s.addr (s.readL 5)]) ∧
    (s.readW 4 ≠ 0 → s.MayRead [s.addr (s.readL 5)] → WriteRefused (.eepmovW) s 4 [s.addr (s.readL 6)]) ∧
    (∀ aa : BitVec 8, ReadRefused (.jmpMemInd aa) s (s.longSpan (aa.zeroExtend 32))) ∧
    (∀ aa : BitVec 8, ReadRefused (.jsrMemInd aa) s (s.longSpan (aa.zeroExtend 32))) ∧
    (∀ disp, WriteRefused (.bsr8 disp) s 2 (s.longSpan (s.readL sp - 4))) ∧
    (∀ disp, WriteRefused (.bsr16 disp) s 4 (s.longSpan (s.readL sp - 4))) ∧
    (∀ ra, WriteRefused (.jsrInd ra) s 2 (s.longSpan (s.readL sp - 4))) ∧
    (∀ aa, WriteRefused (.jsrAbs24 aa) s 4 (s.longSpan (s.readL sp - 4))) ∧
    (∀ aa : BitVec 8, s.MayRead (s.longSpan (aa.zeroExtend 32)) →
      WriteRefused (.jsrMemInd aa) s 2 (s.longSpan (s.readL sp - 4))) ∧
    (ReadRefused (.rts) s (s.longSpan (s.readL sp))) ∧
    (s.params.intm = .mode0 → ReadRefused (.rte) s (s.longSpan (s.readL sp))) ∧
    (s.params.intm = .mode2 → ReadRefused (.rte) s (s.wordSpan (s.readL sp) ++ s.longSpan (s.readL sp + 2))) ∧
    (∀ tn, s.FitsFrame (s.pcNext 2) → WriteRefused (.trapa tn) s 2 s.frameSpan) ∧
    (∀ tn : BitVec 2, s.FitsFrame (s.pcNext 2) → s.MayStore 2 s.frameSpan →
      ReadRefused (.trapa tn) s (s.longSpan (vectorAddr (8 + tn.toNat)))) ∧
    (∀ v, s.fault = none → s.resetIn = none → s.due.entered = some v → s.FitsFrame s.pc →
      (¬s.MayWrite s.frameSpan → StepFaultsAt s s.canWrite s.frameSpan) ∧
        (s.MayWrite s.frameSpan → ¬s.MayRead (s.longSpan (vectorAddr v)) →
          StepFaultsAt s s.canRead (s.longSpan (vectorAddr v)))) ∧
    (s.resetIn = some 0 → ¬s.MayRead (s.longSpan 0) → StepFaultsAt s s.canRead (s.longSpan 0))
end

