-- ==== Sys2Proof/Laws/State.lean ====
section
/-!
SUPPORT. What each state update does to each field, and to the reads built from fields: one lemma each, so that no
proof unfolds a record update.
-/

namespace Sys2Proof.Machine

/-! ### `setPc` -/

@[simp] theorem setPc_er (s : State) (a : Addr) : (s.setPc a).er = s.er := rfl
@[simp] theorem setPc_pc (s : State) (a : Addr) : (s.setPc a).pc = a := rfl
@[simp] theorem setPc_ccr (s : State) (a : Addr) : (s.setPc a).ccr = s.ccr := rfl
@[simp] theorem setPc_ccrDfn (s : State) (a : Addr) : (s.setPc a).ccrDfn = s.ccrDfn := rfl
@[simp] theorem setPc_exr (s : State) (a : Addr) : (s.setPc a).exr = s.exr := rfl
@[simp] theorem setPc_sleeping (s : State) (a : Addr) : (s.setPc a).sleeping = s.sleeping := rfl
@[simp] theorem setPc_irqHold (s : State) (a : Addr) : (s.setPc a).irqHold = s.irqHold := rfl
@[simp] theorem setPc_nmiPending (s : State) (a : Addr) : (s.setPc a).nmiPending = s.nmiPending := rfl
@[simp] theorem setPc_eepmovActive (s : State) (a : Addr) : (s.setPc a).eepmovActive = s.eepmovActive := rfl
@[simp] theorem setPc_fault (s : State) (a : Addr) : (s.setPc a).fault = s.fault := rfl
@[simp] theorem setPc_mem (s : State) (a : Addr) : (s.setPc a).mem = s.mem := rfl
@[simp] theorem setPc_irq (s : State) (a : Addr) : (s.setPc a).irq = s.irq := rfl
@[simp] theorem setPc_resetIn (s : State) (a : Addr) : (s.setPc a).resetIn = s.resetIn := rfl
@[simp] theorem setPc_hostMap (s : State) (a : Addr) : (s.setPc a).hostMap = s.hostMap := rfl
@[simp] theorem setPc_params (s : State) (a : Addr) : (s.setPc a).params = s.params := rfl
@[simp] theorem setPc_fresh (s : State) (a : Addr) : (s.setPc a).fresh = s.fresh := rfl
@[simp] theorem setPc_traceDue (s : State) (a : Addr) : (s.setPc a).traceDue = s.traceDue := rfl
@[simp] theorem setPc_epoch (s : State) (a : Addr) : (s.setPc a).epoch = s.epoch := rfl
@[simp] theorem setPc_addr (s : State) (a : Addr) (y : Addr) : (s.setPc a).addr y = s.addr y := rfl
@[simp] theorem setPc_evenAddr (s : State) (a : Addr) (y : Addr) : (s.setPc a).evenAddr y = s.evenAddr y := rfl
@[simp] theorem setPc_offset (s : State) (a : Addr) (y : Addr) (k : Nat) : (s.setPc a).offset y k = s.offset y k := rfl
@[simp] theorem setPc_canRead (s : State) (a : Addr) (y : Nat) : (s.setPc a).canRead y = s.canRead y := rfl
@[simp] theorem setPc_canWrite (s : State) (a : Addr) (y : Nat) : (s.setPc a).canWrite y = s.canWrite y := rfl
@[simp] theorem setPc_isDevice (s : State) (a : Addr) (y : Nat) : (s.setPc a).isDevice y = s.isDevice y := rfl
@[simp] theorem setPc_byteAt (s : State) (a : Addr) (y : Addr) : (s.setPc a).byteAt y = s.byteAt y := rfl
@[simp] theorem setPc_reg (s : State) (a : Addr) (k : BitVec 3) : (s.setPc a).reg k = s.reg k := rfl
@[simp] theorem setPc_readB (s : State) (a : Addr) (k : BitVec 4) : (s.setPc a).readB k = s.readB k := rfl
@[simp] theorem setPc_readW (s : State) (a : Addr) (k : BitVec 4) : (s.setPc a).readW k = s.readW k := rfl
@[simp] theorem setPc_readL (s : State) (a : Addr) (k : BitVec 3) : (s.setPc a).readL k = s.readL k := rfl
@[simp] theorem setPc_flag (s : State) (a : Addr) (g : Flag) : (s.setPc a).flag g = s.flag g := rfl

/-! ### `advance` -/

@[simp] theorem advance_er (s : State) (len : Nat) : (s.advance len).er = s.er := rfl
@[simp] theorem advance_pc (s : State) (len : Nat) : (s.advance len).pc = s.pcNext len := rfl
@[simp] theorem advance_ccr (s : State) (len : Nat) : (s.advance len).ccr = s.ccr := rfl
@[simp] theorem advance_ccrDfn (s : State) (len : Nat) : (s.advance len).ccrDfn = s.ccrDfn := rfl
@[simp] theorem advance_exr (s : State) (len : Nat) : (s.advance len).exr = s.exr := rfl
@[simp] theorem advance_sleeping (s : State) (len : Nat) : (s.advance len).sleeping = s.sleeping := rfl
@[simp] theorem advance_irqHold (s : State) (len : Nat) : (s.advance len).irqHold = s.irqHold := rfl
@[simp] theorem advance_nmiPending (s : State) (len : Nat) : (s.advance len).nmiPending = s.nmiPending := rfl
@[simp] theorem advance_eepmovActive (s : State) (len : Nat) : (s.advance len).eepmovActive = s.eepmovActive := rfl
@[simp] theorem advance_fault (s : State) (len : Nat) : (s.advance len).fault = s.fault := rfl
@[simp] theorem advance_mem (s : State) (len : Nat) : (s.advance len).mem = s.mem := rfl
@[simp] theorem advance_irq (s : State) (len : Nat) : (s.advance len).irq = s.irq := rfl
@[simp] theorem advance_resetIn (s : State) (len : Nat) : (s.advance len).resetIn = s.resetIn := rfl
@[simp] theorem advance_hostMap (s : State) (len : Nat) : (s.advance len).hostMap = s.hostMap := rfl
@[simp] theorem advance_params (s : State) (len : Nat) : (s.advance len).params = s.params := rfl
@[simp] theorem advance_fresh (s : State) (len : Nat) : (s.advance len).fresh = s.fresh := rfl
@[simp] theorem advance_traceDue (s : State) (len : Nat) : (s.advance len).traceDue = s.traceDue := rfl
@[simp] theorem advance_epoch (s : State) (len : Nat) : (s.advance len).epoch = s.epoch := rfl
@[simp] theorem advance_addr (s : State) (len : Nat) (y : Addr) : (s.advance len).addr y = s.addr y := rfl
@[simp] theorem advance_evenAddr (s : State) (len : Nat) (y : Addr) : (s.advance len).evenAddr y = s.evenAddr y := rfl
@[simp] theorem advance_offset (s : State) (len : Nat) (y : Addr) (k : Nat) : (s.advance len).offset y k = s.offset y k := rfl
@[simp] theorem advance_canRead (s : State) (len : Nat) (y : Nat) : (s.advance len).canRead y = s.canRead y := rfl
@[simp] theorem advance_canWrite (s : State) (len : Nat) (y : Nat) : (s.advance len).canWrite y = s.canWrite y := rfl
@[simp] theorem advance_isDevice (s : State) (len : Nat) (y : Nat) : (s.advance len).isDevice y = s.isDevice y := rfl
@[simp] theorem advance_byteAt (s : State) (len : Nat) (y : Addr) : (s.advance len).byteAt y = s.byteAt y := rfl
@[simp] theorem advance_reg (s : State) (len : Nat) (k : BitVec 3) : (s.advance len).reg k = s.reg k := rfl
@[simp] theorem advance_readB (s : State) (len : Nat) (k : BitVec 4) : (s.advance len).readB k = s.readB k := rfl
@[simp] theorem advance_readW (s : State) (len : Nat) (k : BitVec 4) : (s.advance len).readW k = s.readW k := rfl
@[simp] theorem advance_readL (s : State) (len : Nat) (k : BitVec 3) : (s.advance len).readL k = s.readL k := rfl
@[simp] theorem advance_flag (s : State) (len : Nat) (g : Flag) : (s.advance len).flag g = s.flag g := rfl

/-! ### `setReg` -/

@[simp] theorem setReg_er (s : State) (n : BitVec 3) (r : Reg) : (s.setReg n r).er = s.er.set n.toNat r n.isLt := rfl
@[simp] theorem setReg_pc (s : State) (n : BitVec 3) (r : Reg) : (s.setReg n r).pc = s.pc := rfl
@[simp] theorem setReg_ccr (s : State) (n : BitVec 3) (r : Reg) : (s.setReg n r).ccr = s.ccr := rfl
@[simp] theorem setReg_ccrDfn (s : State) (n : BitVec 3) (r : Reg) : (s.setReg n r).ccrDfn = s.ccrDfn := rfl
@[simp] theorem setReg_exr (s : State) (n : BitVec 3) (r : Reg) : (s.setReg n r).exr = s.exr := rfl
@[simp] theorem setReg_sleeping (s : State) (n : BitVec 3) (r : Reg) : (s.setReg n r).sleeping = s.sleeping := rfl
@[simp] theorem setReg_irqHold (s : State) (n : BitVec 3) (r : Reg) : (s.setReg n r).irqHold = s.irqHold := rfl
@[simp] theorem setReg_nmiPending (s : State) (n : BitVec 3) (r : Reg) : (s.setReg n r).nmiPending = s.nmiPending := rfl
@[simp] theorem setReg_eepmovActive (s : State) (n : BitVec 3) (r : Reg) : (s.setReg n r).eepmovActive = s.eepmovActive := rfl
@[simp] theorem setReg_fault (s : State) (n : BitVec 3) (r : Reg) : (s.setReg n r).fault = s.fault := rfl
@[simp] theorem setReg_mem (s : State) (n : BitVec 3) (r : Reg) : (s.setReg n r).mem = s.mem := rfl
@[simp] theorem setReg_irq (s : State) (n : BitVec 3) (r : Reg) : (s.setReg n r).irq = s.irq := rfl
@[simp] theorem setReg_resetIn (s : State) (n : BitVec 3) (r : Reg) : (s.setReg n r).resetIn = s.resetIn := rfl
@[simp] theorem setReg_hostMap (s : State) (n : BitVec 3) (r : Reg) : (s.setReg n r).hostMap = s.hostMap := rfl
@[simp] theorem setReg_params (s : State) (n : BitVec 3) (r : Reg) : (s.setReg n r).params = s.params := rfl
@[simp] theorem setReg_fresh (s : State) (n : BitVec 3) (r : Reg) : (s.setReg n r).fresh = s.fresh := rfl
@[simp] theorem setReg_traceDue (s : State) (n : BitVec 3) (r : Reg) : (s.setReg n r).traceDue = s.traceDue := rfl
@[simp] theorem setReg_epoch (s : State) (n : BitVec 3) (r : Reg) : (s.setReg n r).epoch = s.epoch := rfl
@[simp] theorem setReg_addr (s : State) (n : BitVec 3) (r : Reg) (y : Addr) : (s.setReg n r).addr y = s.addr y := rfl
@[simp] theorem setReg_evenAddr (s : State) (n : BitVec 3) (r : Reg) (y : Addr) : (s.setReg n r).evenAddr y = s.evenAddr y := rfl
@[simp] theorem setReg_offset (s : State) (n : BitVec 3) (r : Reg) (y : Addr) (k : Nat) : (s.setReg n r).offset y k = s.offset y k := rfl
@[simp] theorem setReg_canRead (s : State) (n : BitVec 3) (r : Reg) (y : Nat) : (s.setReg n r).canRead y = s.canRead y := rfl
@[simp] theorem setReg_canWrite (s : State) (n : BitVec 3) (r : Reg) (y : Nat) : (s.setReg n r).canWrite y = s.canWrite y := rfl
@[simp] theorem setReg_isDevice (s : State) (n : BitVec 3) (r : Reg) (y : Nat) : (s.setReg n r).isDevice y = s.isDevice y := rfl
@[simp] theorem setReg_byteAt (s : State) (n : BitVec 3) (r : Reg) (y : Addr) : (s.setReg n r).byteAt y = s.byteAt y := rfl
@[simp] theorem setReg_flag (s : State) (n : BitVec 3) (r : Reg) (g : Flag) : (s.setReg n r).flag g = s.flag g := rfl

/-! ### `writeB` -/

@[simp] theorem writeB_pc (s : State) (n : BitVec 4) (v : Byte) : (s.writeB n v).pc = s.pc := rfl
@[simp] theorem writeB_ccr (s : State) (n : BitVec 4) (v : Byte) : (s.writeB n v).ccr = s.ccr := rfl
@[simp] theorem writeB_ccrDfn (s : State) (n : BitVec 4) (v : Byte) : (s.writeB n v).ccrDfn = s.ccrDfn := rfl
@[simp] theorem writeB_exr (s : State) (n : BitVec 4) (v : Byte) : (s.writeB n v).exr = s.exr := rfl
@[simp] theorem writeB_sleeping (s : State) (n : BitVec 4) (v : Byte) : (s.writeB n v).sleeping = s.sleeping := rfl
@[simp] theorem writeB_irqHold (s : State) (n : BitVec 4) (v : Byte) : (s.writeB n v).irqHold = s.irqHold := rfl
@[simp] theorem writeB_nmiPending (s : State) (n : BitVec 4) (v : Byte) : (s.writeB n v).nmiPending = s.nmiPending := rfl
@[simp] theorem writeB_eepmovActive (s : State) (n : BitVec 4) (v : Byte) : (s.writeB n v).eepmovActive = s.eepmovActive := rfl
@[simp] theorem writeB_fault (s : State) (n : BitVec 4) (v : Byte) : (s.writeB n v).fault = s.fault := rfl
@[simp] theorem writeB_mem (s : State) (n : BitVec 4) (v : Byte) : (s.writeB n v).mem = s.mem := rfl
@[simp] theorem writeB_irq (s : State) (n : BitVec 4) (v : Byte) : (s.writeB n v).irq = s.irq := rfl
@[simp] theorem writeB_resetIn (s : State) (n : BitVec 4) (v : Byte) : (s.writeB n v).resetIn = s.resetIn := rfl
@[simp] theorem writeB_hostMap (s : State) (n : BitVec 4) (v : Byte) : (s.writeB n v).hostMap = s.hostMap := rfl
@[simp] theorem writeB_params (s : State) (n : BitVec 4) (v : Byte) : (s.writeB n v).params = s.params := rfl
@[simp] theorem writeB_fresh (s : State) (n : BitVec 4) (v : Byte) : (s.writeB n v).fresh = s.fresh := rfl
@[simp] theorem writeB_traceDue (s : State) (n : BitVec 4) (v : Byte) : (s.writeB n v).traceDue = s.traceDue := rfl
@[simp] theorem writeB_epoch (s : State) (n : BitVec 4) (v : Byte) : (s.writeB n v).epoch = s.epoch := rfl
@[simp] theorem writeB_addr (s : State) (n : BitVec 4) (v : Byte) (y : Addr) : (s.writeB n v).addr y = s.addr y := rfl
@[simp] theorem writeB_evenAddr (s : State) (n : BitVec 4) (v : Byte) (y : Addr) : (s.writeB n v).evenAddr y = s.evenAddr y := rfl
@[simp] theorem writeB_offset (s : State) (n : BitVec 4) (v : Byte) (y : Addr) (k : Nat) : (s.writeB n v).offset y k = s.offset y k := rfl
@[simp] theorem writeB_canRead (s : State) (n : BitVec 4) (v : Byte) (y : Nat) : (s.writeB n v).canRead y = s.canRead y := rfl
@[simp] theorem writeB_canWrite (s : State) (n : BitVec 4) (v : Byte) (y : Nat) : (s.writeB n v).canWrite y = s.canWrite y := rfl
@[simp] theorem writeB_isDevice (s : State) (n : BitVec 4) (v : Byte) (y : Nat) : (s.writeB n v).isDevice y = s.isDevice y := rfl
@[simp] theorem writeB_byteAt (s : State) (n : BitVec 4) (v : Byte) (y : Addr) : (s.writeB n v).byteAt y = s.byteAt y := rfl
@[simp] theorem writeB_flag (s : State) (n : BitVec 4) (v : Byte) (g : Flag) : (s.writeB n v).flag g = s.flag g := rfl

/-! ### `writeW` -/

@[simp] theorem writeW_pc (s : State) (n : BitVec 4) (v : Word) : (s.writeW n v).pc = s.pc := rfl
@[simp] theorem writeW_ccr (s : State) (n : BitVec 4) (v : Word) : (s.writeW n v).ccr = s.ccr := rfl
@[simp] theorem writeW_ccrDfn (s : State) (n : BitVec 4) (v : Word) : (s.writeW n v).ccrDfn = s.ccrDfn := rfl
@[simp] theorem writeW_exr (s : State) (n : BitVec 4) (v : Word) : (s.writeW n v).exr = s.exr := rfl
@[simp] theorem writeW_sleeping (s : State) (n : BitVec 4) (v : Word) : (s.writeW n v).sleeping = s.sleeping := rfl
@[simp] theorem writeW_irqHold (s : State) (n : BitVec 4) (v : Word) : (s.writeW n v).irqHold = s.irqHold := rfl
@[simp] theorem writeW_nmiPending (s : State) (n : BitVec 4) (v : Word) : (s.writeW n v).nmiPending = s.nmiPending := rfl
@[simp] theorem writeW_eepmovActive (s : State) (n : BitVec 4) (v : Word) : (s.writeW n v).eepmovActive = s.eepmovActive := rfl
@[simp] theorem writeW_fault (s : State) (n : BitVec 4) (v : Word) : (s.writeW n v).fault = s.fault := rfl
@[simp] theorem writeW_mem (s : State) (n : BitVec 4) (v : Word) : (s.writeW n v).mem = s.mem := rfl
@[simp] theorem writeW_irq (s : State) (n : BitVec 4) (v : Word) : (s.writeW n v).irq = s.irq := rfl
@[simp] theorem writeW_resetIn (s : State) (n : BitVec 4) (v : Word) : (s.writeW n v).resetIn = s.resetIn := rfl
@[simp] theorem writeW_hostMap (s : State) (n : BitVec 4) (v : Word) : (s.writeW n v).hostMap = s.hostMap := rfl
@[simp] theorem writeW_params (s : State) (n : BitVec 4) (v : Word) : (s.writeW n v).params = s.params := rfl
@[simp] theorem writeW_fresh (s : State) (n : BitVec 4) (v : Word) : (s.writeW n v).fresh = s.fresh := rfl
@[simp] theorem writeW_traceDue (s : State) (n : BitVec 4) (v : Word) : (s.writeW n v).traceDue = s.traceDue := rfl
@[simp] theorem writeW_epoch (s : State) (n : BitVec 4) (v : Word) : (s.writeW n v).epoch = s.epoch := rfl
@[simp] theorem writeW_addr (s : State) (n : BitVec 4) (v : Word) (y : Addr) : (s.writeW n v).addr y = s.addr y := rfl
@[simp] theorem writeW_evenAddr (s : State) (n : BitVec 4) (v : Word) (y : Addr) : (s.writeW n v).evenAddr y = s.evenAddr y := rfl
@[simp] theorem writeW_offset (s : State) (n : BitVec 4) (v : Word) (y : Addr) (k : Nat) : (s.writeW n v).offset y k = s.offset y k := rfl
@[simp] theorem writeW_canRead (s : State) (n : BitVec 4) (v : Word) (y : Nat) : (s.writeW n v).canRead y = s.canRead y := rfl
@[simp] theorem writeW_canWrite (s : State) (n : BitVec 4) (v : Word) (y : Nat) : (s.writeW n v).canWrite y = s.canWrite y := rfl
@[simp] theorem writeW_isDevice (s : State) (n : BitVec 4) (v : Word) (y : Nat) : (s.writeW n v).isDevice y = s.isDevice y := rfl
@[simp] theorem writeW_byteAt (s : State) (n : BitVec 4) (v : Word) (y : Addr) : (s.writeW n v).byteAt y = s.byteAt y := rfl
@[simp] theorem writeW_flag (s : State) (n : BitVec 4) (v : Word) (g : Flag) : (s.writeW n v).flag g = s.flag g := rfl

/-! ### `writeL` -/

@[simp] theorem writeL_pc (s : State) (n : BitVec 3) (v : Long) : (s.writeL n v).pc = s.pc := rfl
@[simp] theorem writeL_ccr (s : State) (n : BitVec 3) (v : Long) : (s.writeL n v).ccr = s.ccr := rfl
@[simp] theorem writeL_ccrDfn (s : State) (n : BitVec 3) (v : Long) : (s.writeL n v).ccrDfn = s.ccrDfn := rfl
@[simp] theorem writeL_exr (s : State) (n : BitVec 3) (v : Long) : (s.writeL n v).exr = s.exr := rfl
@[simp] theorem writeL_sleeping (s : State) (n : BitVec 3) (v : Long) : (s.writeL n v).sleeping = s.sleeping := rfl
@[simp] theorem writeL_irqHold (s : State) (n : BitVec 3) (v : Long) : (s.writeL n v).irqHold = s.irqHold := rfl
@[simp] theorem writeL_nmiPending (s : State) (n : BitVec 3) (v : Long) : (s.writeL n v).nmiPending = s.nmiPending := rfl
@[simp] theorem writeL_eepmovActive (s : State) (n : BitVec 3) (v : Long) : (s.writeL n v).eepmovActive = s.eepmovActive := rfl
@[simp] theorem writeL_fault (s : State) (n : BitVec 3) (v : Long) : (s.writeL n v).fault = s.fault := rfl
@[simp] theorem writeL_mem (s : State) (n : BitVec 3) (v : Long) : (s.writeL n v).mem = s.mem := rfl
@[simp] theorem writeL_irq (s : State) (n : BitVec 3) (v : Long) : (s.writeL n v).irq = s.irq := rfl
@[simp] theorem writeL_resetIn (s : State) (n : BitVec 3) (v : Long) : (s.writeL n v).resetIn = s.resetIn := rfl
@[simp] theorem writeL_hostMap (s : State) (n : BitVec 3) (v : Long) : (s.writeL n v).hostMap = s.hostMap := rfl
@[simp] theorem writeL_params (s : State) (n : BitVec 3) (v : Long) : (s.writeL n v).params = s.params := rfl
@[simp] theorem writeL_fresh (s : State) (n : BitVec 3) (v : Long) : (s.writeL n v).fresh = s.fresh := rfl
@[simp] theorem writeL_traceDue (s : State) (n : BitVec 3) (v : Long) : (s.writeL n v).traceDue = s.traceDue := rfl
@[simp] theorem writeL_epoch (s : State) (n : BitVec 3) (v : Long) : (s.writeL n v).epoch = s.epoch := rfl
@[simp] theorem writeL_addr (s : State) (n : BitVec 3) (v : Long) (y : Addr) : (s.writeL n v).addr y = s.addr y := rfl
@[simp] theorem writeL_evenAddr (s : State) (n : BitVec 3) (v : Long) (y : Addr) : (s.writeL n v).evenAddr y = s.evenAddr y := rfl
@[simp] theorem writeL_offset (s : State) (n : BitVec 3) (v : Long) (y : Addr) (k : Nat) : (s.writeL n v).offset y k = s.offset y k := rfl
@[simp] theorem writeL_canRead (s : State) (n : BitVec 3) (v : Long) (y : Nat) : (s.writeL n v).canRead y = s.canRead y := rfl
@[simp] theorem writeL_canWrite (s : State) (n : BitVec 3) (v : Long) (y : Nat) : (s.writeL n v).canWrite y = s.canWrite y := rfl
@[simp] theorem writeL_isDevice (s : State) (n : BitVec 3) (v : Long) (y : Nat) : (s.writeL n v).isDevice y = s.isDevice y := rfl
@[simp] theorem writeL_byteAt (s : State) (n : BitVec 3) (v : Long) (y : Addr) : (s.writeL n v).byteAt y = s.byteAt y := rfl
@[simp] theorem writeL_flag (s : State) (n : BitVec 3) (v : Long) (g : Flag) : (s.writeL n v).flag g = s.flag g := rfl

/-! ### `setFlag` -/

@[simp] theorem setFlag_er (s : State) (f : Flag) (x : Bool) : (s.setFlag f x).er = s.er := rfl
@[simp] theorem setFlag_pc (s : State) (f : Flag) (x : Bool) : (s.setFlag f x).pc = s.pc := rfl
@[simp] theorem setFlag_ccr (s : State) (f : Flag) (x : Bool) : (s.setFlag f x).ccr = putBit s.ccr f.bit x := rfl
@[simp] theorem setFlag_ccrDfn (s : State) (f : Flag) (x : Bool) : (s.setFlag f x).ccrDfn = putBit s.ccrDfn f.bit true := rfl
@[simp] theorem setFlag_exr (s : State) (f : Flag) (x : Bool) : (s.setFlag f x).exr = s.exr := rfl
@[simp] theorem setFlag_sleeping (s : State) (f : Flag) (x : Bool) : (s.setFlag f x).sleeping = s.sleeping := rfl
@[simp] theorem setFlag_irqHold (s : State) (f : Flag) (x : Bool) : (s.setFlag f x).irqHold = s.irqHold := rfl
@[simp] theorem setFlag_nmiPending (s : State) (f : Flag) (x : Bool) : (s.setFlag f x).nmiPending = s.nmiPending := rfl
@[simp] theorem setFlag_eepmovActive (s : State) (f : Flag) (x : Bool) : (s.setFlag f x).eepmovActive = s.eepmovActive := rfl
@[simp] theorem setFlag_fault (s : State) (f : Flag) (x : Bool) : (s.setFlag f x).fault = s.fault := rfl
@[simp] theorem setFlag_mem (s : State) (f : Flag) (x : Bool) : (s.setFlag f x).mem = s.mem := rfl
@[simp] theorem setFlag_irq (s : State) (f : Flag) (x : Bool) : (s.setFlag f x).irq = s.irq := rfl
@[simp] theorem setFlag_resetIn (s : State) (f : Flag) (x : Bool) : (s.setFlag f x).resetIn = s.resetIn := rfl
@[simp] theorem setFlag_hostMap (s : State) (f : Flag) (x : Bool) : (s.setFlag f x).hostMap = s.hostMap := rfl
@[simp] theorem setFlag_params (s : State) (f : Flag) (x : Bool) : (s.setFlag f x).params = s.params := rfl
@[simp] theorem setFlag_fresh (s : State) (f : Flag) (x : Bool) : (s.setFlag f x).fresh = s.fresh := rfl
@[simp] theorem setFlag_traceDue (s : State) (f : Flag) (x : Bool) : (s.setFlag f x).traceDue = s.traceDue := rfl
@[simp] theorem setFlag_epoch (s : State) (f : Flag) (x : Bool) : (s.setFlag f x).epoch = s.epoch := rfl
@[simp] theorem setFlag_addr (s : State) (f : Flag) (x : Bool) (y : Addr) : (s.setFlag f x).addr y = s.addr y := rfl
@[simp] theorem setFlag_evenAddr (s : State) (f : Flag) (x : Bool) (y : Addr) : (s.setFlag f x).evenAddr y = s.evenAddr y := rfl
@[simp] theorem setFlag_offset (s : State) (f : Flag) (x : Bool) (y : Addr) (k : Nat) : (s.setFlag f x).offset y k = s.offset y k := rfl
@[simp] theorem setFlag_canRead (s : State) (f : Flag) (x : Bool) (y : Nat) : (s.setFlag f x).canRead y = s.canRead y := rfl
@[simp] theorem setFlag_canWrite (s : State) (f : Flag) (x : Bool) (y : Nat) : (s.setFlag f x).canWrite y = s.canWrite y := rfl
@[simp] theorem setFlag_isDevice (s : State) (f : Flag) (x : Bool) (y : Nat) : (s.setFlag f x).isDevice y = s.isDevice y := rfl
@[simp] theorem setFlag_byteAt (s : State) (f : Flag) (x : Bool) (y : Addr) : (s.setFlag f x).byteAt y = s.byteAt y := rfl
@[simp] theorem setFlag_reg (s : State) (f : Flag) (x : Bool) (k : BitVec 3) : (s.setFlag f x).reg k = s.reg k := rfl
@[simp] theorem setFlag_readB (s : State) (f : Flag) (x : Bool) (k : BitVec 4) : (s.setFlag f x).readB k = s.readB k := rfl
@[simp] theorem setFlag_readW (s : State) (f : Flag) (x : Bool) (k : BitVec 4) : (s.setFlag f x).readW k = s.readW k := rfl
@[simp] theorem setFlag_readL (s : State) (f : Flag) (x : Bool) (k : BitVec 3) : (s.setFlag f x).readL k = s.readL k := rfl

/-! ### `setNZ` -/

@[simp] theorem setNZ_er (s : State) (n z : Bool) : (s.setNZ n z).er = s.er := rfl
@[simp] theorem setNZ_pc (s : State) (n z : Bool) : (s.setNZ n z).pc = s.pc := rfl
@[simp] theorem setNZ_exr (s : State) (n z : Bool) : (s.setNZ n z).exr = s.exr := rfl
@[simp] theorem setNZ_sleeping (s : State) (n z : Bool) : (s.setNZ n z).sleeping = s.sleeping := rfl
@[simp] theorem setNZ_irqHold (s : State) (n z : Bool) : (s.setNZ n z).irqHold = s.irqHold := rfl
@[simp] theorem setNZ_nmiPending (s : State) (n z : Bool) : (s.setNZ n z).nmiPending = s.nmiPending := rfl
@[simp] theorem setNZ_eepmovActive (s : State) (n z : Bool) : (s.setNZ n z).eepmovActive = s.eepmovActive := rfl
@[simp] theorem setNZ_fault (s : State) (n z : Bool) : (s.setNZ n z).fault = s.fault := rfl
@[simp] theorem setNZ_mem (s : State) (n z : Bool) : (s.setNZ n z).mem = s.mem := rfl
@[simp] theorem setNZ_irq (s : State) (n z : Bool) : (s.setNZ n z).irq = s.irq := rfl
@[simp] theorem setNZ_resetIn (s : State) (n z : Bool) : (s.setNZ n z).resetIn = s.resetIn := rfl
@[simp] theorem setNZ_hostMap (s : State) (n z : Bool) : (s.setNZ n z).hostMap = s.hostMap := rfl
@[simp] theorem setNZ_params (s : State) (n z : Bool) : (s.setNZ n z).params = s.params := rfl
@[simp] theorem setNZ_fresh (s : State) (n z : Bool) : (s.setNZ n z).fresh = s.fresh := rfl
@[simp] theorem setNZ_traceDue (s : State) (n z : Bool) : (s.setNZ n z).traceDue = s.traceDue := rfl
@[simp] theorem setNZ_epoch (s : State) (n z : Bool) : (s.setNZ n z).epoch = s.epoch := rfl
@[simp] theorem setNZ_addr (s : State) (n z : Bool) (y : Addr) : (s.setNZ n z).addr y = s.addr y := rfl
@[simp] theorem setNZ_evenAddr (s : State) (n z : Bool) (y : Addr) : (s.setNZ n z).evenAddr y = s.evenAddr y := rfl
@[simp] theorem setNZ_offset (s : State) (n z : Bool) (y : Addr) (k : Nat) : (s.setNZ n z).offset y k = s.offset y k := rfl
@[simp] theorem setNZ_canRead (s : State) (n z : Bool) (y : Nat) : (s.setNZ n z).canRead y = s.canRead y := rfl
@[simp] theorem setNZ_canWrite (s : State) (n z : Bool) (y : Nat) : (s.setNZ n z).canWrite y = s.canWrite y := rfl
@[simp] theorem setNZ_isDevice (s : State) (n z : Bool) (y : Nat) : (s.setNZ n z).isDevice y = s.isDevice y := rfl
@[simp] theorem setNZ_byteAt (s : State) (n z : Bool) (y : Addr) : (s.setNZ n z).byteAt y = s.byteAt y := rfl
@[simp] theorem setNZ_reg (s : State) (n z : Bool) (k : BitVec 3) : (s.setNZ n z).reg k = s.reg k := rfl
@[simp] theorem setNZ_readB (s : State) (n z : Bool) (k : BitVec 4) : (s.setNZ n z).readB k = s.readB k := rfl
@[simp] theorem setNZ_readW (s : State) (n z : Bool) (k : BitVec 4) : (s.setNZ n z).readW k = s.readW k := rfl
@[simp] theorem setNZ_readL (s : State) (n z : Bool) (k : BitVec 3) : (s.setNZ n z).readL k = s.readL k := rfl

/-! ### `setNZV` -/

@[simp] theorem setNZV_er (s : State) (n z v : Bool) : (s.setNZV n z v).er = s.er := rfl
@[simp] theorem setNZV_pc (s : State) (n z v : Bool) : (s.setNZV n z v).pc = s.pc := rfl
@[simp] theorem setNZV_exr (s : State) (n z v : Bool) : (s.setNZV n z v).exr = s.exr := rfl
@[simp] theorem setNZV_sleeping (s : State) (n z v : Bool) : (s.setNZV n z v).sleeping = s.sleeping := rfl
@[simp] theorem setNZV_irqHold (s : State) (n z v : Bool) : (s.setNZV n z v).irqHold = s.irqHold := rfl
@[simp] theorem setNZV_nmiPending (s : State) (n z v : Bool) : (s.setNZV n z v).nmiPending = s.nmiPending := rfl
@[simp] theorem setNZV_eepmovActive (s : State) (n z v : Bool) : (s.setNZV n z v).eepmovActive = s.eepmovActive := rfl
@[simp] theorem setNZV_fault (s : State) (n z v : Bool) : (s.setNZV n z v).fault = s.fault := rfl
@[simp] theorem setNZV_mem (s : State) (n z v : Bool) : (s.setNZV n z v).mem = s.mem := rfl
@[simp] theorem setNZV_irq (s : State) (n z v : Bool) : (s.setNZV n z v).irq = s.irq := rfl
@[simp] theorem setNZV_resetIn (s : State) (n z v : Bool) : (s.setNZV n z v).resetIn = s.resetIn := rfl
@[simp] theorem setNZV_hostMap (s : State) (n z v : Bool) : (s.setNZV n z v).hostMap = s.hostMap := rfl
@[simp] theorem setNZV_params (s : State) (n z v : Bool) : (s.setNZV n z v).params = s.params := rfl
@[simp] theorem setNZV_fresh (s : State) (n z v : Bool) : (s.setNZV n z v).fresh = s.fresh := rfl
@[simp] theorem setNZV_traceDue (s : State) (n z v : Bool) : (s.setNZV n z v).traceDue = s.traceDue := rfl
@[simp] theorem setNZV_epoch (s : State) (n z v : Bool) : (s.setNZV n z v).epoch = s.epoch := rfl
@[simp] theorem setNZV_addr (s : State) (n z v : Bool) (y : Addr) : (s.setNZV n z v).addr y = s.addr y := rfl
@[simp] theorem setNZV_evenAddr (s : State) (n z v : Bool) (y : Addr) : (s.setNZV n z v).evenAddr y = s.evenAddr y := rfl
@[simp] theorem setNZV_offset (s : State) (n z v : Bool) (y : Addr) (k : Nat) : (s.setNZV n z v).offset y k = s.offset y k := rfl
@[simp] theorem setNZV_canRead (s : State) (n z v : Bool) (y : Nat) : (s.setNZV n z v).canRead y = s.canRead y := rfl
@[simp] theorem setNZV_canWrite (s : State) (n z v : Bool) (y : Nat) : (s.setNZV n z v).canWrite y = s.canWrite y := rfl
@[simp] theorem setNZV_isDevice (s : State) (n z v : Bool) (y : Nat) : (s.setNZV n z v).isDevice y = s.isDevice y := rfl
@[simp] theorem setNZV_byteAt (s : State) (n z v : Bool) (y : Addr) : (s.setNZV n z v).byteAt y = s.byteAt y := rfl
@[simp] theorem setNZV_reg (s : State) (n z v : Bool) (k : BitVec 3) : (s.setNZV n z v).reg k = s.reg k := rfl
@[simp] theorem setNZV_readB (s : State) (n z v : Bool) (k : BitVec 4) : (s.setNZV n z v).readB k = s.readB k := rfl
@[simp] theorem setNZV_readW (s : State) (n z v : Bool) (k : BitVec 4) : (s.setNZV n z v).readW k = s.readW k := rfl
@[simp] theorem setNZV_readL (s : State) (n z v : Bool) (k : BitVec 3) : (s.setNZV n z v).readL k = s.readL k := rfl

/-! ### `setFlags` -/

@[simp] theorem setFlags_er (s : State) (f : Flags) : (s.setFlags f).er = s.er := rfl
@[simp] theorem setFlags_pc (s : State) (f : Flags) : (s.setFlags f).pc = s.pc := rfl
@[simp] theorem setFlags_exr (s : State) (f : Flags) : (s.setFlags f).exr = s.exr := rfl
@[simp] theorem setFlags_sleeping (s : State) (f : Flags) : (s.setFlags f).sleeping = s.sleeping := rfl
@[simp] theorem setFlags_irqHold (s : State) (f : Flags) : (s.setFlags f).irqHold = s.irqHold := rfl
@[simp] theorem setFlags_nmiPending (s : State) (f : Flags) : (s.setFlags f).nmiPending = s.nmiPending := rfl
@[simp] theorem setFlags_eepmovActive (s : State) (f : Flags) : (s.setFlags f).eepmovActive = s.eepmovActive := rfl
@[simp] theorem setFlags_fault (s : State) (f : Flags) : (s.setFlags f).fault = s.fault := rfl
@[simp] theorem setFlags_mem (s : State) (f : Flags) : (s.setFlags f).mem = s.mem := rfl
@[simp] theorem setFlags_irq (s : State) (f : Flags) : (s.setFlags f).irq = s.irq := rfl
@[simp] theorem setFlags_resetIn (s : State) (f : Flags) : (s.setFlags f).resetIn = s.resetIn := rfl
@[simp] theorem setFlags_hostMap (s : State) (f : Flags) : (s.setFlags f).hostMap = s.hostMap := rfl
@[simp] theorem setFlags_params (s : State) (f : Flags) : (s.setFlags f).params = s.params := rfl
@[simp] theorem setFlags_fresh (s : State) (f : Flags) : (s.setFlags f).fresh = s.fresh := rfl
@[simp] theorem setFlags_traceDue (s : State) (f : Flags) : (s.setFlags f).traceDue = s.traceDue := rfl
@[simp] theorem setFlags_epoch (s : State) (f : Flags) : (s.setFlags f).epoch = s.epoch := rfl
@[simp] theorem setFlags_addr (s : State) (f : Flags) (y : Addr) : (s.setFlags f).addr y = s.addr y := rfl
@[simp] theorem setFlags_evenAddr (s : State) (f : Flags) (y : Addr) : (s.setFlags f).evenAddr y = s.evenAddr y := rfl
@[simp] theorem setFlags_offset (s : State) (f : Flags) (y : Addr) (k : Nat) : (s.setFlags f).offset y k = s.offset y k := rfl
@[simp] theorem setFlags_canRead (s : State) (f : Flags) (y : Nat) : (s.setFlags f).canRead y = s.canRead y := rfl
@[simp] theorem setFlags_canWrite (s : State) (f : Flags) (y : Nat) : (s.setFlags f).canWrite y = s.canWrite y := rfl
@[simp] theorem setFlags_isDevice (s : State) (f : Flags) (y : Nat) : (s.setFlags f).isDevice y = s.isDevice y := rfl
@[simp] theorem setFlags_byteAt (s : State) (f : Flags) (y : Addr) : (s.setFlags f).byteAt y = s.byteAt y := rfl
@[simp] theorem setFlags_reg (s : State) (f : Flags) (k : BitVec 3) : (s.setFlags f).reg k = s.reg k := rfl
@[simp] theorem setFlags_readB (s : State) (f : Flags) (k : BitVec 4) : (s.setFlags f).readB k = s.readB k := rfl
@[simp] theorem setFlags_readW (s : State) (f : Flags) (k : BitVec 4) : (s.setFlags f).readW k = s.readW k := rfl
@[simp] theorem setFlags_readL (s : State) (f : Flags) (k : BitVec 3) : (s.setFlags f).readL k = s.readL k := rfl

/-! ### `setNZ0` -/

@[simp] theorem setNZ0_er (s : State) {w : Nat} (v : BitVec w) : (s.setNZ0 v).er = s.er := rfl
@[simp] theorem setNZ0_pc (s : State) {w : Nat} (v : BitVec w) : (s.setNZ0 v).pc = s.pc := rfl
@[simp] theorem setNZ0_exr (s : State) {w : Nat} (v : BitVec w) : (s.setNZ0 v).exr = s.exr := rfl
@[simp] theorem setNZ0_sleeping (s : State) {w : Nat} (v : BitVec w) : (s.setNZ0 v).sleeping = s.sleeping := rfl
@[simp] theorem setNZ0_irqHold (s : State) {w : Nat} (v : BitVec w) : (s.setNZ0 v).irqHold = s.irqHold := rfl
@[simp] theorem setNZ0_nmiPending (s : State) {w : Nat} (v : BitVec w) : (s.setNZ0 v).nmiPending = s.nmiPending := rfl
@[simp] theorem setNZ0_eepmovActive (s : State) {w : Nat} (v : BitVec w) : (s.setNZ0 v).eepmovActive = s.eepmovActive := rfl
@[simp] theorem setNZ0_fault (s : State) {w : Nat} (v : BitVec w) : (s.setNZ0 v).fault = s.fault := rfl
@[simp] theorem setNZ0_mem (s : State) {w : Nat} (v : BitVec w) : (s.setNZ0 v).mem = s.mem := rfl
@[simp] theorem setNZ0_irq (s : State) {w : Nat} (v : BitVec w) : (s.setNZ0 v).irq = s.irq := rfl
@[simp] theorem setNZ0_resetIn (s : State) {w : Nat} (v : BitVec w) : (s.setNZ0 v).resetIn = s.resetIn := rfl
@[simp] theorem setNZ0_hostMap (s : State) {w : Nat} (v : BitVec w) : (s.setNZ0 v).hostMap = s.hostMap := rfl
@[simp] theorem setNZ0_params (s : State) {w : Nat} (v : BitVec w) : (s.setNZ0 v).params = s.params := rfl
@[simp] theorem setNZ0_fresh (s : State) {w : Nat} (v : BitVec w) : (s.setNZ0 v).fresh = s.fresh := rfl
@[simp] theorem setNZ0_traceDue (s : State) {w : Nat} (v : BitVec w) : (s.setNZ0 v).traceDue = s.traceDue := rfl
@[simp] theorem setNZ0_epoch (s : State) {w : Nat} (v : BitVec w) : (s.setNZ0 v).epoch = s.epoch := rfl
@[simp] theorem setNZ0_addr (s : State) {w : Nat} (v : BitVec w) (y : Addr) : (s.setNZ0 v).addr y = s.addr y := rfl
@[simp] theorem setNZ0_evenAddr (s : State) {w : Nat} (v : BitVec w) (y : Addr) : (s.setNZ0 v).evenAddr y = s.evenAddr y := rfl
@[simp] theorem setNZ0_offset (s : State) {w : Nat} (v : BitVec w) (y : Addr) (k : Nat) : (s.setNZ0 v).offset y k = s.offset y k := rfl
@[simp] theorem setNZ0_canRead (s : State) {w : Nat} (v : BitVec w) (y : Nat) : (s.setNZ0 v).canRead y = s.canRead y := rfl
@[simp] theorem setNZ0_canWrite (s : State) {w : Nat} (v : BitVec w) (y : Nat) : (s.setNZ0 v).canWrite y = s.canWrite y := rfl
@[simp] theorem setNZ0_isDevice (s : State) {w : Nat} (v : BitVec w) (y : Nat) : (s.setNZ0 v).isDevice y = s.isDevice y := rfl
@[simp] theorem setNZ0_byteAt (s : State) {w : Nat} (v : BitVec w) (y : Addr) : (s.setNZ0 v).byteAt y = s.byteAt y := rfl
@[simp] theorem setNZ0_reg (s : State) {w : Nat} (v : BitVec w) (k : BitVec 3) : (s.setNZ0 v).reg k = s.reg k := rfl
@[simp] theorem setNZ0_readB (s : State) {w : Nat} (v : BitVec w) (k : BitVec 4) : (s.setNZ0 v).readB k = s.readB k := rfl
@[simp] theorem setNZ0_readW (s : State) {w : Nat} (v : BitVec w) (k : BitVec 4) : (s.setNZ0 v).readW k = s.readW k := rfl
@[simp] theorem setNZ0_readL (s : State) {w : Nat} (v : BitVec w) (k : BitVec 3) : (s.setNZ0 v).readL k = s.readL k := rfl

/-! ### `writeCcr` -/

@[simp] theorem writeCcr_er (s : State) (v : Byte) : (s.writeCcr v).er = s.er := rfl
@[simp] theorem writeCcr_pc (s : State) (v : Byte) : (s.writeCcr v).pc = s.pc := rfl
@[simp] theorem writeCcr_ccr (s : State) (v : Byte) : (s.writeCcr v).ccr = v := rfl
@[simp] theorem writeCcr_ccrDfn (s : State) (v : Byte) : (s.writeCcr v).ccrDfn = 0xFF := rfl
@[simp] theorem writeCcr_exr (s : State) (v : Byte) : (s.writeCcr v).exr = s.exr := rfl
@[simp] theorem writeCcr_sleeping (s : State) (v : Byte) : (s.writeCcr v).sleeping = s.sleeping := rfl
@[simp] theorem writeCcr_irqHold (s : State) (v : Byte) : (s.writeCcr v).irqHold = s.irqHold := rfl
@[simp] theorem writeCcr_nmiPending (s : State) (v : Byte) : (s.writeCcr v).nmiPending = s.nmiPending := rfl
@[simp] theorem writeCcr_eepmovActive (s : State) (v : Byte) : (s.writeCcr v).eepmovActive = s.eepmovActive := rfl
@[simp] theorem writeCcr_fault (s : State) (v : Byte) : (s.writeCcr v).fault = s.fault := rfl
@[simp] theorem writeCcr_mem (s : State) (v : Byte) : (s.writeCcr v).mem = s.mem := rfl
@[simp] theorem writeCcr_irq (s : State) (v : Byte) : (s.writeCcr v).irq = s.irq := rfl
@[simp] theorem writeCcr_resetIn (s : State) (v : Byte) : (s.writeCcr v).resetIn = s.resetIn := rfl
@[simp] theorem writeCcr_hostMap (s : State) (v : Byte) : (s.writeCcr v).hostMap = s.hostMap := rfl
@[simp] theorem writeCcr_params (s : State) (v : Byte) : (s.writeCcr v).params = s.params := rfl
@[simp] theorem writeCcr_fresh (s : State) (v : Byte) : (s.writeCcr v).fresh = s.fresh := rfl
@[simp] theorem writeCcr_traceDue (s : State) (v : Byte) : (s.writeCcr v).traceDue = s.traceDue := rfl
@[simp] theorem writeCcr_epoch (s : State) (v : Byte) : (s.writeCcr v).epoch = s.epoch := rfl
@[simp] theorem writeCcr_addr (s : State) (v : Byte) (y : Addr) : (s.writeCcr v).addr y = s.addr y := rfl
@[simp] theorem writeCcr_evenAddr (s : State) (v : Byte) (y : Addr) : (s.writeCcr v).evenAddr y = s.evenAddr y := rfl
@[simp] theorem writeCcr_offset (s : State) (v : Byte) (y : Addr) (k : Nat) : (s.writeCcr v).offset y k = s.offset y k := rfl
@[simp] theorem writeCcr_canRead (s : State) (v : Byte) (y : Nat) : (s.writeCcr v).canRead y = s.canRead y := rfl
@[simp] theorem writeCcr_canWrite (s : State) (v : Byte) (y : Nat) : (s.writeCcr v).canWrite y = s.canWrite y := rfl
@[simp] theorem writeCcr_isDevice (s : State) (v : Byte) (y : Nat) : (s.writeCcr v).isDevice y = s.isDevice y := rfl
@[simp] theorem writeCcr_byteAt (s : State) (v : Byte) (y : Addr) : (s.writeCcr v).byteAt y = s.byteAt y := rfl
@[simp] theorem writeCcr_reg (s : State) (v : Byte) (k : BitVec 3) : (s.writeCcr v).reg k = s.reg k := rfl
@[simp] theorem writeCcr_readB (s : State) (v : Byte) (k : BitVec 4) : (s.writeCcr v).readB k = s.readB k := rfl
@[simp] theorem writeCcr_readW (s : State) (v : Byte) (k : BitVec 4) : (s.writeCcr v).readW k = s.readW k := rfl
@[simp] theorem writeCcr_readL (s : State) (v : Byte) (k : BitVec 3) : (s.writeCcr v).readL k = s.readL k := rfl

/-! ### `writeExr` -/

@[simp] theorem writeExr_er (s : State) (v : Byte) : (s.writeExr v).er = s.er := rfl
@[simp] theorem writeExr_pc (s : State) (v : Byte) : (s.writeExr v).pc = s.pc := rfl
@[simp] theorem writeExr_ccr (s : State) (v : Byte) : (s.writeExr v).ccr = s.ccr := rfl
@[simp] theorem writeExr_ccrDfn (s : State) (v : Byte) : (s.writeExr v).ccrDfn = s.ccrDfn := rfl
@[simp] theorem writeExr_exr (s : State) (v : Byte) : (s.writeExr v).exr = exrStored v := rfl
@[simp] theorem writeExr_sleeping (s : State) (v : Byte) : (s.writeExr v).sleeping = s.sleeping := rfl
@[simp] theorem writeExr_irqHold (s : State) (v : Byte) : (s.writeExr v).irqHold = s.irqHold := rfl
@[simp] theorem writeExr_nmiPending (s : State) (v : Byte) : (s.writeExr v).nmiPending = s.nmiPending := rfl
@[simp] theorem writeExr_eepmovActive (s : State) (v : Byte) : (s.writeExr v).eepmovActive = s.eepmovActive := rfl
@[simp] theorem writeExr_fault (s : State) (v : Byte) : (s.writeExr v).fault = s.fault := rfl
@[simp] theorem writeExr_mem (s : State) (v : Byte) : (s.writeExr v).mem = s.mem := rfl
@[simp] theorem writeExr_irq (s : State) (v : Byte) : (s.writeExr v).irq = s.irq := rfl
@[simp] theorem writeExr_resetIn (s : State) (v : Byte) : (s.writeExr v).resetIn = s.resetIn := rfl
@[simp] theorem writeExr_hostMap (s : State) (v : Byte) : (s.writeExr v).hostMap = s.hostMap := rfl
@[simp] theorem writeExr_params (s : State) (v : Byte) : (s.writeExr v).params = s.params := rfl
@[simp] theorem writeExr_fresh (s : State) (v : Byte) : (s.writeExr v).fresh = s.fresh := rfl
@[simp] theorem writeExr_traceDue (s : State) (v : Byte) : (s.writeExr v).traceDue = s.traceDue := rfl
@[simp] theorem writeExr_epoch (s : State) (v : Byte) : (s.writeExr v).epoch = s.epoch := rfl
@[simp] theorem writeExr_addr (s : State) (v : Byte) (y : Addr) : (s.writeExr v).addr y = s.addr y := rfl
@[simp] theorem writeExr_evenAddr (s : State) (v : Byte) (y : Addr) : (s.writeExr v).evenAddr y = s.evenAddr y := rfl
@[simp] theorem writeExr_offset (s : State) (v : Byte) (y : Addr) (k : Nat) : (s.writeExr v).offset y k = s.offset y k := rfl
@[simp] theorem writeExr_canRead (s : State) (v : Byte) (y : Nat) : (s.writeExr v).canRead y = s.canRead y := rfl
@[simp] theorem writeExr_canWrite (s : State) (v : Byte) (y : Nat) : (s.writeExr v).canWrite y = s.canWrite y := rfl
@[simp] theorem writeExr_isDevice (s : State) (v : Byte) (y : Nat) : (s.writeExr v).isDevice y = s.isDevice y := rfl
@[simp] theorem writeExr_byteAt (s : State) (v : Byte) (y : Addr) : (s.writeExr v).byteAt y = s.byteAt y := rfl
@[simp] theorem writeExr_reg (s : State) (v : Byte) (k : BitVec 3) : (s.writeExr v).reg k = s.reg k := rfl
@[simp] theorem writeExr_readB (s : State) (v : Byte) (k : BitVec 4) : (s.writeExr v).readB k = s.readB k := rfl
@[simp] theorem writeExr_readW (s : State) (v : Byte) (k : BitVec 4) : (s.writeExr v).readW k = s.readW k := rfl
@[simp] theorem writeExr_readL (s : State) (v : Byte) (k : BitVec 3) : (s.writeExr v).readL k = s.readL k := rfl
@[simp] theorem writeExr_flag (s : State) (v : Byte) (g : Flag) : (s.writeExr v).flag g = s.flag g := rfl

/-! ### `shadow` -/

@[simp] theorem shadow_er (s : State) : (s.shadow).er = s.er := rfl
@[simp] theorem shadow_pc (s : State) : (s.shadow).pc = s.pc := rfl
@[simp] theorem shadow_ccr (s : State) : (s.shadow).ccr = s.ccr := rfl
@[simp] theorem shadow_ccrDfn (s : State) : (s.shadow).ccrDfn = s.ccrDfn := rfl
@[simp] theorem shadow_exr (s : State) : (s.shadow).exr = s.exr := rfl
@[simp] theorem shadow_sleeping (s : State) : (s.shadow).sleeping = s.sleeping := rfl
@[simp] theorem shadow_irqHold (s : State) : (s.shadow).irqHold = (s.irqHold || s.params.irqShadow) := rfl
@[simp] theorem shadow_nmiPending (s : State) : (s.shadow).nmiPending = s.nmiPending := rfl
@[simp] theorem shadow_eepmovActive (s : State) : (s.shadow).eepmovActive = s.eepmovActive := rfl
@[simp] theorem shadow_fault (s : State) : (s.shadow).fault = s.fault := rfl
@[simp] theorem shadow_mem (s : State) : (s.shadow).mem = s.mem := rfl
@[simp] theorem shadow_irq (s : State) : (s.shadow).irq = s.irq := rfl
@[simp] theorem shadow_resetIn (s : State) : (s.shadow).resetIn = s.resetIn := rfl
@[simp] theorem shadow_hostMap (s : State) : (s.shadow).hostMap = s.hostMap := rfl
@[simp] theorem shadow_params (s : State) : (s.shadow).params = s.params := rfl
@[simp] theorem shadow_fresh (s : State) : (s.shadow).fresh = s.fresh := rfl
@[simp] theorem shadow_traceDue (s : State) : (s.shadow).traceDue = s.traceDue := rfl
@[simp] theorem shadow_epoch (s : State) : (s.shadow).epoch = s.epoch := rfl
@[simp] theorem shadow_addr (s : State) (y : Addr) : (s.shadow).addr y = s.addr y := rfl
@[simp] theorem shadow_evenAddr (s : State) (y : Addr) : (s.shadow).evenAddr y = s.evenAddr y := rfl
@[simp] theorem shadow_offset (s : State) (y : Addr) (k : Nat) : (s.shadow).offset y k = s.offset y k := rfl
@[simp] theorem shadow_canRead (s : State) (y : Nat) : (s.shadow).canRead y = s.canRead y := rfl
@[simp] theorem shadow_canWrite (s : State) (y : Nat) : (s.shadow).canWrite y = s.canWrite y := rfl
@[simp] theorem shadow_isDevice (s : State) (y : Nat) : (s.shadow).isDevice y = s.isDevice y := rfl
@[simp] theorem shadow_byteAt (s : State) (y : Addr) : (s.shadow).byteAt y = s.byteAt y := rfl
@[simp] theorem shadow_reg (s : State) (k : BitVec 3) : (s.shadow).reg k = s.reg k := rfl
@[simp] theorem shadow_readB (s : State) (k : BitVec 4) : (s.shadow).readB k = s.readB k := rfl
@[simp] theorem shadow_readW (s : State) (k : BitVec 4) : (s.shadow).readW k = s.readW k := rfl
@[simp] theorem shadow_readL (s : State) (k : BitVec 3) : (s.shadow).readL k = s.readL k := rfl
@[simp] theorem shadow_flag (s : State) (g : Flag) : (s.shadow).flag g = s.flag g := rfl

/-! ### `setMem` -/

@[simp] theorem setMem_er (s : State) (m : Memory) : (s.setMem m).er = s.er := rfl
@[simp] theorem setMem_pc (s : State) (m : Memory) : (s.setMem m).pc = s.pc := rfl
@[simp] theorem setMem_ccr (s : State) (m : Memory) : (s.setMem m).ccr = s.ccr := rfl
@[simp] theorem setMem_ccrDfn (s : State) (m : Memory) : (s.setMem m).ccrDfn = s.ccrDfn := rfl
@[simp] theorem setMem_exr (s : State) (m : Memory) : (s.setMem m).exr = s.exr := rfl
@[simp] theorem setMem_sleeping (s : State) (m : Memory) : (s.setMem m).sleeping = s.sleeping := rfl
@[simp] theorem setMem_irqHold (s : State) (m : Memory) : (s.setMem m).irqHold = s.irqHold := rfl
@[simp] theorem setMem_nmiPending (s : State) (m : Memory) : (s.setMem m).nmiPending = s.nmiPending := rfl
@[simp] theorem setMem_eepmovActive (s : State) (m : Memory) : (s.setMem m).eepmovActive = s.eepmovActive := rfl
@[simp] theorem setMem_fault (s : State) (m : Memory) : (s.setMem m).fault = s.fault := rfl
@[simp] theorem setMem_mem (s : State) (m : Memory) : (s.setMem m).mem = m := rfl
@[simp] theorem setMem_irq (s : State) (m : Memory) : (s.setMem m).irq = s.irq := rfl
@[simp] theorem setMem_resetIn (s : State) (m : Memory) : (s.setMem m).resetIn = s.resetIn := rfl
@[simp] theorem setMem_hostMap (s : State) (m : Memory) : (s.setMem m).hostMap = s.hostMap := rfl
@[simp] theorem setMem_params (s : State) (m : Memory) : (s.setMem m).params = s.params := rfl
@[simp] theorem setMem_fresh (s : State) (m : Memory) : (s.setMem m).fresh = s.fresh := rfl
@[simp] theorem setMem_traceDue (s : State) (m : Memory) : (s.setMem m).traceDue = s.traceDue := rfl
@[simp] theorem setMem_epoch (s : State) (m : Memory) : (s.setMem m).epoch = s.epoch := rfl
@[simp] theorem setMem_addr (s : State) (m : Memory) (y : Addr) : (s.setMem m).addr y = s.addr y := rfl
@[simp] theorem setMem_evenAddr (s : State) (m : Memory) (y : Addr) : (s.setMem m).evenAddr y = s.evenAddr y := rfl
@[simp] theorem setMem_offset (s : State) (m : Memory) (y : Addr) (k : Nat) : (s.setMem m).offset y k = s.offset y k := rfl
@[simp] theorem setMem_canRead (s : State) (m : Memory) (y : Nat) : (s.setMem m).canRead y = s.canRead y := rfl
@[simp] theorem setMem_canWrite (s : State) (m : Memory) (y : Nat) : (s.setMem m).canWrite y = s.canWrite y := rfl
@[simp] theorem setMem_isDevice (s : State) (m : Memory) (y : Nat) : (s.setMem m).isDevice y = s.isDevice y := rfl
@[simp] theorem setMem_reg (s : State) (m : Memory) (k : BitVec 3) : (s.setMem m).reg k = s.reg k := rfl
@[simp] theorem setMem_readB (s : State) (m : Memory) (k : BitVec 4) : (s.setMem m).readB k = s.readB k := rfl
@[simp] theorem setMem_readW (s : State) (m : Memory) (k : BitVec 4) : (s.setMem m).readW k = s.readW k := rfl
@[simp] theorem setMem_readL (s : State) (m : Memory) (k : BitVec 3) : (s.setMem m).readL k = s.readL k := rfl
@[simp] theorem setMem_flag (s : State) (m : Memory) (g : Flag) : (s.setMem m).flag g = s.flag g := rfl

/-! ### `setMoving` -/

@[simp] theorem setMoving_er (s : State) (x : Bool) : (s.setMoving x).er = s.er := rfl
@[simp] theorem setMoving_pc (s : State) (x : Bool) : (s.setMoving x).pc = s.pc := rfl
@[simp] theorem setMoving_ccr (s : State) (x : Bool) : (s.setMoving x).ccr = s.ccr := rfl
@[simp] theorem setMoving_ccrDfn (s : State) (x : Bool) : (s.setMoving x).ccrDfn = s.ccrDfn := rfl
@[simp] theorem setMoving_exr (s : State) (x : Bool) : (s.setMoving x).exr = s.exr := rfl
@[simp] theorem setMoving_sleeping (s : State) (x : Bool) : (s.setMoving x).sleeping = s.sleeping := rfl
@[simp] theorem setMoving_irqHold (s : State) (x : Bool) : (s.setMoving x).irqHold = s.irqHold := rfl
@[simp] theorem setMoving_nmiPending (s : State) (x : Bool) : (s.setMoving x).nmiPending = s.nmiPending := rfl
@[simp] theorem setMoving_eepmovActive (s : State) (x : Bool) : (s.setMoving x).eepmovActive = x := rfl
@[simp] theorem setMoving_fault (s : State) (x : Bool) : (s.setMoving x).fault = s.fault := rfl
@[simp] theorem setMoving_mem (s : State) (x : Bool) : (s.setMoving x).mem = s.mem := rfl
@[simp] theorem setMoving_irq (s : State) (x : Bool) : (s.setMoving x).irq = s.irq := rfl
@[simp] theorem setMoving_resetIn (s : State) (x : Bool) : (s.setMoving x).resetIn = s.resetIn := rfl
@[simp] theorem setMoving_hostMap (s : State) (x : Bool) : (s.setMoving x).hostMap = s.hostMap := rfl
@[simp] theorem setMoving_params (s : State) (x : Bool) : (s.setMoving x).params = s.params := rfl
@[simp] theorem setMoving_fresh (s : State) (x : Bool) : (s.setMoving x).fresh = s.fresh := rfl
@[simp] theorem setMoving_traceDue (s : State) (x : Bool) : (s.setMoving x).traceDue = s.traceDue := rfl
@[simp] theorem setMoving_epoch (s : State) (x : Bool) : (s.setMoving x).epoch = s.epoch := rfl
@[simp] theorem setMoving_addr (s : State) (x : Bool) (y : Addr) : (s.setMoving x).addr y = s.addr y := rfl
@[simp] theorem setMoving_evenAddr (s : State) (x : Bool) (y : Addr) : (s.setMoving x).evenAddr y = s.evenAddr y := rfl
@[simp] theorem setMoving_offset (s : State) (x : Bool) (y : Addr) (k : Nat) : (s.setMoving x).offset y k = s.offset y k := rfl
@[simp] theorem setMoving_canRead (s : State) (x : Bool) (y : Nat) : (s.setMoving x).canRead y = s.canRead y := rfl
@[simp] theorem setMoving_canWrite (s : State) (x : Bool) (y : Nat) : (s.setMoving x).canWrite y = s.canWrite y := rfl
@[simp] theorem setMoving_isDevice (s : State) (x : Bool) (y : Nat) : (s.setMoving x).isDevice y = s.isDevice y := rfl
@[simp] theorem setMoving_byteAt (s : State) (x : Bool) (y : Addr) : (s.setMoving x).byteAt y = s.byteAt y := rfl
@[simp] theorem setMoving_reg (s : State) (x : Bool) (k : BitVec 3) : (s.setMoving x).reg k = s.reg k := rfl
@[simp] theorem setMoving_readB (s : State) (x : Bool) (k : BitVec 4) : (s.setMoving x).readB k = s.readB k := rfl
@[simp] theorem setMoving_readW (s : State) (x : Bool) (k : BitVec 4) : (s.setMoving x).readW k = s.readW k := rfl
@[simp] theorem setMoving_readL (s : State) (x : Bool) (k : BitVec 3) : (s.setMoving x).readL k = s.readL k := rfl
@[simp] theorem setMoving_flag (s : State) (x : Bool) (g : Flag) : (s.setMoving x).flag g = s.flag g := rfl

/-! ### `setSleeping` -/

@[simp] theorem setSleeping_er (s : State) (x : Bool) : (s.setSleeping x).er = s.er := rfl
@[simp] theorem setSleeping_pc (s : State) (x : Bool) : (s.setSleeping x).pc = s.pc := rfl
@[simp] theorem setSleeping_ccr (s : State) (x : Bool) : (s.setSleeping x).ccr = s.ccr := rfl
@[simp] theorem setSleeping_ccrDfn (s : State) (x : Bool) : (s.setSleeping x).ccrDfn = s.ccrDfn := rfl
@[simp] theorem setSleeping_exr (s : State) (x : Bool) : (s.setSleeping x).exr = s.exr := rfl
@[simp] theorem setSleeping_sleeping (s : State) (x : Bool) : (s.setSleeping x).sleeping = x := rfl
@[simp] theorem setSleeping_irqHold (s : State) (x : Bool) : (s.setSleeping x).irqHold = s.irqHold := rfl
@[simp] theorem setSleeping_nmiPending (s : State) (x : Bool) : (s.setSleeping x).nmiPending = s.nmiPending := rfl
@[simp] theorem setSleeping_eepmovActive (s : State) (x : Bool) : (s.setSleeping x).eepmovActive = s.eepmovActive := rfl
@[simp] theorem setSleeping_fault (s : State) (x : Bool) : (s.setSleeping x).fault = s.fault := rfl
@[simp] theorem setSleeping_mem (s : State) (x : Bool) : (s.setSleeping x).mem = s.mem := rfl
@[simp] theorem setSleeping_irq (s : State) (x : Bool) : (s.setSleeping x).irq = s.irq := rfl
@[simp] theorem setSleeping_resetIn (s : State) (x : Bool) : (s.setSleeping x).resetIn = s.resetIn := rfl
@[simp] theorem setSleeping_hostMap (s : State) (x : Bool) : (s.setSleeping x).hostMap = s.hostMap := rfl
@[simp] theorem setSleeping_params (s : State) (x : Bool) : (s.setSleeping x).params = s.params := rfl
@[simp] theorem setSleeping_fresh (s : State) (x : Bool) : (s.setSleeping x).fresh = s.fresh := rfl
@[simp] theorem setSleeping_traceDue (s : State) (x : Bool) : (s.setSleeping x).traceDue = s.traceDue := rfl
@[simp] theorem setSleeping_epoch (s : State) (x : Bool) : (s.setSleeping x).epoch = s.epoch := rfl
@[simp] theorem setSleeping_addr (s : State) (x : Bool) (y : Addr) : (s.setSleeping x).addr y = s.addr y := rfl
@[simp] theorem setSleeping_evenAddr (s : State) (x : Bool) (y : Addr) : (s.setSleeping x).evenAddr y = s.evenAddr y := rfl
@[simp] theorem setSleeping_offset (s : State) (x : Bool) (y : Addr) (k : Nat) : (s.setSleeping x).offset y k = s.offset y k := rfl
@[simp] theorem setSleeping_canRead (s : State) (x : Bool) (y : Nat) : (s.setSleeping x).canRead y = s.canRead y := rfl
@[simp] theorem setSleeping_canWrite (s : State) (x : Bool) (y : Nat) : (s.setSleeping x).canWrite y = s.canWrite y := rfl
@[simp] theorem setSleeping_isDevice (s : State) (x : Bool) (y : Nat) : (s.setSleeping x).isDevice y = s.isDevice y := rfl
@[simp] theorem setSleeping_byteAt (s : State) (x : Bool) (y : Addr) : (s.setSleeping x).byteAt y = s.byteAt y := rfl
@[simp] theorem setSleeping_reg (s : State) (x : Bool) (k : BitVec 3) : (s.setSleeping x).reg k = s.reg k := rfl
@[simp] theorem setSleeping_readB (s : State) (x : Bool) (k : BitVec 4) : (s.setSleeping x).readB k = s.readB k := rfl
@[simp] theorem setSleeping_readW (s : State) (x : Bool) (k : BitVec 4) : (s.setSleeping x).readW k = s.readW k := rfl
@[simp] theorem setSleeping_readL (s : State) (x : Bool) (k : BitVec 3) : (s.setSleeping x).readL k = s.readL k := rfl
@[simp] theorem setSleeping_flag (s : State) (x : Bool) (g : Flag) : (s.setSleeping x).flag g = s.flag g := rfl

/-! ### `awake` -/

@[simp] theorem awake_er (s : State) : (s.awake).er = s.er := rfl
@[simp] theorem awake_pc (s : State) : (s.awake).pc = s.pc := rfl
@[simp] theorem awake_ccr (s : State) : (s.awake).ccr = s.ccr := rfl
@[simp] theorem awake_ccrDfn (s : State) : (s.awake).ccrDfn = s.ccrDfn := rfl
@[simp] theorem awake_exr (s : State) : (s.awake).exr = s.exr := rfl
@[simp] theorem awake_sleeping (s : State) : (s.awake).sleeping = false := rfl
@[simp] theorem awake_irqHold (s : State) : (s.awake).irqHold = s.irqHold := rfl
@[simp] theorem awake_nmiPending (s : State) : (s.awake).nmiPending = s.nmiPending := rfl
@[simp] theorem awake_eepmovActive (s : State) : (s.awake).eepmovActive = false := rfl
@[simp] theorem awake_fault (s : State) : (s.awake).fault = s.fault := rfl
@[simp] theorem awake_mem (s : State) : (s.awake).mem = s.mem := rfl
@[simp] theorem awake_irq (s : State) : (s.awake).irq = s.irq := rfl
@[simp] theorem awake_resetIn (s : State) : (s.awake).resetIn = s.resetIn := rfl
@[simp] theorem awake_hostMap (s : State) : (s.awake).hostMap = s.hostMap := rfl
@[simp] theorem awake_params (s : State) : (s.awake).params = s.params := rfl
@[simp] theorem awake_fresh (s : State) : (s.awake).fresh = s.fresh := rfl
@[simp] theorem awake_traceDue (s : State) : (s.awake).traceDue = s.traceDue := rfl
@[simp] theorem awake_epoch (s : State) : (s.awake).epoch = s.epoch := rfl
@[simp] theorem awake_addr (s : State) (y : Addr) : (s.awake).addr y = s.addr y := rfl
@[simp] theorem awake_evenAddr (s : State) (y : Addr) : (s.awake).evenAddr y = s.evenAddr y := rfl
@[simp] theorem awake_offset (s : State) (y : Addr) (k : Nat) : (s.awake).offset y k = s.offset y k := rfl
@[simp] theorem awake_canRead (s : State) (y : Nat) : (s.awake).canRead y = s.canRead y := rfl
@[simp] theorem awake_canWrite (s : State) (y : Nat) : (s.awake).canWrite y = s.canWrite y := rfl
@[simp] theorem awake_isDevice (s : State) (y : Nat) : (s.awake).isDevice y = s.isDevice y := rfl
@[simp] theorem awake_byteAt (s : State) (y : Addr) : (s.awake).byteAt y = s.byteAt y := rfl
@[simp] theorem awake_reg (s : State) (k : BitVec 3) : (s.awake).reg k = s.reg k := rfl
@[simp] theorem awake_readB (s : State) (k : BitVec 4) : (s.awake).readB k = s.readB k := rfl
@[simp] theorem awake_readW (s : State) (k : BitVec 4) : (s.awake).readW k = s.readW k := rfl
@[simp] theorem awake_readL (s : State) (k : BitVec 3) : (s.awake).readL k = s.readL k := rfl
@[simp] theorem awake_flag (s : State) (g : Flag) : (s.awake).flag g = s.flag g := rfl

/-! ### `close` -/

@[simp] theorem close_er (s : State) (x : Bool) : (s.close x).er = s.er := rfl
@[simp] theorem close_pc (s : State) (x : Bool) : (s.close x).pc = s.pc := rfl
@[simp] theorem close_ccr (s : State) (x : Bool) : (s.close x).ccr = s.ccr := rfl
@[simp] theorem close_ccrDfn (s : State) (x : Bool) : (s.close x).ccrDfn = s.ccrDfn := rfl
@[simp] theorem close_exr (s : State) (x : Bool) : (s.close x).exr = s.exr := rfl
@[simp] theorem close_sleeping (s : State) (x : Bool) : (s.close x).sleeping = s.sleeping := rfl
@[simp] theorem close_irqHold (s : State) (x : Bool) : (s.close x).irqHold = s.irqHold := rfl
@[simp] theorem close_nmiPending (s : State) (x : Bool) : (s.close x).nmiPending = s.nmiPending := rfl
@[simp] theorem close_eepmovActive (s : State) (x : Bool) : (s.close x).eepmovActive = s.eepmovActive := rfl
@[simp] theorem close_fault (s : State) (x : Bool) : (s.close x).fault = s.fault := rfl
@[simp] theorem close_mem (s : State) (x : Bool) : (s.close x).mem = s.mem := rfl
@[simp] theorem close_irq (s : State) (x : Bool) : (s.close x).irq = s.irq := rfl
@[simp] theorem close_resetIn (s : State) (x : Bool) : (s.close x).resetIn = s.resetIn := rfl
@[simp] theorem close_hostMap (s : State) (x : Bool) : (s.close x).hostMap = s.hostMap := rfl
@[simp] theorem close_params (s : State) (x : Bool) : (s.close x).params = s.params := rfl
@[simp] theorem close_fresh (s : State) (x : Bool) : (s.close x).fresh = s.fresh := rfl
@[simp] theorem close_traceDue (s : State) (x : Bool) : (s.close x).traceDue = x := rfl
@[simp] theorem close_epoch (s : State) (x : Bool) : (s.close x).epoch = s.epoch + 1 := rfl
@[simp] theorem close_addr (s : State) (x : Bool) (y : Addr) : (s.close x).addr y = s.addr y := rfl
@[simp] theorem close_evenAddr (s : State) (x : Bool) (y : Addr) : (s.close x).evenAddr y = s.evenAddr y := rfl
@[simp] theorem close_offset (s : State) (x : Bool) (y : Addr) (k : Nat) : (s.close x).offset y k = s.offset y k := rfl
@[simp] theorem close_canRead (s : State) (x : Bool) (y : Nat) : (s.close x).canRead y = s.canRead y := rfl
@[simp] theorem close_canWrite (s : State) (x : Bool) (y : Nat) : (s.close x).canWrite y = s.canWrite y := rfl
@[simp] theorem close_isDevice (s : State) (x : Bool) (y : Nat) : (s.close x).isDevice y = s.isDevice y := rfl
@[simp] theorem close_reg (s : State) (x : Bool) (k : BitVec 3) : (s.close x).reg k = s.reg k := rfl
@[simp] theorem close_readB (s : State) (x : Bool) (k : BitVec 4) : (s.close x).readB k = s.readB k := rfl
@[simp] theorem close_readW (s : State) (x : Bool) (k : BitVec 4) : (s.close x).readW k = s.readW k := rfl
@[simp] theorem close_readL (s : State) (x : Bool) (k : BitVec 3) : (s.close x).readL k = s.readL k := rfl
@[simp] theorem close_flag (s : State) (x : Bool) (g : Flag) : (s.close x).flag g = s.flag g := rfl

/-! ### `opened` -/

@[simp] theorem opened_er (s : State) : (s.opened).er = s.er := rfl
@[simp] theorem opened_pc (s : State) : (s.opened).pc = s.pc := rfl
@[simp] theorem opened_ccr (s : State) : (s.opened).ccr = s.ccr := rfl
@[simp] theorem opened_ccrDfn (s : State) : (s.opened).ccrDfn = s.ccrDfn := rfl
@[simp] theorem opened_exr (s : State) : (s.opened).exr = s.exr := rfl
@[simp] theorem opened_sleeping (s : State) : (s.opened).sleeping = s.sleeping := rfl
@[simp] theorem opened_irqHold (s : State) : (s.opened).irqHold = false := rfl
@[simp] theorem opened_nmiPending (s : State) : (s.opened).nmiPending = s.nmiPending := rfl
@[simp] theorem opened_eepmovActive (s : State) : (s.opened).eepmovActive = s.eepmovActive := rfl
@[simp] theorem opened_fault (s : State) : (s.opened).fault = s.fault := rfl
@[simp] theorem opened_mem (s : State) : (s.opened).mem = s.mem := rfl
@[simp] theorem opened_irq (s : State) : (s.opened).irq = s.irq := rfl
@[simp] theorem opened_resetIn (s : State) : (s.opened).resetIn = s.resetIn := rfl
@[simp] theorem opened_hostMap (s : State) : (s.opened).hostMap = s.hostMap := rfl
@[simp] theorem opened_params (s : State) : (s.opened).params = s.params := rfl
@[simp] theorem opened_fresh (s : State) : (s.opened).fresh = false := rfl
@[simp] theorem opened_traceDue (s : State) : (s.opened).traceDue = false := rfl
@[simp] theorem opened_epoch (s : State) : (s.opened).epoch = s.epoch := rfl
@[simp] theorem opened_addr (s : State) (y : Addr) : (s.opened).addr y = s.addr y := rfl
@[simp] theorem opened_evenAddr (s : State) (y : Addr) : (s.opened).evenAddr y = s.evenAddr y := rfl
@[simp] theorem opened_offset (s : State) (y : Addr) (k : Nat) : (s.opened).offset y k = s.offset y k := rfl
@[simp] theorem opened_canRead (s : State) (y : Nat) : (s.opened).canRead y = s.canRead y := rfl
@[simp] theorem opened_canWrite (s : State) (y : Nat) : (s.opened).canWrite y = s.canWrite y := rfl
@[simp] theorem opened_isDevice (s : State) (y : Nat) : (s.opened).isDevice y = s.isDevice y := rfl
@[simp] theorem opened_byteAt (s : State) (y : Addr) : (s.opened).byteAt y = s.byteAt y := rfl
@[simp] theorem opened_reg (s : State) (k : BitVec 3) : (s.opened).reg k = s.reg k := rfl
@[simp] theorem opened_readB (s : State) (k : BitVec 4) : (s.opened).readB k = s.readB k := rfl
@[simp] theorem opened_readW (s : State) (k : BitVec 4) : (s.opened).readW k = s.readW k := rfl
@[simp] theorem opened_readL (s : State) (k : BitVec 3) : (s.opened).readL k = s.readL k := rfl
@[simp] theorem opened_flag (s : State) (g : Flag) : (s.opened).flag g = s.flag g := rfl

/-! ### `clearNmi` -/

@[simp] theorem clearNmi_er (s : State) : (s.clearNmi).er = s.er := rfl
@[simp] theorem clearNmi_pc (s : State) : (s.clearNmi).pc = s.pc := rfl
@[simp] theorem clearNmi_ccr (s : State) : (s.clearNmi).ccr = s.ccr := rfl
@[simp] theorem clearNmi_ccrDfn (s : State) : (s.clearNmi).ccrDfn = s.ccrDfn := rfl
@[simp] theorem clearNmi_exr (s : State) : (s.clearNmi).exr = s.exr := rfl
@[simp] theorem clearNmi_sleeping (s : State) : (s.clearNmi).sleeping = s.sleeping := rfl
@[simp] theorem clearNmi_irqHold (s : State) : (s.clearNmi).irqHold = s.irqHold := rfl
@[simp] theorem clearNmi_nmiPending (s : State) : (s.clearNmi).nmiPending = false := rfl
@[simp] theorem clearNmi_eepmovActive (s : State) : (s.clearNmi).eepmovActive = s.eepmovActive := rfl
@[simp] theorem clearNmi_fault (s : State) : (s.clearNmi).fault = s.fault := rfl
@[simp] theorem clearNmi_mem (s : State) : (s.clearNmi).mem = s.mem := rfl
@[simp] theorem clearNmi_irq (s : State) : (s.clearNmi).irq = s.irq := rfl
@[simp] theorem clearNmi_resetIn (s : State) : (s.clearNmi).resetIn = s.resetIn := rfl
@[simp] theorem clearNmi_hostMap (s : State) : (s.clearNmi).hostMap = s.hostMap := rfl
@[simp] theorem clearNmi_params (s : State) : (s.clearNmi).params = s.params := rfl
@[simp] theorem clearNmi_fresh (s : State) : (s.clearNmi).fresh = s.fresh := rfl
@[simp] theorem clearNmi_traceDue (s : State) : (s.clearNmi).traceDue = s.traceDue := rfl
@[simp] theorem clearNmi_epoch (s : State) : (s.clearNmi).epoch = s.epoch := rfl
@[simp] theorem clearNmi_addr (s : State) (y : Addr) : (s.clearNmi).addr y = s.addr y := rfl
@[simp] theorem clearNmi_evenAddr (s : State) (y : Addr) : (s.clearNmi).evenAddr y = s.evenAddr y := rfl
@[simp] theorem clearNmi_offset (s : State) (y : Addr) (k : Nat) : (s.clearNmi).offset y k = s.offset y k := rfl
@[simp] theorem clearNmi_canRead (s : State) (y : Nat) : (s.clearNmi).canRead y = s.canRead y := rfl
@[simp] theorem clearNmi_canWrite (s : State) (y : Nat) : (s.clearNmi).canWrite y = s.canWrite y := rfl
@[simp] theorem clearNmi_isDevice (s : State) (y : Nat) : (s.clearNmi).isDevice y = s.isDevice y := rfl
@[simp] theorem clearNmi_byteAt (s : State) (y : Addr) : (s.clearNmi).byteAt y = s.byteAt y := rfl
@[simp] theorem clearNmi_reg (s : State) (k : BitVec 3) : (s.clearNmi).reg k = s.reg k := rfl
@[simp] theorem clearNmi_readB (s : State) (k : BitVec 4) : (s.clearNmi).readB k = s.readB k := rfl
@[simp] theorem clearNmi_readW (s : State) (k : BitVec 4) : (s.clearNmi).readW k = s.readW k := rfl
@[simp] theorem clearNmi_readL (s : State) (k : BitVec 3) : (s.clearNmi).readL k = s.readL k := rfl
@[simp] theorem clearNmi_flag (s : State) (g : Flag) : (s.clearNmi).flag g = s.flag g := rfl

/-! ### `stayAsleep` -/

@[simp] theorem stayAsleep_er (s : State) : (s.stayAsleep).er = s.er := rfl
@[simp] theorem stayAsleep_pc (s : State) : (s.stayAsleep).pc = s.pc := rfl
@[simp] theorem stayAsleep_ccr (s : State) : (s.stayAsleep).ccr = s.ccr := rfl
@[simp] theorem stayAsleep_ccrDfn (s : State) : (s.stayAsleep).ccrDfn = s.ccrDfn := rfl
@[simp] theorem stayAsleep_exr (s : State) : (s.stayAsleep).exr = s.exr := rfl
@[simp] theorem stayAsleep_sleeping (s : State) : (s.stayAsleep).sleeping = s.sleeping := rfl
@[simp] theorem stayAsleep_irqHold (s : State) : (s.stayAsleep).irqHold = false := rfl
@[simp] theorem stayAsleep_nmiPending (s : State) : (s.stayAsleep).nmiPending = s.nmiPending := rfl
@[simp] theorem stayAsleep_eepmovActive (s : State) : (s.stayAsleep).eepmovActive = s.eepmovActive := rfl
@[simp] theorem stayAsleep_fault (s : State) : (s.stayAsleep).fault = s.fault := rfl
@[simp] theorem stayAsleep_mem (s : State) : (s.stayAsleep).mem = s.mem := rfl
@[simp] theorem stayAsleep_irq (s : State) : (s.stayAsleep).irq = s.irq := rfl
@[simp] theorem stayAsleep_resetIn (s : State) : (s.stayAsleep).resetIn = s.resetIn := rfl
@[simp] theorem stayAsleep_hostMap (s : State) : (s.stayAsleep).hostMap = s.hostMap := rfl
@[simp] theorem stayAsleep_params (s : State) : (s.stayAsleep).params = s.params := rfl
@[simp] theorem stayAsleep_fresh (s : State) : (s.stayAsleep).fresh = s.fresh := rfl
@[simp] theorem stayAsleep_traceDue (s : State) : (s.stayAsleep).traceDue = s.traceDue := rfl
@[simp] theorem stayAsleep_epoch (s : State) : (s.stayAsleep).epoch = s.epoch := rfl
@[simp] theorem stayAsleep_addr (s : State) (y : Addr) : (s.stayAsleep).addr y = s.addr y := rfl
@[simp] theorem stayAsleep_evenAddr (s : State) (y : Addr) : (s.stayAsleep).evenAddr y = s.evenAddr y := rfl
@[simp] theorem stayAsleep_offset (s : State) (y : Addr) (k : Nat) : (s.stayAsleep).offset y k = s.offset y k := rfl
@[simp] theorem stayAsleep_canRead (s : State) (y : Nat) : (s.stayAsleep).canRead y = s.canRead y := rfl
@[simp] theorem stayAsleep_canWrite (s : State) (y : Nat) : (s.stayAsleep).canWrite y = s.canWrite y := rfl
@[simp] theorem stayAsleep_isDevice (s : State) (y : Nat) : (s.stayAsleep).isDevice y = s.isDevice y := rfl
@[simp] theorem stayAsleep_byteAt (s : State) (y : Addr) : (s.stayAsleep).byteAt y = s.byteAt y := rfl
@[simp] theorem stayAsleep_reg (s : State) (k : BitVec 3) : (s.stayAsleep).reg k = s.reg k := rfl
@[simp] theorem stayAsleep_readB (s : State) (k : BitVec 4) : (s.stayAsleep).readB k = s.readB k := rfl
@[simp] theorem stayAsleep_readW (s : State) (k : BitVec 4) : (s.stayAsleep).readW k = s.readW k := rfl
@[simp] theorem stayAsleep_readL (s : State) (k : BitVec 3) : (s.stayAsleep).readL k = s.readL k := rfl
@[simp] theorem stayAsleep_flag (s : State) (g : Flag) : (s.stayAsleep).flag g = s.flag g := rfl

/-! ### `leftWith` -/

@[simp] theorem leftWith_er (s : State) (m : Memory) : (s.leftWith m).er = s.er := rfl
@[simp] theorem leftWith_pc (s : State) (m : Memory) : (s.leftWith m).pc = s.pc := rfl
@[simp] theorem leftWith_ccr (s : State) (m : Memory) : (s.leftWith m).ccr = s.ccr := rfl
@[simp] theorem leftWith_ccrDfn (s : State) (m : Memory) : (s.leftWith m).ccrDfn = s.ccrDfn := rfl
@[simp] theorem leftWith_exr (s : State) (m : Memory) : (s.leftWith m).exr = s.exr := rfl
@[simp] theorem leftWith_sleeping (s : State) (m : Memory) : (s.leftWith m).sleeping = s.sleeping := rfl
@[simp] theorem leftWith_irqHold (s : State) (m : Memory) : (s.leftWith m).irqHold = s.irqHold := rfl
@[simp] theorem leftWith_nmiPending (s : State) (m : Memory) : (s.leftWith m).nmiPending = s.nmiPending := rfl
@[simp] theorem leftWith_eepmovActive (s : State) (m : Memory) : (s.leftWith m).eepmovActive = s.eepmovActive := rfl
@[simp] theorem leftWith_fault (s : State) (m : Memory) : (s.leftWith m).fault = s.fault := rfl
@[simp] theorem leftWith_mem (s : State) (m : Memory) : (s.leftWith m).mem = m := rfl
@[simp] theorem leftWith_irq (s : State) (m : Memory) : (s.leftWith m).irq = s.irq := rfl
@[simp] theorem leftWith_resetIn (s : State) (m : Memory) : (s.leftWith m).resetIn = s.resetIn := rfl
@[simp] theorem leftWith_hostMap (s : State) (m : Memory) : (s.leftWith m).hostMap = s.hostMap := rfl
@[simp] theorem leftWith_params (s : State) (m : Memory) : (s.leftWith m).params = s.params := rfl
@[simp] theorem leftWith_fresh (s : State) (m : Memory) : (s.leftWith m).fresh = s.fresh := rfl
@[simp] theorem leftWith_traceDue (s : State) (m : Memory) : (s.leftWith m).traceDue = s.traceDue := rfl
@[simp] theorem leftWith_epoch (s : State) (m : Memory) : (s.leftWith m).epoch = s.epoch + 1 := rfl
@[simp] theorem leftWith_addr (s : State) (m : Memory) (y : Addr) : (s.leftWith m).addr y = s.addr y := rfl
@[simp] theorem leftWith_evenAddr (s : State) (m : Memory) (y : Addr) : (s.leftWith m).evenAddr y = s.evenAddr y := rfl
@[simp] theorem leftWith_offset (s : State) (m : Memory) (y : Addr) (k : Nat) : (s.leftWith m).offset y k = s.offset y k := rfl
@[simp] theorem leftWith_canRead (s : State) (m : Memory) (y : Nat) : (s.leftWith m).canRead y = s.canRead y := rfl
@[simp] theorem leftWith_canWrite (s : State) (m : Memory) (y : Nat) : (s.leftWith m).canWrite y = s.canWrite y := rfl
@[simp] theorem leftWith_isDevice (s : State) (m : Memory) (y : Nat) : (s.leftWith m).isDevice y = s.isDevice y := rfl
@[simp] theorem leftWith_reg (s : State) (m : Memory) (k : BitVec 3) : (s.leftWith m).reg k = s.reg k := rfl
@[simp] theorem leftWith_readB (s : State) (m : Memory) (k : BitVec 4) : (s.leftWith m).readB k = s.readB k := rfl
@[simp] theorem leftWith_readW (s : State) (m : Memory) (k : BitVec 4) : (s.leftWith m).readW k = s.readW k := rfl
@[simp] theorem leftWith_readL (s : State) (m : Memory) (k : BitVec 3) : (s.leftWith m).readL k = s.readL k := rfl
@[simp] theorem leftWith_flag (s : State) (m : Memory) (g : Flag) : (s.leftWith m).flag g = s.flag g := rfl

/-! ### `resetState` -/

@[simp] theorem resetState_er (s : State) : (s.resetState).er = State.reset.er := rfl
@[simp] theorem resetState_pc (s : State) : (s.resetState).pc = s.pc := rfl
@[simp] theorem resetState_ccr (s : State) : (s.resetState).ccr = State.reset.ccr := rfl
@[simp] theorem resetState_ccrDfn (s : State) : (s.resetState).ccrDfn = State.reset.ccrDfn := rfl
@[simp] theorem resetState_exr (s : State) : (s.resetState).exr = State.reset.exr := rfl
@[simp] theorem resetState_sleeping (s : State) : (s.resetState).sleeping = false := rfl
@[simp] theorem resetState_irqHold (s : State) : (s.resetState).irqHold = false := rfl
@[simp] theorem resetState_nmiPending (s : State) : (s.resetState).nmiPending = false := rfl
@[simp] theorem resetState_eepmovActive (s : State) : (s.resetState).eepmovActive = false := rfl
@[simp] theorem resetState_fault (s : State) : (s.resetState).fault = none := rfl
@[simp] theorem resetState_mem (s : State) : (s.resetState).mem = s.mem := rfl
@[simp] theorem resetState_irq (s : State) : (s.resetState).irq = s.irq := rfl
@[simp] theorem resetState_resetIn (s : State) : (s.resetState).resetIn = none := rfl
@[simp] theorem resetState_hostMap (s : State) : (s.resetState).hostMap = s.hostMap := rfl
@[simp] theorem resetState_params (s : State) : (s.resetState).params = s.params := rfl
@[simp] theorem resetState_fresh (s : State) : (s.resetState).fresh = true := rfl
@[simp] theorem resetState_traceDue (s : State) : (s.resetState).traceDue = false := rfl
@[simp] theorem resetState_epoch (s : State) : (s.resetState).epoch = s.epoch := rfl
@[simp] theorem resetState_addr (s : State) (y : Addr) : (s.resetState).addr y = s.addr y := rfl
@[simp] theorem resetState_evenAddr (s : State) (y : Addr) : (s.resetState).evenAddr y = s.evenAddr y := rfl
@[simp] theorem resetState_offset (s : State) (y : Addr) (k : Nat) : (s.resetState).offset y k = s.offset y k := rfl
@[simp] theorem resetState_canRead (s : State) (y : Nat) : (s.resetState).canRead y = s.canRead y := rfl
@[simp] theorem resetState_canWrite (s : State) (y : Nat) : (s.resetState).canWrite y = s.canWrite y := rfl
@[simp] theorem resetState_isDevice (s : State) (y : Nat) : (s.resetState).isDevice y = s.isDevice y := rfl
@[simp] theorem resetState_byteAt (s : State) (y : Addr) : (s.resetState).byteAt y = s.byteAt y := rfl

end Sys2Proof.Machine
end

