-- ==== Sys2Proof/Laws/Regs.lean ====
section
/-!
SUPPORT. Writing a register view: what the view then reads as, and which bytes of the register file change
(10_state.md R101 to R106).
-/

namespace Sys2Proof.Machine

/-! ### Bits of a concatenation, at the widths the views use -/

theorem getLsbD_cat_24_8 (x : BitVec 24) (y : BitVec 8) (i : Nat) :
    (x ++ y : BitVec 32).getLsbD i = if i < 8 then y.getLsbD i else x.getLsbD (i - 8) :=
  BitVec.getLsbD_append

theorem getLsbD_cat_16_16 (x y : BitVec 16) (i : Nat) :
    (x ++ y : BitVec 32).getLsbD i = if i < 16 then y.getLsbD i else x.getLsbD (i - 16) :=
  BitVec.getLsbD_append

theorem getLsbD_cat_16_8_8 (x : BitVec 16) (y z : BitVec 8) (i : Nat) :
    (x ++ y ++ z : BitVec 32).getLsbD i =
      if i < 8 then z.getLsbD i else if i - 8 < 8 then y.getLsbD (i - 8) else x.getLsbD (i - 8 - 8) := by
  have h1 : (x ++ y ++ z : BitVec 32).getLsbD i = if i < 8 then z.getLsbD i else (x ++ y).getLsbD (i - 8) :=
    BitVec.getLsbD_append
  rw [h1, BitVec.getLsbD_append]

theorem getLsbD_cat_8_8 (x y : BitVec 8) (i : Nat) :
    (x ++ y : BitVec 16).getLsbD i = if i < 8 then y.getLsbD i else x.getLsbD (i - 8) :=
  BitVec.getLsbD_append

theorem getLsbD_cat_8_24 (x : BitVec 8) (y : BitVec 24) (i : Nat) :
    (x ++ y : BitVec 32).getLsbD i = if i < 24 then y.getLsbD i else x.getLsbD (i - 24) :=
  BitVec.getLsbD_append

theorem getLsbD_cat_bytes (x y z u : BitVec 8) (i : Nat) :
    (x ++ y ++ z ++ u : BitVec 32).getLsbD i =
      if i < 8 then u.getLsbD i else if i - 8 < 8 then z.getLsbD (i - 8)
      else if i - 8 - 8 < 8 then y.getLsbD (i - 8 - 8) else x.getLsbD (i - 8 - 8 - 8) := by
  have h1 : (x ++ y ++ z ++ u : BitVec 32).getLsbD i =
      if i < 8 then u.getLsbD i else (x ++ y ++ z).getLsbD (i - 8) := BitVec.getLsbD_append
  rw [h1, BitVec.getLsbD_append, BitVec.getLsbD_append]

/-! ### The register file -/

theorem reg_setReg (s : State) (n m : BitVec 3) (r : Reg) :
    (s.setReg n r).reg m = if m = n then r else s.reg m := by
  unfold State.reg State.setReg
  by_cases h : m = n
  · subst h; simp
  · rw [if_neg h]
    have h' : n.toNat ≠ m.toNat := fun e => h (BitVec.eq_of_toNat_eq e).symm
    simp [h']

@[simp] theorem reg_setReg_same (s : State) (n : BitVec 3) (r : Reg) : (s.setReg n r).reg n = r := by
  rw [reg_setReg, if_pos rfl]

theorem reg_setReg_ne (s : State) {n m : BitVec 3} (r : Reg) (h : m ≠ n) : (s.setReg n r).reg m = s.reg m := by
  rw [reg_setReg, if_neg h]

/-- A byte register reads as what was written to it. -/
@[simp] theorem readB_writeB (s : State) (n : BitVec 4) (v : Byte) : (s.writeB n v).readB n = v := by
  unfold State.readB State.writeB
  cases h : n.msb <;> simp only [Bool.false_eq_true, ↓reduceIte, reg_setReg_same]
  all_goals
    apply BitVec.eq_of_getLsbD_eq
    intro i hi
    simp [getLsbD_cat_24_8, getLsbD_cat_16_8_8, hi]

@[simp] theorem readW_writeW (s : State) (n : BitVec 4) (v : Word) : (s.writeW n v).readW n = v := by
  unfold State.readW State.writeW
  cases h : n.msb <;> simp only [Bool.false_eq_true, ↓reduceIte, reg_setReg_same]
  all_goals
    apply BitVec.eq_of_getLsbD_eq
    intro i hi
    simp [getLsbD_cat_16_16, hi]

@[simp] theorem readL_writeL (s : State) (n : BitVec 3) (v : Long) : (s.writeL n v).readL n = v := by
  simp [State.readL, State.writeL]

theorem readL_writeL_ne (s : State) {n m : BitVec 3} (v : Long) (h : m ≠ n) :
    (s.writeL n v).readL m = s.readL m := by
  unfold State.readL State.writeL
  rw [reg_setReg_ne _ _ h]

theorem lane_setReg_ne (s : State) {n m : BitVec 3} (r : Reg) (k : Nat) (h : m ≠ n) :
    (s.setReg n r).lane m k = s.lane m k := by
  unfold State.lane State.readL
  rw [reg_setReg_ne _ _ h]

theorem laneDefined_setReg_ne (s : State) {n m : BitVec 3} (r : Reg) (k : Nat) (h : m ≠ n) :
    (s.setReg n r).laneDefined m k = s.laneDefined m k := by
  unfold State.laneDefined
  rw [reg_setReg_ne _ _ h]

/-- A long write changes the bytes of its register and no other. -/
theorem keepsRegs_writeL (s : State) (n : BitVec 3) (v : Long) : KeepsRegs s (s.writeL n v) [.long n] := by
  constructor
  · intro m k _ hc
    have hne : m ≠ n := by simpa [covered, RegName.covers] using hc
    exact lane_setReg_ne s _ k hne
  · intro m k hk
    by_cases hne : m = n
    · subst hne
      simp only [State.laneDefined, State.writeL, reg_setReg_same, covered, RegName.covers]
      interval_cases k <;> simp
    · rw [State.writeL, laneDefined_setReg_ne s _ k hne]
      simp [covered, RegName.covers, hne]

/-- A word write changes the two bytes of its view and no other. -/
theorem keepsRegs_writeW (s : State) (n : BitVec 4) (v : Word) : KeepsRegs s (s.writeW n v) [.word n] := by
  constructor
  · intro m k hk hc
    by_cases hne : m = ern n
    · subst hne
      simp only [State.lane, State.readL, State.writeW, reg_setReg_same]
      simp only [covered, RegName.covers, List.any_cons, List.any_nil, Bool.or_false, beq_self_eq_true,
        Bool.true_and] at hc
      cases h : n.msb <;> simp only [h, Bool.false_eq_true, ↓reduceIte] at hc ⊢ <;>
        apply BitVec.eq_of_getLsbD_eq <;> intro i hi <;>
        simp only [BitVec.getLsbD_extractLsb', getLsbD_cat_16_16] <;>
        interval_cases k <;> interval_cases i <;> simp_all
    · exact lane_setReg_ne s _ k hne
  · intro m k hk
    by_cases hne : m = ern n
    · subst hne
      simp only [State.laneDefined, State.writeW, reg_setReg_same, covered, RegName.covers, List.any_cons,
        List.any_nil, Bool.or_false, beq_self_eq_true, Bool.true_and]
      cases h : n.msb <;> interval_cases k <;> simp
    · rw [State.writeW, laneDefined_setReg_ne s _ k hne]
      simp [covered, RegName.covers, hne]

/-- A byte write changes the byte of its view and no other. -/
theorem keepsRegs_writeB (s : State) (n : BitVec 4) (v : Byte) : KeepsRegs s (s.writeB n v) [.byte n] := by
  constructor
  · intro m k hk hc
    by_cases hne : m = ern n
    · subst hne
      simp only [State.lane, State.readL, State.writeB, reg_setReg_same]
      simp only [covered, RegName.covers, List.any_cons, List.any_nil, Bool.or_false, beq_self_eq_true,
        Bool.true_and] at hc
      cases h : n.msb <;> simp only [h, Bool.false_eq_true, ↓reduceIte] at hc ⊢ <;>
        apply BitVec.eq_of_getLsbD_eq <;> intro i hi <;>
        simp only [BitVec.getLsbD_extractLsb', getLsbD_cat_24_8, getLsbD_cat_16_8_8] <;>
        interval_cases k <;> interval_cases i <;> simp_all
    · exact lane_setReg_ne s _ k hne
  · intro m k hk
    by_cases hne : m = ern n
    · subst hne
      simp only [State.laneDefined, State.writeB, reg_setReg_same, covered, RegName.covers, List.any_cons,
        List.any_nil, Bool.or_false, beq_self_eq_true, Bool.true_and]
      cases h : n.msb <;> interval_cases k <;> simp
    · rw [State.writeB, laneDefined_setReg_ne s _ k hne]
      simp [covered, RegName.covers, hne]

/-- A state with the same registers. -/
theorem KeepsRegs.of_er {s t : State} (h : t.er = s.er) : KeepsRegs s t [] := by
  have hr : ∀ n, t.reg n = s.reg n := fun n => by unfold State.reg; simp [h]
  exact ⟨fun n k _ _ => by simp [State.lane, State.readL, hr], fun n k _ => by simp [State.laneDefined, hr, covered]⟩

/-- Two stretches one after the other. -/
theorem KeepsRegs.trans {s t u : State} {d e : List RegName} (h1 : KeepsRegs s t d) (h2 : KeepsRegs t u e) :
    KeepsRegs s u (d ++ e) := by
  constructor
  · intro n k hk hc
    simp only [covered, List.any_append, Bool.or_eq_false_iff] at hc
    rw [h2.value n k hk hc.2, h1.value n k hk hc.1]
  · intro n k hk
    rw [h2.defined n k hk, h1.defined n k hk]
    simp only [covered, List.any_append, Bool.or_assoc]

end Sys2Proof.Machine
end

