-- ==== Sys2Proof/Laws/Flags.lean ====
section
/-!
SUPPORT. Writing flags: what each flag then is, and what no flag update touches (10_state.md R111 to R113).
-/

namespace Sys2Proof.Machine

theorem getLsbD_putBit (b : Byte) {k : Nat} (hk : k < 8) (x : Bool) (j : Nat) :
    (putBit b k x).getLsbD j = if j = k then x else b.getLsbD j := by
  unfold putBit
  by_cases hj : j = k
  · subst hj
    cases x <;> simp [hk]
  · rw [if_neg hj]
    by_cases h8 : j < 8
    · cases x <;> simp [h8, hj]
    · have hb : b.getLsbD j = false := BitVec.getLsbD_of_ge _ _ (by omega)
      cases x <;> simp [h8, hb, Ne.symm hj]

theorem Flag.bit_lt (f : Flag) : f.bit < 8 := by cases f <;> decide

theorem Flag.bit_inj {f g : Flag} (h : f.bit = g.bit) : f = g := by cases f <;> cases g <;> simp_all [Flag.bit]

/-- A flag after one flag is written. -/
theorem flag_setFlag (s : State) (f g : Flag) (x : Bool) :
    (s.setFlag f x).flag g = if g = f then x else s.flag g := by
  have h := getLsbD_putBit s.ccr f.bit_lt x g.bit
  by_cases e : g = f
  · subst e; simpa [State.flag, State.setFlag] using h
  · have e' : g.bit ≠ f.bit := fun hb => e (Flag.bit_inj hb)
    simpa [State.flag, State.setFlag, e, e'] using h

theorem definedFlag_setFlag (s : State) (f g : Flag) (x : Bool) :
    (s.setFlag f x).definedFlag g = (s.definedFlag g || [f].contains g) := by
  have h := getLsbD_putBit s.ccrDfn f.bit_lt true g.bit
  by_cases e : g = f
  · subst e; simpa [State.definedFlag, State.setFlag] using h
  · have e' : g.bit ≠ f.bit := fun hb => e (Flag.bit_inj hb)
    simpa [State.definedFlag, State.setFlag, e, e'] using h

theorem keepsFlags_setFlag (s : State) (f : Flag) (x : Bool) : KeepsFlags s (s.setFlag f x) [f] :=
  ⟨fun g hg => by rw [flag_setFlag, if_neg (by simpa using hg)], fun g => definedFlag_setFlag s f g x⟩

theorem KeepsFlags.of_ccr {s t : State} (h : t.ccr = s.ccr) (hd : t.ccrDfn = s.ccrDfn) : KeepsFlags s t [] :=
  ⟨fun f _ => by simp [State.flag, h], fun f => by simp [State.definedFlag, hd]⟩

theorem KeepsFlags.trans {s t u : State} {d e : List Flag} (h1 : KeepsFlags s t d) (h2 : KeepsFlags t u e) :
    KeepsFlags s u (d ++ e) := by
  refine ⟨fun f hf => ?_, fun f => ?_⟩
  · rw [List.mem_append, not_or] at hf
    rw [h2.value f hf.2, h1.value f hf.1]
  · rw [h2.defined f, h1.defined f, Bool.or_assoc]
    simp [List.contains_eq_mem, Bool.decide_or]

/-- The list only matters as a set. -/
theorem KeepsFlags.same {s t : State} {d e : List Flag} (h : KeepsFlags s t d) (hde : ∀ f, f ∈ d ↔ f ∈ e) :
    KeepsFlags s t e :=
  ⟨fun f hf => h.value f fun hd => hf ((hde f).1 hd), fun f => by
    rw [h.defined f]; simp [List.contains_eq_mem, hde]⟩

/-- A state update that writes only the flags `fl`, with the values `val`. -/
structure FlagsOnly (s t : State) (fl : List Flag) (val : Flag → Bool) : Prop where
  has : HasFlags t fl val
  keeps : KeepsFlags s t fl
  er : t.er = s.er
  pc : t.pc = s.pc
  mem : t.mem = s.mem
  control : KeepsControl s t
  outside : KeepsOutside s t

theorem flagsOnly_noFlags (s : State) (val : Flag → Bool) : FlagsOnly s (noFlags s) [] val :=
  ⟨fun f hf => absurd hf (by simp), .of_ccr rfl rfl, rfl, rfl, rfl, ⟨rfl, rfl, rfl, rfl, rfl⟩,
    ⟨rfl, rfl, rfl, rfl, rfl, rfl, rfl, rfl⟩⟩

theorem flagsOnly_setFlag (s : State) (f : Flag) (x : Bool) (val : Flag → Bool) (h : val f = x) :
    FlagsOnly s (s.setFlag f x) [f] val :=
  ⟨fun g hg => by rw [List.mem_singleton] at hg; subst hg; rw [flag_setFlag, if_pos rfl, h],
    keepsFlags_setFlag s f x, rfl, rfl, rfl, ⟨rfl, rfl, rfl, rfl, rfl⟩, ⟨rfl, rfl, rfl, rfl, rfl, rfl, rfl, rfl⟩⟩

theorem flagsOnly_setNZ (s : State) (n z : Bool) (val : Flag → Bool) (hn : val .n = n) (hz : val .z = z) :
    FlagsOnly s (s.setNZ n z) [.n, .z] val :=
  ⟨fun g hg => by
      simp only [List.mem_cons, List.not_mem_nil, or_false] at hg
      rcases hg with rfl | rfl <;> simp [State.setNZ, flag_setFlag, hn, hz],
    (keepsFlags_setFlag s .n n).trans (keepsFlags_setFlag _ .z z),
    rfl, rfl, rfl, ⟨rfl, rfl, rfl, rfl, rfl⟩, ⟨rfl, rfl, rfl, rfl, rfl, rfl, rfl, rfl⟩⟩

theorem flagsOnly_setNZV (s : State) (n z v : Bool) (val : Flag → Bool) (hn : val .n = n) (hz : val .z = z)
    (hv : val .v = v) : FlagsOnly s (s.setNZV n z v) [.n, .z, .v] val :=
  ⟨fun g hg => by
      simp only [List.mem_cons, List.not_mem_nil, or_false] at hg
      rcases hg with rfl | rfl | rfl <;> simp [State.setNZV, State.setNZ, flag_setFlag, hn, hz, hv],
    (flagsOnly_setNZ s n z val hn hz).keeps.trans (keepsFlags_setFlag _ .v v),
    rfl, rfl, rfl, ⟨rfl, rfl, rfl, rfl, rfl⟩, ⟨rfl, rfl, rfl, rfl, rfl, rfl, rfl, rfl⟩⟩

theorem flagsOnly_setFlags (s : State) (f : Flags) : FlagsOnly s (s.setFlags f) [.h, .n, .z, .v, .c] f.val :=
  ⟨fun g hg => by
      simp only [List.mem_cons, List.not_mem_nil, or_false] at hg
      rcases hg with rfl | rfl | rfl | rfl | rfl <;>
        simp [State.setFlags, State.setNZV, State.setNZ, flag_setFlag, Flags.val],
    (((flagsOnly_setNZV s f.n f.z f.v f.val rfl rfl rfl).keeps.trans (keepsFlags_setFlag _ .h f.h)).trans
      (keepsFlags_setFlag _ .c f.c)).same (by intro g; cases g <;> simp),
    rfl, rfl, rfl, ⟨rfl, rfl, rfl, rfl, rfl⟩, ⟨rfl, rfl, rfl, rfl, rfl, rfl, rfl, rfl⟩⟩

theorem flagsOnly_movFlags {w : Nat} (s : State) (v : BitVec w) :
    FlagsOnly s (movFlags v s) [.n, .z, .v] (nz0 v) :=
  flagsOnly_setNZV s v.msb (v == 0) false (nz0 v) rfl rfl rfl

theorem flagsOnly_nzvFlags {w : Nat} (s : State) (r : AluResult w) :
    FlagsOnly s (nzvFlags r s) [.n, .z, .v] r.flags.val :=
  flagsOnly_setNZV s _ _ _ r.flags.val rfl rfl rfl

theorem flagsOnly_nzFlags {w : Nat} (s : State) (v : BitVec w) : FlagsOnly s (nzFlags v s) [.n, .z] (nz0 v) :=
  flagsOnly_setNZ s v.msb (v == 0) (nz0 v) rfl rfl

/-- The flags of a shift or rotate by name (43_shift_rotate.md R700). -/
theorem flagsOnly_shiftFlags {w : Nat} (s : State) (r : ShiftState w) :
    FlagsOnly s (shiftFlags r s) [.n, .z, .v, .c] (shiftVal r) :=
  ⟨fun g hg => by
      simp only [List.mem_cons, List.not_mem_nil, or_false] at hg
      rcases hg with rfl | rfl | rfl | rfl <;>
        simp [shiftFlags, State.setNZV, State.setNZ, flag_setFlag, shiftVal],
    (flagsOnly_setNZV s _ _ _ (shiftVal r) rfl rfl rfl).keeps.trans (keepsFlags_setFlag _ .c r.c),
    rfl, rfl, rfl, ⟨rfl, rfl, rfl, rfl, rfl⟩, ⟨rfl, rfl, rfl, rfl, rfl, rfl, rfl, rfl⟩⟩

end Sys2Proof.Machine
end

