-- ==== Sys2Proof/Laws/Memory.lean ====
section
/-!
SUPPORT. Memory as a list of cells: read after write, and the canonical form is kept.
-/

namespace Sys2Proof.Machine

theorem Memory.get_eq_unlisted {m : Memory} {a : Nat} (h : ∀ c ∈ m, a < c.1) : Memory.get m a = Memory.unlisted := by
  induction m with
  | nil => rfl
  | cons c m ih =>
    have hc := h c (by simp)
    rw [Memory.get, if_neg (by omega)]
    exact ih fun d hd => h d (by simp [hd])

/-- Every address of a rising list but the first is above the first. -/
theorem Memory.wf_tail {c : Host.Cell} {m : Memory} (h : Memory.wf (c :: m)) :
    Memory.wf m ∧ (∀ d ∈ m, c.1 < d.1) ∧ c.2 ≠ Memory.unlisted := by
  obtain ⟨hp, hv⟩ := h
  rw [List.pairwise_cons] at hp
  exact ⟨⟨hp.2, fun d hd => hv d (by simp [hd])⟩, hp.1, hv c (by simp)⟩

/-- The byte just written is the byte read. -/
theorem Memory.get_set_same {m : Memory} (h : m.wf) (a : Nat) (v : BitVec 8) : (m.set a v).get a = v := by
  induction m with
  | nil =>
    by_cases hv : v = Memory.unlisted
    · rw [Memory.set, if_pos hv, hv]; rfl
    · rw [Memory.set, if_neg hv, Memory.get, if_pos rfl]
  | cons c m ih =>
    obtain ⟨k, x⟩ := c
    obtain ⟨hm, hk, -⟩ := Memory.wf_tail h
    simp only at hk
    unfold Memory.set
    by_cases h1 : a < k
    · rw [if_pos h1]
      by_cases hv : v = Memory.unlisted
      · rw [if_pos hv, hv]
        refine Memory.get_eq_unlisted fun d hd => ?_
        rcases List.mem_cons.1 hd with rfl | hd
        · exact h1
        · have := hk d hd; omega
      · rw [if_neg hv, Memory.get, if_pos rfl]
    · rw [if_neg h1]
      by_cases h2 : a = k
      · rw [if_pos h2]
        by_cases hv : v = Memory.unlisted
        · rw [if_pos hv, hv]
          exact Memory.get_eq_unlisted fun d hd => by have := hk d hd; omega
        · rw [if_neg hv, Memory.get, if_pos h2.symm]
      · rw [if_neg h2, Memory.get, if_neg (fun e => h2 e.symm)]
        exact ih hm

/-- Every other byte reads as before, whatever the list. -/
theorem Memory.get_set_ne (m : Memory) {a b : Nat} (v : BitVec 8) (hab : b ≠ a) :
    (m.set a v).get b = m.get b := by
  induction m with
  | nil =>
    by_cases hv : v = Memory.unlisted
    · rw [Memory.set, if_pos hv]
    · rw [Memory.set, if_neg hv]
      exact if_neg fun e : a = b => hab e.symm
  | cons c m ih =>
    obtain ⟨k, x⟩ := c
    unfold Memory.set
    by_cases h1 : a < k
    · rw [if_pos h1]
      by_cases hv : v = Memory.unlisted
      · rw [if_pos hv]
      · rw [if_neg hv]
        conv_lhs => rw [Memory.get, if_neg (fun e => hab e.symm)]
    · rw [if_neg h1]
      by_cases h2 : a = k
      · rw [if_pos h2]
        by_cases hv : v = Memory.unlisted
        · rw [if_pos hv, Memory.get, if_neg (fun e => hab (by omega))]
        · rw [if_neg hv, Memory.get, Memory.get, if_neg (fun e => hab (by omega)), if_neg (fun e => hab (by omega))]
      · rw [if_neg h2, Memory.get, Memory.get]
        by_cases h3 : k = b
        · rw [if_pos h3, if_pos h3]
        · rw [if_neg h3, if_neg h3]; exact ih

/-- The cells of a written memory: the new one or old ones. -/
theorem Memory.mem_set {m : Memory} {a : Nat} {v : BitVec 8} {d : Host.Cell} (hd : d ∈ m.set a v) :
    d = (a, v) ∨ d ∈ m := by
  induction m with
  | nil =>
    by_cases hv : v = Memory.unlisted
    · rw [Memory.set, if_pos hv] at hd; exact .inr hd
    · rw [Memory.set, if_neg hv] at hd; exact .inl (by simpa using hd)
  | cons c m ih =>
    obtain ⟨k, x⟩ := c
    unfold Memory.set at hd
    split at hd
    · split at hd
      · exact .inr hd
      · rcases List.mem_cons.1 hd with h | h
        · exact .inl h
        · exact .inr h
    · split at hd
      · rename_i h2
        split at hd
        · exact .inr (by simp [hd])
        · rcases List.mem_cons.1 hd with h | h
          · exact .inl (by rw [h, h2])
          · exact .inr (by simp [h])
      · rcases List.mem_cons.1 hd with h | h
        · exact .inr (by simp [h])
        · rcases ih h with h | h
          · exact .inl h
          · exact .inr (by simp [h])

/-- A write keeps the canonical form. -/
theorem Memory.set_wf {m : Memory} (h : m.wf) (a : Nat) (v : BitVec 8) : (m.set a v).wf := by
  induction m with
  | nil =>
    by_cases hv : v = Memory.unlisted
    · rw [Memory.set, if_pos hv]; exact h
    · rw [Memory.set, if_neg hv]
      exact ⟨by simp, fun c hc => by simp at hc; subst hc; exact hv⟩
  | cons c m ih =>
    obtain ⟨k, x⟩ := c
    obtain ⟨hm, hk, hx⟩ := Memory.wf_tail h
    simp only at hk hx
    have hcons : ∀ {y : BitVec 8} {k' : Nat} {m' : Memory}, m'.wf → (∀ d ∈ m', k' < d.1) → y ≠ Memory.unlisted →
        Memory.wf ((k', y) :: m') := fun hm' hk' hy =>
      ⟨List.pairwise_cons.2 ⟨hk', hm'.1⟩, fun c hc => by
        rcases List.mem_cons.1 hc with rfl | hc
        · exact hy
        · exact hm'.2 c hc⟩
    unfold Memory.set
    by_cases h1 : a < k
    · rw [if_pos h1]
      by_cases hv : v = Memory.unlisted
      · rw [if_pos hv]; exact h
      · rw [if_neg hv]
        refine hcons h (fun d hd => ?_) hv
        rcases List.mem_cons.1 hd with rfl | hd
        · exact h1
        · have := hk d hd; omega
    · rw [if_neg h1]
      by_cases h2 : a = k
      · rw [if_pos h2]
        by_cases hv : v = Memory.unlisted
        · rw [if_pos hv]; exact hm
        · rw [if_neg hv]; exact hcons hm hk hv
      · rw [if_neg h2]
        refine hcons (ih hm) (fun d hd => ?_) hx
        rcases Memory.mem_set hd with rfl | hd
        · show k < a; omega
        · exact hk d hd

/-- Memory right after reset is in its canonical form. -/
theorem reset_mem_wf : State.reset.mem.wf := ⟨List.Pairwise.nil, fun _ h => by cases h⟩

end Sys2Proof.Machine
end

