-- ==== Sys2Proof/Laws/Ops.lean ====
section
/-!
SUPPORT. What each shared shape of the register families does: one lemma per shape, stated for any instruction whose
meaning is that shape.
-/

namespace Sys2Proof.Machine

/-- A list of views only matters through the bytes it covers. -/
theorem KeepsRegs.same {s t : State} {d e : List RegName} (h : KeepsRegs s t d)
    (hde : ∀ n k, covered d n k = covered e n k) : KeepsRegs s t e :=
  ⟨fun n k hk hc => h.value n k hk (by rw [hde]; exact hc), fun n k hk => by rw [h.defined n k hk, hde]⟩

theorem KeepsMem.of_mem {s t : State} (h : t.mem = s.mem) (as : List Addr) : KeepsMem s t as :=
  fun _ _ => by rw [h]

theorem KeepsControl.trans {s t u : State} (h1 : KeepsControl s t) (h2 : KeepsControl t u) : KeepsControl s u :=
  ⟨h2.exr.trans h1.exr, h2.sleeping.trans h1.sleeping, h2.irqHold.trans h1.irqHold,
    h2.nmiPending.trans h1.nmiPending, h2.eepmovActive.trans h1.eepmovActive⟩

theorem KeepsOutside.trans {s t u : State} (h1 : KeepsOutside s t) (h2 : KeepsOutside t u) : KeepsOutside s u :=
  ⟨h2.fault.trans h1.fault, h2.irq.trans h1.irq, h2.resetIn.trans h1.resetIn, h2.hostMap.trans h1.hostMap,
    h2.params.trans h1.params, h2.fresh.trans h1.fresh, h2.traceDue.trans h1.traceDue, h2.epoch.trans h1.epoch⟩

/-- Two frames one after the other. -/
theorem Frame.trans {s t u : State} {d e : List RegName} {f g : List Flag} {a b : List Addr}
    (h1 : Frame s t d f a) (h2 : Frame t u e g b) : Frame s u (d ++ e) (f ++ g) (a ++ b) :=
  ⟨h1.regs.trans h2.regs, h1.flags.trans h2.flags, fun x hx => by
      simp only [List.map_append, List.mem_append, not_or] at hx
      rw [h2.mem x hx.2, h1.mem x hx.1],
    h1.control.trans h2.control, h1.outside.trans h2.outside⟩

theorem frame_setPc (s : State) (a : Addr) : Frame s (s.setPc a) [] [] [] :=
  ⟨.of_er rfl, .of_ccr rfl rfl, .of_mem rfl _, ⟨rfl, rfl, rfl, rfl, rfl⟩,
    ⟨rfl, rfl, rfl, rfl, rfl, rfl, rfl, rfl⟩⟩

theorem frame_advance (s : State) (len : Nat) : Frame s (s.advance len) [] [] [] := frame_setPc s _

theorem frame_writeB (s : State) (n : BitVec 4) (v : Byte) : Frame s (s.writeB n v) [.byte n] [] [] :=
  ⟨keepsRegs_writeB s n v, .of_ccr rfl rfl, .of_mem rfl _, ⟨rfl, rfl, rfl, rfl, rfl⟩,
    ⟨rfl, rfl, rfl, rfl, rfl, rfl, rfl, rfl⟩⟩

theorem frame_writeW (s : State) (n : BitVec 4) (v : Word) : Frame s (s.writeW n v) [.word n] [] [] :=
  ⟨keepsRegs_writeW s n v, .of_ccr rfl rfl, .of_mem rfl _, ⟨rfl, rfl, rfl, rfl, rfl⟩,
    ⟨rfl, rfl, rfl, rfl, rfl, rfl, rfl, rfl⟩⟩

theorem frame_writeL (s : State) (n : BitVec 3) (v : Long) : Frame s (s.writeL n v) [.long n] [] [] :=
  ⟨keepsRegs_writeL s n v, .of_ccr rfl rfl, .of_mem rfl _, ⟨rfl, rfl, rfl, rfl, rfl⟩,
    ⟨rfl, rfl, rfl, rfl, rfl, rfl, rfl, rfl⟩⟩

theorem FlagsOnly.frame {s t : State} {fl : List Flag} {val : Flag → Bool} (h : FlagsOnly s t fl val) :
    Frame s t [] fl [] :=
  ⟨.of_er h.er, h.keeps, .of_mem h.mem _, h.control, h.outside⟩

theorem FlagsOnly.reg {s t : State} {fl : List Flag} {val : Flag → Bool} (h : FlagsOnly s t fl val)
    (n : BitVec 3) : t.reg n = s.reg n := by unfold State.reg; simp [h.er]

theorem FlagsOnly.readB {s t : State} {fl : List Flag} {val : Flag → Bool} (h : FlagsOnly s t fl val)
    (n : BitVec 4) : t.readB n = s.readB n := by unfold State.readB; rw [h.reg]

theorem FlagsOnly.readW {s t : State} {fl : List Flag} {val : Flag → Bool} (h : FlagsOnly s t fl val)
    (n : BitVec 4) : t.readW n = s.readW n := by unfold State.readW; rw [h.reg]

theorem FlagsOnly.readL {s t : State} {fl : List Flag} {val : Flag → Bool} (h : FlagsOnly s t fl val)
    (n : BitVec 3) : t.readL n = s.readL n := by unfold State.readL; rw [h.reg]

/-- `pc_next` depends on `pc` and the address width alone. -/
theorem pcNext_congr {s t : State} (hp : t.pc = s.pc) (hq : t.params = s.params) (len : Nat) :
    t.pcNext len = s.pcNext len := by unfold State.pcNext State.addr; rw [hp, hq]

/-- A byte result: the value, its flags, `pc_next` and the frame. -/
theorem putB_result {x : Instr} {s : State} {len : Nat} {rd : BitVec 4} {v : Byte} {upd : State → State}
    {fl : List Flag} {val : Flag → Bool} (hx : exec x s = putB len rd v upd s)
    (hf : FlagsOnly (s.writeB rd v) (upd (s.writeB rd v)) fl val) : ResultB x s len rd v fl val := by
  refine ⟨_, hx, ?_, hf.has, ?_, ?_⟩
  · rw [advance_readB, hf.readB, readB_writeB]
  · rw [advance_pc]; exact pcNext_congr hf.pc hf.outside.params len
  · simpa using ((frame_writeB s rd v).trans hf.frame).trans (frame_advance _ len)

/-- A word result. -/
theorem putW_result {x : Instr} {s : State} {len : Nat} {rd : BitVec 4} {v : Word} {upd : State → State}
    {fl : List Flag} {val : Flag → Bool} (hx : exec x s = putW len rd v upd s)
    (hf : FlagsOnly (s.writeW rd v) (upd (s.writeW rd v)) fl val) : ResultW x s len rd v fl val := by
  refine ⟨_, hx, ?_, hf.has, ?_, ?_⟩
  · rw [advance_readW, hf.readW, readW_writeW]
  · rw [advance_pc]; exact pcNext_congr hf.pc hf.outside.params len
  · simpa using ((frame_writeW s rd v).trans hf.frame).trans (frame_advance _ len)

/-- A long result. -/
theorem putL_result {x : Instr} {s : State} {len : Nat} {rd : BitVec 3} {v : Long} {upd : State → State}
    {fl : List Flag} {val : Flag → Bool} (hx : exec x s = putL len rd v upd s)
    (hf : FlagsOnly (s.writeL rd v) (upd (s.writeL rd v)) fl val) : ResultL x s len rd v fl val := by
  refine ⟨_, hx, ?_, hf.has, ?_, ?_⟩
  · rw [advance_readL, hf.readL, readL_writeL]
  · rw [advance_pc]; exact pcNext_congr hf.pc hf.outside.params len
  · simpa using ((frame_writeL s rd v).trans hf.frame).trans (frame_advance _ len)

/-- CMP: the flags only. -/
theorem compare_result {w : Nat} {x : Instr} {s : State} {len : Nat} {r : AluResult w}
    (hx : exec x s = compare len r s) : ResultFlags x s len [.h, .n, .z, .v, .c] r.flags.val := by
  have hf : FlagsOnly s (allFlags r s) _ r.flags.val := flagsOnly_setFlags s r.flags
  refine ⟨_, hx, hf.has, ?_, ?_⟩
  · rw [advance_pc]; exact pcNext_congr hf.pc hf.outside.params len
  · simpa using hf.frame.trans (frame_advance _ len)

/-! ### Branches -/

/-- A transfer to an even address completes. -/
theorem jumpTo_even (s : State) {target : Addr} (h : target.getLsbD 0 = false) :
    s.jumpTo target = .ok (s.setPc target) := by unfold State.jumpTo; rw [h]; rfl

/-- A transfer to an odd address is `Unmodelled` (10_state.md R110). -/
theorem jumpTo_odd (s : State) {target : Addr} (h : target.getLsbD 0 = true) :
    s.jumpTo target = .error (.unmodelled .oddBranchTarget s.pc.toNat) := by
  unfold State.jumpTo; rw [h]; rfl

theorem jumpsTo_of_setPc {x : Instr} {s : State} {target : Addr} (hx : exec x s = .next (s.setPc target)) :
    JumpsTo x s target := ⟨_, hx, rfl, frame_setPc s target⟩

/-- A conditional branch (45_branch.md R901, R902): taken to an even target, or not taken. -/
theorem branch_result {n : Nat} {x : Instr} {s : State} {len : Nat} {cond : Cond} {disp : BitVec n}
    (hx : exec x s = branch len cond disp s) :
    (cond.holds (s.flag .n) (s.flag .z) (s.flag .v) (s.flag .c) = true →
      (s.pcRelTarget len disp).getLsbD 0 = false → JumpsTo x s (s.pcRelTarget len disp)) ∧
    (cond.holds (s.flag .n) (s.flag .z) (s.flag .v) (s.flag .c) = true →
      (s.pcRelTarget len disp).getLsbD 0 = true →
        exec x s = .fault (.unmodelled .oddBranchTarget s.pc.toNat)) ∧
    (cond.holds (s.flag .n) (s.flag .z) (s.flag .v) (s.flag .c) = false → JumpsTo x s (s.pcNext len)) := by
  refine ⟨fun hc ht => ?_, fun hc ht => ?_, fun hc => ?_⟩
  · refine jumpsTo_of_setPc ?_
    rw [hx]; unfold branch; rw [if_pos hc, jumpTo_even _ ht]; rfl
  · rw [hx]; unfold branch; rw [if_pos hc, jumpTo_odd _ ht]; rfl
  · refine jumpsTo_of_setPc ?_
    rw [hx]; unfold branch; rw [hc]; rfl

end Sys2Proof.Machine
end

