-- ==== Sys2Proof/Laws/Access.lean ====
section
/-!
SUPPORT. The memory port: when an access completes and what it then answers or leaves (20_memory.md R200 to R205,
R214).
-/

namespace Sys2Proof.Machine

/-! ### Addresses as numbers -/

theorem addrBits_cases (p : AddrBits) : 2 ^ p.toNat = 16777216 ∨ 2 ^ p.toNat = 4294967296 := by
  cases p <;> simp [AddrBits.toNat]

/-- An address modulo `2^ADDR_BITS`. -/
theorem addr_toNat (s : State) (a : Addr) : (s.addr a).toNat = a.toNat % 2 ^ s.params.addrBits.toNat := by
  unfold State.addr
  cases s.params.addrBits
  · show (a &&& 0x00FFFFFF#32).toNat = a.toNat % 2 ^ 24
    rw [BitVec.toNat_and]
    exact Nat.and_two_pow_sub_one_eq_mod a.toNat 24
  · show (a &&& 0xFFFFFFFF#32).toNat = a.toNat % 2 ^ 32
    rw [BitVec.toNat_and]
    exact Nat.and_two_pow_sub_one_eq_mod a.toNat 32

theorem addr_addr (s : State) (a : Addr) : s.addr (s.addr a) = s.addr a := by
  apply BitVec.eq_of_toNat_eq
  rw [addr_toNat, addr_toNat, Nat.mod_mod]

theorem clearLow_toNat (a : Addr) : (a &&& ~~~1#32).toNat = a.toNat / 2 * 2 := by
  have h : a &&& ~~~1#32 = a >>> 1 <<< 1 := by
    apply BitVec.eq_of_getElem_eq
    intro i hi
    rw [BitVec.getElem_and, BitVec.getElem_not, BitVec.getElem_one, BitVec.getElem_shiftLeft]
    rcases i with _ | i
    · simp
    · simp [BitVec.getLsbD_eq_getElem hi, Nat.add_comm 1 i]
  rw [h, BitVec.toNat_shiftLeft, BitVec.toNat_ushiftRight, Nat.shiftRight_eq_div_pow, Nat.shiftLeft_eq]
  have := a.isLt
  omega

theorem evenAddr_toNat (s : State) (a : Addr) :
    (s.evenAddr a).toNat = a.toNat % 2 ^ s.params.addrBits.toNat / 2 * 2 := by
  unfold State.evenAddr; rw [clearLow_toNat, addr_toNat]

theorem offset_toNat (s : State) (a : Addr) (i : Nat) :
    (s.offset a i).toNat = (a.toNat + i) % 2 ^ s.params.addrBits.toNat := by
  unfold State.offset
  rw [addr_toNat, BitVec.toNat_add, BitVec.toNat_ofNat]
  rcases addrBits_cases s.params.addrBits with h | h <;> rw [h] <;> omega

/-- The addresses of a word access differ. -/
theorem wordSpan_nodup (s : State) (a : Addr) : ((s.wordSpan a).map BitVec.toNat).Nodup := by
  simp only [State.wordSpan, List.map_cons, List.map_nil, List.nodup_cons, List.mem_singleton, List.not_mem_nil,
    not_false_eq_true, List.nodup_nil, and_true, offset_toNat s _ 1, evenAddr_toNat]
  rcases addrBits_cases s.params.addrBits with h | h <;> rw [h] <;> omega

/-- The addresses of a long access differ. -/
theorem longSpan_nodup (s : State) (a : Addr) : ((s.longSpan a).map BitVec.toNat).Nodup := by
  simp only [State.longSpan, List.map_cons, List.map_nil, List.nodup_cons, List.mem_cons, List.not_mem_nil,
    not_false_eq_true, List.nodup_nil, and_true, not_or,
    offset_toNat s _ 1, offset_toNat s _ 2,
    offset_toNat s _ 3, evenAddr_toNat]
  rcases addrBits_cases s.params.addrBits with h | h <;> rw [h] <;> omega

/-! ### Reading -/

theorem readByte_ok {s : State} {a : Addr} (h : s.canRead a.toNat = true) : s.readByte a = .ok (s.byteAt a) := by
  unfold State.readByte; rw [if_pos h]

theorem readByte_inv {s : State} {a : Addr} {v : Byte} (h : s.readByte a = .ok v) :
    s.canRead a.toNat = true ∧ v = s.byteAt a := by
  unfold State.readByte at h
  split at h
  · exact ⟨‹_›, by cases h; rfl⟩
  · cases h

/-- A byte read completes where the host answers. -/
theorem read8_ok {s : State} {a : Addr} (h : s.MayRead [s.addr a]) : s.read8 a = .ok (s.byteAt (s.addr a)) :=
  readByte_ok (h _ (by simp))

/-- A word read completes where the host answers both bytes. -/
theorem read16_ok {s : State} {a : Addr} (h : s.MayRead (s.wordSpan a)) : s.read16 a = .ok (s.wordAt a) := by
  unfold State.read16
  rw [readByte_ok (h _ (by simp [State.wordSpan])), readByte_ok (h _ (by simp [State.wordSpan]))]
  rfl

/-- A long read completes where the host answers the four bytes. -/
theorem read32_ok {s : State} {a : Addr} (h : s.MayRead (s.longSpan a)) : s.read32 a = .ok (s.longAt a) := by
  unfold State.read32
  rw [readByte_ok (h _ (by simp [State.longSpan])), readByte_ok (h _ (by simp [State.longSpan])),
    readByte_ok (h _ (by simp [State.longSpan])), readByte_ok (h _ (by simp [State.longSpan]))]
  rfl

/-! ### Writing -/

/-- The state after bytes have been written, in order, where the host takes them. -/
def State.stored (s : State) : List (Addr × Byte) → State
  | [] => s
  | (a, v) :: ps => (if s.isDevice a.toNat then s else s.setMem (s.mem.set a.toNat v)).stored ps

theorem writeByte_ok {s : State} {a : Addr} (v : Byte) (h : s.canWrite a.toNat = true) :
    s.writeByte a v = .ok (s.stored [(a, v)]) := by
  unfold State.writeByte; rw [if_pos h]; rfl

/-- Everything but memory is as before. -/
theorem stored_eq (s : State) (ps : List (Addr × Byte)) : ∃ m, s.stored ps = s.setMem m := by
  induction ps generalizing s with
  | nil => exact ⟨s.mem, rfl⟩
  | cons p ps ih =>
    obtain ⟨a, v⟩ := p
    unfold State.stored
    split
    · exact ih s
    · obtain ⟨m, hm⟩ := ih (s.setMem (s.mem.set a.toNat v))
      exact ⟨m, hm⟩

theorem stored_append (s : State) (ps qs : List (Addr × Byte)) :
    s.stored (ps ++ qs) = (s.stored ps).stored qs := by
  induction ps generalizing s with
  | nil => rfl
  | cons p ps ih => obtain ⟨a, v⟩ := p; simp only [List.cons_append, State.stored, ih]

theorem stored_hostMap (s : State) (ps : List (Addr × Byte)) : (s.stored ps).hostMap = s.hostMap := by
  obtain ⟨m, h⟩ := stored_eq s ps; rw [h]; rfl

theorem stored_params (s : State) (ps : List (Addr × Byte)) : (s.stored ps).params = s.params := by
  obtain ⟨m, h⟩ := stored_eq s ps; rw [h]; rfl

theorem stored_pc (s : State) (ps : List (Addr × Byte)) : (s.stored ps).pc = s.pc := by
  obtain ⟨m, h⟩ := stored_eq s ps; rw [h]; rfl

theorem stored_canWrite (s : State) (ps : List (Addr × Byte)) (a : Nat) :
    (s.stored ps).canWrite a = s.canWrite a := by
  obtain ⟨m, h⟩ := stored_eq s ps; rw [h]; rfl

theorem stored_canRead (s : State) (ps : List (Addr × Byte)) (a : Nat) :
    (s.stored ps).canRead a = s.canRead a := by
  obtain ⟨m, h⟩ := stored_eq s ps; rw [h]; rfl

theorem stored_isDevice (s : State) (ps : List (Addr × Byte)) (a : Nat) :
    (s.stored ps).isDevice a = s.isDevice a := by
  obtain ⟨m, h⟩ := stored_eq s ps; rw [h]; rfl

theorem stored_er (s : State) (ps : List (Addr × Byte)) : (s.stored ps).er = s.er := by
  obtain ⟨m, h⟩ := stored_eq s ps; rw [h]; rfl

/-- A byte that is not written reads as before. -/
theorem stored_get_ne (s : State) (ps : List (Addr × Byte)) {b : Nat} (hb : b ∉ ps.map (·.1.toNat)) :
    (s.stored ps).mem.get b = s.mem.get b := by
  induction ps generalizing s with
  | nil => rfl
  | cons p ps ih =>
    obtain ⟨a, v⟩ := p
    simp only [List.map_cons, List.mem_cons, not_or] at hb
    unfold State.stored
    rw [ih _ hb.2]
    split
    · rfl
    · exact Memory.get_set_ne _ v hb.1

theorem stored_wf {s : State} (h : s.mem.wf) (ps : List (Addr × Byte)) : (s.stored ps).mem.wf := by
  induction ps generalizing s with
  | nil => exact h
  | cons p ps ih =>
    obtain ⟨a, v⟩ := p
    unfold State.stored
    split
    · exact ih h
    · exact ih (Memory.set_wf h _ _)

/-- What is written is held, but by a device. -/
theorem stored_holds {s : State} (h : s.mem.wf) {ps : List (Addr × Byte)} (hn : (ps.map (·.1.toNat)).Nodup)
    {a : Addr} {v : Byte} (hp : (a, v) ∈ ps) (hd : s.isDevice a.toNat = false) :
    (s.stored ps).mem.get a.toNat = v := by
  induction ps generalizing s with
  | nil => cases hp
  | cons p ps ih =>
    obtain ⟨b, u⟩ := p
    simp only [List.map_cons, List.nodup_cons] at hn
    unfold State.stored
    rcases List.mem_cons.1 hp with e | hp
    · cases e
      rw [stored_get_ne _ _ hn.1, if_neg (by simp [hd])]
      exact Memory.get_set_same h _ _
    · refine ih ?_ hn.2 hp ?_
      · split
        · exact h
        · exact Memory.set_wf h _ _
      · split
        · exact hd
        · exact hd

/-- The frame of bytes written. -/
theorem frame_stored (s : State) (ps : List (Addr × Byte)) : Frame s (s.stored ps) [] [] (ps.map (·.1)) := by
  obtain ⟨m, hm⟩ := stored_eq s ps
  refine ⟨.of_er (stored_er s ps), .of_ccr ?_ ?_, fun a ha => stored_get_ne s ps ?_, ?_, ?_⟩
  · rw [hm]; rfl
  · rw [hm]; rfl
  · simpa [List.map_map, Function.comp_def] using ha
  · rw [hm]; exact ⟨rfl, rfl, rfl, rfl, rfl⟩
  · rw [hm]; exact ⟨rfl, rfl, rfl, rfl, rfl, rfl, rfl, rfl⟩

theorem guardStore_ok {s : State} {len : Nat} {as : List Addr} (h : ∀ a ∈ as, s.inPrefetch len a = false) :
    s.guardStore (some len) as = .ok () := by
  have h' : as.any (fun a => s.inPrefetch len a) = false := by
    rw [List.any_eq_false]; intro a ha; simp [h a ha]
  show (if as.any (fun a => s.inPrefetch len a) = true then _ else Except.ok ()) = _
  rw [if_neg (by rw [h']; decide)]

/-- Who stores: an instruction of this length, whose prefetch window the bytes avoid, or no instruction. -/
def State.Allows (s : State) (by_ : Option Nat) (as : List Addr) : Prop :=
  s.MayWrite as ∧ ∀ len, by_ = some len → ∀ a ∈ as, s.inPrefetch len a = false

theorem allows_of_mayStore {s : State} {len : Nat} {as : List Addr} (h : s.MayStore len as) :
    s.Allows (some len) as := ⟨h.1, fun l hl => by cases hl; exact h.2⟩

theorem guardStore_allows {s : State} {by_ : Option Nat} {as : List Addr} (h : s.Allows by_ as) :
    s.guardStore by_ as = .ok () := by
  cases by_ with
  | none => rfl
  | some len => exact guardStore_ok (h.2 len rfl)

/-- A byte write completes where the host takes it and the prefetch window allows it. -/
theorem write8_ok {s : State} {by_ : Option Nat} {a : Addr} (v : Byte) (h : s.Allows by_ [s.addr a]) :
    s.write8 by_ a v = .ok (s.stored [(s.addr a, v)]) := by
  unfold State.write8
  rw [guardStore_allows h, writeByte_ok v (h.1 _ (by simp))]
  rfl

/-- A word write likewise. -/
theorem write16_ok {s : State} {by_ : Option Nat} {a : Addr} (v : Word) (h : s.Allows by_ (s.wordSpan a)) :
    s.write16 by_ a v = .ok (s.stored ((s.wordSpan a).zip (wordBytes v))) := by
  unfold State.write16
  have h0 := h.1 (s.evenAddr a) (by simp [State.wordSpan])
  have h1 := h.1 (s.offset (s.evenAddr a) 1) (by simp [State.wordSpan])
  show (s.guardStore by_ (s.wordSpan a) >>= _) = _
  rw [guardStore_allows h]
  show (s.writeByte _ _ >>= _) = _
  rw [writeByte_ok _ h0]
  show (s.stored _).writeByte _ _ = _
  rw [writeByte_ok _ (by rw [stored_canWrite]; exact h1), ← stored_append]
  rfl

/-- A long write likewise. -/
theorem write32_ok {s : State} {by_ : Option Nat} {a : Addr} (v : Long) (h : s.Allows by_ (s.longSpan a)) :
    s.write32 by_ a v = .ok (s.stored ((s.longSpan a).zip (longBytes v))) := by
  unfold State.write32
  have h0 := h.1 (s.evenAddr a) (by simp [State.longSpan])
  have h1 := h.1 (s.offset (s.evenAddr a) 1) (by simp [State.longSpan])
  have h2 := h.1 (s.offset (s.evenAddr a) 2) (by simp [State.longSpan])
  have h3 := h.1 (s.offset (s.evenAddr a) 3) (by simp [State.longSpan])
  show (s.guardStore by_ (s.longSpan a) >>= _) = _
  rw [guardStore_allows h]
  show (s.writeByte _ _ >>= _) = _
  rw [writeByte_ok _ h0]
  show ((s.stored _).writeByte _ _ >>= _) = _
  rw [writeByte_ok _ (by rw [stored_canWrite]; exact h1), ← stored_append]
  show ((s.stored _).writeByte _ _ >>= _) = _
  rw [writeByte_ok _ (by rw [stored_canWrite]; exact h2), ← stored_append]
  show (s.stored _).writeByte _ _ = _
  rw [writeByte_ok _ (by rw [stored_canWrite]; exact h3), ← stored_append]
  rfl

/-- Written bytes are held. -/
theorem holds_stored {s : State} (h : s.mem.wf) {as : List Addr} {bs : List Byte}
    (hl : as.length ≤ bs.length) (hn : (as.map BitVec.toNat).Nodup) : (s.stored (as.zip bs)).Holds as bs := by
  rintro ⟨a, v⟩ hp hd
  rw [stored_isDevice] at hd
  refine stored_holds h ?_ hp hd
  have : (as.zip bs).map (fun p => p.1.toNat) = as.map BitVec.toNat := by
    rw [← List.map_fst_zip (l₁ := as) (l₂ := bs) hl, List.map_map, List.map_fst_zip hl]
    rfl
  rw [this]; exact hn

end Sys2Proof.Machine
end

