-- ==== Sys2Proof/Laws/Reach.lean ====
section
/-!
SUPPORT. Everything an instruction can do, said once: the state after it is reached from the state before by the
elementary updates of `Reach`. An invariant of the updates is an invariant of every instruction.
-/

namespace Sys2Proof.Machine

/-- `t` is reached from `s` by elementary updates: an even program counter inside the address space, a register with no
byte made undefined, a flag, CCR or EXR whole, the shadow, one byte of memory, the hidden state. -/
inductive Reach (s : State) : State → Prop where
  | refl : Reach s s
  | pc {t : State} {a : Addr} : Reach s t → t.addr a = a → a.getLsbD 0 = false → Reach s (t.setPc a)
  | reg {t : State} {n : BitVec 3} {r : Reg} :
      Reach s t → (∀ k, (t.reg n).dfn.getLsbD k = true → r.dfn.getLsbD k = true) → Reach s (t.setReg n r)
  | flag {t : State} {f : Flag} {x : Bool} : Reach s t → Reach s (t.setFlag f x)
  | ccr {t : State} {v : Byte} : Reach s t → Reach s (t.writeCcr v)
  | exr {t : State} {v : Byte} : Reach s t → Reach s (t.writeExr v)
  | shadow {t : State} : Reach s t → Reach s t.shadow
  | mem {t : State} {a : Addr} {v : Byte} :
      Reach s t → a.toNat < 2 ^ t.params.addrBits.toNat → Reach s (t.setMem (t.mem.set a.toNat v))
  | moving {t : State} {x : Bool} : Reach s t → Reach s (t.setMoving x)
  | sleeping {t : State} {x : Bool} : Reach s t → Reach s (t.setSleeping x)
  | awake {t : State} : Reach s t → Reach s t.awake

namespace Reach

theorem trans {s t u : State} (h1 : Reach s t) (h2 : Reach t u) : Reach s u := by
  induction h2 with
  | refl => exact h1
  | pc _ ha he ih => exact ih.pc ha he
  | reg _ hr ih => exact ih.reg hr
  | flag _ ih => exact ih.flag
  | ccr _ ih => exact ih.ccr
  | exr _ ih => exact ih.exr
  | shadow _ ih => exact ih.shadow
  | mem _ ha ih => exact ih.mem ha
  | moving _ ih => exact ih.moving
  | sleeping _ ih => exact ih.sleeping
  | awake _ ih => exact ih.awake

theorem fault {s t : State} (h : Reach s t) : t.fault = s.fault := by
  induction h with
  | refl => rfl
  | _ => assumption

theorem nmiPending {s t : State} (h : Reach s t) : t.nmiPending = s.nmiPending := by
  induction h with
  | refl => rfl
  | _ => assumption

theorem irq {s t : State} (h : Reach s t) : t.irq = s.irq := by
  induction h with
  | refl => rfl
  | _ => assumption

theorem resetIn {s t : State} (h : Reach s t) : t.resetIn = s.resetIn := by
  induction h with
  | refl => rfl
  | _ => assumption

theorem hostMap {s t : State} (h : Reach s t) : t.hostMap = s.hostMap := by
  induction h with
  | refl => rfl
  | _ => assumption

theorem params {s t : State} (h : Reach s t) : t.params = s.params := by
  induction h with
  | refl => rfl
  | _ => assumption

theorem fresh {s t : State} (h : Reach s t) : t.fresh = s.fresh := by
  induction h with
  | refl => rfl
  | _ => assumption

theorem traceDue {s t : State} (h : Reach s t) : t.traceDue = s.traceDue := by
  induction h with
  | refl => rfl
  | _ => assumption

theorem epoch {s t : State} (h : Reach s t) : t.epoch = s.epoch := by
  induction h with
  | refl => rfl
  | _ => assumption

/-- The program counter stays even and inside the address space. -/
theorem pcOk {s t : State} (h : Reach s t) (hs : s.PcOk) : t.PcOk := by
  induction h with
  | refl => exact hs
  | pc _ ha he _ => exact ⟨ha, he⟩
  | _ => assumption

theorem exrStored_reserved (v : Byte) : exrStored v &&& 0x78 = 0x78 := by
  apply BitVec.eq_of_getLsbD_eq
  intro i hi
  interval_cases i <;> simp [exrStored]

/-- The reserved bits of EXR stay 1. -/
theorem exrOk {s t : State} (h : Reach s t) (hs : s.ExrOk) : t.ExrOk := by
  induction h with
  | refl => exact hs
  | exr _ _ => exact exrStored_reserved _
  | _ => assumption

/-- Memory stays canonical and inside the address space. -/
theorem memOk {s t : State} (h : Reach s t) (hs : s.MemOk) : t.MemOk := by
  induction h with
  | refl => exact hs
  | mem _ ha ih =>
    refine ⟨Memory.set_wf ih.1 _ _, fun c hc => ?_⟩
    rcases Memory.mem_set hc with rfl | hc
    · exact ha
    · exact ih.2 c hc
  | _ => assumption

/-- A defined register byte stays defined. -/
theorem laneDefined {s t : State} (h : Reach s t) (m : BitVec 3) (k : Nat) (hk : s.laneDefined m k = true) :
    t.laneDefined m k = true := by
  induction h with
  | refl => exact hk
  | @reg t n r _ hr ih =>
    by_cases e : m = n
    · subst e
      unfold State.laneDefined
      rw [reg_setReg_same]
      exact hr k ih
    · rw [laneDefined_setReg_ne _ _ _ e]; exact ih
  | _ => assumption

/-- A defined flag stays defined. -/
theorem definedFlag {s t : State} (h : Reach s t) (g : Flag) (hg : s.definedFlag g = true) :
    t.definedFlag g = true := by
  induction h with
  | refl => exact hg
  | flag _ ih => rw [definedFlag_setFlag, ih]; rfl
  | ccr _ _ => show (0xFF#8).getLsbD g.bit = true; cases g <;> decide
  | _ => assumption

end Reach

/-! ### The updates of the operations -/

theorem Reach.writeB {s t : State} (h : Reach s t) (n : BitVec 4) (v : Byte) : Reach s (t.writeB n v) := by
  unfold State.writeB
  refine h.reg fun k hk => ?_
  split <;> simp only [BitVec.getLsbD_or, hk, Bool.true_or]

theorem Reach.writeW {s t : State} (h : Reach s t) (n : BitVec 4) (v : Word) : Reach s (t.writeW n v) := by
  unfold State.writeW
  refine h.reg fun k hk => ?_
  split <;> simp only [BitVec.getLsbD_or, hk, Bool.true_or]

theorem Reach.writeL {s t : State} (h : Reach s t) (n : BitVec 3) (v : Long) : Reach s (t.writeL n v) := by
  refine h.reg fun k hk => ?_
  have hk4 : k < 4 := by
    by_contra hc
    rw [BitVec.getLsbD_of_ge _ _ (by omega)] at hk
    cases hk
  show (15#4).getLsbD k = true
  interval_cases k <;> decide

theorem Reach.setNZ {s t : State} (h : Reach s t) (n z : Bool) : Reach s (t.setNZ n z) := h.flag.flag

theorem Reach.setNZV {s t : State} (h : Reach s t) (n z v : Bool) : Reach s (t.setNZV n z v) := (h.setNZ n z).flag

theorem Reach.setFlags {s t : State} (h : Reach s t) (f : Flags) : Reach s (t.setFlags f) :=
  (h.setNZV _ _ _).flag.flag

theorem Reach.setNZ0 {w : Nat} {s t : State} (h : Reach s t) (v : BitVec w) : Reach s (t.setNZ0 v) :=
  h.setNZV _ _ _

theorem Reach.ite {s t u : State} {c : Prop} [Decidable c] (h1 : Reach s t) (h2 : Reach s u) :
    Reach s (if c then t else u) := by split <;> assumption

theorem Reach.update {s t u : State} (h : Reach s t) (m : Mode) (size : Nat) (hu : u = m.update size t) :
    Reach s u := by
  subst hu
  cases m
  case inc => exact h.writeL _ _
  case dec => exact h.writeL _ _
  all_goals exact h

/-- `pc_next` is inside the address space, and even after an even `pc`. -/
theorem pcNext_even {s : State} (h : s.pc.getLsbD 0 = false) {len : Nat} (hl : len % 2 = 0) :
    (s.pcNext len).getLsbD 0 = false := by
  have hp : s.pc.toNat % 2 = 0 := by
    rw [BitVec.getLsbD, Nat.testBit_zero] at h
    simpa using h
  rw [BitVec.getLsbD, Nat.testBit_zero, State.pcNext, addr_toNat, BitVec.toNat_add, BitVec.toNat_ofNat]
  rcases addrBits_cases s.params.addrBits with e | e <;> rw [e] <;> simp <;> omega

/-- `pc <- pc_next` after updates that left `pc` even. -/
theorem Reach.advance {s t : State} (h : Reach s t) (hs : s.PcOk) {len : Nat} (hl : len % 2 = 0) :
    Reach s (t.advance len) := h.pc (addr_addr t _) (pcNext_even (h.pcOk hs).2 hl)

/-! ### The memory port -/

theorem writeByte_reach {s t u : State} (h : Reach s t) {a : Addr} {v : Byte} (hw : t.writeByte a v = .ok u)
    (ha : t.addr a = a) : Reach s u := by
  unfold State.writeByte at hw
  split at hw
  · split at hw
    · cases hw; exact h
    · cases hw
      refine h.mem ?_
      rw [← ha, addr_toNat]
      exact Nat.mod_lt _ (Nat.two_pow_pos _)
  · cases hw

theorem addr_evenAddr (s : State) (a : Addr) : s.addr (s.evenAddr a) = s.evenAddr a := by
  apply BitVec.eq_of_toNat_eq
  rw [addr_toNat, evenAddr_toNat]
  rcases addrBits_cases s.params.addrBits with e | e <;> rw [e] <;> omega

theorem addr_offset (s : State) (a : Addr) (i : Nat) : s.addr (s.offset a i) = s.offset a i := addr_addr s _

/-- The bind of two results. -/
theorem bind_ok {α β : Type} {x : Except Fault α} {f : α → Except Fault β} {b : β} (h : (x >>= f) = .ok b) :
    ∃ a, x = .ok a ∧ f a = .ok b := by
  cases x with
  | error e => cases h
  | ok a => exact ⟨a, rfl, h⟩

theorem write8_reach {s t u : State} (h : Reach s t) {by_ : Option Nat} {a : Addr} {v : Byte}
    (hw : t.write8 by_ a v = .ok u) : Reach s u := by
  unfold State.write8 at hw
  obtain ⟨_, _, hw⟩ := bind_ok hw
  exact writeByte_reach h hw (addr_addr t a)

theorem write16_reach {s t u : State} (h : Reach s t) {by_ : Option Nat} {a : Addr} {v : Word}
    (hw : t.write16 by_ a v = .ok u) : Reach s u := by
  unfold State.write16 at hw
  obtain ⟨_, _, hw⟩ := bind_ok hw
  obtain ⟨t1, h1, hw⟩ := bind_ok hw
  have r1 := writeByte_reach h h1 (addr_evenAddr t a)
  refine writeByte_reach r1 hw ?_
  have e : t1.addr = t.addr := by
    funext x; unfold State.addr; rw [(writeByte_reach .refl h1 (addr_evenAddr t a)).params]
  rw [e]; exact addr_offset t _ 1

theorem write32_reach {s t u : State} (h : Reach s t) {by_ : Option Nat} {a : Addr} {v : Long}
    (hw : t.write32 by_ a v = .ok u) : Reach s u := by
  unfold State.write32 at hw
  obtain ⟨_, _, hw⟩ := bind_ok hw
  obtain ⟨t1, h1, hw⟩ := bind_ok hw
  obtain ⟨t2, h2, hw⟩ := bind_ok hw
  obtain ⟨t3, h3, hw⟩ := bind_ok hw
  have e : ∀ {x : State}, Reach t x → x.addr = t.addr := fun hx => by
    funext y; unfold State.addr; rw [hx.params]
  have r1 := writeByte_reach (s := t) .refl h1 (addr_evenAddr t a)
  have r2 := writeByte_reach r1 h2 (by rw [e r1]; exact addr_offset t _ 1)
  have r3 := writeByte_reach r2 h3 (by rw [e r2]; exact addr_offset t _ 2)
  exact h.trans (writeByte_reach r3 hw (by rw [e r3]; exact addr_offset t _ 3))

theorem push32_reach {s t u : State} (h : Reach s t) {by_ : Option Nat} {v : Long}
    (hw : t.push32 by_ v = .ok u) : Reach s u := by
  unfold State.push32 at hw
  obtain ⟨t1, h1, hw⟩ := bind_ok hw
  cases hw
  exact (write32_reach h h1).writeL _ _

theorem push16_reach {s t u : State} (h : Reach s t) {by_ : Option Nat} {v : Word}
    (hw : t.push16 by_ v = .ok u) : Reach s u := by
  unfold State.push16 at hw
  obtain ⟨t1, h1, hw⟩ := bind_ok hw
  cases hw
  exact (write16_reach h h1).writeL _ _

theorem pop32_reach {s t u : State} (h : Reach s t) {v : Long} (hw : t.pop32 = .ok (v, u)) : Reach s u := by
  unfold State.pop32 at hw
  obtain ⟨_, _, hw⟩ := bind_ok hw
  cases hw
  exact h.writeL _ _

theorem pop16_reach {s t u : State} (h : Reach s t) {v : Word} (hw : t.pop16 = .ok (v, u)) : Reach s u := by
  unfold State.pop16 at hw
  obtain ⟨_, _, hw⟩ := bind_ok hw
  cases hw
  exact h.writeL _ _

theorem jumpTo_reach {s t u : State} (h : Reach s t) {a : Addr} (hj : t.jumpTo a = .ok u) (ha : t.addr a = a) :
    Reach s u := by
  unfold State.jumpTo at hj
  split at hj
  · cases hj
  · cases hj
    rename_i hb
    exact h.pc ha (Bool.eq_false_iff.2 hb)

/-! ### Exceptions -/

theorem enterHandler_reach {s t : State} (h : Reach s t) (level : Option (BitVec 3)) :
    Reach s (t.enterHandler level) := by
  unfold State.enterHandler
  refine Reach.awake ?_
  split
  · exact h.flag
  · split
    · exact h.flag.exr
    · exact h.flag.exr

theorem pushFrame_reach {s t u : State} (h : Reach s t) {by_ : Option Nat} {ret : Addr}
    (hw : t.pushFrame by_ ret = .ok u) : Reach s u := by
  unfold State.pushFrame at hw
  obtain ⟨t1, h1, hw⟩ := bind_ok hw
  have r1 := push32_reach h h1
  split at hw
  · cases hw; exact r1
  · exact push16_reach r1 hw

theorem vectorEntry_addr {s : State} {vector : Nat} {a : Addr} (h : s.vectorEntry vector = .ok a) :
    s.addr a = a := by
  unfold State.vectorEntry at h
  obtain ⟨v, _, h⟩ := bind_ok h
  cases h
  exact addr_addr s v

/-- Taking an exception. -/
theorem exceptionEntry_reach {s t u : State} (h : Reach s t) {by_ : Option Nat} {vector : Nat} {ret : Addr}
    {level : Option (BitVec 3)} (hw : t.exceptionEntry by_ vector ret level = .ok u) : Reach s u := by
  unfold State.exceptionEntry at hw
  split at hw
  · cases hw
  · obtain ⟨t1, h1, hw⟩ := bind_ok hw
    obtain ⟨a, h2, hw⟩ := bind_ok hw
    exact jumpTo_reach (enterHandler_reach (pushFrame_reach h h1) level) hw (vectorEntry_addr h2)

theorem addr_low24 (s : State) (v : Long) :
    s.addr ((v.extractLsb' 0 24).zeroExtend 32) = (v.extractLsb' 0 24).zeroExtend 32 := by
  apply BitVec.eq_of_toNat_eq
  rw [addr_toNat]
  have h := (v.extractLsb' 0 24).isLt
  have e : ((v.extractLsb' 0 24).zeroExtend 32).toNat = (v.extractLsb' 0 24).toNat := by
    simp only [BitVec.truncate_eq_setWidth, BitVec.toNat_setWidth]
    exact Nat.mod_eq_of_lt (by omega)
  rw [e]
  rcases addrBits_cases s.params.addrBits with e | e <;> rw [e] <;> omega

/-- Returning from an exception. -/
theorem exceptionReturn_reach {s t u : State} (h : Reach s t) (hw : t.exceptionReturn = .ok u) : Reach s u := by
  unfold State.exceptionReturn at hw
  obtain ⟨t1, h1, hw⟩ := bind_ok hw
  obtain ⟨⟨v, t2⟩, h2, hw⟩ := bind_ok hw
  have r1 : Reach s t1 := by
    unfold State.popExr at h1
    split at h1
    · cases h1; exact h
    · split at h1
      · cases h1
      · rename_i h0
        cases h1; exact (pop16_reach h h0).exr
  exact jumpTo_reach (pop32_reach r1 h2).ccr hw (addr_low24 _ v)

/-! ### The shapes of the meanings -/

/-- A state update of flags alone. -/
theorem allFlags_reach {w : Nat} (r : AluResult w) (t : State) : Reach t (allFlags r t) := Reach.refl.setFlags _

theorem nzvFlags_reach {w : Nat} (r : AluResult w) (t : State) : Reach t (nzvFlags r t) := Reach.refl.setNZV _ _ _

theorem movFlags_reach {w : Nat} (v : BitVec w) (t : State) : Reach t (movFlags v t) := Reach.refl.setNZ0 v

theorem nzFlags_reach {w : Nat} (v : BitVec w) (t : State) : Reach t (nzFlags v t) := Reach.refl.setNZ _ _

theorem shiftFlags_reach {w : Nat} (r : ShiftState w) (t : State) : Reach t (shiftFlags r t) :=
  (Reach.refl.setNZV _ _ _).flag

theorem noFlags_reach (t : State) : Reach t (noFlags t) := .refl

theorem putB_reach {s t : State} (hs : s.PcOk) {len : Nat} (hl : len % 2 = 0) {rd : BitVec 4} {v : Byte}
    {upd : State → State} (hf : ∀ u, Reach u (upd u)) (h : putB len rd v upd s = .next t) : Reach s t := by
  cases h
  exact ((Reach.refl.writeB rd v).trans (hf _)).advance hs hl

theorem putW_reach {s t : State} (hs : s.PcOk) {len : Nat} (hl : len % 2 = 0) {rd : BitVec 4} {v : Word}
    {upd : State → State} (hf : ∀ u, Reach u (upd u)) (h : putW len rd v upd s = .next t) : Reach s t := by
  cases h
  exact ((Reach.refl.writeW rd v).trans (hf _)).advance hs hl

theorem putL_reach {s t : State} (hs : s.PcOk) {len : Nat} (hl : len % 2 = 0) {rd : BitVec 3} {v : Long}
    {upd : State → State} (hf : ∀ u, Reach u (upd u)) (h : putL len rd v upd s = .next t) : Reach s t := by
  cases h
  exact ((Reach.refl.writeL rd v).trans (hf _)).advance hs hl

theorem compare_reach {w : Nat} {s t : State} (hs : s.PcOk) {len : Nat} (hl : len % 2 = 0) {r : AluResult w}
    (h : compare len r s = .next t) : Reach s t := by
  cases h
  exact (allFlags_reach r s).advance hs hl

theorem mode_len_even (m : Mode) : m.len % 2 = 0 := by cases m <;> simp [Mode.len]

theorem tgt_len_even (t : BitTarget) : t.len % 2 = 0 := by cases t <;> simp [BitTarget.len]

theorem loadB_reach {s t : State} (hs : s.PcOk) {len : Nat} (hl : len % 2 = 0) {m : Mode} {rd : BitVec 4}
    (h : loadB len m rd s = .next t) : Reach s t := by
  unfold loadB at h
  split at h
  · cases h
  · split at h
    · cases h; exact ((Reach.refl.writeL _ _).setNZ0 _).advance hs hl
    · cases h; exact (((Reach.refl.update m 1 rfl).writeB _ _).setNZ0 _).advance hs hl

theorem loadW_reach {s t : State} (hs : s.PcOk) {len : Nat} (hl : len % 2 = 0) {m : Mode} {rd : BitVec 4}
    (h : loadW len m rd s = .next t) : Reach s t := by
  unfold loadW at h
  split at h
  · cases h
  · split at h
    · cases h; exact ((Reach.refl.writeL _ _).setNZ0 _).advance hs hl
    · cases h; exact (((Reach.refl.update m 2 rfl).writeW _ _).setNZ0 _).advance hs hl

theorem loadL_reach {s t : State} (hs : s.PcOk) {len : Nat} (hl : len % 2 = 0) {m : Mode} {rd : BitVec 3}
    (h : loadL len m rd s = .next t) : Reach s t := by
  unfold loadL at h
  split at h
  · cases h
  · split at h
    · cases h; exact ((Reach.refl.writeL _ _).setNZ0 _).advance hs hl
    · cases h; exact (((Reach.refl.update m 4 rfl).writeL _ _).setNZ0 _).advance hs hl

theorem storeB_reach {s t : State} (hs : s.PcOk) {len : Nat} (hl : len % 2 = 0) {m : Mode} {rs : BitVec 4}
    (h : storeB len rs m s = .next t) : Reach s t := by
  unfold storeB at h
  split at h
  · cases h
  · rename_i hw
    cases h; exact (((write8_reach .refl hw).update m 1 rfl).setNZ0 _).advance hs hl

theorem storeW_reach {s t : State} (hs : s.PcOk) {len : Nat} (hl : len % 2 = 0) {m : Mode} {rs : BitVec 4}
    (h : storeW len rs m s = .next t) : Reach s t := by
  unfold storeW at h
  split at h
  · cases h
  · rename_i hw
    cases h; exact (((write16_reach .refl hw).update m 2 rfl).setNZ0 _).advance hs hl

theorem storeL_reach {s t : State} (hs : s.PcOk) {len : Nat} (hl : len % 2 = 0) {m : Mode} {rs : BitVec 3}
    (h : storeL len rs m s = .next t) : Reach s t := by
  unfold storeL at h
  split at h
  · cases h
  · rename_i hw
    cases h; exact (((write32_reach .refl hw).update m 4 rfl).setNZ0 _).advance hs hl

theorem popRegs_reach {s : State} : ∀ {regs : List (BitVec 3)} {t u : State}, Reach s t →
    popRegs regs t = .ok u → Reach s u
  | [], _, _, h, hw => by cases hw; exact h
  | r :: rs, t, u, h, hw => by
    unfold popRegs at hw
    split at hw
    · cases hw
    · rename_i hp
      exact popRegs_reach ((pop32_reach h hp).writeL _ _) hw

theorem pushRegs_reach {s : State} : ∀ {regs : List (BitVec 3)} {t u : State}, Reach s t →
    pushRegs regs t = .ok u → Reach s u
  | [], _, _, h, hw => by cases hw; exact h
  | r :: rs, t, u, h, hw => by
    unfold pushRegs at hw
    split at hw
    · cases hw
    · rename_i hp
      exact pushRegs_reach (push32_reach h hp) hw

theorem loadList_reach {s t : State} (hs : s.PcOk) {regs : List (BitVec 3)} (h : loadList regs s = .next t) :
    Reach s t := by
  unfold loadList at h
  split at h
  · cases h
  · split at h
    · cases h
    · rename_i hp
      cases h; exact (popRegs_reach .refl hp).advance hs rfl

theorem storeList_reach {s t : State} (hs : s.PcOk) {regs : List (BitVec 3)} (h : storeList regs s = .next t) :
    Reach s t := by
  unfold storeList at h
  split at h
  · cases h
  · split at h
    · cases h
    · rename_i hp
      cases h; exact (pushRegs_reach .refl hp).advance hs rfl

theorem moveByte_reach {s t u : State} (h : Reach s t) (hw : t.moveByte = .ok u) : Reach s u := by
  unfold State.moveByte at hw
  split at hw
  · cases hw
  · split at hw
    · cases hw
    · rename_i hw8
      cases hw; exact ((write8_reach h hw8).writeL _ _).writeL _ _

theorem moveBytes_reach {s : State} : ∀ {k : Nat} {t u : State}, Reach s t → moveBytes k t = .ok u → Reach s u
  | 0, _, _, h, hw => by cases hw; exact h
  | k + 1, t, u, h, hw => by
    unfold moveBytes at hw
    split at hw
    · cases hw
    · rename_i hp
      exact moveBytes_reach ((moveByte_reach h hp).writeB _ _) hw

theorem bitModify_reach {s t : State} (hs : s.PcOk) {tgt : BitTarget} {f : Byte → Byte}
    (h : bitModify tgt f s = .next t) : Reach s t := by
  unfold bitModify at h
  split at h
  · cases h
  · split at h
    · cases h
    · rename_i u hw
      have r : Reach s u := by
        cases tgt
        case reg => cases hw; exact Reach.refl.writeB _ _
        all_goals exact write8_reach .refl hw
      cases h; exact r.advance hs (tgt_len_even tgt)

theorem bitTest_reach {s t : State} (hs : s.PcOk) {tgt : BitTarget} {fl : Flag} {f : Byte → Bool}
    (h : bitTest tgt fl f s = .next t) : Reach s t := by
  unfold bitTest at h
  split at h
  · cases h
  · cases h; exact Reach.refl.flag.advance hs (tgt_len_even tgt)

theorem loadControl_reach {s t : State} (hs : s.PcOk) {len : Nat} (hl : len % 2 = 0) {m : Mode}
    {put : State → Byte → State} (hp : ∀ u v, Reach u (put u v)) (h : loadControl len m put s = .next t) :
    Reach s t := by
  unfold loadControl at h
  split at h
  · cases h
  · cases h; exact ((Reach.refl.update m 2 rfl).trans (hp _ _)).shadow.advance hs hl

theorem storeControl_reach {s t : State} (hs : s.PcOk) {len : Nat} (hl : len % 2 = 0) {m : Mode} {v : Byte}
    (h : storeControl len m v s = .next t) : Reach s t := by
  unfold storeControl at h
  split at h
  · cases h
  · rename_i hw
    cases h; exact ((write16_reach .refl hw).update m 2 rfl).advance hs hl

theorem putCcr_reach {s t : State} (hs : s.PcOk) {len : Nat} (hl : len % 2 = 0) {v : Byte}
    (h : putCcr len v s = .next t) : Reach s t := by
  cases h; exact Reach.refl.ccr.shadow.advance hs hl

theorem putExr_reach {s t : State} (hs : s.PcOk) {len : Nat} (hl : len % 2 = 0) {v : Byte}
    (h : putExr len v s = .next t) : Reach s t := by
  cases h; exact Reach.refl.exr.shadow.advance hs hl

theorem decimalAdjust_reach {s t : State} (hs : s.PcOk) {table : List AdjustRow} {rd : BitVec 4}
    (h : decimalAdjust table rd s = .next t) : Reach s t := by
  unfold decimalAdjust at h
  simp only at h
  split at h
  · cases h; exact ((Reach.refl.writeB _ _).setFlags _).advance hs rfl
  · cases h; exact ((Reach.refl.writeB _ _).setFlags _).advance hs rfl

theorem of_reach {s t : State} {r : Except Fault State} (h : Out.of r = .next t) (hr : ∀ u, r = .ok u → Reach s u) :
    Reach s t := by
  cases r with
  | error e => cases h
  | ok v => cases h; exact hr _ rfl

theorem pcRelTarget_addr {n : Nat} (s : State) (len : Nat) (disp : BitVec n) :
    s.addr (s.pcRelTarget len disp) = s.pcRelTarget len disp := addr_addr s _

theorem branch_reach {s t : State} (hs : s.PcOk) {n : Nat} {len : Nat} (hl : len % 2 = 0) {cond : Cond}
    {disp : BitVec n} (h : branch len cond disp s = .next t) : Reach s t := by
  unfold branch at h
  split at h
  · exact of_reach h fun u hu => jumpTo_reach .refl hu (pcRelTarget_addr s len disp)
  · cases h; exact Reach.refl.advance hs hl

theorem call_reach {s t : State} {len : Nat} {target : Addr} (ha : s.addr target = target)
    (h : call len target s = .next t) : Reach s t := by
  unfold call at h
  split at h
  · cases h
  · rename_i u hp
    have r := push32_reach .refl hp
    refine of_reach h fun v hv => jumpTo_reach r hv ?_
    have e : u.addr target = s.addr target := by unfold State.addr; rw [r.params]
    rw [e]; exact ha

theorem eaAbs24_addr (s : State) (aa : BitVec 24) : s.addr (eaAbs24 aa) = eaAbs24 aa := by
  have h := addr_low24 s (aa.zeroExtend 32)
  have e : (aa.zeroExtend 32).extractLsb' 0 24 = aa := by
    apply BitVec.eq_of_getLsbD_eq
    intro i hi
    simp [hi]; omega
  rw [e] at h
  exact h

theorem memIndTarget_addr {s : State} {aa : BitVec 8} {a : Addr} (h : s.memIndTarget aa = .ok a) :
    s.addr a = a := by
  unfold State.memIndTarget at h
  obtain ⟨v, _, h⟩ := bind_ok h
  cases h
  exact addr_addr s v

theorem rts_reach {s t : State} (h : execRts s = .next t) : Reach s t := by
  unfold execRts at h
  split at h
  · cases h
  · rename_i v u hp
    have r := pop32_reach .refl hp
    refine of_reach h fun w hw => jumpTo_reach r hw ?_
    have e : ∀ x, u.addr x = s.addr x := fun x => by unfold State.addr; rw [r.params]
    rw [e]; exact addr_addr s v

theorem execNop_reach {s t : State} (hs : s.PcOk)
    (h : execNop s = .next t) : Reach s t := by cases h; exact Reach.refl.advance hs rfl

theorem execMovBReg_reach {s t : State} {rs : BitVec 4} {rd : BitVec 4} (hs : s.PcOk)
    (h : execMovBReg rs rd s = .next t) : Reach s t := putB_reach hs rfl (movFlags_reach _) h

theorem execMovWReg_reach {s t : State} {rs : BitVec 4} {rd : BitVec 4} (hs : s.PcOk)
    (h : execMovWReg rs rd s = .next t) : Reach s t := putW_reach hs rfl (movFlags_reach _) h

theorem execMovLReg_reach {s t : State} {rs : BitVec 3} {rd : BitVec 3} (hs : s.PcOk)
    (h : execMovLReg rs rd s = .next t) : Reach s t := putL_reach hs rfl (movFlags_reach _) h

theorem execMovBImm_reach {s t : State} {imm : BitVec 8} {rd : BitVec 4} (hs : s.PcOk)
    (h : execMovBImm imm rd s = .next t) : Reach s t := putB_reach hs rfl (movFlags_reach _) h

theorem execMovWImm_reach {s t : State} {imm : BitVec 16} {rd : BitVec 4} (hs : s.PcOk)
    (h : execMovWImm imm rd s = .next t) : Reach s t := putW_reach hs rfl (movFlags_reach _) h

theorem execMovLImm_reach {s t : State} {imm : BitVec 32} {rd : BitVec 3} (hs : s.PcOk)
    (h : execMovLImm imm rd s = .next t) : Reach s t := putL_reach hs rfl (movFlags_reach _) h

theorem execMovBLoad_reach {s t : State} {mem : Mode} {rd : BitVec 4} (hs : s.PcOk)
    (h : execMovBLoad mem rd s = .next t) : Reach s t := loadB_reach hs (mode_len_even mem) h

theorem execMovBStore_reach {s t : State} {rs : BitVec 4} {mem : Mode} (hs : s.PcOk)
    (h : execMovBStore rs mem s = .next t) : Reach s t := storeB_reach hs (mode_len_even mem) h

theorem execMovWLoad_reach {s t : State} {mem : Mode} {rd : BitVec 4} (hs : s.PcOk)
    (h : execMovWLoad mem rd s = .next t) : Reach s t := loadW_reach hs (mode_len_even mem) h

theorem execMovWStore_reach {s t : State} {rs : BitVec 4} {mem : Mode} (hs : s.PcOk)
    (h : execMovWStore rs mem s = .next t) : Reach s t := storeW_reach hs (mode_len_even mem) h

theorem execMovLLoad_reach {s t : State} {mem : Mode} {rd : BitVec 3} (hs : s.PcOk)
    (h : execMovLLoad mem rd s = .next t) : Reach s t := loadL_reach hs (by have := mode_len_even mem; omega) h

theorem execMovLStore_reach {s t : State} {rs : BitVec 3} {mem : Mode} (hs : s.PcOk)
    (h : execMovLStore rs mem s = .next t) : Reach s t := storeL_reach hs (by have := mode_len_even mem; omega) h

theorem execMovfpe_reach {s t : State} {aa : BitVec 16} {rd : BitVec 4} (hs : s.PcOk)
    (h : execMovfpe aa rd s = .next t) : Reach s t := by
  unfold execMovfpe at h
  split at h
  · exact loadB_reach hs rfl h
  · cases h

theorem execMovtpe_reach {s t : State} {rs : BitVec 4} {aa : BitVec 16} (hs : s.PcOk)
    (h : execMovtpe rs aa s = .next t) : Reach s t := by
  unfold execMovtpe at h
  split at h
  · exact storeB_reach hs rfl h
  · cases h

theorem execLdm2_reach {s t : State} {rd : BitVec 3} (hs : s.PcOk)
    (h : execLdm2 rd s = .next t) : Reach s t := loadList_reach hs h

theorem execStm2_reach {s t : State} {rs : BitVec 3} (hs : s.PcOk)
    (h : execStm2 rs s = .next t) : Reach s t := storeList_reach hs h

theorem execLdm3_reach {s t : State} {rd : BitVec 3} (hs : s.PcOk)
    (h : execLdm3 rd s = .next t) : Reach s t := loadList_reach hs h

theorem execStm3_reach {s t : State} {rs : BitVec 3} (hs : s.PcOk)
    (h : execStm3 rs s = .next t) : Reach s t := storeList_reach hs h

theorem execLdm4_reach {s t : State} {rd : BitVec 3} (hs : s.PcOk)
    (h : execLdm4 rd s = .next t) : Reach s t := loadList_reach hs h

theorem execStm4_reach {s t : State} {rs : BitVec 3} (hs : s.PcOk)
    (h : execStm4 rs s = .next t) : Reach s t := storeList_reach hs h

theorem execEepmovB_reach {s t : State} (hs : s.PcOk)
    (h : execEepmovB s = .next t) : Reach s t := by
  unfold execEepmovB at h
  split at h
  · cases h
  · rename_i hm
    cases h; exact (moveBytes_reach .refl hm).advance hs rfl

theorem execEepmovW_reach {s t : State} (hs : s.PcOk)
    (h : execEepmovW s = .next t) : Reach s t := by
  unfold execEepmovW at h
  split at h
  · cases h; exact Reach.refl.moving.advance hs rfl
  · split at h
    · cases h
    · rename_i hm
      have r := moveByte_reach .refl hm
      split at h
      · cases h; exact (r.writeW _ _).moving.advance hs rfl
      · cases h; exact (r.writeW _ _).moving

theorem execAddBImm_reach {s t : State} {imm : BitVec 8} {rd : BitVec 4} (hs : s.PcOk)
    (h : execAddBImm imm rd s = .next t) : Reach s t := putB_reach hs rfl (allFlags_reach _) h

theorem execAddBReg_reach {s t : State} {rs : BitVec 4} {rd : BitVec 4} (hs : s.PcOk)
    (h : execAddBReg rs rd s = .next t) : Reach s t := putB_reach hs rfl (allFlags_reach _) h

theorem execAddWImm_reach {s t : State} {imm : BitVec 16} {rd : BitVec 4} (hs : s.PcOk)
    (h : execAddWImm imm rd s = .next t) : Reach s t := putW_reach hs rfl (allFlags_reach _) h

theorem execAddWReg_reach {s t : State} {rs : BitVec 4} {rd : BitVec 4} (hs : s.PcOk)
    (h : execAddWReg rs rd s = .next t) : Reach s t := putW_reach hs rfl (allFlags_reach _) h

theorem execAddLImm_reach {s t : State} {imm : BitVec 32} {rd : BitVec 3} (hs : s.PcOk)
    (h : execAddLImm imm rd s = .next t) : Reach s t := putL_reach hs rfl (allFlags_reach _) h

theorem execAddLReg_reach {s t : State} {rs : BitVec 3} {rd : BitVec 3} (hs : s.PcOk)
    (h : execAddLReg rs rd s = .next t) : Reach s t := putL_reach hs rfl (allFlags_reach _) h

theorem execAddxImm_reach {s t : State} {imm : BitVec 8} {rd : BitVec 4} (hs : s.PcOk)
    (h : execAddxImm imm rd s = .next t) : Reach s t := putB_reach hs rfl (allFlags_reach _) h

theorem execAddxReg_reach {s t : State} {rs : BitVec 4} {rd : BitVec 4} (hs : s.PcOk)
    (h : execAddxReg rs rd s = .next t) : Reach s t := putB_reach hs rfl (allFlags_reach _) h

theorem execAdds1_reach {s t : State} {rd : BitVec 3} (hs : s.PcOk)
    (h : execAdds1 rd s = .next t) : Reach s t := putL_reach hs rfl noFlags_reach h

theorem execAdds2_reach {s t : State} {rd : BitVec 3} (hs : s.PcOk)
    (h : execAdds2 rd s = .next t) : Reach s t := putL_reach hs rfl noFlags_reach h

theorem execAdds4_reach {s t : State} {rd : BitVec 3} (hs : s.PcOk)
    (h : execAdds4 rd s = .next t) : Reach s t := putL_reach hs rfl noFlags_reach h

theorem execIncB_reach {s t : State} {rd : BitVec 4} (hs : s.PcOk)
    (h : execIncB rd s = .next t) : Reach s t := putB_reach hs rfl (nzvFlags_reach _) h

theorem execIncW1_reach {s t : State} {rd : BitVec 4} (hs : s.PcOk)
    (h : execIncW1 rd s = .next t) : Reach s t := putW_reach hs rfl (nzvFlags_reach _) h

theorem execIncW2_reach {s t : State} {rd : BitVec 4} (hs : s.PcOk)
    (h : execIncW2 rd s = .next t) : Reach s t := putW_reach hs rfl (nzvFlags_reach _) h

theorem execIncL1_reach {s t : State} {rd : BitVec 3} (hs : s.PcOk)
    (h : execIncL1 rd s = .next t) : Reach s t := putL_reach hs rfl (nzvFlags_reach _) h

theorem execIncL2_reach {s t : State} {rd : BitVec 3} (hs : s.PcOk)
    (h : execIncL2 rd s = .next t) : Reach s t := putL_reach hs rfl (nzvFlags_reach _) h

theorem execDaa_reach {s t : State} {rd : BitVec 4} (hs : s.PcOk)
    (h : execDaa rd s = .next t) : Reach s t := decimalAdjust_reach hs h

theorem execSubBReg_reach {s t : State} {rs : BitVec 4} {rd : BitVec 4} (hs : s.PcOk)
    (h : execSubBReg rs rd s = .next t) : Reach s t := putB_reach hs rfl (allFlags_reach _) h

theorem execSubWImm_reach {s t : State} {imm : BitVec 16} {rd : BitVec 4} (hs : s.PcOk)
    (h : execSubWImm imm rd s = .next t) : Reach s t := putW_reach hs rfl (allFlags_reach _) h

theorem execSubWReg_reach {s t : State} {rs : BitVec 4} {rd : BitVec 4} (hs : s.PcOk)
    (h : execSubWReg rs rd s = .next t) : Reach s t := putW_reach hs rfl (allFlags_reach _) h

theorem execSubLImm_reach {s t : State} {imm : BitVec 32} {rd : BitVec 3} (hs : s.PcOk)
    (h : execSubLImm imm rd s = .next t) : Reach s t := putL_reach hs rfl (allFlags_reach _) h

theorem execSubLReg_reach {s t : State} {rs : BitVec 3} {rd : BitVec 3} (hs : s.PcOk)
    (h : execSubLReg rs rd s = .next t) : Reach s t := putL_reach hs rfl (allFlags_reach _) h

theorem execSubxImm_reach {s t : State} {imm : BitVec 8} {rd : BitVec 4} (hs : s.PcOk)
    (h : execSubxImm imm rd s = .next t) : Reach s t := putB_reach hs rfl (allFlags_reach _) h

theorem execSubxReg_reach {s t : State} {rs : BitVec 4} {rd : BitVec 4} (hs : s.PcOk)
    (h : execSubxReg rs rd s = .next t) : Reach s t := putB_reach hs rfl (allFlags_reach _) h

theorem execSubs1_reach {s t : State} {rd : BitVec 3} (hs : s.PcOk)
    (h : execSubs1 rd s = .next t) : Reach s t := putL_reach hs rfl noFlags_reach h

theorem execSubs2_reach {s t : State} {rd : BitVec 3} (hs : s.PcOk)
    (h : execSubs2 rd s = .next t) : Reach s t := putL_reach hs rfl noFlags_reach h

theorem execSubs4_reach {s t : State} {rd : BitVec 3} (hs : s.PcOk)
    (h : execSubs4 rd s = .next t) : Reach s t := putL_reach hs rfl noFlags_reach h

theorem execDecB_reach {s t : State} {rd : BitVec 4} (hs : s.PcOk)
    (h : execDecB rd s = .next t) : Reach s t := putB_reach hs rfl (nzvFlags_reach _) h

theorem execDecW1_reach {s t : State} {rd : BitVec 4} (hs : s.PcOk)
    (h : execDecW1 rd s = .next t) : Reach s t := putW_reach hs rfl (nzvFlags_reach _) h

theorem execDecW2_reach {s t : State} {rd : BitVec 4} (hs : s.PcOk)
    (h : execDecW2 rd s = .next t) : Reach s t := putW_reach hs rfl (nzvFlags_reach _) h

theorem execDecL1_reach {s t : State} {rd : BitVec 3} (hs : s.PcOk)
    (h : execDecL1 rd s = .next t) : Reach s t := putL_reach hs rfl (nzvFlags_reach _) h

theorem execDecL2_reach {s t : State} {rd : BitVec 3} (hs : s.PcOk)
    (h : execDecL2 rd s = .next t) : Reach s t := putL_reach hs rfl (nzvFlags_reach _) h

theorem execDas_reach {s t : State} {rd : BitVec 4} (hs : s.PcOk)
    (h : execDas rd s = .next t) : Reach s t := decimalAdjust_reach hs h

theorem execCmpBImm_reach {s t : State} {imm : BitVec 8} {rd : BitVec 4} (hs : s.PcOk)
    (h : execCmpBImm imm rd s = .next t) : Reach s t := compare_reach hs rfl h

theorem execCmpBReg_reach {s t : State} {rs : BitVec 4} {rd : BitVec 4} (hs : s.PcOk)
    (h : execCmpBReg rs rd s = .next t) : Reach s t := compare_reach hs rfl h

theorem execCmpWImm_reach {s t : State} {imm : BitVec 16} {rd : BitVec 4} (hs : s.PcOk)
    (h : execCmpWImm imm rd s = .next t) : Reach s t := compare_reach hs rfl h

theorem execCmpWReg_reach {s t : State} {rs : BitVec 4} {rd : BitVec 4} (hs : s.PcOk)
    (h : execCmpWReg rs rd s = .next t) : Reach s t := compare_reach hs rfl h

theorem execCmpLImm_reach {s t : State} {imm : BitVec 32} {rd : BitVec 3} (hs : s.PcOk)
    (h : execCmpLImm imm rd s = .next t) : Reach s t := compare_reach hs rfl h

theorem execCmpLReg_reach {s t : State} {rs : BitVec 3} {rd : BitVec 3} (hs : s.PcOk)
    (h : execCmpLReg rs rd s = .next t) : Reach s t := compare_reach hs rfl h

theorem execNegB_reach {s t : State} {rd : BitVec 4} (hs : s.PcOk)
    (h : execNegB rd s = .next t) : Reach s t := putB_reach hs rfl (allFlags_reach _) h

theorem execNegW_reach {s t : State} {rd : BitVec 4} (hs : s.PcOk)
    (h : execNegW rd s = .next t) : Reach s t := putW_reach hs rfl (allFlags_reach _) h

theorem execNegL_reach {s t : State} {rd : BitVec 3} (hs : s.PcOk)
    (h : execNegL rd s = .next t) : Reach s t := putL_reach hs rfl (allFlags_reach _) h

theorem execExtuW_reach {s t : State} {rd : BitVec 4} (hs : s.PcOk)
    (h : execExtuW rd s = .next t) : Reach s t := putW_reach hs rfl (movFlags_reach _) h

theorem execExtuL_reach {s t : State} {rd : BitVec 3} (hs : s.PcOk)
    (h : execExtuL rd s = .next t) : Reach s t := putL_reach hs rfl (movFlags_reach _) h

theorem execExtsW_reach {s t : State} {rd : BitVec 4} (hs : s.PcOk)
    (h : execExtsW rd s = .next t) : Reach s t := putW_reach hs rfl (movFlags_reach _) h

theorem execExtsL_reach {s t : State} {rd : BitVec 3} (hs : s.PcOk)
    (h : execExtsL rd s = .next t) : Reach s t := putL_reach hs rfl (movFlags_reach _) h

theorem execMulxuB_reach {s t : State} {rs : BitVec 4} {rd : BitVec 4} (hs : s.PcOk)
    (h : execMulxuB rs rd s = .next t) : Reach s t := putW_reach hs rfl noFlags_reach h

theorem execMulxuW_reach {s t : State} {rs : BitVec 4} {rd : BitVec 3} (hs : s.PcOk)
    (h : execMulxuW rs rd s = .next t) : Reach s t := putL_reach hs rfl noFlags_reach h

theorem execMulxsB_reach {s t : State} {rs : BitVec 4} {rd : BitVec 4} (hs : s.PcOk)
    (h : execMulxsB rs rd s = .next t) : Reach s t := putW_reach hs rfl (nzFlags_reach _) h

theorem execMulxsW_reach {s t : State} {rs : BitVec 4} {rd : BitVec 3} (hs : s.PcOk)
    (h : execMulxsW rs rd s = .next t) : Reach s t := putL_reach hs rfl (nzFlags_reach _) h

theorem execDivxuB_reach {s t : State} {rs : BitVec 4} {rd : BitVec 4} (hs : s.PcOk)
    (h : execDivxuB rs rd s = .next t) : Reach s t := by
  unfold execDivxuB at h
  simp only at h
  split at h
  · cases h; exact ((Reach.refl.setNZ _ _).writeW _ _).advance hs rfl
  · cases h; exact ((Reach.refl.setNZ _ _).writeW _ _).advance hs rfl

theorem execDivxuW_reach {s t : State} {rs : BitVec 4} {rd : BitVec 3} (hs : s.PcOk)
    (h : execDivxuW rs rd s = .next t) : Reach s t := by
  unfold execDivxuW at h
  simp only at h
  split at h
  · cases h; exact ((Reach.refl.setNZ _ _).writeL _ _).advance hs rfl
  · cases h; exact ((Reach.refl.setNZ _ _).writeL _ _).advance hs rfl

theorem execDivxsB_reach {s t : State} {rs : BitVec 4} {rd : BitVec 4} (hs : s.PcOk)
    (h : execDivxsB rs rd s = .next t) : Reach s t := by
  unfold execDivxsB at h
  simp only at h
  split at h
  · cases h; exact ((Reach.refl.setNZ _ _).writeW _ _).advance hs rfl
  · cases h; exact ((Reach.refl.setNZ _ _).writeW _ _).advance hs rfl

theorem execDivxsW_reach {s t : State} {rs : BitVec 4} {rd : BitVec 3} (hs : s.PcOk)
    (h : execDivxsW rs rd s = .next t) : Reach s t := by
  unfold execDivxsW at h
  simp only at h
  split at h
  · cases h; exact ((Reach.refl.setNZ _ _).writeL _ _).advance hs rfl
  · cases h; exact ((Reach.refl.setNZ _ _).writeL _ _).advance hs rfl

theorem execTas_reach {s t : State} {ra : BitVec 3} (hs : s.PcOk)
    (h : execTas ra s = .next t) : Reach s t := by
  unfold execTas at h
  split at h
  · cases h
  · split at h
    · cases h
    · rename_i hw
      cases h; exact ((write8_reach .refl hw).setNZ0 _).advance hs rfl

theorem execAndBImm_reach {s t : State} {imm : BitVec 8} {rd : BitVec 4} (hs : s.PcOk)
    (h : execAndBImm imm rd s = .next t) : Reach s t := putB_reach hs rfl (movFlags_reach _) h

theorem execAndBReg_reach {s t : State} {rs : BitVec 4} {rd : BitVec 4} (hs : s.PcOk)
    (h : execAndBReg rs rd s = .next t) : Reach s t := putB_reach hs rfl (movFlags_reach _) h

theorem execAndWImm_reach {s t : State} {imm : BitVec 16} {rd : BitVec 4} (hs : s.PcOk)
    (h : execAndWImm imm rd s = .next t) : Reach s t := putW_reach hs rfl (movFlags_reach _) h

theorem execAndWReg_reach {s t : State} {rs : BitVec 4} {rd : BitVec 4} (hs : s.PcOk)
    (h : execAndWReg rs rd s = .next t) : Reach s t := putW_reach hs rfl (movFlags_reach _) h

theorem execAndLImm_reach {s t : State} {imm : BitVec 32} {rd : BitVec 3} (hs : s.PcOk)
    (h : execAndLImm imm rd s = .next t) : Reach s t := putL_reach hs rfl (movFlags_reach _) h

theorem execAndLReg_reach {s t : State} {rs : BitVec 3} {rd : BitVec 3} (hs : s.PcOk)
    (h : execAndLReg rs rd s = .next t) : Reach s t := putL_reach hs rfl (movFlags_reach _) h

theorem execOrBImm_reach {s t : State} {imm : BitVec 8} {rd : BitVec 4} (hs : s.PcOk)
    (h : execOrBImm imm rd s = .next t) : Reach s t := putB_reach hs rfl (movFlags_reach _) h

theorem execOrBReg_reach {s t : State} {rs : BitVec 4} {rd : BitVec 4} (hs : s.PcOk)
    (h : execOrBReg rs rd s = .next t) : Reach s t := putB_reach hs rfl (movFlags_reach _) h

theorem execOrWImm_reach {s t : State} {imm : BitVec 16} {rd : BitVec 4} (hs : s.PcOk)
    (h : execOrWImm imm rd s = .next t) : Reach s t := putW_reach hs rfl (movFlags_reach _) h

theorem execOrWReg_reach {s t : State} {rs : BitVec 4} {rd : BitVec 4} (hs : s.PcOk)
    (h : execOrWReg rs rd s = .next t) : Reach s t := putW_reach hs rfl (movFlags_reach _) h

theorem execOrLImm_reach {s t : State} {imm : BitVec 32} {rd : BitVec 3} (hs : s.PcOk)
    (h : execOrLImm imm rd s = .next t) : Reach s t := putL_reach hs rfl (movFlags_reach _) h

theorem execOrLReg_reach {s t : State} {rs : BitVec 3} {rd : BitVec 3} (hs : s.PcOk)
    (h : execOrLReg rs rd s = .next t) : Reach s t := putL_reach hs rfl (movFlags_reach _) h

theorem execXorBImm_reach {s t : State} {imm : BitVec 8} {rd : BitVec 4} (hs : s.PcOk)
    (h : execXorBImm imm rd s = .next t) : Reach s t := putB_reach hs rfl (movFlags_reach _) h

theorem execXorBReg_reach {s t : State} {rs : BitVec 4} {rd : BitVec 4} (hs : s.PcOk)
    (h : execXorBReg rs rd s = .next t) : Reach s t := putB_reach hs rfl (movFlags_reach _) h

theorem execXorWImm_reach {s t : State} {imm : BitVec 16} {rd : BitVec 4} (hs : s.PcOk)
    (h : execXorWImm imm rd s = .next t) : Reach s t := putW_reach hs rfl (movFlags_reach _) h

theorem execXorWReg_reach {s t : State} {rs : BitVec 4} {rd : BitVec 4} (hs : s.PcOk)
    (h : execXorWReg rs rd s = .next t) : Reach s t := putW_reach hs rfl (movFlags_reach _) h

theorem execXorLImm_reach {s t : State} {imm : BitVec 32} {rd : BitVec 3} (hs : s.PcOk)
    (h : execXorLImm imm rd s = .next t) : Reach s t := putL_reach hs rfl (movFlags_reach _) h

theorem execXorLReg_reach {s t : State} {rs : BitVec 3} {rd : BitVec 3} (hs : s.PcOk)
    (h : execXorLReg rs rd s = .next t) : Reach s t := putL_reach hs rfl (movFlags_reach _) h

theorem execNotB_reach {s t : State} {rd : BitVec 4} (hs : s.PcOk)
    (h : execNotB rd s = .next t) : Reach s t := putB_reach hs rfl (movFlags_reach _) h

theorem execNotW_reach {s t : State} {rd : BitVec 4} (hs : s.PcOk)
    (h : execNotW rd s = .next t) : Reach s t := putW_reach hs rfl (movFlags_reach _) h

theorem execNotL_reach {s t : State} {rd : BitVec 3} (hs : s.PcOk)
    (h : execNotL rd s = .next t) : Reach s t := putL_reach hs rfl (movFlags_reach _) h

theorem execShllB_reach {s t : State} {rd : BitVec 4} (hs : s.PcOk)
    (h : execShllB rd s = .next t) : Reach s t := putB_reach hs rfl (shiftFlags_reach _) h

theorem execShllW_reach {s t : State} {rd : BitVec 4} (hs : s.PcOk)
    (h : execShllW rd s = .next t) : Reach s t := putW_reach hs rfl (shiftFlags_reach _) h

theorem execShllL_reach {s t : State} {rd : BitVec 3} (hs : s.PcOk)
    (h : execShllL rd s = .next t) : Reach s t := putL_reach hs rfl (shiftFlags_reach _) h

theorem execShllB2_reach {s t : State} {rd : BitVec 4} (hs : s.PcOk)
    (h : execShllB2 rd s = .next t) : Reach s t := putB_reach hs rfl (shiftFlags_reach _) h

theorem execShllW2_reach {s t : State} {rd : BitVec 4} (hs : s.PcOk)
    (h : execShllW2 rd s = .next t) : Reach s t := putW_reach hs rfl (shiftFlags_reach _) h

theorem execShllL2_reach {s t : State} {rd : BitVec 3} (hs : s.PcOk)
    (h : execShllL2 rd s = .next t) : Reach s t := putL_reach hs rfl (shiftFlags_reach _) h

theorem execShalB_reach {s t : State} {rd : BitVec 4} (hs : s.PcOk)
    (h : execShalB rd s = .next t) : Reach s t := putB_reach hs rfl (shiftFlags_reach _) h

theorem execShalW_reach {s t : State} {rd : BitVec 4} (hs : s.PcOk)
    (h : execShalW rd s = .next t) : Reach s t := putW_reach hs rfl (shiftFlags_reach _) h

theorem execShalL_reach {s t : State} {rd : BitVec 3} (hs : s.PcOk)
    (h : execShalL rd s = .next t) : Reach s t := putL_reach hs rfl (shiftFlags_reach _) h

theorem execShalB2_reach {s t : State} {rd : BitVec 4} (hs : s.PcOk)
    (h : execShalB2 rd s = .next t) : Reach s t := putB_reach hs rfl (shiftFlags_reach _) h

theorem execShalW2_reach {s t : State} {rd : BitVec 4} (hs : s.PcOk)
    (h : execShalW2 rd s = .next t) : Reach s t := putW_reach hs rfl (shiftFlags_reach _) h

theorem execShalL2_reach {s t : State} {rd : BitVec 3} (hs : s.PcOk)
    (h : execShalL2 rd s = .next t) : Reach s t := putL_reach hs rfl (shiftFlags_reach _) h

theorem execShlrB_reach {s t : State} {rd : BitVec 4} (hs : s.PcOk)
    (h : execShlrB rd s = .next t) : Reach s t := putB_reach hs rfl (shiftFlags_reach _) h

theorem execShlrW_reach {s t : State} {rd : BitVec 4} (hs : s.PcOk)
    (h : execShlrW rd s = .next t) : Reach s t := putW_reach hs rfl (shiftFlags_reach _) h

theorem execShlrL_reach {s t : State} {rd : BitVec 3} (hs : s.PcOk)
    (h : execShlrL rd s = .next t) : Reach s t := putL_reach hs rfl (shiftFlags_reach _) h

theorem execShlrB2_reach {s t : State} {rd : BitVec 4} (hs : s.PcOk)
    (h : execShlrB2 rd s = .next t) : Reach s t := putB_reach hs rfl (shiftFlags_reach _) h

theorem execShlrW2_reach {s t : State} {rd : BitVec 4} (hs : s.PcOk)
    (h : execShlrW2 rd s = .next t) : Reach s t := putW_reach hs rfl (shiftFlags_reach _) h

theorem execShlrL2_reach {s t : State} {rd : BitVec 3} (hs : s.PcOk)
    (h : execShlrL2 rd s = .next t) : Reach s t := putL_reach hs rfl (shiftFlags_reach _) h

theorem execSharB_reach {s t : State} {rd : BitVec 4} (hs : s.PcOk)
    (h : execSharB rd s = .next t) : Reach s t := putB_reach hs rfl (shiftFlags_reach _) h

theorem execSharW_reach {s t : State} {rd : BitVec 4} (hs : s.PcOk)
    (h : execSharW rd s = .next t) : Reach s t := putW_reach hs rfl (shiftFlags_reach _) h

theorem execSharL_reach {s t : State} {rd : BitVec 3} (hs : s.PcOk)
    (h : execSharL rd s = .next t) : Reach s t := putL_reach hs rfl (shiftFlags_reach _) h

theorem execSharB2_reach {s t : State} {rd : BitVec 4} (hs : s.PcOk)
    (h : execSharB2 rd s = .next t) : Reach s t := putB_reach hs rfl (shiftFlags_reach _) h

theorem execSharW2_reach {s t : State} {rd : BitVec 4} (hs : s.PcOk)
    (h : execSharW2 rd s = .next t) : Reach s t := putW_reach hs rfl (shiftFlags_reach _) h

theorem execSharL2_reach {s t : State} {rd : BitVec 3} (hs : s.PcOk)
    (h : execSharL2 rd s = .next t) : Reach s t := putL_reach hs rfl (shiftFlags_reach _) h

theorem execRotxlB_reach {s t : State} {rd : BitVec 4} (hs : s.PcOk)
    (h : execRotxlB rd s = .next t) : Reach s t := putB_reach hs rfl (shiftFlags_reach _) h

theorem execRotxlW_reach {s t : State} {rd : BitVec 4} (hs : s.PcOk)
    (h : execRotxlW rd s = .next t) : Reach s t := putW_reach hs rfl (shiftFlags_reach _) h

theorem execRotxlL_reach {s t : State} {rd : BitVec 3} (hs : s.PcOk)
    (h : execRotxlL rd s = .next t) : Reach s t := putL_reach hs rfl (shiftFlags_reach _) h

theorem execRotxlB2_reach {s t : State} {rd : BitVec 4} (hs : s.PcOk)
    (h : execRotxlB2 rd s = .next t) : Reach s t := putB_reach hs rfl (shiftFlags_reach _) h

theorem execRotxlW2_reach {s t : State} {rd : BitVec 4} (hs : s.PcOk)
    (h : execRotxlW2 rd s = .next t) : Reach s t := putW_reach hs rfl (shiftFlags_reach _) h

theorem execRotxlL2_reach {s t : State} {rd : BitVec 3} (hs : s.PcOk)
    (h : execRotxlL2 rd s = .next t) : Reach s t := putL_reach hs rfl (shiftFlags_reach _) h

theorem execRotlB_reach {s t : State} {rd : BitVec 4} (hs : s.PcOk)
    (h : execRotlB rd s = .next t) : Reach s t := putB_reach hs rfl (shiftFlags_reach _) h

theorem execRotlW_reach {s t : State} {rd : BitVec 4} (hs : s.PcOk)
    (h : execRotlW rd s = .next t) : Reach s t := putW_reach hs rfl (shiftFlags_reach _) h

theorem execRotlL_reach {s t : State} {rd : BitVec 3} (hs : s.PcOk)
    (h : execRotlL rd s = .next t) : Reach s t := putL_reach hs rfl (shiftFlags_reach _) h

theorem execRotlB2_reach {s t : State} {rd : BitVec 4} (hs : s.PcOk)
    (h : execRotlB2 rd s = .next t) : Reach s t := putB_reach hs rfl (shiftFlags_reach _) h

theorem execRotlW2_reach {s t : State} {rd : BitVec 4} (hs : s.PcOk)
    (h : execRotlW2 rd s = .next t) : Reach s t := putW_reach hs rfl (shiftFlags_reach _) h

theorem execRotlL2_reach {s t : State} {rd : BitVec 3} (hs : s.PcOk)
    (h : execRotlL2 rd s = .next t) : Reach s t := putL_reach hs rfl (shiftFlags_reach _) h

theorem execRotxrB_reach {s t : State} {rd : BitVec 4} (hs : s.PcOk)
    (h : execRotxrB rd s = .next t) : Reach s t := putB_reach hs rfl (shiftFlags_reach _) h

theorem execRotxrW_reach {s t : State} {rd : BitVec 4} (hs : s.PcOk)
    (h : execRotxrW rd s = .next t) : Reach s t := putW_reach hs rfl (shiftFlags_reach _) h

theorem execRotxrL_reach {s t : State} {rd : BitVec 3} (hs : s.PcOk)
    (h : execRotxrL rd s = .next t) : Reach s t := putL_reach hs rfl (shiftFlags_reach _) h

theorem execRotxrB2_reach {s t : State} {rd : BitVec 4} (hs : s.PcOk)
    (h : execRotxrB2 rd s = .next t) : Reach s t := putB_reach hs rfl (shiftFlags_reach _) h

theorem execRotxrW2_reach {s t : State} {rd : BitVec 4} (hs : s.PcOk)
    (h : execRotxrW2 rd s = .next t) : Reach s t := putW_reach hs rfl (shiftFlags_reach _) h

theorem execRotxrL2_reach {s t : State} {rd : BitVec 3} (hs : s.PcOk)
    (h : execRotxrL2 rd s = .next t) : Reach s t := putL_reach hs rfl (shiftFlags_reach _) h

theorem execRotrB_reach {s t : State} {rd : BitVec 4} (hs : s.PcOk)
    (h : execRotrB rd s = .next t) : Reach s t := putB_reach hs rfl (shiftFlags_reach _) h

theorem execRotrW_reach {s t : State} {rd : BitVec 4} (hs : s.PcOk)
    (h : execRotrW rd s = .next t) : Reach s t := putW_reach hs rfl (shiftFlags_reach _) h

theorem execRotrL_reach {s t : State} {rd : BitVec 3} (hs : s.PcOk)
    (h : execRotrL rd s = .next t) : Reach s t := putL_reach hs rfl (shiftFlags_reach _) h

theorem execRotrB2_reach {s t : State} {rd : BitVec 4} (hs : s.PcOk)
    (h : execRotrB2 rd s = .next t) : Reach s t := putB_reach hs rfl (shiftFlags_reach _) h

theorem execRotrW2_reach {s t : State} {rd : BitVec 4} (hs : s.PcOk)
    (h : execRotrW2 rd s = .next t) : Reach s t := putW_reach hs rfl (shiftFlags_reach _) h

theorem execRotrL2_reach {s t : State} {rd : BitVec 3} (hs : s.PcOk)
    (h : execRotrL2 rd s = .next t) : Reach s t := putL_reach hs rfl (shiftFlags_reach _) h

theorem execBsetImm_reach {s t : State} {bit : BitVec 3} {tgt : BitTarget} (hs : s.PcOk)
    (h : execBsetImm bit tgt s = .next t) : Reach s t := bitModify_reach hs h

theorem execBsetRn_reach {s t : State} {rn : BitVec 4} {tgt : BitTarget} (hs : s.PcOk)
    (h : execBsetRn rn tgt s = .next t) : Reach s t := bitModify_reach hs h

theorem execBnotImm_reach {s t : State} {bit : BitVec 3} {tgt : BitTarget} (hs : s.PcOk)
    (h : execBnotImm bit tgt s = .next t) : Reach s t := bitModify_reach hs h

theorem execBnotRn_reach {s t : State} {rn : BitVec 4} {tgt : BitTarget} (hs : s.PcOk)
    (h : execBnotRn rn tgt s = .next t) : Reach s t := bitModify_reach hs h

theorem execBclrImm_reach {s t : State} {bit : BitVec 3} {tgt : BitTarget} (hs : s.PcOk)
    (h : execBclrImm bit tgt s = .next t) : Reach s t := bitModify_reach hs h

theorem execBclrRn_reach {s t : State} {rn : BitVec 4} {tgt : BitTarget} (hs : s.PcOk)
    (h : execBclrRn rn tgt s = .next t) : Reach s t := bitModify_reach hs h

theorem execBtstImm_reach {s t : State} {bit : BitVec 3} {tgt : BitTarget} (hs : s.PcOk)
    (h : execBtstImm bit tgt s = .next t) : Reach s t := bitTest_reach hs h

theorem execBtstRn_reach {s t : State} {rn : BitVec 4} {tgt : BitTarget} (hs : s.PcOk)
    (h : execBtstRn rn tgt s = .next t) : Reach s t := bitTest_reach hs h

theorem execBor_reach {s t : State} {bit : BitVec 3} {tgt : BitTarget} (hs : s.PcOk)
    (h : execBor bit tgt s = .next t) : Reach s t := bitTest_reach hs h

theorem execBior_reach {s t : State} {bit : BitVec 3} {tgt : BitTarget} (hs : s.PcOk)
    (h : execBior bit tgt s = .next t) : Reach s t := bitTest_reach hs h

theorem execBxor_reach {s t : State} {bit : BitVec 3} {tgt : BitTarget} (hs : s.PcOk)
    (h : execBxor bit tgt s = .next t) : Reach s t := bitTest_reach hs h

theorem execBixor_reach {s t : State} {bit : BitVec 3} {tgt : BitTarget} (hs : s.PcOk)
    (h : execBixor bit tgt s = .next t) : Reach s t := bitTest_reach hs h

theorem execBand_reach {s t : State} {bit : BitVec 3} {tgt : BitTarget} (hs : s.PcOk)
    (h : execBand bit tgt s = .next t) : Reach s t := bitTest_reach hs h

theorem execBiand_reach {s t : State} {bit : BitVec 3} {tgt : BitTarget} (hs : s.PcOk)
    (h : execBiand bit tgt s = .next t) : Reach s t := bitTest_reach hs h

theorem execBld_reach {s t : State} {bit : BitVec 3} {tgt : BitTarget} (hs : s.PcOk)
    (h : execBld bit tgt s = .next t) : Reach s t := bitTest_reach hs h

theorem execBild_reach {s t : State} {bit : BitVec 3} {tgt : BitTarget} (hs : s.PcOk)
    (h : execBild bit tgt s = .next t) : Reach s t := bitTest_reach hs h

theorem execBst_reach {s t : State} {bit : BitVec 3} {tgt : BitTarget} (hs : s.PcOk)
    (h : execBst bit tgt s = .next t) : Reach s t := bitModify_reach hs h

theorem execBist_reach {s t : State} {bit : BitVec 3} {tgt : BitTarget} (hs : s.PcOk)
    (h : execBist bit tgt s = .next t) : Reach s t := bitModify_reach hs h

theorem execBra8_reach {s t : State} {disp : BitVec 8} (hs : s.PcOk)
    (h : execBra8 disp s = .next t) : Reach s t := branch_reach hs rfl h

theorem execBra16_reach {s t : State} {disp : BitVec 16} (hs : s.PcOk)
    (h : execBra16 disp s = .next t) : Reach s t := branch_reach hs rfl h

theorem execBrn8_reach {s t : State} {disp : BitVec 8} (hs : s.PcOk)
    (h : execBrn8 disp s = .next t) : Reach s t := branch_reach hs rfl h

theorem execBrn16_reach {s t : State} {disp : BitVec 16} (hs : s.PcOk)
    (h : execBrn16 disp s = .next t) : Reach s t := branch_reach hs rfl h

theorem execBhi8_reach {s t : State} {disp : BitVec 8} (hs : s.PcOk)
    (h : execBhi8 disp s = .next t) : Reach s t := branch_reach hs rfl h

theorem execBhi16_reach {s t : State} {disp : BitVec 16} (hs : s.PcOk)
    (h : execBhi16 disp s = .next t) : Reach s t := branch_reach hs rfl h

theorem execBls8_reach {s t : State} {disp : BitVec 8} (hs : s.PcOk)
    (h : execBls8 disp s = .next t) : Reach s t := branch_reach hs rfl h

theorem execBls16_reach {s t : State} {disp : BitVec 16} (hs : s.PcOk)
    (h : execBls16 disp s = .next t) : Reach s t := branch_reach hs rfl h

theorem execBcc8_reach {s t : State} {disp : BitVec 8} (hs : s.PcOk)
    (h : execBcc8 disp s = .next t) : Reach s t := branch_reach hs rfl h

theorem execBcc16_reach {s t : State} {disp : BitVec 16} (hs : s.PcOk)
    (h : execBcc16 disp s = .next t) : Reach s t := branch_reach hs rfl h

theorem execBcs8_reach {s t : State} {disp : BitVec 8} (hs : s.PcOk)
    (h : execBcs8 disp s = .next t) : Reach s t := branch_reach hs rfl h

theorem execBcs16_reach {s t : State} {disp : BitVec 16} (hs : s.PcOk)
    (h : execBcs16 disp s = .next t) : Reach s t := branch_reach hs rfl h

theorem execBne8_reach {s t : State} {disp : BitVec 8} (hs : s.PcOk)
    (h : execBne8 disp s = .next t) : Reach s t := branch_reach hs rfl h

theorem execBne16_reach {s t : State} {disp : BitVec 16} (hs : s.PcOk)
    (h : execBne16 disp s = .next t) : Reach s t := branch_reach hs rfl h

theorem execBeq8_reach {s t : State} {disp : BitVec 8} (hs : s.PcOk)
    (h : execBeq8 disp s = .next t) : Reach s t := branch_reach hs rfl h

theorem execBeq16_reach {s t : State} {disp : BitVec 16} (hs : s.PcOk)
    (h : execBeq16 disp s = .next t) : Reach s t := branch_reach hs rfl h

theorem execBvc8_reach {s t : State} {disp : BitVec 8} (hs : s.PcOk)
    (h : execBvc8 disp s = .next t) : Reach s t := branch_reach hs rfl h

theorem execBvc16_reach {s t : State} {disp : BitVec 16} (hs : s.PcOk)
    (h : execBvc16 disp s = .next t) : Reach s t := branch_reach hs rfl h

theorem execBvs8_reach {s t : State} {disp : BitVec 8} (hs : s.PcOk)
    (h : execBvs8 disp s = .next t) : Reach s t := branch_reach hs rfl h

theorem execBvs16_reach {s t : State} {disp : BitVec 16} (hs : s.PcOk)
    (h : execBvs16 disp s = .next t) : Reach s t := branch_reach hs rfl h

theorem execBpl8_reach {s t : State} {disp : BitVec 8} (hs : s.PcOk)
    (h : execBpl8 disp s = .next t) : Reach s t := branch_reach hs rfl h

theorem execBpl16_reach {s t : State} {disp : BitVec 16} (hs : s.PcOk)
    (h : execBpl16 disp s = .next t) : Reach s t := branch_reach hs rfl h

theorem execBmi8_reach {s t : State} {disp : BitVec 8} (hs : s.PcOk)
    (h : execBmi8 disp s = .next t) : Reach s t := branch_reach hs rfl h

theorem execBmi16_reach {s t : State} {disp : BitVec 16} (hs : s.PcOk)
    (h : execBmi16 disp s = .next t) : Reach s t := branch_reach hs rfl h

theorem execBge8_reach {s t : State} {disp : BitVec 8} (hs : s.PcOk)
    (h : execBge8 disp s = .next t) : Reach s t := branch_reach hs rfl h

theorem execBge16_reach {s t : State} {disp : BitVec 16} (hs : s.PcOk)
    (h : execBge16 disp s = .next t) : Reach s t := branch_reach hs rfl h

theorem execBlt8_reach {s t : State} {disp : BitVec 8} (hs : s.PcOk)
    (h : execBlt8 disp s = .next t) : Reach s t := branch_reach hs rfl h

theorem execBlt16_reach {s t : State} {disp : BitVec 16} (hs : s.PcOk)
    (h : execBlt16 disp s = .next t) : Reach s t := branch_reach hs rfl h

theorem execBgt8_reach {s t : State} {disp : BitVec 8} (hs : s.PcOk)
    (h : execBgt8 disp s = .next t) : Reach s t := branch_reach hs rfl h

theorem execBgt16_reach {s t : State} {disp : BitVec 16} (hs : s.PcOk)
    (h : execBgt16 disp s = .next t) : Reach s t := branch_reach hs rfl h

theorem execBle8_reach {s t : State} {disp : BitVec 8} (hs : s.PcOk)
    (h : execBle8 disp s = .next t) : Reach s t := branch_reach hs rfl h

theorem execBle16_reach {s t : State} {disp : BitVec 16} (hs : s.PcOk)
    (h : execBle16 disp s = .next t) : Reach s t := branch_reach hs rfl h

theorem execJmpInd_reach {s t : State} {ra : BitVec 3}
    (h : execJmpInd ra s = .next t) : Reach s t := of_reach h fun _ hu => jumpTo_reach .refl hu (addr_addr s _)

theorem execJmpAbs24_reach {s t : State} {aa : BitVec 24}
    (h : execJmpAbs24 aa s = .next t) : Reach s t := of_reach h fun _ hu => jumpTo_reach .refl hu (eaAbs24_addr s aa)

theorem execJmpMemInd_reach {s t : State} {aa : BitVec 8}
    (h : execJmpMemInd aa s = .next t) : Reach s t := by
  unfold execJmpMemInd at h
  split at h
  · cases h
  · rename_i hm
    exact of_reach h fun _ hu => jumpTo_reach .refl hu (memIndTarget_addr hm)

theorem execBsr8_reach {s t : State} {disp : BitVec 8}
    (h : execBsr8 disp s = .next t) : Reach s t := call_reach (pcRelTarget_addr s 2 disp) h

theorem execBsr16_reach {s t : State} {disp : BitVec 16}
    (h : execBsr16 disp s = .next t) : Reach s t := call_reach (pcRelTarget_addr s 4 disp) h

theorem execJsrInd_reach {s t : State} {ra : BitVec 3}
    (h : execJsrInd ra s = .next t) : Reach s t := call_reach (addr_addr s _) h

theorem execJsrAbs24_reach {s t : State} {aa : BitVec 24}
    (h : execJsrAbs24 aa s = .next t) : Reach s t := call_reach (eaAbs24_addr s aa) h

theorem execJsrMemInd_reach {s t : State} {aa : BitVec 8}
    (h : execJsrMemInd aa s = .next t) : Reach s t := by
  unfold execJsrMemInd at h
  split at h
  · cases h
  · rename_i hm
    exact call_reach (memIndTarget_addr hm) h

theorem execRts_reach {s t : State}
    (h : execRts s = .next t) : Reach s t := rts_reach h

theorem execTrapa_reach {s t : State} {tn : BitVec 2}
    (h : execTrapa tn s = .next t) : Reach s t := of_reach h fun _ hu => exceptionEntry_reach .refl hu

theorem execRte_reach {s t : State}
    (h : execRte s = .next t) : Reach s t := of_reach h fun _ hu => exceptionReturn_reach .refl hu

theorem execSleep_reach {s t : State} (hs : s.PcOk)
    (h : execSleep s = .next t) : Reach s t := by cases h; exact (Reach.refl.advance hs rfl).sleeping

theorem execLdcImmCcr_reach {s t : State} {imm : BitVec 8} (hs : s.PcOk)
    (h : execLdcImmCcr imm s = .next t) : Reach s t := putCcr_reach hs rfl h

theorem execAndcCcr_reach {s t : State} {imm : BitVec 8} (hs : s.PcOk)
    (h : execAndcCcr imm s = .next t) : Reach s t := putCcr_reach hs rfl h

theorem execOrcCcr_reach {s t : State} {imm : BitVec 8} (hs : s.PcOk)
    (h : execOrcCcr imm s = .next t) : Reach s t := putCcr_reach hs rfl h

theorem execXorcCcr_reach {s t : State} {imm : BitVec 8} (hs : s.PcOk)
    (h : execXorcCcr imm s = .next t) : Reach s t := putCcr_reach hs rfl h

theorem execLdcRegCcr_reach {s t : State} {rs : BitVec 4} (hs : s.PcOk)
    (h : execLdcRegCcr rs s = .next t) : Reach s t := putCcr_reach hs rfl h

theorem execStcRegCcr_reach {s t : State} {rd : BitVec 4} (hs : s.PcOk)
    (h : execStcRegCcr rd s = .next t) : Reach s t := putB_reach hs rfl noFlags_reach h

theorem execLdcWCcr_reach {s t : State} {mem : Mode} (hs : s.PcOk)
    (h : execLdcWCcr mem s = .next t) : Reach s t := loadControl_reach hs (by have := mode_len_even mem; omega) (fun u v => (Reach.refl : Reach u u).ccr (v := v)) h

theorem execStcWCcr_reach {s t : State} {mem : Mode} (hs : s.PcOk)
    (h : execStcWCcr mem s = .next t) : Reach s t := storeControl_reach hs (by have := mode_len_even mem; omega) h

theorem execLdcImmExr_reach {s t : State} {imm : BitVec 8} (hs : s.PcOk)
    (h : execLdcImmExr imm s = .next t) : Reach s t := putExr_reach hs rfl h

theorem execAndcExr_reach {s t : State} {imm : BitVec 8} (hs : s.PcOk)
    (h : execAndcExr imm s = .next t) : Reach s t := putExr_reach hs rfl h

theorem execOrcExr_reach {s t : State} {imm : BitVec 8} (hs : s.PcOk)
    (h : execOrcExr imm s = .next t) : Reach s t := putExr_reach hs rfl h

theorem execXorcExr_reach {s t : State} {imm : BitVec 8} (hs : s.PcOk)
    (h : execXorcExr imm s = .next t) : Reach s t := putExr_reach hs rfl h

theorem execLdcRegExr_reach {s t : State} {rs : BitVec 4} (hs : s.PcOk)
    (h : execLdcRegExr rs s = .next t) : Reach s t := putExr_reach hs rfl h

theorem execStcRegExr_reach {s t : State} {rd : BitVec 4} (hs : s.PcOk)
    (h : execStcRegExr rd s = .next t) : Reach s t := putB_reach hs rfl noFlags_reach h

theorem execLdcWExr_reach {s t : State} {mem : Mode} (hs : s.PcOk)
    (h : execLdcWExr mem s = .next t) : Reach s t := loadControl_reach hs (by have := mode_len_even mem; omega) (fun u v => (Reach.refl : Reach u u).exr (v := v)) h

theorem execStcWExr_reach {s t : State} {mem : Mode} (hs : s.PcOk)
    (h : execStcWExr mem s = .next t) : Reach s t := storeControl_reach hs (by have := mode_len_even mem; omega) h

/-- Everything an instruction can do from an even `pc`. -/
theorem exec_reach {s t : State} (hs : s.PcOk) (x : Instr) (h : exec x s = .next t) : Reach s t :=
  match x with
  | .nop => execNop_reach hs h
  | .movBReg _ _ => execMovBReg_reach hs h
  | .movWReg _ _ => execMovWReg_reach hs h
  | .movLReg _ _ => execMovLReg_reach hs h
  | .movBImm _ _ => execMovBImm_reach hs h
  | .movWImm _ _ => execMovWImm_reach hs h
  | .movLImm _ _ => execMovLImm_reach hs h
  | .movBLoad _ _ => execMovBLoad_reach hs h
  | .movBStore _ _ => execMovBStore_reach hs h
  | .movWLoad _ _ => execMovWLoad_reach hs h
  | .movWStore _ _ => execMovWStore_reach hs h
  | .movLLoad _ _ => execMovLLoad_reach hs h
  | .movLStore _ _ => execMovLStore_reach hs h
  | .movfpe _ _ => execMovfpe_reach hs h
  | .movtpe _ _ => execMovtpe_reach hs h
  | .ldm2 _ => execLdm2_reach hs h
  | .stm2 _ => execStm2_reach hs h
  | .ldm3 _ => execLdm3_reach hs h
  | .stm3 _ => execStm3_reach hs h
  | .ldm4 _ => execLdm4_reach hs h
  | .stm4 _ => execStm4_reach hs h
  | .eepmovB => execEepmovB_reach hs h
  | .eepmovW => execEepmovW_reach hs h
  | .addBImm _ _ => execAddBImm_reach hs h
  | .addBReg _ _ => execAddBReg_reach hs h
  | .addWImm _ _ => execAddWImm_reach hs h
  | .addWReg _ _ => execAddWReg_reach hs h
  | .addLImm _ _ => execAddLImm_reach hs h
  | .addLReg _ _ => execAddLReg_reach hs h
  | .addxImm _ _ => execAddxImm_reach hs h
  | .addxReg _ _ => execAddxReg_reach hs h
  | .adds1 _ => execAdds1_reach hs h
  | .adds2 _ => execAdds2_reach hs h
  | .adds4 _ => execAdds4_reach hs h
  | .incB _ => execIncB_reach hs h
  | .incW1 _ => execIncW1_reach hs h
  | .incW2 _ => execIncW2_reach hs h
  | .incL1 _ => execIncL1_reach hs h
  | .incL2 _ => execIncL2_reach hs h
  | .daa _ => execDaa_reach hs h
  | .subBReg _ _ => execSubBReg_reach hs h
  | .subWImm _ _ => execSubWImm_reach hs h
  | .subWReg _ _ => execSubWReg_reach hs h
  | .subLImm _ _ => execSubLImm_reach hs h
  | .subLReg _ _ => execSubLReg_reach hs h
  | .subxImm _ _ => execSubxImm_reach hs h
  | .subxReg _ _ => execSubxReg_reach hs h
  | .subs1 _ => execSubs1_reach hs h
  | .subs2 _ => execSubs2_reach hs h
  | .subs4 _ => execSubs4_reach hs h
  | .decB _ => execDecB_reach hs h
  | .decW1 _ => execDecW1_reach hs h
  | .decW2 _ => execDecW2_reach hs h
  | .decL1 _ => execDecL1_reach hs h
  | .decL2 _ => execDecL2_reach hs h
  | .das _ => execDas_reach hs h
  | .cmpBImm _ _ => execCmpBImm_reach hs h
  | .cmpBReg _ _ => execCmpBReg_reach hs h
  | .cmpWImm _ _ => execCmpWImm_reach hs h
  | .cmpWReg _ _ => execCmpWReg_reach hs h
  | .cmpLImm _ _ => execCmpLImm_reach hs h
  | .cmpLReg _ _ => execCmpLReg_reach hs h
  | .negB _ => execNegB_reach hs h
  | .negW _ => execNegW_reach hs h
  | .negL _ => execNegL_reach hs h
  | .extuW _ => execExtuW_reach hs h
  | .extuL _ => execExtuL_reach hs h
  | .extsW _ => execExtsW_reach hs h
  | .extsL _ => execExtsL_reach hs h
  | .mulxuB _ _ => execMulxuB_reach hs h
  | .mulxuW _ _ => execMulxuW_reach hs h
  | .mulxsB _ _ => execMulxsB_reach hs h
  | .mulxsW _ _ => execMulxsW_reach hs h
  | .divxuB _ _ => execDivxuB_reach hs h
  | .divxuW _ _ => execDivxuW_reach hs h
  | .divxsB _ _ => execDivxsB_reach hs h
  | .divxsW _ _ => execDivxsW_reach hs h
  | .tas _ => execTas_reach hs h
  | .andBImm _ _ => execAndBImm_reach hs h
  | .andBReg _ _ => execAndBReg_reach hs h
  | .andWImm _ _ => execAndWImm_reach hs h
  | .andWReg _ _ => execAndWReg_reach hs h
  | .andLImm _ _ => execAndLImm_reach hs h
  | .andLReg _ _ => execAndLReg_reach hs h
  | .orBImm _ _ => execOrBImm_reach hs h
  | .orBReg _ _ => execOrBReg_reach hs h
  | .orWImm _ _ => execOrWImm_reach hs h
  | .orWReg _ _ => execOrWReg_reach hs h
  | .orLImm _ _ => execOrLImm_reach hs h
  | .orLReg _ _ => execOrLReg_reach hs h
  | .xorBImm _ _ => execXorBImm_reach hs h
  | .xorBReg _ _ => execXorBReg_reach hs h
  | .xorWImm _ _ => execXorWImm_reach hs h
  | .xorWReg _ _ => execXorWReg_reach hs h
  | .xorLImm _ _ => execXorLImm_reach hs h
  | .xorLReg _ _ => execXorLReg_reach hs h
  | .notB _ => execNotB_reach hs h
  | .notW _ => execNotW_reach hs h
  | .notL _ => execNotL_reach hs h
  | .shllB _ => execShllB_reach hs h
  | .shllW _ => execShllW_reach hs h
  | .shllL _ => execShllL_reach hs h
  | .shllB2 _ => execShllB2_reach hs h
  | .shllW2 _ => execShllW2_reach hs h
  | .shllL2 _ => execShllL2_reach hs h
  | .shalB _ => execShalB_reach hs h
  | .shalW _ => execShalW_reach hs h
  | .shalL _ => execShalL_reach hs h
  | .shalB2 _ => execShalB2_reach hs h
  | .shalW2 _ => execShalW2_reach hs h
  | .shalL2 _ => execShalL2_reach hs h
  | .shlrB _ => execShlrB_reach hs h
  | .shlrW _ => execShlrW_reach hs h
  | .shlrL _ => execShlrL_reach hs h
  | .shlrB2 _ => execShlrB2_reach hs h
  | .shlrW2 _ => execShlrW2_reach hs h
  | .shlrL2 _ => execShlrL2_reach hs h
  | .sharB _ => execSharB_reach hs h
  | .sharW _ => execSharW_reach hs h
  | .sharL _ => execSharL_reach hs h
  | .sharB2 _ => execSharB2_reach hs h
  | .sharW2 _ => execSharW2_reach hs h
  | .sharL2 _ => execSharL2_reach hs h
  | .rotxlB _ => execRotxlB_reach hs h
  | .rotxlW _ => execRotxlW_reach hs h
  | .rotxlL _ => execRotxlL_reach hs h
  | .rotxlB2 _ => execRotxlB2_reach hs h
  | .rotxlW2 _ => execRotxlW2_reach hs h
  | .rotxlL2 _ => execRotxlL2_reach hs h
  | .rotlB _ => execRotlB_reach hs h
  | .rotlW _ => execRotlW_reach hs h
  | .rotlL _ => execRotlL_reach hs h
  | .rotlB2 _ => execRotlB2_reach hs h
  | .rotlW2 _ => execRotlW2_reach hs h
  | .rotlL2 _ => execRotlL2_reach hs h
  | .rotxrB _ => execRotxrB_reach hs h
  | .rotxrW _ => execRotxrW_reach hs h
  | .rotxrL _ => execRotxrL_reach hs h
  | .rotxrB2 _ => execRotxrB2_reach hs h
  | .rotxrW2 _ => execRotxrW2_reach hs h
  | .rotxrL2 _ => execRotxrL2_reach hs h
  | .rotrB _ => execRotrB_reach hs h
  | .rotrW _ => execRotrW_reach hs h
  | .rotrL _ => execRotrL_reach hs h
  | .rotrB2 _ => execRotrB2_reach hs h
  | .rotrW2 _ => execRotrW2_reach hs h
  | .rotrL2 _ => execRotrL2_reach hs h
  | .bsetImm _ _ => execBsetImm_reach hs h
  | .bsetRn _ _ => execBsetRn_reach hs h
  | .bnotImm _ _ => execBnotImm_reach hs h
  | .bnotRn _ _ => execBnotRn_reach hs h
  | .bclrImm _ _ => execBclrImm_reach hs h
  | .bclrRn _ _ => execBclrRn_reach hs h
  | .btstImm _ _ => execBtstImm_reach hs h
  | .btstRn _ _ => execBtstRn_reach hs h
  | .bor _ _ => execBor_reach hs h
  | .bior _ _ => execBior_reach hs h
  | .bxor _ _ => execBxor_reach hs h
  | .bixor _ _ => execBixor_reach hs h
  | .band _ _ => execBand_reach hs h
  | .biand _ _ => execBiand_reach hs h
  | .bld _ _ => execBld_reach hs h
  | .bild _ _ => execBild_reach hs h
  | .bst _ _ => execBst_reach hs h
  | .bist _ _ => execBist_reach hs h
  | .bra8 _ => execBra8_reach hs h
  | .bra16 _ => execBra16_reach hs h
  | .brn8 _ => execBrn8_reach hs h
  | .brn16 _ => execBrn16_reach hs h
  | .bhi8 _ => execBhi8_reach hs h
  | .bhi16 _ => execBhi16_reach hs h
  | .bls8 _ => execBls8_reach hs h
  | .bls16 _ => execBls16_reach hs h
  | .bcc8 _ => execBcc8_reach hs h
  | .bcc16 _ => execBcc16_reach hs h
  | .bcs8 _ => execBcs8_reach hs h
  | .bcs16 _ => execBcs16_reach hs h
  | .bne8 _ => execBne8_reach hs h
  | .bne16 _ => execBne16_reach hs h
  | .beq8 _ => execBeq8_reach hs h
  | .beq16 _ => execBeq16_reach hs h
  | .bvc8 _ => execBvc8_reach hs h
  | .bvc16 _ => execBvc16_reach hs h
  | .bvs8 _ => execBvs8_reach hs h
  | .bvs16 _ => execBvs16_reach hs h
  | .bpl8 _ => execBpl8_reach hs h
  | .bpl16 _ => execBpl16_reach hs h
  | .bmi8 _ => execBmi8_reach hs h
  | .bmi16 _ => execBmi16_reach hs h
  | .bge8 _ => execBge8_reach hs h
  | .bge16 _ => execBge16_reach hs h
  | .blt8 _ => execBlt8_reach hs h
  | .blt16 _ => execBlt16_reach hs h
  | .bgt8 _ => execBgt8_reach hs h
  | .bgt16 _ => execBgt16_reach hs h
  | .ble8 _ => execBle8_reach hs h
  | .ble16 _ => execBle16_reach hs h
  | .jmpInd _ => execJmpInd_reach h
  | .jmpAbs24 _ => execJmpAbs24_reach h
  | .jmpMemInd _ => execJmpMemInd_reach h
  | .bsr8 _ => execBsr8_reach h
  | .bsr16 _ => execBsr16_reach h
  | .jsrInd _ => execJsrInd_reach h
  | .jsrAbs24 _ => execJsrAbs24_reach h
  | .jsrMemInd _ => execJsrMemInd_reach h
  | .rts => execRts_reach h
  | .trapa _ => execTrapa_reach h
  | .rte => execRte_reach h
  | .sleep => execSleep_reach hs h
  | .ldcImmCcr _ => execLdcImmCcr_reach hs h
  | .andcCcr _ => execAndcCcr_reach hs h
  | .orcCcr _ => execOrcCcr_reach hs h
  | .xorcCcr _ => execXorcCcr_reach hs h
  | .ldcRegCcr _ => execLdcRegCcr_reach hs h
  | .stcRegCcr _ => execStcRegCcr_reach hs h
  | .ldcWCcr _ => execLdcWCcr_reach hs h
  | .stcWCcr _ => execStcWCcr_reach hs h
  | .ldcImmExr _ => execLdcImmExr_reach hs h
  | .andcExr _ => execAndcExr_reach hs h
  | .orcExr _ => execOrcExr_reach hs h
  | .xorcExr _ => execXorcExr_reach hs h
  | .ldcRegExr _ => execLdcRegExr_reach hs h
  | .stcRegExr _ => execStcRegExr_reach hs h
  | .ldcWExr _ => execLdcWExr_reach hs h
  | .stcWExr _ => execStcWExr_reach hs h

end Sys2Proof.Machine
end

