-- ==== Sys2Proof/Laws/Abandon.lean ====
section
/-!
SUPPORT. A step cut short by a reset: what its completed writes can do to the state, and the forms the cut takes
(70_reset_and_hazards.md R1200, R1201).
-/

namespace Sys2Proof.Machine

/-! ### What runs next -/

/-- Between the bytes of EEPMOV.W nothing is fetched. -/
theorem nextInstr_moving {s : State} (h : s.eepmovActive = true) : s.nextInstr = .ok .eepmovW := if_pos h

theorem nextInstr_fetch {s : State} (h : s.eepmovActive = false) : s.nextInstr = s.fetch := by
  unfold State.nextInstr
  rw [h]
  rfl

/-! ### The writes of a step cut short -/

theorem framePart_reach {s t : State} {k : Nat} {by_ : Option Nat} {ret : Addr} (h : s.framePart k by_ ret = .ok t) :
    Reach s t := by
  unfold State.framePart at h
  split at h
  · cases h
  · split at h
    · cases h; exact .refl
    · exact push32_reach .refl h
    · exact pushFrame_reach .refl h

theorem pushPart_reach {s t : State} {k : Nat} {regs : List (BitVec 3)} (h : pushPart k regs s = .ok t) : Reach s t := by
  unfold pushPart at h
  split at h
  · cases h
  · exact pushRegs_reach .refl h

/-- What an instruction does up to a write is made of the same updates as what it does whole. -/
theorem untilWrite_reach {s t : State} (hs : s.PcOk) {k : Nat} (x : Instr) (h : untilWrite x k s = .next t) : Reach s t := by
  unfold untilWrite at h
  split at h
  · exact of_reach h fun _ => pushPart_reach
  · exact of_reach h fun _ => pushPart_reach
  · exact of_reach h fun _ => pushPart_reach
  · exact of_reach h fun _ => moveBytes_reach .refl
  · exact of_reach h fun _ => framePart_reach
  · exact of_reach h fun _ => push32_reach .refl
  · exact of_reach h fun _ => push32_reach .refl
  · exact of_reach h fun _ => push32_reach .refl
  · exact of_reach h fun _ => push32_reach .refl
  · split at h
    · cases h
    · exact of_reach h fun _ => push32_reach .refl
  · exact exec_reach hs _ h

/-- What a step leaves of the state at its `k`-th write: reached from `s`, or from `s` once an instruction is under
way. -/
theorem stepUntilWrite_reach {s t : State} (hs : s.PcOk) {k : Nat} (h : s.stepUntilWrite k = .next t) :
    Reach s t ∨ Reach s.opened t := by
  unfold State.stepUntilWrite at h
  split at h
  · cases h; exact .inl .refl
  · exact .inl (of_reach h fun _ => framePart_reach)
  · exact .inl (of_reach h fun _ => framePart_reach)
  · exact .inl (of_reach h fun _ => framePart_reach)
  · cases h; exact .inl .refl
  · split at h
    · cases h
    · exact .inr (untilWrite_reach hs _ h)

/-- The memory an abandoned step leaves is canonical and inside the address space. -/
theorem abandoned_memOk {s t : State} (hs : s.PcOk) (hm : s.MemOk) {k : Nat} (h : s.abandoned k = .next t) :
    (s.leftWith t.mem).MemOk := by
  unfold State.abandoned at h
  split at h
  · cases h; exact hm
  · rcases stepUntilWrite_reach hs h with r | r
    · have := r.memOk hm
      unfold State.MemOk at this ⊢
      rwa [r.params] at this
    · have := r.memOk (s := s.opened) hm
      unfold State.MemOk at this ⊢
      rwa [r.params] at this

/-! ### The step -/

/-- Where no reset is asserted the step is what the boundary decides. -/
theorem step_proceeds {s : State} (h : s.resetIn = none) : step s = s.proceed := by
  unfold step cycle
  rw [h]

/-- A reset before the step is the reset sequence, whatever else is due and whether or not the run has ended. -/
theorem step_reset {s : State} (h : s.resetIn = some 0) : step s = Out.of s.enterReset := by
  unfold step cycle
  rw [h]
  rfl

/-- A reset within the step is the reset sequence over the memory the step has left. -/
theorem step_cut {s t : State} {k : Nat} (h : s.resetIn = some (k + 1)) (ht : s.abandoned (k + 1) = .next t) :
    step s = Out.of (s.leftWith t.mem).enterReset := by
  unfold step cycle State.cutByReset
  rw [h]
  simp only [ht]

/-- A step that ends with a fault before the write the reset waits for ends with that fault. -/
theorem step_cut_fault {s : State} {f : Fault} {k : Nat} (h : s.resetIn = some (k + 1))
    (ht : s.abandoned (k + 1) = .fault f) : step s = .fault f := by
  unfold step cycle State.cutByReset
  rw [h]
  simp only [ht]

end Sys2Proof.Machine
end

