-- ==== Sys2Proof/Laws/Decode.lean ====
section
/-!
SUPPORT. Decoding: no two rows of the opcode table overlap, so the bytes one row accepts decode by that row
(30_encoding.md R320, R324); and the bits of a sum of fields.
-/

namespace Sys2Proof

/-! ### Byte strings as numbers -/

theorem foldl_be (bs : List Byte) (k : Nat) :
    bs.foldl (fun acc b => acc * 256 + b.toNat) k = k * 256 ^ bs.length + beNat bs := by
  induction bs generalizing k with
  | nil => simp [beNat]
  | cons b bs ih =>
    have h0 := ih b.toNat
    simp only [List.foldl_cons, List.length_cons, beNat] at *
    rw [ih, Nat.zero_mul, Nat.zero_add, h0]
    ring

theorem beNat_append (as bs : List Byte) : beNat (as ++ bs) = beNat as * 256 ^ bs.length + beNat bs := by
  rw [beNat, List.foldl_append, foldl_be]; rfl

theorem beNat_lt (bs : List Byte) : beNat bs < 256 ^ bs.length := by
  induction bs with
  | nil => simp [beNat]
  | cons b bs ih =>
    have h := beNat_append [b] bs
    have hb : beNat [b] = b.toNat := by simp [beNat]
    rw [List.singleton_append, hb] at h
    rw [h, List.length_cons, Nat.pow_succ]
    have := b.isLt
    nlinarith [Nat.pow_pos (n := bs.length) (show 0 < 256 by decide)]

theorem beBytes_length (len w : Nat) : (beBytes len w).length = len := by
  induction len with
  | zero => rfl
  | succ n ih => unfold beBytes; rw [List.length_cons, ih]

theorem beNat_beBytes (len w : Nat) : beNat (beBytes len w) = w % 256 ^ len := by
  induction len with
  | zero => simp [beBytes, beNat, Nat.mod_one]
  | succ n ih =>
    have h := beNat_append [BitVec.ofNat 8 (w >>> (8 * n))] (beBytes n w)
    have hb : beNat [BitVec.ofNat 8 (w >>> (8 * n))] = (w / 256 ^ n) % 256 := by
      simp only [beNat, List.foldl_cons, List.foldl_nil, Nat.zero_mul, Nat.zero_add, BitVec.toNat_ofNat,
        Nat.shiftRight_eq_div_pow, Nat.pow_mul]
    rw [List.singleton_append, hb, beBytes_length, ih] at h
    show beNat (BitVec.ofNat 8 (w >>> (8 * n)) :: beBytes n w) = _
    rw [h, Nat.pow_succ, Nat.mod_mul, Nat.mul_comm, Nat.add_comm]

/-- The word a row of `len` bytes sees of bytes that begin with the `len` bytes of `w`. -/
theorem window80_word {len w : Nat} (hl : len ≤ 10) (hw : w < 256 ^ len) (rest : List Byte) :
    window80 (beBytes len w ++ rest) >>> (8 * (10 - len)) = w := by
  have hlen := beBytes_length len w
  unfold window80
  rw [List.append_assoc, List.take_append, List.take_of_length_le (by omega), beNat_append]
  generalize ht : List.take (10 - (beBytes len w).length) (rest ++ List.replicate 10 0) = tail
  have htl : tail.length = 10 - len := by rw [← ht, List.length_take, hlen]; simp; omega
  have hlt := beNat_lt tail
  rw [htl] at hlt ⊢
  rw [beNat_beBytes, Nat.mod_eq_of_lt hw, Nat.shiftRight_eq_div_pow, Nat.pow_mul]
  show (w * 256 ^ (10 - len) + beNat tail) / 256 ^ (10 - len) = w
  rw [Nat.mul_comm w, Nat.mul_add_div (Nat.pow_pos (by decide)), Nat.div_eq_of_lt hlt, Nat.add_zero]

/-! ### The table -/

/-- Two rows differ on a bit both fix (30_encoding.md R324). -/
def Row.apart (r q : Row) : Bool :=
  (((r.mtch <<< (8 * (10 - r.len))) ^^^ (q.mtch <<< (8 * (10 - q.len)))) &&&
    ((r.mask <<< (8 * (10 - r.len))) &&& (q.mask <<< (8 * (10 - q.len))))) != 0

/-- Every two rows of the table differ on a bit both fix. -/
theorem table_apart : opcodeTable.Pairwise fun r q => r.apart q = true := by decide +kernel

/-- Every row is 2 to 10 bytes long and an even number of them. -/
theorem table_lengths : ∀ r ∈ opcodeTable, 2 ≤ r.len ∧ r.len ≤ 10 ∧ r.len % 2 = 0 := by decide +kernel

theorem accepts_bits {w80 mask mtch k : Nat} (h : (w80 >>> k) &&& mask = mtch) :
    w80 &&& (mask <<< k) = mtch <<< k := by
  rw [← h]
  apply Nat.eq_of_testBit_eq
  intro i
  simp only [Nat.testBit_and, Nat.testBit_shiftLeft, Nat.testBit_shiftRight]
  by_cases hi : k ≤ i
  · simp [hi]
  · simp [hi]

/-- Rows that differ on a bit both fix do not both accept a window. -/
theorem apart_accepts {r q : Row} (h : r.apart q = true) (w80 : Nat) (hr : r.accepts (r.word w80) = true)
    (hq : q.accepts (q.word w80) = true) : False := by
  simp only [Row.accepts, Bool.and_eq_true, beq_iff_eq, Row.word] at hr hq
  have h1 := accepts_bits hr.1
  have h2 := accepts_bits hq.1
  simp only [Row.apart, bne_iff_ne, ne_eq] at h
  apply h
  rw [← h1, ← h2]
  apply Nat.eq_of_testBit_eq
  intro i
  simp only [Nat.testBit_and, Nat.testBit_xor, Nat.zero_testBit]
  cases w80.testBit i <;> cases (r.mask <<< (8 * (10 - r.len))).testBit i <;>
    cases (q.mask <<< (8 * (10 - q.len))).testBit i <;> rfl

/-- In a list whose entries exclude one another, the one that holds is the one found. -/
theorem find_of_pairwise {α : Type} {p : α → Bool} {R : α → α → Prop} {l : List α} (hl : l.Pairwise R)
    (hR : ∀ a b, R a b → p a = true → p b = true → False) {a : α} (ha : a ∈ l) (hp : p a = true) :
    l.find? p = some a := by
  induction l with
  | nil => cases ha
  | cons b l ih =>
    obtain ⟨hb, hl'⟩ := List.pairwise_cons.1 hl
    rcases List.mem_cons.1 ha with rfl | ha
    · exact List.find?_cons_of_pos hp
    · rw [List.find?_cons_of_neg]
      · exact ih hl' ha
      · exact fun hpb => hR _ _ (hb a ha) hpb hp

/-- Bytes that begin with a word a row accepts decode by that row (30_encoding.md R320). -/
theorem decode_of_row {r : Row} (hr : r ∈ opcodeTable) {w : Nat} (hw : w < 256 ^ r.len) (ha : r.accepts w = true)
    (rest : List Byte) : decode (beBytes r.len w ++ rest) = .ok (r.build w) := by
  obtain ⟨h2, h10, -⟩ := table_lengths r hr
  have hword : r.word (window80 (beBytes r.len w ++ rest)) = w := window80_word h10 hw rest
  have hlen : (beBytes r.len w ++ rest).length = r.len + rest.length := by rw [List.length_append, beBytes_length]
  have hfind : lookup (beBytes r.len w ++ rest).length (window80 (beBytes r.len w ++ rest)) = some r := by
    unfold lookup
    refine find_of_pairwise table_apart (fun a b hab h1 h2 => ?_) hr ?_
    · simp only [Bool.and_eq_true] at h1 h2
      exact apart_accepts hab _ h1.2 h2.2
    · rw [hword, ha, hlen]; simp
  unfold decode decodeRow
  rw [if_neg (by omega), hfind]
  simp only [hword]

/-! ### Sums of fields -/

/-- Numbers without a common bit add as they or. -/
theorem add_eq_or {a b : Nat} (h : a &&& b = 0) : a + b = a ||| b := by
  have hlt : a + b < 2 ^ (a + b) := Nat.lt_two_pow_self
  have hw := BitVec.add_eq_or_of_and_eq_zero (BitVec.ofNat (a + b) a) (BitVec.ofNat (a + b) b) (by
    apply BitVec.eq_of_toNat_eq
    rw [BitVec.toNat_and, BitVec.toNat_ofNat, BitVec.toNat_ofNat, Nat.mod_eq_of_lt (by omega),
      Nat.mod_eq_of_lt (by omega), h]
    simp)
  have h2 := congrArg BitVec.toNat hw
  rw [BitVec.toNat_add, BitVec.toNat_or, BitVec.toNat_ofNat, BitVec.toNat_ofNat, Nat.mod_eq_of_lt (by omega : a < _),
    Nat.mod_eq_of_lt (by omega : b < _), Nat.mod_eq_of_lt hlt] at h2
  exact h2

/-- A field shifted to its place has no bit of a mask that is clear there. -/
theorem shift_and_eq_zero {a lo n M : Nat} (ha : a < 2 ^ n) (hM : M >>> lo % 2 ^ n = 0) : (a <<< lo) &&& M = 0 := by
  apply Nat.eq_of_testBit_eq
  intro i
  simp only [Nat.testBit_and, Nat.testBit_shiftLeft, Nat.zero_testBit]
  by_cases hi : lo ≤ i
  · by_cases hn : i - lo < n
    · have h := congrArg (fun x => x.testBit (i - lo)) hM
      simp only [Nat.testBit_mod_two_pow, hn, decide_true, Bool.true_and, Nat.testBit_shiftRight,
        Nat.zero_testBit] at h
      rw [show lo + (i - lo) = i by omega] at h
      simp [h]
    · have : a.testBit (i - lo) = false := Nat.testBit_lt_two_pow (Nat.lt_of_lt_of_le ha (Nat.pow_le_pow_right (by decide) (by omega)))
      simp [this]
  · simp [hi]

/-- Adding a field at a place clear in the sum so far and in the mask changes no masked bit. -/
theorem add_field_and {x M m a lo n : Nat} (hx : x &&& M = m) (ha : a < 2 ^ n) (hM : M >>> lo % 2 ^ n = 0)
    (hx0 : x >>> lo % 2 ^ n = 0) : (x + a <<< lo) &&& M = m := by
  have h0 : x &&& (a <<< lo) = 0 := by rw [Nat.and_comm]; exact shift_and_eq_zero ha hx0
  rw [add_eq_or h0, Nat.and_or_distrib_right, hx, shift_and_eq_zero ha hM, Nat.or_zero]

end Sys2Proof
end

