-- ==== Sys2Proof/Laws/Transfer.lean ====
section
/-!
SUPPORT. What the shapes that touch memory do: one lemma per shape, stated for any instruction whose meaning is that
shape.
-/

namespace Sys2Proof.Machine

/-! ### Effective addresses and stepped registers -/

theorem addr_ea (m : Mode) (size : Nat) (s : State) : s.addr (m.ea size s) = m.ea size s := by
  cases m <;> exact addr_addr s _

/-- The address register of a mode that steps one is not a view of a data register the mode does not step. -/
theorem steps_ne {m : Mode} {n ra : BitVec 3} (h : m.steps n = false) (hm : m = .inc ra ∨ m = .dec ra) : ra ≠ n := by
  rcases hm with rfl | rfl <;> simpa [Mode.steps] using h

theorem frame_update (m : Mode) (size : Nat) (s : State) : Frame s (m.update size s) (steppedViews m) [] [] := by
  cases m
  case inc ra => exact frame_writeL s ra _
  case dec ra => exact frame_writeL s ra _
  all_goals exact frame_setPc s s.pc

theorem update_pc (m : Mode) (size : Nat) (s : State) : (m.update size s).pc = s.pc := by cases m <;> rfl

/-- What a frame keeps of the address width and the program counter's successor. -/
theorem Frame.pcNext {s t : State} {d : List RegName} {f : List Flag} {a : List Addr} (h : Frame s t d f a)
    (hp : t.pc = s.pc) (len : Nat) : t.pcNext len = s.pcNext len := pcNext_congr hp h.outside.params len

/-- The stepped register read back. -/
theorem stepped_update (m : Mode) (size : Nat) (s t : State) (h : ∀ ra, m = .inc ra ∨ m = .dec ra →
    t.readL ra = (m.update size s).readL ra) : Stepped m size s t := by
  cases m
  case inc ra => show _ = _; rw [h ra (.inl rfl)]; exact readL_writeL _ _ _
  case dec ra => show _ = _; rw [h ra (.inr rfl)]; exact readL_writeL _ _ _
  all_goals trivial

theorem readL_writeB_ne (s : State) {n : BitVec 4} {m : BitVec 3} (v : Byte) (h : m ≠ ern n) :
    (s.writeB n v).readL m = s.readL m := by
  unfold State.readL State.writeB
  rw [reg_setReg_ne _ _ h]

theorem readL_writeW_ne (s : State) {n : BitVec 4} {m : BitVec 3} (v : Word) (h : m ≠ ern n) :
    (s.writeW n v).readL m = s.readL m := by
  unfold State.readL State.writeW
  rw [reg_setReg_ne _ _ h]

/-- The views of a load, in the order its frame lists them. -/
theorem KeepsRegs.swap {s t : State} {a : RegName} {l : List RegName} (h : KeepsRegs s t (l ++ [a])) :
    KeepsRegs s t (a :: l) := h.same fun n k => by simp [covered, Bool.or_comm]

theorem Frame.swap {s t : State} {a : RegName} {l : List RegName} {f : List Flag} {as : List Addr}
    (h : Frame s t (l ++ [a]) f as) : Frame s t (a :: l) f as := ⟨h.regs.swap, h.flags, h.mem, h.control, h.outside⟩

/-- Flags written after an update, then `pc_next`: the frame of the whole. -/
theorem finish {s u t : State} {d : List RegName} {fl : List Flag} {as : List Addr} {val : Flag → Bool}
    (hu : Frame s u d [] as) (hp : u.pc = s.pc) (hf : FlagsOnly u t fl val) (len : Nat) :
    (t.advance len).pc = s.pcNext len ∧ Frame s (t.advance len) d fl as := by
  have h := (hu.trans hf.frame).trans (frame_advance t len)
  refine ⟨?_, by simpa using h⟩
  rw [advance_pc]
  exact pcNext_congr (hf.pc.trans hp) h.outside.params len

/-! ### Loads -/

/-- MOV.B from memory. -/
theorem loadB_result {x : Instr} {s : State} {len : Nat} {m : Mode} {rd : BitVec 4} (hx : exec x s = loadB len m rd s)
    (hr : s.MayRead [m.ea 1 s]) (hs : m.steps (ern rd) = false) : LoadsB x s len m rd := by
  have hr8 : s.read8 (m.ea 1 s) = .ok (s.byteAt (m.ea 1 s)) := by
    have := read8_ok (s := s) (a := m.ea 1 s) (by rw [addr_ea]; exact hr)
    rwa [addr_ea] at this
  unfold loadB at hx
  rw [hr8] at hx
  simp only [hs, Bool.false_eq_true, ↓reduceIte] at hx
  change exec x s = .next ((movFlags (s.byteAt (m.ea 1 s)) ((m.update 1 s).writeB rd (s.byteAt (m.ea 1 s)))).advance len) at hx
  have hf := flagsOnly_movFlags ((m.update 1 s).writeB rd (s.byteAt (m.ea 1 s))) (s.byteAt (m.ea 1 s))
  have hu := ((frame_update m 1 s).trans (frame_writeB _ rd (s.byteAt (m.ea 1 s)))).swap
  obtain ⟨hpc, hfr⟩ := finish hu (update_pc m 1 s) hf len
  refine ⟨_, hx, ?_, hf.has, hpc, ?_, hfr⟩
  · rw [advance_readB, hf.readB, readB_writeB]
  · refine stepped_update m 1 s _ fun ra hm => ?_
    rw [advance_readL, hf.readL, readL_writeB_ne _ _ (steps_ne hs hm)]

/-- MOV.W from memory. -/
theorem loadW_result {x : Instr} {s : State} {len : Nat} {m : Mode} {rd : BitVec 4} (hx : exec x s = loadW len m rd s)
    (hr : s.MayRead (s.wordSpan (m.ea 2 s))) (hs : m.steps (ern rd) = false) : LoadsW x s len m rd := by
  unfold loadW at hx
  rw [read16_ok hr] at hx
  simp only [hs, Bool.false_eq_true, ↓reduceIte] at hx
  change exec x s = .next ((movFlags (s.wordAt (m.ea 2 s)) ((m.update 2 s).writeW rd (s.wordAt (m.ea 2 s)))).advance len) at hx
  have hf := flagsOnly_movFlags ((m.update 2 s).writeW rd (s.wordAt (m.ea 2 s))) (s.wordAt (m.ea 2 s))
  have hu := ((frame_update m 2 s).trans (frame_writeW _ rd (s.wordAt (m.ea 2 s)))).swap
  obtain ⟨hpc, hfr⟩ := finish hu (update_pc m 2 s) hf len
  refine ⟨_, hx, ?_, hf.has, hpc, ?_, hfr⟩
  · rw [advance_readW, hf.readW, readW_writeW]
  · refine stepped_update m 2 s _ fun ra hm => ?_
    rw [advance_readL, hf.readL, readL_writeW_ne _ _ (steps_ne hs hm)]

/-- MOV.L from memory. -/
theorem loadL_result {x : Instr} {s : State} {len : Nat} {m : Mode} {rd : BitVec 3} (hx : exec x s = loadL len m rd s)
    (hr : s.MayRead (s.longSpan (m.ea 4 s))) (hs : m.steps rd = false) : LoadsL x s len m rd := by
  unfold loadL at hx
  rw [read32_ok hr] at hx
  simp only [hs, Bool.false_eq_true, ↓reduceIte] at hx
  change exec x s = .next ((movFlags (s.longAt (m.ea 4 s)) ((m.update 4 s).writeL rd (s.longAt (m.ea 4 s)))).advance len) at hx
  have hf := flagsOnly_movFlags ((m.update 4 s).writeL rd (s.longAt (m.ea 4 s))) (s.longAt (m.ea 4 s))
  have hu := ((frame_update m 4 s).trans (frame_writeL _ rd (s.longAt (m.ea 4 s)))).swap
  obtain ⟨hpc, hfr⟩ := finish hu (update_pc m 4 s) hf len
  refine ⟨_, hx, ?_, hf.has, hpc, ?_, hfr⟩
  · rw [advance_readL, hf.readL, readL_writeL]
  · refine stepped_update m 4 s _ fun ra hm => ?_
    rw [advance_readL, hf.readL, readL_writeL_ne _ _ (steps_ne hs hm)]

/-- The state a load over its own address register leaves. -/
theorem loadsOver_of {w : Nat} {x : Instr} {s : State} {len : Nat} {n : BitVec 3} {v : BitVec w}
    (hx : exec x s = .next (((s.drawReg n).setNZ0 v).advance len)) : LoadsOver x s len n := by
  change exec x s = .next ((movFlags v (s.drawReg n)).advance len) at hx
  have hf := flagsOnly_movFlags (s.drawReg n) v
  obtain ⟨hpc, hfr⟩ := finish (frame_writeL s n _) rfl hf len
  exact ⟨_, hx, hf.has .v (by simp), hpc, hfr⟩

/-- MOV.B from memory over its own address register (40_data_transfer.md R419). -/
theorem loadB_over {x : Instr} {s : State} {len : Nat} {m : Mode} {rd : BitVec 4} (hx : exec x s = loadB len m rd s)
    (hr : s.MayRead [m.ea 1 s]) (hs : m.steps (ern rd) = true) : LoadsOver x s len (ern rd) := by
  have hr8 : s.read8 (m.ea 1 s) = .ok (s.byteAt (m.ea 1 s)) := by
    have := read8_ok (s := s) (a := m.ea 1 s) (by rw [addr_ea]; exact hr)
    rwa [addr_ea] at this
  unfold loadB at hx
  rw [hr8] at hx
  simp only [hs, ↓reduceIte] at hx
  exact loadsOver_of hx

theorem loadW_over {x : Instr} {s : State} {len : Nat} {m : Mode} {rd : BitVec 4} (hx : exec x s = loadW len m rd s)
    (hr : s.MayRead (s.wordSpan (m.ea 2 s))) (hs : m.steps (ern rd) = true) : LoadsOver x s len (ern rd) := by
  unfold loadW at hx
  rw [read16_ok hr] at hx
  simp only [hs, ↓reduceIte] at hx
  exact loadsOver_of hx

theorem loadL_over {x : Instr} {s : State} {len : Nat} {m : Mode} {rd : BitVec 3} (hx : exec x s = loadL len m rd s)
    (hr : s.MayRead (s.longSpan (m.ea 4 s))) (hs : m.steps rd = true) : LoadsOver x s len rd := by
  unfold loadL at hx
  rw [read32_ok hr] at hx
  simp only [hs, ↓reduceIte] at hx
  exact loadsOver_of hx

/-! ### Stores -/

theorem map_zip_fst {as : List Addr} {bs : List Byte} (h : as.length ≤ bs.length) : (as.zip bs).map (·.1) = as :=
  List.map_fst_zip h

/-- A store of bytes at addresses that differ, the address register stepped, flags, `pc_next`. -/
theorem stores_of {x : Instr} {s : State} {len : Nat} {m : Mode} {size : Nat} {as : List Addr} {bs : List Byte}
    {fl : List Flag} {val : Flag → Bool} {upd : State → State} (hw : s.mem.wf) (hl : as.length ≤ bs.length)
    (hn : (as.map BitVec.toNat).Nodup) (hf : ∀ u, FlagsOnly u (upd u) fl val)
    (hx : exec x s = .next ((upd (m.update size (s.stored (as.zip bs)))).advance len)) :
    Stores x s len m size as bs fl val := by
  have hfr := frame_stored s (as.zip bs)
  rw [map_zip_fst hl] at hfr
  have hf' := hf (m.update size (s.stored (as.zip bs)))
  have hu : Frame s (m.update size (s.stored (as.zip bs))) (steppedViews m) [] as := by
    simpa using hfr.trans (frame_update m size _)
  obtain ⟨hpc, hall⟩ := finish hu ((update_pc m size _).trans (stored_pc _ _)) hf' len
  have hmem : ((upd (m.update size (s.stored (as.zip bs)))).advance len).mem = (s.stored (as.zip bs)).mem := by
    rw [advance_mem, hf'.mem]; cases m <;> rfl
  have hreg : ∀ ra, (s.stored (as.zip bs)).readL ra = s.readL ra := fun ra => by
    unfold State.readL State.reg; simp [stored_er]
  have hdev : ∀ (u : State) a, u.hostMap = s.hostMap → u.isDevice a = s.isDevice a := fun u a hu => by
    unfold State.isDevice State.region?; rw [hu]
  refine ⟨_, hx, fun p hp hd => ?_, hf'.has, hpc, ?_, hall⟩
  · rw [hmem]
    refine holds_stored hw hl hn p hp ?_
    rw [hdev _ _ (stored_hostMap _ _), ← hdev _ _ hall.outside.hostMap]; exact hd
  · cases m
    case inc ra => show State.readL _ _ = _; rw [advance_readL, hf'.readL, ← hreg]; exact readL_writeL _ _ _
    case dec ra => show State.readL _ _ = _; rw [advance_readL, hf'.readL, ← hreg]; exact readL_writeL _ _ _
    all_goals trivial

/-- MOV.B to memory. -/
theorem storeB_result {x : Instr} {s : State} {len : Nat} {m : Mode} {rs : BitVec 4}
    (hx : exec x s = storeB len rs m s) (hw : s.mem.wf) (hm : s.MayStore len [m.ea 1 s]) :
    StoresB x s len m (storedB m rs s) := by
  unfold storeB at hx
  rw [write8_ok _ (by rw [addr_ea]; exact (allows_of_mayStore hm)), addr_ea] at hx
  exact stores_of (upd := movFlags (storedB m rs s)) (as := [m.ea 1 s]) (bs := [storedB m rs s]) hw (Nat.le_refl _)
    (by simp) (fun u => flagsOnly_movFlags u _) hx

/-- MOV.W to memory. -/
theorem storeW_result {x : Instr} {s : State} {len : Nat} {m : Mode} {rs : BitVec 4}
    (hx : exec x s = storeW len rs m s) (hw : s.mem.wf) (hm : s.MayStore len (s.wordSpan (m.ea 2 s))) :
    StoresW x s len m (storedW m rs s) := by
  unfold storeW at hx
  rw [write16_ok _ (allows_of_mayStore hm)] at hx
  exact stores_of (upd := movFlags (storedW m rs s)) hw (Nat.le_refl _) (wordSpan_nodup s _)
    (fun u => flagsOnly_movFlags u _) hx

/-- MOV.L to memory. -/
theorem storeL_result {x : Instr} {s : State} {len : Nat} {m : Mode} {rs : BitVec 3}
    (hx : exec x s = storeL len rs m s) (hw : s.mem.wf) (hm : s.MayStore len (s.longSpan (m.ea 4 s))) :
    StoresL x s len m (storedL m rs s) := by
  unfold storeL at hx
  rw [write32_ok _ (allows_of_mayStore hm)] at hx
  exact stores_of (upd := movFlags (storedL m rs s)) hw (Nat.le_refl _) (longSpan_nodup s _)
    (fun u => flagsOnly_movFlags u _) hx

/-- STC.W. -/
theorem storeControl_result {x : Instr} {s : State} {len : Nat} {m : Mode} {v : Byte}
    (hx : exec x s = storeControl len m v s) (hw : s.mem.wf) (hm : s.MayStore len (s.wordSpan (m.ea 2 s))) :
    Stores x s len m 2 (s.wordSpan (m.ea 2 s)) (wordBytes (v ++ Config.draw 8 .stcPad s.epoch)) [] fun _ => false := by
  unfold storeControl at hx
  rw [write16_ok _ (allows_of_mayStore hm)] at hx
  exact stores_of (upd := noFlags) hw (Nat.le_refl _) (wordSpan_nodup s _) (fun u => flagsOnly_noFlags u _) hx

/-! ### Bit instructions, TAS -/

/-- The address of a memory target. -/
theorem read_target {t : BitTarget} {s : State} {a : Addr} (ha : t.ea? s = some a) (hr : s.MayRead [a]) :
    t.read s = .ok (s.byteAt a) := by
  have key : ∀ b, s.addr b = b → s.MayRead [b] → s.read8 b = .ok (s.byteAt b) := fun b hb h => by
    have := read8_ok (s := s) (a := b) (by rw [hb]; exact h)
    rwa [hb] at this
  cases t <;> simp only [BitTarget.ea?, Option.some.injEq, reduceCtorEq] at ha
  all_goals subst ha; exact key _ (addr_addr s _) hr

theorem write_target {t : BitTarget} {s : State} {a : Addr} (v : Byte) (ha : t.ea? s = some a)
    (hm : s.MayStore t.len [a]) : t.write v s = .ok (s.stored [(a, v)]) := by
  have key : ∀ l b, s.addr b = b → s.MayStore l [b] → s.write8 (some l) b v = .ok (s.stored [(b, v)]) :=
    fun l b hb h => by
      have := write8_ok (s := s) (by_ := some l) (a := b) v (by rw [hb]; exact (allows_of_mayStore h))
      rwa [hb] at this
  cases t <;> simp only [BitTarget.ea?, Option.some.injEq, reduceCtorEq] at ha
  all_goals subst ha; exact key _ _ (addr_addr s _) hm

/-- A modifying bit instruction on memory (44_bit_manipulation.md R801). -/
theorem bitModify_mem {x : Instr} {s : State} {t : BitTarget} {f : Byte → Byte} {a : Addr}
    (hx : exec x s = bitModify t f s) (ha : t.ea? s = some a) (hw : s.mem.wf) (hr : s.MayRead [a])
    (hm : s.MayStore t.len [a]) : StoresByte x s t.len a (f (s.byteAt a)) := by
  unfold bitModify at hx
  rw [read_target ha hr] at hx
  simp only at hx
  rw [write_target _ ha hm] at hx
  obtain ⟨u, hu, h1, -, h3, -, h5⟩ := stores_of (m := .abs8 0) (size := 1) (upd := noFlags) (as := [a])
    (bs := [f (s.byteAt a)]) (val := fun _ => false) hw (Nat.le_refl _) (by simp)
    (fun u => flagsOnly_noFlags u _) hx
  exact ⟨u, hu, h1, h3, h5⟩

/-- A modifying bit instruction on a register. -/
theorem bitModify_reg {x : Instr} {s : State} {rd : BitVec 4} {f : Byte → Byte}
    (hx : exec x s = bitModify (.reg rd) f s) (val : Flag → Bool) : ResultB x s 2 rd (f (s.readB rd)) [] val :=
  putB_result (upd := noFlags) hx (flagsOnly_noFlags _ _)

/-- A testing bit instruction (44_bit_manipulation.md R801). -/
theorem bitTest_result {x : Instr} {s : State} {t : BitTarget} {fl : Flag} {f : Byte → Bool}
    (hx : exec x s = bitTest t fl f s) (hr : ∀ a, t.ea? s = some a → s.MayRead [a]) :
    ResultFlags x s t.len [fl] fun _ => f (targetByte t s) := by
  have hread : t.read s = .ok (targetByte t s) := by
    cases t
    case reg rd => rfl
    all_goals exact read_target rfl (hr _ rfl)
  unfold bitTest at hx
  rw [hread] at hx
  have hf := flagsOnly_setFlag s fl (f (targetByte t s)) (fun _ => f (targetByte t s)) rfl
  refine ⟨_, hx, hf.has, rfl, ?_⟩
  simpa using hf.frame.trans (frame_advance _ t.len)

/-- TAS. -/
theorem tas_result {s : State} {ra : BitVec 3} (hw : s.mem.wf) (hr : s.MayRead [s.eaInd ra])
    (hm : s.MayStore 4 [s.eaInd ra]) :
    Stores (.tas ra) s 4 (.ind ra) 1 [s.eaInd ra] [s.byteAt (s.eaInd ra) ||| 0x80] [.n, .z, .v]
      (nz0 (s.byteAt (s.eaInd ra))) := by
  have hx : exec (.tas ra) s = execTas ra s := rfl
  unfold execTas at hx
  rw [show s.read8 (s.readL ra) = .ok (s.byteAt (s.eaInd ra)) from read8_ok hr] at hx
  simp only at hx
  rw [write8_ok (s := s) (by_ := some 4) (a := s.readL ra) (s.byteAt (s.eaInd ra) ||| 0x80) (allows_of_mayStore hm)] at hx
  exact stores_of (upd := movFlags (s.byteAt (s.eaInd ra))) (as := [s.eaInd ra])
    (bs := [s.byteAt (s.eaInd ra) ||| 0x80]) hw (Nat.le_refl _) (by simp) (fun u => flagsOnly_movFlags u _) hx

/-! ### Control registers -/

theorem ccrWritten_of {x : Instr} {s u : State} {len : Nat} {v : Byte} {dst : List RegName} {more : State → Prop}
    (hx : exec x s = .next (((u.writeCcr v).shadow).advance len)) (hu : Frame s u dst [] []) (hp : u.pc = s.pc)
    (hmore : more (((u.writeCcr v).shadow).advance len)) : CcrWritten x s len v dst more := by
  refine ⟨_, hx, rfl, rfl, ?_, ?_, hmore, ?_, ?_, ?_, hu.control.exr, hu.control.sleeping, hu.control.nmiPending,
    hu.control.eepmovActive⟩
  · show (u.irqHold || u.params.irqShadow) = _
    rw [hu.control.irqHold, hu.outside.params]
  · exact hu.pcNext hp len
  · simpa using hu.regs.trans (KeepsRegs.of_er (t := ((u.writeCcr v).shadow).advance len) rfl)
  · exact fun a ha => hu.mem a ha
  · exact hu.outside.trans ⟨rfl, rfl, rfl, rfl, rfl, rfl, rfl, rfl⟩

theorem exrWritten_of {x : Instr} {s u : State} {len : Nat} {v : Byte} {dst : List RegName} {more : State → Prop}
    (hx : exec x s = .next (((u.writeExr v).shadow).advance len)) (hu : Frame s u dst [] []) (hp : u.pc = s.pc)
    (hmore : more (((u.writeExr v).shadow).advance len)) : ExrWritten x s len v dst more := by
  refine ⟨_, hx, rfl, ?_, ?_, hmore, ?_, ?_, ?_, ?_, hu.control.sleeping, hu.control.nmiPending,
    hu.control.eepmovActive⟩
  · show (u.irqHold || u.params.irqShadow) = _
    rw [hu.control.irqHold, hu.outside.params]
  · exact hu.pcNext hp len
  · simpa using hu.regs.trans (KeepsRegs.of_er (t := ((u.writeExr v).shadow).advance len) rfl)
  · simpa using hu.flags.trans (KeepsFlags.of_ccr (t := ((u.writeExr v).shadow).advance len) rfl rfl)
  · exact fun a ha => hu.mem a ha
  · exact hu.outside.trans ⟨rfl, rfl, rfl, rfl, rfl, rfl, rfl, rfl⟩

/-- LDC, ANDC, ORC, XORC to CCR. -/
theorem putCcr_result {x : Instr} {s : State} {len : Nat} {v : Byte} (hx : exec x s = putCcr len v s) :
    CcrWritten x s len v [] fun _ => True := ccrWritten_of hx (frame_setPc s s.pc) rfl trivial

/-- LDC, ANDC, ORC, XORC to EXR. -/
theorem putExr_result {x : Instr} {s : State} {len : Nat} {v : Byte} (hx : exec x s = putExr len v s) :
    ExrWritten x s len v [] fun _ => True := exrWritten_of hx (frame_setPc s s.pc) rfl trivial

/-- LDC.W to CCR: the high byte of the word. -/
theorem loadCcr_result {x : Instr} {s : State} {len : Nat} {m : Mode}
    (hx : exec x s = loadControl len m State.writeCcr s) (hr : s.MayRead (s.wordSpan (m.ea 2 s))) :
    CcrWritten x s len ((s.wordAt (m.ea 2 s)).extractLsb' 8 8) (steppedViews m) (Stepped m 2 s) := by
  unfold loadControl at hx
  rw [read16_ok hr] at hx
  exact ccrWritten_of hx (frame_update m 2 s) (update_pc m 2 s) (stepped_update m 2 s _ fun _ _ => rfl)

/-- LDC.W to EXR. -/
theorem loadExr_result {x : Instr} {s : State} {len : Nat} {m : Mode}
    (hx : exec x s = loadControl len m State.writeExr s) (hr : s.MayRead (s.wordSpan (m.ea 2 s))) :
    ExrWritten x s len ((s.wordAt (m.ea 2 s)).extractLsb' 8 8) (steppedViews m) (Stepped m 2 s) := by
  unfold loadControl at hx
  rw [read16_ok hr] at hx
  exact exrWritten_of hx (frame_update m 2 s) (update_pc m 2 s) (stepped_update m 2 s _ fun _ _ => rfl)

end Sys2Proof.Machine
end

