-- ==== Sys2Proof/Laws/Stack.lean ====
section
/-!
SUPPORT. The stack: pushes, pops, calls, returns, register lists; and the block moves.
-/

namespace Sys2Proof.Machine

/-! ### Registers a frame keeps -/

theorem long_eq_of_bytes {x y : Long} (h : ∀ k, k < 4 → x.extractLsb' (8 * k) 8 = y.extractLsb' (8 * k) 8) : x = y := by
  apply BitVec.eq_of_getLsbD_eq
  intro i hi
  have hb := congrArg (fun b : BitVec 8 => b.getLsbD (i % 8)) (h (i / 8) (by omega))
  have h8 : i % 8 < 8 := Nat.mod_lt _ (by omega)
  have he : 8 * (i / 8) + i % 8 = i := by omega
  simpa [BitVec.getLsbD_extractLsb', h8, he] using hb

/-- A register no view of the frame covers reads as before. -/
theorem KeepsRegs.readL {s t : State} {d : List RegName} (h : KeepsRegs s t d) {n : BitVec 3}
    (hn : ∀ k, covered d n k = false) : t.readL n = s.readL n :=
  long_eq_of_bytes fun k hk => h.value n k hk (hn k)

theorem covered_longs {l : List (BitVec 3)} {n : BitVec 3} (h : n ∉ l) (k : Nat) :
    covered (l.map .long) n k = false := by
  rw [covered, List.any_eq_false]
  intro r hr
  obtain ⟨m, hm, rfl⟩ := List.mem_map.1 hr
  have : n ≠ m := fun e => h (e ▸ hm)
  simpa [RegName.covers] using this

/-- What is read depends on memory, the host's map, the epoch and the address width alone. -/
structure SameReads (s t : State) : Prop where
  mem : t.mem = s.mem
  hostMap : t.hostMap = s.hostMap
  epoch : t.epoch = s.epoch
  params : t.params = s.params

theorem addr_congr {s t : State} (h : t.params = s.params) (a : Addr) : t.addr a = s.addr a := by
  unfold State.addr; rw [h]

theorem evenAddr_congr {s t : State} (h : t.params = s.params) (a : Addr) : t.evenAddr a = s.evenAddr a := by
  unfold State.evenAddr; rw [addr_congr h]

theorem offset_congr {s t : State} (h : t.params = s.params) (a : Addr) (i : Nat) : t.offset a i = s.offset a i :=
  addr_congr h _

theorem isDevice_congr {s t : State} (h : t.hostMap = s.hostMap) (a : Nat) : t.isDevice a = s.isDevice a := by
  unfold State.isDevice State.region?; rw [h]

theorem SameReads.byteAt {s t : State} (h : SameReads s t) (a : Addr) : t.byteAt a = s.byteAt a := by
  unfold State.byteAt; rw [isDevice_congr h.hostMap, h.epoch, h.mem]

theorem SameReads.longAt {s t : State} (h : SameReads s t) (a : Addr) : t.longAt a = s.longAt a := by
  unfold State.longAt
  rw [evenAddr_congr h.params, offset_congr h.params, offset_congr h.params, offset_congr h.params, h.byteAt,
    h.byteAt, h.byteAt, h.byteAt]

theorem SameReads.wordAt {s t : State} (h : SameReads s t) (a : Addr) : t.wordAt a = s.wordAt a := by
  unfold State.wordAt
  rw [evenAddr_congr h.params, offset_congr h.params, h.byteAt, h.byteAt]

theorem longSpan_congr {s t : State} (h : t.params = s.params) (a : Addr) : t.longSpan a = s.longSpan a := by
  unfold State.longSpan
  rw [evenAddr_congr h, offset_congr h, offset_congr h, offset_congr h]

theorem wordSpan_congr {s t : State} (h : t.params = s.params) (a : Addr) : t.wordSpan a = s.wordSpan a := by
  unfold State.wordSpan
  rw [evenAddr_congr h, offset_congr h]

theorem popSpan_congr {s t : State} (h : t.params = s.params) (k : Nat) (a : Addr) : t.popSpan k a = s.popSpan k a := by
  induction k generalizing a with
  | zero => rfl
  | succ k ih => unfold State.popSpan; rw [ih, longSpan_congr h]

theorem pushSpan_congr {s t : State} (h : t.params = s.params) (k : Nat) (a : Addr) :
    t.pushSpan k a = s.pushSpan k a := by
  induction k generalizing a with
  | zero => rfl
  | succ k ih => unfold State.pushSpan; rw [ih, longSpan_congr h]

theorem canRead_congr {s t : State} (h : t.hostMap = s.hostMap) (a : Nat) : t.canRead a = s.canRead a := by
  unfold State.canRead State.region?; rw [h]

theorem canWrite_congr {s t : State} (h : t.hostMap = s.hostMap) (a : Nat) : t.canWrite a = s.canWrite a := by
  unfold State.canWrite State.region?; rw [h]

theorem inPrefetch_congr {s t : State} (hp : t.pc = s.pc) (h : t.params = s.params) (len : Nat) (a : Addr) :
    t.inPrefetch len a = s.inPrefetch len a := by unfold State.inPrefetch State.addr; rw [hp, h]

theorem allows_congr {s t : State} (hm : t.hostMap = s.hostMap) (hp : t.pc = s.pc) (hq : t.params = s.params)
    {by_ : Option Nat} {as : List Addr} (h : s.Allows by_ as) : t.Allows by_ as :=
  ⟨fun a ha => by rw [canWrite_congr hm]; exact h.1 a ha,
    fun len hl a ha => by rw [inPrefetch_congr hp hq]; exact h.2 len hl a ha⟩

theorem stored_mem_congr {s t : State} (hm : t.mem = s.mem) (hh : t.hostMap = s.hostMap) (ps : List (Addr × Byte)) :
    (t.stored ps).mem = (s.stored ps).mem := by
  induction ps generalizing s t with
  | nil => exact hm
  | cons p ps ih =>
    obtain ⟨a, v⟩ := p
    unfold State.stored
    rw [isDevice_congr hh]
    split
    · exact ih hm hh
    · exact ih (by simp [hm]) hh

/-! ### One push, one pop -/

theorem pop32_ok {s : State} (h : s.MayRead (s.longSpan (s.readL sp))) :
    s.pop32 = .ok (s.longAt (s.readL sp), s.writeL sp (s.readL sp + 4)) := by
  unfold State.pop32; rw [read32_ok h]; rfl

theorem pop16_ok {s : State} (h : s.MayRead (s.wordSpan (s.readL sp))) :
    s.pop16 = .ok (s.wordAt (s.readL sp), s.writeL sp (s.readL sp + 2)) := by
  unfold State.pop16; rw [read16_ok h]; rfl

theorem push32_ok {s : State} {by_ : Option Nat} (v : Long) (h : s.Allows by_ (s.longSpan (s.readL sp - 4))) :
    s.push32 by_ v =
      .ok ((s.stored ((s.longSpan (s.readL sp - 4)).zip (longBytes v))).writeL sp (s.readL sp - 4)) := by
  unfold State.push32; rw [write32_ok v h]; rfl

theorem push16_ok {s : State} {by_ : Option Nat} (v : Word) (h : s.Allows by_ (s.wordSpan (s.readL sp - 2))) :
    s.push16 by_ v =
      .ok ((s.stored ((s.wordSpan (s.readL sp - 2)).zip (wordBytes v))).writeL sp (s.readL sp - 2)) := by
  unfold State.push16; rw [write16_ok v h]; rfl

/-! ### Calls and returns -/

/-- A call to an even target (45_branch.md R903). -/
theorem call_result {x : Instr} {s : State} {len : Nat} {target : Addr} (hx : exec x s = call len target s)
    (hw : s.mem.wf) (hm : s.MayStore len (s.longSpan (s.readL sp - 4))) (ht : target.getLsbD 0 = false) :
    Calls x s len target := by
  unfold call at hx
  rw [push32_ok _ (allows_of_mayStore hm)] at hx
  simp only [jumpTo_even _ ht] at hx
  have hfr := frame_stored s ((s.longSpan (s.readL sp - 4)).zip (longBytes (s.callFrame (s.pcNext len))))
  rw [map_zip_fst (Nat.le_refl _)] at hfr
  have hall := (hfr.trans (frame_writeL _ sp (s.readL sp - 4))).trans (frame_setPc _ target)
  refine ⟨_, hx, rfl, ?_, ?_, by simpa using hall⟩
  · rw [setPc_readL, readL_writeL]
  · intro p hp hd
    rw [isDevice_congr hall.outside.hostMap] at hd
    exact holds_stored hw (Nat.le_refl _) (longSpan_nodup s _) p hp (by rw [stored_isDevice]; exact hd)

/-- A call to an odd target stops (10_state.md R110). -/
theorem call_odd {x : Instr} {s : State} {len : Nat} {target : Addr} (hx : exec x s = call len target s)
    (hm : s.MayStore len (s.longSpan (s.readL sp - 4))) (ht : target.getLsbD 0 = true) :
    exec x s = .fault (.unmodelled .oddBranchTarget s.pc.toNat) := by
  unfold call at hx
  rw [push32_ok _ (allows_of_mayStore hm)] at hx
  simp only [jumpTo_odd _ ht] at hx
  rw [hx, writeL_pc, stored_pc]; rfl

/-- RTS to an even address. -/
theorem rts_result {s : State} (hr : s.MayRead (s.longSpan (s.readL sp)))
    (ht : (s.addr (s.longAt (s.readL sp))).getLsbD 0 = false) :
    Ends .rts s fun t => t.pc = s.addr (s.longAt (s.readL sp)) ∧ t.readL sp = s.readL sp + 4 ∧
      Frame s t [.long sp] [] [] := by
  have hx : exec .rts s = execRts s := rfl
  unfold execRts at hx
  rw [pop32_ok hr] at hx
  simp only [jumpTo_even _ ht] at hx
  refine ⟨_, hx, rfl, ?_, ?_⟩
  · rw [setPc_readL, readL_writeL]
  · simpa using (frame_writeL s sp _).trans (frame_setPc _ _)

/-! ### Register lists -/

theorem listLoaded_congr {s s' t : State} (h : SameReads s s') (regs : List (BitVec 3)) (a : Addr)
    (hl : ListLoaded s' t regs a) : ListLoaded s t regs a := by
  induction regs generalizing a with
  | nil => trivial
  | cons r rs ih => exact ⟨by rw [hl.1, h.longAt], ih _ hl.2⟩

/-- The views a list of pops or pushes changes. -/
theorem covered_sp {regs : List (BitVec 3)} (n : BitVec 3) (k : Nat) :
    covered (regs.map fun _ => RegName.long sp) n k = (!regs.isEmpty && n == sp) := by
  induction regs with
  | nil => rfl
  | cons r rs ih =>
    show (n == sp || covered (rs.map fun _ => RegName.long sp) n k) = _
    rw [ih]
    cases n == sp <;> simp

theorem listLoaded_of_er {s t u : State} (h : u.er = t.er) (regs : List (BitVec 3)) (a : Addr)
    (hl : ListLoaded s t regs a) : ListLoaded s u regs a := by
  induction regs generalizing a with
  | nil => trivial
  | cons r rs ih =>
    refine ⟨?_, ih _ hl.2⟩
    rw [← hl.1]; unfold State.readL State.reg; simp [h]

/-- A list of pops or pushes that is not empty moves SP. -/
theorem covered_list_sp {regs : List (BitVec 3)} (hne : regs ≠ []) (l : List RegName) (n : BitVec 3) (k : Nat) :
    covered (l ++ (regs.map fun _ => RegName.long sp) ++ []) n k = covered (l ++ [.long sp]) n k := by
  have h2 := covered_sp (regs := regs) n k
  unfold covered at h2 ⊢
  rw [List.append_nil, List.any_append, List.any_append, h2]
  cases regs with
  | nil => exact absurd rfl hne
  | cons => simp [RegName.covers]

/-- A list of pops. -/
theorem popRegs_ok {regs : List (BitVec 3)} {s : State} (hn : regs.Nodup) (hsp : sp ∉ regs)
    (hr : s.MayRead (s.popSpan regs.length (s.readL sp))) :
    ∃ t, popRegs regs s = .ok t ∧ ListLoaded s t regs (s.readL sp) ∧
      t.readL sp = s.readL sp + BitVec.ofNat 32 (4 * regs.length) ∧ t.pc = s.pc ∧
      Frame s t (regs.map .long ++ regs.map fun _ => .long sp) [] [] := by
  induction regs generalizing s with
  | nil => exact ⟨s, rfl, trivial, by simp, rfl, frame_setPc s s.pc⟩
  | cons r rs ih =>
    have hr0 : s.MayRead (s.longSpan (s.readL sp)) := fun a ha => hr a (List.mem_append_left _ ha)
    have hrsp : sp ≠ r := fun e => hsp (by simp [e])
    obtain ⟨hnr, hn'⟩ := List.nodup_cons.1 hn
    have hsp' : sp ∉ rs := fun h => hsp (by simp [h])
    let u := (s.writeL sp (s.readL sp + 4)).writeL r (s.longAt (s.readL sp))
    have husp : u.readL sp = s.readL sp + 4 := by
      show State.readL _ _ = _
      rw [readL_writeL_ne _ _ hrsp, readL_writeL]
    obtain ⟨t, ht, hl, htsp, hpc, hf⟩ := ih (s := u) hn' hsp' (by
      intro a ha
      rw [husp, popSpan_congr (s := s) (t := u) rfl] at ha
      exact hr a (List.mem_append_right _ ha))
    have hpop : popRegs (r :: rs) s = popRegs rs u := by
      conv_lhs => unfold popRegs
      rw [pop32_ok hr0]
    have hfu : Frame s u [.long sp, .long r] [] [] := by
      simpa using (frame_writeL s sp _).trans (frame_writeL _ r _)
    refine ⟨t, hpop.trans ht, ⟨?_, ?_⟩, ?_, hpc, ?_⟩
    · rw [hf.regs.readL (n := r) fun k => ?_]
      · exact readL_writeL _ _ _
      · rw [covered, List.any_append]
        have h1 := covered_longs hnr k
        have h2 := covered_sp (regs := rs) r k
        unfold covered at h1 h2
        rw [h1, h2]
        simp [Ne.symm hrsp]
    · rw [husp] at hl
      exact listLoaded_congr (s := s) (s' := u) ⟨rfl, rfl, rfl, rfl⟩ _ _ hl
    · rw [htsp, husp, List.length_cons, BitVec.add_assoc]
      congr 1
      apply BitVec.eq_of_toNat_eq
      simp [BitVec.toNat_add]; omega
    · have h := hfu.trans hf
      refine ⟨h.regs.same fun n k => ?_, h.flags, h.mem, h.control, h.outside⟩
      simp only [covered, List.any_cons, List.any_append, List.map_cons, List.nil_append, List.cons_append]
      generalize (RegName.long sp).covers n k = a
      generalize (RegName.long r).covers n k = b
      generalize List.any (List.map RegName.long rs) _ = c
      generalize List.any _ _ = d
      revert a b c d; decide

/-- LDM.L of a list without ER7. -/
theorem loadList_result {x : Instr} {s : State} {regs : List (BitVec 3)} (hx : exec x s = loadList regs s)
    (hn : regs.Nodup) (hne : regs ≠ []) (hsp : sp ∉ regs) (hr : s.MayRead (s.popSpan regs.length (s.readL sp))) :
    LoadsList x s regs := by
  obtain ⟨t, ht, hl, htsp, hpc, hf⟩ := popRegs_ok hn hsp hr
  unfold loadList at hx
  rw [if_neg (by simpa using hsp), ht] at hx
  refine ⟨_, hx, listLoaded_of_er (advance_er t 4) _ _ hl, htsp, ?_, ?_⟩
  · rw [advance_pc]; exact hf.pcNext hpc 4
  · have h := hf.trans (frame_advance t 4)
    exact ⟨h.regs.same (covered_list_sp hne _), h.flags, h.mem, h.control, h.outside⟩

/-- LDM.L of a list with ER7 stops. -/
theorem loadList_er7 {x : Instr} {s : State} {regs : List (BitVec 3)} (hx : exec x s = loadList regs s)
    (hsp : sp ∈ regs) : exec x s = .fault (.unmodelled .ldmWithEr7 s.pc.toNat) := by
  rw [hx]; unfold loadList; rw [if_pos (by simpa using hsp)]; rfl

/-- Where the addresses of a run of pushes lie: 1 to `4 k` bytes below its start. -/
theorem pushSpan_below {s : State} {k : Nat} {a : Addr} {x : Addr} (hx : x ∈ s.pushSpan k a) :
    ∃ d, 1 ≤ d ∧ d ≤ 4 * k ∧
      (x.toNat + d) % 2 ^ s.params.addrBits.toNat = (s.evenAddr a).toNat := by
  have hsub : ∀ a : Addr, (s.evenAddr (a - 4)).toNat =
      ((s.evenAddr a).toNat + (2 ^ s.params.addrBits.toNat - 4)) % 2 ^ s.params.addrBits.toNat := fun a => by
    rw [evenAddr_toNat, evenAddr_toNat, BitVec.toNat_sub]
    rcases addrBits_cases s.params.addrBits with e | e <;> rw [e] <;> simp <;> omega
  have hlt : ∀ a : Addr, (s.evenAddr a).toNat < 2 ^ s.params.addrBits.toNat := fun a => by
    rw [evenAddr_toNat]
    rcases addrBits_cases s.params.addrBits with e | e <;> rw [e] <;> omega
  induction k generalizing a with
  | zero => cases hx
  | succ k ih =>
    have h0 := hlt a
    have h1 := hsub a
    rcases List.mem_append.1 hx with h | h
    · have hoff := offset_toNat s (s.evenAddr (a - 4))
      simp only [State.longSpan, List.mem_cons, List.not_mem_nil, or_false] at h
      rcases h with rfl | rfl | rfl | rfl
      · refine ⟨4, by omega, by omega, ?_⟩
        rcases addrBits_cases s.params.addrBits with e | e <;> rw [e] at h0 h1 ⊢ <;> omega
      · refine ⟨3, by omega, by omega, ?_⟩
        rw [hoff]
        rcases addrBits_cases s.params.addrBits with e | e <;> rw [e] at h0 h1 ⊢ <;> omega
      · refine ⟨2, by omega, by omega, ?_⟩
        rw [hoff]
        rcases addrBits_cases s.params.addrBits with e | e <;> rw [e] at h0 h1 ⊢ <;> omega
      · refine ⟨1, by omega, by omega, ?_⟩
        rw [hoff]
        rcases addrBits_cases s.params.addrBits with e | e <;> rw [e] at h0 h1 ⊢ <;> omega
    · obtain ⟨d, hd1, hd2, hd⟩ := ih h
      refine ⟨d + 4, by omega, by omega, ?_⟩
      rw [h1] at hd
      rcases addrBits_cases s.params.addrBits with e | e <;> rw [e] at h0 hd ⊢ <;> omega

/-- The addresses of a run of pushes differ. -/
theorem pushSpan_nodup (s : State) {k : Nat} (hk : k ≤ 8) (a : Addr) : ((s.pushSpan k a).map BitVec.toNat).Nodup := by
  induction k generalizing a with
  | zero => exact List.nodup_nil
  | succ k ih =>
    unfold State.pushSpan
    rw [List.map_append, List.nodup_append]
    refine ⟨longSpan_nodup s _, ih (by omega) _, fun x hx y hy hxy => ?_⟩
    obtain ⟨u, hu, rfl⟩ := List.mem_map.1 hx
    obtain ⟨v, hv, rfl⟩ := List.mem_map.1 hy
    have h1 : u ∈ s.pushSpan 1 a := by simpa [State.pushSpan] using hu
    obtain ⟨d, hd1, hd2, hd⟩ := pushSpan_below h1
    obtain ⟨d', hd1', hd2', hd'⟩ := pushSpan_below hv
    have hsub : (s.evenAddr (a - 4)).toNat =
        ((s.evenAddr a).toNat + (2 ^ s.params.addrBits.toNat - 4)) % 2 ^ s.params.addrBits.toNat := by
      rw [evenAddr_toNat, evenAddr_toNat, BitVec.toNat_sub]
      rcases addrBits_cases s.params.addrBits with e | e <;> rw [e] <;> simp <;> omega
    rw [hsub] at hd'
    rw [hxy] at hd
    have hlt : (s.evenAddr a).toNat < 2 ^ s.params.addrBits.toNat := by
      rw [evenAddr_toNat]
      rcases addrBits_cases s.params.addrBits with e | e <;> rw [e] <;> omega
    rcases addrBits_cases s.params.addrBits with e | e <;> rw [e] at hd hd' hlt <;> omega

/-- A list of pushes. -/
theorem pushRegs_ok {regs : List (BitVec 3)} {s : State} (hsp : sp ∉ regs)
    (hm : s.Allows (some 4) (s.pushSpan regs.length (s.readL sp))) :
    ∃ t, pushRegs regs s = .ok t ∧
      t.mem = (s.stored ((s.pushSpan regs.length (s.readL sp)).zip
        (regs.flatMap fun r => longBytes (s.readL r)))).mem ∧
      t.readL sp = s.readL sp - BitVec.ofNat 32 (4 * regs.length) ∧ t.pc = s.pc ∧
      Frame s t (regs.map fun _ => .long sp) [] (s.pushSpan regs.length (s.readL sp)) := by
  induction regs generalizing s with
  | nil => exact ⟨s, rfl, rfl, by simp, rfl, frame_setPc s s.pc⟩
  | cons r rs ih =>
    have hm0 : s.Allows (some 4) (s.longSpan (s.readL sp - 4)) :=
      ⟨fun a ha => hm.1 a (List.mem_append_left _ ha), fun l hl a ha => hm.2 l hl a (List.mem_append_left _ ha)⟩
    have hsp' : sp ∉ rs := fun h => hsp (by simp [h])
    let ps := (s.longSpan (s.readL sp - 4)).zip (longBytes (s.readL r))
    let u := (s.stored ps).writeL sp (s.readL sp - 4)
    have hfu : Frame s u [.long sp] [] (s.longSpan (s.readL sp - 4)) := by
      have h := frame_stored s ps
      rw [map_zip_fst (Nat.le_refl _)] at h
      have h2 := h.trans (frame_writeL _ sp (s.readL sp - 4))
      rwa [List.append_nil] at h2
    have husp : u.readL sp = s.readL sp - 4 := readL_writeL _ _ _
    have hupc : u.pc = s.pc := stored_pc _ _
    have hread : ∀ r', r' ∈ rs → u.readL r' = s.readL r' := fun r' hr' =>
      hfu.regs.readL fun k => by
        have : r' ≠ sp := fun e => hsp' (e ▸ hr')
        simpa [covered, RegName.covers] using this
    have hspan : u.pushSpan rs.length (u.readL sp) = s.pushSpan rs.length (s.readL sp - 4) := by
      rw [husp, pushSpan_congr hfu.outside.params]
    obtain ⟨t, ht, htm, htsp, hpc, hf⟩ := ih (s := u) hsp' (by
      rw [hspan]
      refine allows_congr hfu.outside.hostMap hupc hfu.outside.params ?_
      exact ⟨fun a ha => hm.1 a (List.mem_append_right _ ha), fun l hl a ha => hm.2 l hl a (List.mem_append_right _ ha)⟩)
    have hpush : pushRegs (r :: rs) s = pushRegs rs u := by
      conv_lhs => unfold pushRegs
      rw [push32_ok _ hm0]
    have hbytes : (rs.flatMap fun r => longBytes (u.readL r)) = rs.flatMap fun r => longBytes (s.readL r) :=
      List.flatMap_congr fun r' hr' => by rw [hread r' hr']
    rw [hspan, hbytes] at htm
    rw [hspan] at hf
    refine ⟨t, hpush.trans ht, ?_, ?_, hpc.trans hupc, ?_⟩
    · rw [htm, List.length_cons, State.pushSpan, List.flatMap_cons]
      rw [List.zip_append (l₁ := s.longSpan (s.readL sp - 4)) (l₂ := longBytes (s.readL r)) rfl, stored_append]
      exact stored_mem_congr (s := s.stored ps) (t := u) rfl rfl _
    · rw [htsp, husp, List.length_cons]
      apply BitVec.eq_of_toNat_eq
      simp [BitVec.toNat_sub]; omega
    · have h := hfu.trans hf
      exact ⟨h.regs, h.flags, h.mem, h.control, h.outside⟩

theorem flatMap_longBytes_length (s : State) (regs : List (BitVec 3)) :
    (regs.flatMap fun r => longBytes (s.readL r)).length = 4 * regs.length := by
  induction regs with
  | nil => rfl
  | cons r rs ih => rw [List.flatMap_cons, List.length_append, ih, List.length_cons]; simp [longBytes]; omega

theorem pushSpan_length (s : State) (k : Nat) (a : Addr) : (s.pushSpan k a).length = 4 * k := by
  induction k generalizing a with
  | zero => rfl
  | succ k ih => unfold State.pushSpan; rw [List.length_append, ih]; simp [State.longSpan]; omega

/-- STM.L of a list without ER7. -/
theorem storeList_result {x : Instr} {s : State} {regs : List (BitVec 3)} (hx : exec x s = storeList regs s)
    (hne : regs ≠ []) (hlen : regs.length ≤ 8) (hsp : sp ∉ regs) (hw : s.mem.wf)
    (hm : s.MayStore 4 (s.pushSpan regs.length (s.readL sp))) : StoresList x s regs := by
  obtain ⟨t, ht, htm, htsp, hpc, hf⟩ := pushRegs_ok hsp (allows_of_mayStore hm)
  unfold storeList at hx
  rw [if_neg (by simpa using hsp), ht] at hx
  have h := hf.trans (frame_advance t 4)
  refine ⟨_, hx, fun p hp hd => ?_, htsp, ?_, ?_⟩
  · rw [isDevice_congr h.outside.hostMap] at hd
    rw [advance_mem, htm]
    refine holds_stored hw ?_ (pushSpan_nodup s hlen _) p hp (by rw [stored_isDevice]; exact hd)
    rw [pushSpan_length, flatMap_longBytes_length]
  · rw [advance_pc]; exact hf.pcNext hpc 4
  · exact ⟨h.regs.same (covered_list_sp hne []), h.flags, by simpa using h.mem, h.control, h.outside⟩

/-- STM.L of a list with ER7 stops. -/
theorem storeList_er7 {x : Instr} {s : State} {regs : List (BitVec 3)} (hx : exec x s = storeList regs s)
    (hsp : sp ∈ regs) : exec x s = .fault (.unmodelled .stmWithEr7 s.pc.toNat) := by
  rw [hx]; unfold storeList; rw [if_pos (by simpa using hsp)]; rfl

/-! ### Block moves -/

/-- One byte of a block move. -/
theorem moveByte_ok {s : State} (hr : s.MayRead [s.addr (s.readL 5)]) (hm : s.MayStore 4 [s.addr (s.readL 6)]) :
    s.moveByte = .ok (((s.stored [(s.addr (s.readL 6), s.byteAt (s.addr (s.readL 5)))]).writeL 5
      (s.readL 5 + 1)).writeL 6 (s.readL 6 + 1)) := by
  have h5 : ∀ ps n, (s.stored ps).readL n = s.readL n := fun ps n => by
    unfold State.readL State.reg; simp [stored_er]
  unfold State.moveByte
  rw [read8_ok hr]
  simp only
  rw [write8_ok _ (allows_of_mayStore hm)]
  simp only [h5]

/-- What a block move of one byte changes. -/
theorem moveByte_frame (s : State) (a : Addr) (v : Byte) (x y : Long) :
    Frame s (((s.stored [(a, v)]).writeL 5 x).writeL 6 y) [.long 5, .long 6] [] [a] := by
  simpa using ((frame_stored s [(a, v)]).trans (frame_writeL _ 5 x)).trans (frame_writeL _ 6 y)

theorem byteRange_succ (s : State) (a : Addr) (n : Nat) :
    s.byteRange a (n + 1) = s.addr a :: s.byteRange (a + 1) n := by
  unfold State.byteRange
  rw [List.range_succ_eq_map, List.map_cons, List.map_map]
  congr 1
  · unfold State.offset; simp
  · apply List.map_congr_left
    intro i _
    show s.offset a (i + 1) = s.offset (a + 1) i
    unfold State.offset
    congr 1
    apply BitVec.eq_of_toNat_eq
    simp [BitVec.toNat_add]; omega

theorem byteRange_congr {s t : State} (h : t.params = s.params) (a : Addr) (n : Nat) :
    t.byteRange a n = s.byteRange a n := by
  unfold State.byteRange
  exact List.map_congr_left fun i _ => offset_congr h a i

/-- The first byte of a range is not in the rest of it. -/
theorem byteRange_head (s : State) (a : Addr) {n : Nat} (hn : n ≤ 65535) :
    (s.addr a).toNat ∉ (s.byteRange (a + 1) n).map BitVec.toNat := by
  intro h
  simp only [State.byteRange, List.map_map, List.mem_map, List.mem_range, Function.comp] at h
  obtain ⟨i, hi, h⟩ := h
  rw [offset_toNat, addr_toNat, BitVec.toNat_add] at h
  rcases addrBits_cases s.params.addrBits with e | e <;> rw [e] at h <;> simp at h <;> omega

/-- The bytes of EEPMOV.B. -/
theorem moveBytes_ok {n : Nat} {s : State} (hn : n ≤ 255) (hr : s.MayRead (s.byteRange (s.readL 5) n))
    (hm : s.MayStore 4 (s.byteRange (s.readL 6) n)) :
    ∃ t, moveBytes n s = .ok t ∧ t.readB 12 = s.readB 12 - BitVec.ofNat 8 n ∧
      t.readL 5 = s.readL 5 + BitVec.ofNat 32 n ∧ t.readL 6 = s.readL 6 + BitVec.ofNat 32 n ∧ t.pc = s.pc ∧
      Frame s t (if n = 0 then [] else [.byte 12, .long 5, .long 6]) [] (s.byteRange (s.readL 6) n) ∧
      (s.mem.wf → (∀ a ∈ s.byteRange (s.readL 5) n, a ∉ s.byteRange (s.readL 6) n) →
        t.Holds (s.byteRange (s.readL 6) n) ((s.byteRange (s.readL 5) n).map s.byteAt)) := by
  induction n generalizing s with
  | zero => exact ⟨s, rfl, by simp, by simp, by simp, rfl, frame_setPc s s.pc, fun _ _ p hp => by cases hp⟩
  | succ n ih =>
    rw [byteRange_succ] at hr hm ⊢
    rw [byteRange_succ]
    have hmb := moveByte_ok (s := s) (fun a ha => hr a (by simp at ha; simp [ha]))
      ⟨fun a ha => hm.1 a (by simp at ha; simp [ha]), fun a ha => hm.2 a (by simp at ha; simp [ha])⟩
    generalize hv : s.byteAt (s.addr (s.readL 5)) = v at hmb
    have hfm := moveByte_frame s (s.addr (s.readL 6)) v (s.readL 5 + 1) (s.readL 6 + 1)
    generalize hu1 : ((s.stored [(s.addr (s.readL 6), v)]).writeL 5 (s.readL 5 + 1)).writeL 6 (s.readL 6 + 1) = u1
      at hmb hfm
    have h15 : u1.readL 5 = s.readL 5 + 1 := by
      subst hu1; rw [readL_writeL_ne _ _ (by decide), readL_writeL]
    have h16 : u1.readL 6 = s.readL 6 + 1 := by subst hu1; rw [readL_writeL]
    have h1b : u1.readB 12 = s.readB 12 := by
      have h4 : u1.reg (ern 12) = s.reg (ern 12) := by
        subst hu1
        unfold State.writeL
        rw [reg_setReg_ne _ _ (by decide), reg_setReg_ne _ _ (by decide)]
        unfold State.reg; simp [stored_er]
      unfold State.readB; rw [h4]
    have h1pc : u1.pc = s.pc := by subst hu1; simp [stored_pc]
    have h1mem : u1.mem = (s.stored [(s.addr (s.readL 6), v)]).mem := by subst hu1; rfl
    let u := u1.writeB 12 (u1.readB 12 - 1)
    have hfu : Frame s u [.long 5, .long 6, .byte 12] [] [s.addr (s.readL 6)] := by
      have h2 := hfm.trans (frame_writeB u1 12 (u1.readB 12 - 1))
      rwa [List.append_nil, List.append_nil] at h2
    have hu5 : u.readL 5 = s.readL 5 + 1 := by
      show State.readL _ _ = _
      rw [readL_writeB_ne _ _ (by decide), h15]
    have hu6 : u.readL 6 = s.readL 6 + 1 := by
      show State.readL _ _ = _
      rw [readL_writeB_ne _ _ (by decide), h16]
    have hub : u.readB 12 = s.readB 12 - 1 := by
      show State.readB _ _ = _
      rw [readB_writeB, h1b]
    have hupc : u.pc = s.pc := h1pc
    have hmv : moveBytes (n + 1) s = moveBytes n u := by
      conv_lhs => unfold moveBytes
      rw [hmb]
    have e5 : u.byteRange (u.readL 5) n = s.byteRange (s.readL 5 + 1) n := by
      rw [hu5, byteRange_congr hfu.outside.params]
    have e6 : u.byteRange (u.readL 6) n = s.byteRange (s.readL 6 + 1) n := by
      rw [hu6, byteRange_congr hfu.outside.params]
    obtain ⟨t, ht, htb, ht5, ht6, htpc, htf, hth⟩ := ih (s := u) (by omega)
      (fun a ha => by
        rw [e5] at ha; rw [canRead_congr hfu.outside.hostMap]; exact hr a (List.mem_cons_of_mem _ ha))
      ⟨fun a ha => by
        rw [e6] at ha; rw [canWrite_congr hfu.outside.hostMap]; exact hm.1 a (List.mem_cons_of_mem _ ha),
       fun a ha => by
        rw [e6] at ha; rw [inPrefetch_congr hupc hfu.outside.params]; exact hm.2 a (List.mem_cons_of_mem _ ha)⟩
    rw [e6] at htf hth
    rw [e5] at hth
    refine ⟨t, hmv.trans ht, ?_, ?_, ?_, htpc.trans hupc, ?_, ?_⟩
    · rw [htb, hub]
      apply BitVec.eq_of_toNat_eq
      simp [BitVec.toNat_sub]; omega
    · rw [ht5, hu5, BitVec.add_assoc]
      congr 1
      apply BitVec.eq_of_toNat_eq
      simp [BitVec.toNat_add]; omega
    · rw [ht6, hu6, BitVec.add_assoc]
      congr 1
      apply BitVec.eq_of_toNat_eq
      simp [BitVec.toNat_add]; omega
    · have h := hfu.trans htf
      refine ⟨h.regs.same fun m k => ?_, h.flags, h.mem, h.control, h.outside⟩
      rw [if_neg (Nat.succ_ne_zero n)]
      by_cases h0 : n = 0
      · simp only [h0, covered, ↓reduceIte, List.any_cons, List.any_append, List.any_nil, Bool.or_false]
        generalize (RegName.long 5).covers m k = a
        generalize (RegName.long 6).covers m k = b
        generalize (RegName.byte 12).covers m k = c
        revert a b c; decide
      · simp only [h0, covered, ↓reduceIte, List.any_cons, List.any_append, List.any_nil, Bool.or_false]
        generalize (RegName.long 5).covers m k = a
        generalize (RegName.long 6).covers m k = b
        generalize (RegName.byte 12).covers m k = c
        revert a b c; decide
    · intro hw hdis p hp hd
      have huw : u.mem.wf := by
        show u1.mem.wf
        rw [h1mem]; exact stored_wf hw _
      rw [List.map_cons, List.zip_cons_cons] at hp
      rcases List.mem_cons.1 hp with rfl | hp
      · have hne : (s.addr (s.readL 6)).toNat ∉ (s.byteRange (s.readL 6 + 1) n).map BitVec.toNat :=
          byteRange_head s (s.readL 6) (by omega)
        show t.mem.get (s.addr (s.readL 6)).toNat = s.byteAt (s.addr (s.readL 5))
        rw [htf.mem _ hne]
        show u1.mem.get _ = _
        rw [h1mem, hv]
        refine stored_holds hw (by simp) (List.mem_singleton.2 rfl) ?_
        rwa [isDevice_congr (htf.outside.hostMap.trans hfu.outside.hostMap)] at hd
      · refine hth huw (fun a ha hb => hdis a (List.mem_cons_of_mem _ ha) (List.mem_cons_of_mem _ hb)) p ?_ hd
        have heq : (s.byteRange (s.readL 5 + 1) n).map u.byteAt = (s.byteRange (s.readL 5 + 1) n).map s.byteAt := by
          apply List.map_congr_left
          intro a ha
          unfold State.byteAt
          rw [isDevice_congr hfu.outside.hostMap, hfu.outside.epoch]
          have : a.toNat ∉ [s.addr (s.readL 6)].map BitVec.toNat := by
            simp only [List.map_cons, List.map_nil, List.mem_singleton]
            intro e
            exact hdis a (List.mem_cons_of_mem _ ha) (by rw [BitVec.eq_of_toNat_eq e]; exact List.mem_cons_self)
          rw [hfu.mem _ this]
        rw [heq]; exact hp

end Sys2Proof.Machine
end

