-- ==== Sys2Proof/Laws/Exceptions.lean ====
section
/-!
SUPPORT. Taking an exception and returning from one: what each leaves (60_exceptions.md R1112, R1113).
-/

namespace Sys2Proof.Machine

/-! ### The frame -/

/-- The addresses of an exception's frame differ. -/
theorem frameSpan_nodup (s : State) : (s.frameSpan.map BitVec.toNat).Nodup := by
  unfold State.frameSpan
  cases s.params.intm
  · exact longSpan_nodup s _
  · generalize s.readL sp - 4 = a
    show ((s.longSpan a ++ s.wordSpan (a - 2)).map BitVec.toNat).Nodup
    rw [List.map_append, List.nodup_append]
    refine ⟨longSpan_nodup s _, wordSpan_nodup s _, ?_⟩
    have hsub : (s.evenAddr (a - 2)).toNat =
        ((s.evenAddr a).toNat + (2 ^ s.params.addrBits.toNat - 2)) % 2 ^ s.params.addrBits.toNat := by
      rw [evenAddr_toNat, evenAddr_toNat, BitVec.toNat_sub]
      rcases addrBits_cases s.params.addrBits with e | e <;> rw [e] <;> simp <;> omega
    have hlt : (s.evenAddr a).toNat < 2 ^ s.params.addrBits.toNat := by
      rw [evenAddr_toNat]
      rcases addrBits_cases s.params.addrBits with e | e <;> rw [e] <;> omega
    intro x hx y hy
    simp only [State.longSpan, State.wordSpan, List.map_cons, List.map_nil, List.mem_cons, List.not_mem_nil, or_false,
      offset_toNat] at hx hy
    rcases addrBits_cases s.params.addrBits with e | e <;> rw [e] at hx hy hsub hlt <;> omega

theorem frameBytes_length (s : State) (ret : Addr) : s.frameSpan.length = (s.frameBytes ret).length := by
  unfold State.frameSpan State.frameBytes
  cases s.params.intm <;> rfl

/-- The frame pushed. -/
theorem pushFrame_ok {s : State} {by_ : Option Nat} (ret : Addr) (h : s.Allows by_ s.frameSpan) :
    ∃ u, s.pushFrame by_ ret = .ok u ∧ u.mem = (s.stored (s.frameSpan.zip (s.frameBytes ret))).mem ∧
      u.readL sp = s.readL sp - s.frameSize ∧ u.pc = s.pc ∧ Frame s u [.long sp] [] s.frameSpan := by
  have key : ∀ {v : Long}, s.Allows by_ (s.longSpan (s.readL sp - 4)) →
      ∃ u, s.push32 by_ v = .ok u ∧ u = (s.stored ((s.longSpan (s.readL sp - 4)).zip (longBytes v))).writeL sp
        (s.readL sp - 4) ∧ Frame s u [.long sp] [] (s.longSpan (s.readL sp - 4)) := fun {v} ha => by
    refine ⟨_, push32_ok v ha, rfl, ?_⟩
    have h1 := frame_stored s ((s.longSpan (s.readL sp - 4)).zip (longBytes v))
    rw [map_zip_fst (Nat.le_refl _)] at h1
    have h2 := h1.trans (frame_writeL _ sp (s.readL sp - 4))
    rwa [List.append_nil] at h2
  unfold State.pushFrame
  cases hi : s.params.intm with
  | mode0 =>
    have hspan : s.frameSpan = s.longSpan (s.readL sp - 4) := by unfold State.frameSpan; rw [hi]
    have hbytes : s.frameBytes ret = longBytes (s.ccrImage ++ ret.extractLsb' 0 24) := by
      unfold State.frameBytes; rw [hi]
    have hsize : s.frameSize = 4 := by unfold State.frameSize; rw [hi]
    rw [hspan] at h ⊢
    obtain ⟨u, hu, he, hf⟩ := key (v := s.ccrImage ++ ret.extractLsb' 0 24) h
    rw [hu, hbytes, hsize]
    refine ⟨u, rfl, ?_, ?_, ?_, hf⟩
    · rw [he]; rfl
    · rw [he, readL_writeL]
    · rw [he]; exact stored_pc _ _
  | mode2 =>
    have hspan : s.frameSpan = s.longSpan (s.readL sp - 4) ++ s.wordSpan (s.readL sp - 4 - 2) := by
      unfold State.frameSpan; rw [hi]
    have hbytes : s.frameBytes ret = longBytes (s.ccrImage ++ ret.extractLsb' 0 24) ++
        wordBytes (s.exr ++ Config.draw 8 .exrPad s.epoch) := by
      unfold State.frameBytes; rw [hi]
    have hsize : s.frameSize = 6 := by unfold State.frameSize; rw [hi]
    rw [hspan] at h ⊢
    obtain ⟨u, hu, he, hf⟩ := key (v := s.ccrImage ++ ret.extractLsb' 0 24)
      ⟨fun a ha => h.1 a (List.mem_append_left _ ha), fun l hl a ha => h.2 l hl a (List.mem_append_left _ ha)⟩
    have husp : u.readL sp = s.readL sp - 4 := by rw [he, readL_writeL]
    have hupc : u.pc = s.pc := by rw [he]; exact stored_pc _ _
    have hw := wordSpan_congr hf.outside.params (u.readL sp - 2)
    have ha2 : u.Allows by_ (u.wordSpan (u.readL sp - 2)) := by
      rw [hw, husp]
      exact allows_congr hf.outside.hostMap hupc hf.outside.params
        ⟨fun a ha => h.1 a (List.mem_append_right _ ha), fun l hl a ha => h.2 l hl a (List.mem_append_right _ ha)⟩
    have hp := push16_ok (u.exr ++ Config.draw 8 .exrPad s.epoch) ha2
    rw [hu]
    refine ⟨_, hp, ?_, ?_, ?_, ?_⟩
    · rw [hw, husp, hbytes, hf.control.exr]
      rw [List.zip_append (l₁ := s.longSpan (s.readL sp - 4))
        (l₂ := longBytes (s.ccrImage ++ ret.extractLsb' 0 24)) rfl, stored_append]
      refine stored_mem_congr ?_ ?_ _
      · rw [he]; rfl
      · rw [he]; rfl
    · rw [readL_writeL, husp, hsize]
      apply BitVec.eq_of_toNat_eq
      simp [BitVec.toNat_sub]; omega
    · rw [writeL_pc, stored_pc, hupc]
    · have h1 := frame_stored u ((u.wordSpan (u.readL sp - 2)).zip (wordBytes (u.exr ++ Config.draw 8 .exrPad s.epoch)))
      rw [map_zip_fst (Nat.le_refl _)] at h1
      have h2 := (hf.trans h1).trans (frame_writeL _ sp (u.readL sp - 2))
      rw [hw, husp, List.append_nil] at h2
      rw [hw, husp]
      refine ⟨h2.regs.same fun n k => ?_, h2.flags, h2.mem, h2.control, h2.outside⟩
      simp [covered]

/-! ### Entering a handler -/

theorem exrStored_level (x : Byte) (l : BitVec 3) :
    exrStored ((x &&& 0x78) ||| l.zeroExtend 8) = exrStored (l.zeroExtend 8) := by
  apply BitVec.eq_of_getLsbD_eq
  intro i hi
  interval_cases i <;> simp [exrStored]

theorem enterHandler_exr (u : State) (level : Option (BitVec 3)) :
    (u.enterHandler level).exr =
      match u.params.intm with
      | .mode0 => u.exr
      | .mode2 =>
        match level with
        | none => exrStored (u.exr &&& 0x7F)
        | some l => exrStored (l.zeroExtend 8) := by
  unfold State.enterHandler
  show State.exr (State.awake _) = _
  cases u.params.intm with
  | mode0 => rfl
  | mode2 =>
    cases level with
    | none => rfl
    | some l => exact exrStored_level _ l

theorem enterHandler_same (u : State) (level : Option (BitVec 3)) :
    (u.enterHandler level).er = u.er ∧ (u.enterHandler level).pc = u.pc ∧ (u.enterHandler level).mem = u.mem ∧
    (u.enterHandler level).ccr = (u.setFlag .i true).ccr ∧ (u.enterHandler level).ccrDfn = (u.setFlag .i true).ccrDfn ∧
    (u.enterHandler level).irqHold = u.irqHold ∧ (u.enterHandler level).nmiPending = u.nmiPending ∧
    (u.enterHandler level).sleeping = false ∧ (u.enterHandler level).eepmovActive = false ∧
    KeepsOutside u (u.enterHandler level) := by
  unfold State.enterHandler
  cases hi : (u.params.intm) with
  | mode0 => exact ⟨rfl, rfl, rfl, rfl, rfl, rfl, rfl, rfl, rfl, ⟨rfl, rfl, rfl, rfl, rfl, rfl, rfl, rfl⟩⟩
  | mode2 => cases level <;> exact ⟨rfl, rfl, rfl, rfl, rfl, rfl, rfl, rfl, rfl, ⟨rfl, rfl, rfl, rfl, rfl, rfl, rfl, rfl⟩⟩

/-- Bytes of memory outside what was stored read as before, devices and all. -/
theorem longAt_keeps {s t : State} {as : List Addr} (hm : KeepsMem s t as) (ho : KeepsOutside s t) {a : Addr}
    (hd : ∀ x ∈ s.longSpan a, x ∉ as) : t.longAt a = s.longAt a := by
  have hb : ∀ x ∈ s.longSpan a, t.byteAt x = s.byteAt x := fun x hx => by
    unfold State.byteAt
    rw [isDevice_congr ho.hostMap, ho.epoch]
    have : x.toNat ∉ as.map BitVec.toNat := fun h => by
      obtain ⟨y, hy, e⟩ := List.mem_map.1 h
      exact hd x hx (BitVec.eq_of_toNat_eq e ▸ hy)
    rw [hm _ this]
  unfold State.longAt
  rw [evenAddr_congr ho.params, offset_congr ho.params, offset_congr ho.params, offset_congr ho.params,
    hb _ (by simp [State.longSpan]), hb _ (by simp [State.longSpan]), hb _ (by simp [State.longSpan]),
    hb _ (by simp [State.longSpan])]

/-- Taking an exception that meets no fault (60_exceptions.md R1112). -/
theorem exceptionEntry_ok {s : State} {by_ : Option Nat} {vector : Nat} {ret : Addr} {level : Option (BitVec 3)}
    (h : EntryOk s by_ vector ret) :
    ∃ t, s.exceptionEntry by_ vector ret level = .ok t ∧ Entered s t vector ret level := by
  obtain ⟨u, hu, humem, husp, hupc, huf⟩ := pushFrame_ok (by_ := by_) ret ⟨h.frame, h.window⟩
  obtain ⟨her, hpc, hmem, hccr, hdfn, hhold, hnmi, hsl, hee, hout⟩ := enterHandler_same u level
  have hexr := enterHandler_exr u level
  generalize hw : u.enterHandler level = w at *
  have hso : KeepsOutside s w := huf.outside.trans hout
  have hkm : KeepsMem s w s.frameSpan := fun a ha => by rw [hmem]; exact huf.mem a ha
  have hlong : w.longAt (vectorAddr vector) = s.longAt (vectorAddr vector) := longAt_keeps hkm hso h.apart
  have hread : w.read32 (vectorAddr vector) = .ok (w.longAt (vectorAddr vector)) := read32_ok fun a ha => by
    rw [longSpan_congr hso.params] at ha
    rw [canRead_congr hso.hostMap]; exact h.readable a ha
  have hve : w.vectorEntry vector = .ok (s.handler vector) := by
    unfold State.vectorEntry
    show (w.read32 (vectorAddr vector) >>= _) = _
    rw [hread, hlong]
    show Except.ok (w.addr _) = _
    rw [addr_congr hso.params]; rfl
  have hx : s.exceptionEntry by_ vector ret level = .ok (w.setPc (s.handler vector)) := by
    unfold State.exceptionEntry
    rw [if_neg fun hc => absurd (h.fits hc.1) (by omega)]
    rw [hu]
    show (let s2 := u.enterHandler level; s2.vectorEntry vector >>= fun h => s2.jumpTo h) = _
    simp only [hw, hve]
    exact jumpTo_even _ h.even
  have hregs : KeepsRegs s w [.long sp] := by
    have := huf.regs.trans (KeepsRegs.of_er her)
    rwa [List.append_nil] at this
  have hflags : KeepsFlags s w [.i] := by
    have h1 := keepsFlags_setFlag u .i true
    have h2 : KeepsFlags (u.setFlag .i true) w [] := .of_ccr hccr hdfn
    simpa using (huf.flags.trans h1).trans h2
  refine ⟨_, hx, ⟨rfl, ?_, ?_, ?_, ?_, ?_, ?_, ?_, ?_, hsl, hee, ?_, ?_, ?_⟩⟩
  · have : w.readL sp = u.readL sp := by unfold State.readL State.reg; simp [her]
    rw [setPc_readL, this, husp]
  · intro p hp hd
    rw [setPc_mem, hmem, humem]
    rw [isDevice_congr (t := w.setPc (s.handler vector)) hso.hostMap] at hd
    refine holds_stored h.wf (Nat.le_of_eq (frameBytes_length s ret)) (frameSpan_nodup s) p hp ?_
    rw [stored_isDevice]; exact hd
  · show w.flag .i = true
    have hfl : w.flag .i = (u.setFlag .i true).flag .i := by unfold State.flag; rw [hccr]
    rw [hfl, flag_setFlag, if_pos rfl]
  · exact ⟨hflags.value, hflags.defined⟩
  · exact ⟨hregs.value, hregs.defined⟩
  · exact hkm
  · intro hi
    show w.exr = s.exr
    rw [hexr, huf.outside.params, hi]
    exact huf.control.exr
  · intro hi
    show w.exr = _
    rw [hexr, huf.outside.params, hi]
    cases level with
    | none => show exrStored (u.exr &&& 0x7F) = _; rw [huf.control.exr]
    | some l => rfl
  · exact hhold.trans huf.control.irqHold
  · exact hnmi.trans huf.control.nmiPending
  · exact hso.trans ⟨rfl, rfl, rfl, rfl, rfl, rfl, rfl, rfl⟩

/-- Taking an exception from a return address the frame cannot hold stops (60_exceptions.md R1112). -/
theorem exceptionEntry_far {s : State} {by_ : Option Nat} {vector : Nat} {ret : Addr} {level : Option (BitVec 3)}
    (h : s.params.addrBits = .bits32) (hr : 2 ^ 24 ≤ ret.toNat) :
    s.exceptionEntry by_ vector ret level = .error (.unmodelled .returnAddressBeyond24Bits s.pc.toNat) := by
  unfold State.exceptionEntry; rw [if_pos ⟨h, hr⟩]; rfl

/-! ### Returning -/

/-- RTE under `INTM` = 0 (46_system_control.md R1011). -/
theorem rte_mode0 {s : State} (hi : s.params.intm = .mode0) (hr : s.MayRead (s.longSpan (s.readL sp)))
    (he : (s.longAt (s.readL sp)).getLsbD 0 = false) :
    Ends .rte s fun t => Returned s t 4 (s.longAt (s.readL sp)) s.exr := by
  have hx : exec .rte s = Out.of s.exceptionReturn := rfl
  have hodd : ((((s.longAt (s.readL sp)).extractLsb' 0 24).zeroExtend 32 : BitVec 32)).getLsbD 0 = false := by
    simpa using he
  have hret : s.exceptionReturn = .ok (((s.writeL sp (s.readL sp + 4)).writeCcr
      ((s.longAt (s.readL sp)).extractLsb' 24 8)).setPc (((s.longAt (s.readL sp)).extractLsb' 0 24).zeroExtend 32)) := by
    unfold State.exceptionReturn State.popExr
    rw [hi]
    show (s.pop32 >>= _) = _
    rw [pop32_ok hr]
    exact jumpTo_even _ hodd
  rw [hret] at hx
  refine ⟨_, hx, ⟨rfl, rfl, rfl, rfl, ?_, ?_, .of_mem rfl _, rfl, rfl, rfl, rfl,
    ⟨rfl, rfl, rfl, rfl, rfl, rfl, rfl, rfl⟩⟩⟩
  · exact readL_writeL s sp _
  · have := (keepsRegs_writeL s sp (s.readL sp + 4)).trans (KeepsRegs.of_er (t := ((s.writeL sp (s.readL sp + 4)).writeCcr
      ((s.longAt (s.readL sp)).extractLsb' 24 8)).setPc (((s.longAt (s.readL sp)).extractLsb' 0 24).zeroExtend 32)) rfl)
    rwa [List.append_nil] at this

/-- RTE under `INTM` = 2 (46_system_control.md R1011). -/
theorem rte_mode2 {s : State} (hi : s.params.intm = .mode2) (hw : s.MayRead (s.wordSpan (s.readL sp)))
    (hr : s.MayRead (s.longSpan (s.readL sp + 2))) (he : (s.longAt (s.readL sp + 2)).getLsbD 0 = false) :
    Ends .rte s fun t =>
      Returned s t 6 (s.longAt (s.readL sp + 2)) (exrStored ((s.wordAt (s.readL sp)).extractLsb' 8 8)) := by
  have hx : exec .rte s = Out.of s.exceptionReturn := rfl
  have hodd : ((((s.longAt (s.readL sp + 2)).extractLsb' 0 24).zeroExtend 32 : BitVec 32)).getLsbD 0 = false := by
    simpa using he
  generalize hu : (s.writeL sp (s.readL sp + 2)).writeExr ((s.wordAt (s.readL sp)).extractLsb' 8 8) = u
  have husp : u.readL sp = s.readL sp + 2 := by subst hu; exact readL_writeL s sp _
  have hul : u.longAt (u.readL sp) = s.longAt (s.readL sp + 2) := by
    rw [husp]; subst hu; rfl
  have hpop : s.popExr = .ok u := by
    unfold State.popExr
    rw [hi]
    show (match s.pop16 with | .error f => Except.error f | .ok (w, t) => .ok (t.writeExr (w.extractLsb' 8 8))) = _
    rw [pop16_ok hw, ← hu]
  have hur : u.MayRead (u.longSpan (u.readL sp)) := by
    rw [husp]; subst hu; exact hr
  have hret : s.exceptionReturn = .ok (((u.writeL sp (u.readL sp + 4)).writeCcr
      ((s.longAt (s.readL sp + 2)).extractLsb' 24 8)).setPc
        (((s.longAt (s.readL sp + 2)).extractLsb' 0 24).zeroExtend 32)) := by
    unfold State.exceptionReturn
    rw [hpop]
    show (u.pop32 >>= _) = _
    rw [pop32_ok hur, hul]
    exact jumpTo_even _ hodd
  rw [hret] at hx
  subst hu
  refine ⟨_, hx, ⟨rfl, rfl, rfl, rfl, ?_, ?_, .of_mem rfl _, rfl, rfl, rfl, rfl,
    ⟨rfl, rfl, rfl, rfl, rfl, rfl, rfl, rfl⟩⟩⟩
  · show State.readL (State.writeL _ _ _) sp = _
    rw [readL_writeL, husp, BitVec.add_assoc]; rfl
  · have h1 := (keepsRegs_writeL s sp (s.readL sp + 2)).trans (KeepsRegs.of_er (t := (s.writeL sp (s.readL sp + 2)).writeExr
      ((s.wordAt (s.readL sp)).extractLsb' 8 8)) rfl)
    have h2 := h1.trans (keepsRegs_writeL _ sp (s.readL sp + 2 + 4))
    have h3 : KeepsRegs _ _ [] := KeepsRegs.of_er (s := (((s.writeL sp (s.readL sp + 2)).writeExr
      ((s.wordAt (s.readL sp)).extractLsb' 8 8)).writeL sp (s.readL sp + 2 + 4))) (t := ((((s.writeL sp (s.readL sp + 2)).writeExr
      ((s.wordAt (s.readL sp)).extractLsb' 8 8)).writeL sp (s.readL sp + 2 + 4)).writeCcr
      ((s.longAt (s.readL sp + 2)).extractLsb' 24 8)).setPc
        (((s.longAt (s.readL sp + 2)).extractLsb' 0 24).zeroExtend 32)) rfl
    have h4 := (h2.trans h3).same (e := [.long sp]) fun n k => by simp [covered]
    rw [husp]; exact h4

/-! ### What was stored read back -/

/-- A long held by ordinary memory reads as that long. -/
theorem holds_longAt {t : State} {a : Addr} {v : Long} (h : t.Holds (t.longSpan a) (longBytes v))
    (hd : ∀ x ∈ t.longSpan a, t.isDevice x.toNat = false) : t.longAt a = v := by
  have hb : ∀ x b, (x, b) ∈ (t.longSpan a).zip (longBytes v) → t.byteAt x = b := fun x b hx => by
    have hx' := hd x (List.of_mem_zip hx).1
    unfold State.byteAt
    rw [if_neg (by simp [hx'])]; exact h _ hx hx'
  unfold State.longAt
  rw [hb _ (v.extractLsb' 24 8) (by simp [State.longSpan, longBytes]),
    hb _ (v.extractLsb' 16 8) (by simp [State.longSpan, longBytes]),
    hb _ (v.extractLsb' 8 8) (by simp [State.longSpan, longBytes]),
    hb _ (v.extractLsb' 0 8) (by simp [State.longSpan, longBytes])]
  apply BitVec.eq_of_getLsbD_eq
  intro i hi
  rw [getLsbD_cat_bytes]
  simp only [BitVec.getLsbD_extractLsb']
  split
  · simp_all
  · split
    · have : 8 + (i - 8) = i := by omega
      simp_all
    · split
      · have : 16 + (i - 8 - 8) = i := by omega
        simp_all
      · have : 24 + (i - 8 - 8 - 8) = i := by omega
        have h8 : i - 8 - 8 - 8 < 8 := by omega
        simp_all

/-- A word held by ordinary memory reads as that word. -/
theorem holds_wordAt {t : State} {a : Addr} {v : Word} (h : t.Holds (t.wordSpan a) (wordBytes v))
    (hd : ∀ x ∈ t.wordSpan a, t.isDevice x.toNat = false) : t.wordAt a = v := by
  have hb : ∀ x b, (x, b) ∈ (t.wordSpan a).zip (wordBytes v) → t.byteAt x = b := fun x b hx => by
    have hx' := hd x (List.of_mem_zip hx).1
    unfold State.byteAt
    rw [if_neg (by simp [hx'])]; exact h _ hx hx'
  unfold State.wordAt
  rw [hb _ (v.extractLsb' 8 8) (by simp [State.wordSpan, wordBytes]),
    hb _ (v.extractLsb' 0 8) (by simp [State.wordSpan, wordBytes])]
  apply BitVec.eq_of_getLsbD_eq
  intro i hi
  rw [getLsbD_cat_8_8]
  simp only [BitVec.getLsbD_extractLsb']
  split
  · simp_all
  · have : 8 + (i - 8) = i := by omega
    have h8 : i - 8 < 8 := by omega
    simp_all

end Sys2Proof.Machine
end

