-- ==== Sys2Proof/Laws/Refusal.lean ====
section
/-!
SUPPORT. What the memory operations answer where the host refuses a byte or a byte to be stored lies in the prefetch
window: one lemma per operation (20_memory.md R200, R202, R203, R214).
-/

namespace Sys2Proof.Machine

/-- An operation ends with `MemoryAccessError` at a byte of `as` that is not allowed. -/
def RefusedAt {α : Type} (r : Except Fault α) (allowed : Nat → Bool) (as : List Addr) : Prop :=
  ∃ a ∈ as, allowed a.toNat = false ∧ r = .error (.memoryAccess a.toNat)

theorem RefusedAt.mono {α β : Type} {r : Except Fault α} {q : Except Fault β} {p p' : Nat → Bool} {as bs : List Addr}
    (h : RefusedAt r p as) (hp : ∀ a, p a = false → p' a = false) (hs : ∀ a ∈ as, a ∈ bs)
    (hq : ∀ f, r = .error f → q = .error f) : RefusedAt q p' bs := by
  obtain ⟨a, ha, hd, hr⟩ := h
  exact ⟨a, hs a ha, hp _ hd, hq _ hr⟩

/-- What an operation answers in an instruction. -/
theorem FaultsAt.of {α : Type} {r : Except Fault α} {x : Instr} {s : State} {p : Nat → Bool} {as : List Addr}
    (h : RefusedAt r p as) (hx : ∀ f, r = .error f → exec x s = .fault f) : FaultsAt x s p as := by
  obtain ⟨a, ha, hd, hr⟩ := h
  exact ⟨a, ha, hd, hx _ hr⟩

/-! ### Reads -/

theorem readByte_no {s : State} {a : Addr} (h : s.canRead a.toNat = false) :
    s.readByte a = .error (.memoryAccess a.toNat) := by
  unfold State.readByte; rw [if_neg (by rw [h]; decide)]

theorem read8_refused {s : State} {a : Addr} (h : ¬s.MayRead [s.addr a]) : RefusedAt (s.read8 a) s.canRead [s.addr a] := by
  have h' : s.canRead (s.addr a).toNat = false := by
    simpa [State.MayRead] using h
  exact ⟨_, List.mem_singleton.2 rfl, h', readByte_no h'⟩

theorem read16_refused {s : State} {a : Addr} (h : ¬s.MayRead (s.wordSpan a)) :
    RefusedAt (s.read16 a) s.canRead (s.wordSpan a) := by
  unfold State.read16
  by_cases h0 : s.canRead (s.evenAddr a).toNat = true
  · by_cases h1 : s.canRead (s.offset (s.evenAddr a) 1).toNat = true
    · exact absurd (fun b hb => by
        simp only [State.wordSpan, List.mem_cons, List.not_mem_nil, or_false] at hb
        rcases hb with rfl | rfl <;> assumption) h
    · have h1 : s.canRead (s.offset (s.evenAddr a) 1).toNat = false := by simpa using h1
      refine ⟨_, by simp [State.wordSpan], h1, ?_⟩
      rw [readByte_ok h0, readByte_no h1]
      rfl
  · have h0 : s.canRead (s.evenAddr a).toNat = false := by simpa using h0
    refine ⟨_, by simp [State.wordSpan], h0, ?_⟩
    rw [readByte_no h0]
    rfl

theorem read32_refused {s : State} {a : Addr} (h : ¬s.MayRead (s.longSpan a)) :
    RefusedAt (s.read32 a) s.canRead (s.longSpan a) := by
  unfold State.read32
  by_cases h0 : s.canRead (s.evenAddr a).toNat = true
  · by_cases h1 : s.canRead (s.offset (s.evenAddr a) 1).toNat = true
    · by_cases h2 : s.canRead (s.offset (s.evenAddr a) 2).toNat = true
      · by_cases h3 : s.canRead (s.offset (s.evenAddr a) 3).toNat = true
        · exact absurd (fun b hb => by
            simp only [State.longSpan, List.mem_cons, List.not_mem_nil, or_false] at hb
            rcases hb with rfl | rfl | rfl | rfl <;> assumption) h
        · have h3 : s.canRead (s.offset (s.evenAddr a) 3).toNat = false := by simpa using h3
          refine ⟨_, by simp [State.longSpan], h3, ?_⟩
          rw [readByte_ok h0, readByte_ok h1, readByte_ok h2, readByte_no h3]
          rfl
      · have h2 : s.canRead (s.offset (s.evenAddr a) 2).toNat = false := by simpa using h2
        refine ⟨_, by simp [State.longSpan], h2, ?_⟩
        rw [readByte_ok h0, readByte_ok h1, readByte_no h2]
        rfl
    · have h1 : s.canRead (s.offset (s.evenAddr a) 1).toNat = false := by simpa using h1
      refine ⟨_, by simp [State.longSpan], h1, ?_⟩
      rw [readByte_ok h0, readByte_no h1]
      rfl
  · have h0 : s.canRead (s.evenAddr a).toNat = false := by simpa using h0
    refine ⟨_, by simp [State.longSpan], h0, ?_⟩
    rw [readByte_no h0]
    rfl

theorem pop32_refused {s : State} (h : ¬s.MayRead (s.longSpan (s.readL sp))) :
    RefusedAt s.pop32 s.canRead (s.longSpan (s.readL sp)) :=
  (read32_refused h).mono (fun _ => id) (fun _ => id) fun f hf => by unfold State.pop32; rw [hf]; rfl

theorem pop16_refused {s : State} (h : ¬s.MayRead (s.wordSpan (s.readL sp))) :
    RefusedAt s.pop16 s.canRead (s.wordSpan (s.readL sp)) :=
  (read16_refused h).mono (fun _ => id) (fun _ => id) fun f hf => by unfold State.pop16; rw [hf]; rfl

/-! ### Writes into the prefetch window -/

/-- A byte of the window is one the guard of a store finds. -/
theorem inPrefetch_of {s : State} {len : Nat} {a : Addr} (hl : len ≤ 10) (h : s.Prefetched len a) :
    s.inPrefetch len a = true := by
  obtain ⟨k, hk, rfl⟩ := h
  unfold State.inPrefetch
  have e : (s.addr (s.offset s.pc k - s.pc)).toNat = k := by
    rw [addr_toNat, BitVec.toNat_sub, offset_toNat]
    have h := s.pc.isLt
    rcases addrBits_cases s.params.addrBits with e | e <;> rw [e] <;> omega
  rw [e]
  exact decide_eq_true hk

theorem not_inPrefetch_of {s : State} {len : Nat} {a : Addr} (ha : s.addr a = a) (h : ¬s.Prefetched len a) :
    s.inPrefetch len a = false := by
  by_contra hc
  have hc : (s.addr (a - s.pc)).toNat < len + 4 := by
    have : s.inPrefetch len a = true := by simpa using hc
    simpa [State.inPrefetch] using this
  refine h ⟨_, hc, BitVec.eq_of_toNat_eq ?_⟩
  rw [offset_toNat, addr_toNat, BitVec.toNat_sub]
  have hp := s.pc.isLt
  have hl := a.isLt
  have ha' : a.toNat % 2 ^ s.params.addrBits.toNat = a.toNat := by rw [← addr_toNat, ha]
  rcases addrBits_cases s.params.addrBits with e | e <;> rw [e] at ha' ⊢ <;> omega

theorem guardStore_window {s : State} {len : Nat} {as : List Addr} (h : ∃ a ∈ as, s.inPrefetch len a = true) :
    s.guardStore (some len) as = .error (s.unmodelled .storeIntoPrefetchWindow) := by
  obtain ⟨a, ha, hp⟩ := h
  show (if as.any (fun a => s.inPrefetch len a) = true then _ else _) = _
  rw [if_pos (List.any_eq_true.2 ⟨a, ha, hp⟩)]

theorem write8_window {s : State} {len : Nat} {a : Addr} {v : Byte} (h : ∃ b ∈ [s.addr a], s.inPrefetch len b = true) :
    s.write8 (some len) a v = .error (s.unmodelled .storeIntoPrefetchWindow) := by
  unfold State.write8
  rw [guardStore_window h]
  rfl

theorem write16_window {s : State} {len : Nat} {a : Addr} {v : Word} (h : ∃ b ∈ s.wordSpan a, s.inPrefetch len b = true) :
    s.write16 (some len) a v = .error (s.unmodelled .storeIntoPrefetchWindow) := by
  unfold State.write16
  show (s.guardStore _ (s.wordSpan a) >>= _) = _
  rw [guardStore_window h]
  rfl

theorem write32_window {s : State} {len : Nat} {a : Addr} {v : Long} (h : ∃ b ∈ s.longSpan a, s.inPrefetch len b = true) :
    s.write32 (some len) a v = .error (s.unmodelled .storeIntoPrefetchWindow) := by
  unfold State.write32
  show (s.guardStore _ (s.longSpan a) >>= _) = _
  rw [guardStore_window h]
  rfl

theorem push32_window {s : State} {len : Nat} {v : Long}
    (h : ∃ b ∈ s.longSpan (s.readL sp - 4), s.inPrefetch len b = true) :
    s.push32 (some len) v = .error (s.unmodelled .storeIntoPrefetchWindow) := by
  unfold State.push32
  rw [write32_window h]
  rfl

theorem push16_window {s : State} {len : Nat} {v : Word}
    (h : ∃ b ∈ s.wordSpan (s.readL sp - 2), s.inPrefetch len b = true) :
    s.push16 (some len) v = .error (s.unmodelled .storeIntoPrefetchWindow) := by
  unfold State.push16
  rw [write16_window h]
  rfl

/-! ### Writes the host refuses -/

/-- None of the bytes an instruction stores lies in its prefetch window; an entry by no instruction has none. -/
def State.Clear (s : State) (by_ : Option Nat) (as : List Addr) : Prop :=
  ∀ len, by_ = some len → ∀ a ∈ as, s.inPrefetch len a = false

theorem guardStore_clear {s : State} {by_ : Option Nat} {as : List Addr} (h : s.Clear by_ as) :
    s.guardStore by_ as = .ok () := by
  cases by_ with
  | none => rfl
  | some len => exact guardStore_ok (h len rfl)

theorem writeByte_no {s : State} {a : Addr} {v : Byte} (h : s.canWrite a.toNat = false) :
    s.writeByte a v = .error (.memoryAccess a.toNat) := by
  unfold State.writeByte; rw [if_neg (by rw [h]; decide)]

theorem write8_refused {s : State} {by_ : Option Nat} {a : Addr} {v : Byte} (hc : s.Clear by_ [s.addr a])
    (h : ¬s.MayWrite [s.addr a]) : RefusedAt (s.write8 by_ a v) s.canWrite [s.addr a] := by
  have h' : s.canWrite (s.addr a).toNat = false := by simpa [State.MayWrite] using h
  refine ⟨_, List.mem_singleton.2 rfl, h', ?_⟩
  unfold State.write8
  rw [guardStore_clear hc]
  exact writeByte_no h'

theorem write16_refused {s : State} {by_ : Option Nat} {a : Addr} {v : Word} (hc : s.Clear by_ (s.wordSpan a))
    (h : ¬s.MayWrite (s.wordSpan a)) : RefusedAt (s.write16 by_ a v) s.canWrite (s.wordSpan a) := by
  unfold State.write16
  show RefusedAt (s.guardStore _ (s.wordSpan a) >>= _) _ _
  rw [guardStore_clear hc]
  show RefusedAt (s.writeByte _ _ >>= _) _ _
  by_cases h0 : s.canWrite (s.evenAddr a).toNat = true
  · by_cases h1 : s.canWrite (s.offset (s.evenAddr a) 1).toNat = true
    · exact absurd (fun b hb => by
        simp only [State.wordSpan, List.mem_cons, List.not_mem_nil, or_false] at hb
        rcases hb with rfl | rfl <;> assumption) h
    · have h1 : s.canWrite (s.offset (s.evenAddr a) 1).toNat = false := by simpa using h1
      refine ⟨_, by simp [State.wordSpan], h1, ?_⟩
      rw [writeByte_ok _ h0]
      exact writeByte_no (by rw [stored_canWrite]; exact h1)
  · have h0 : s.canWrite (s.evenAddr a).toNat = false := by simpa using h0
    refine ⟨_, by simp [State.wordSpan], h0, ?_⟩
    rw [writeByte_no h0]
    rfl

theorem write32_refused {s : State} {by_ : Option Nat} {a : Addr} {v : Long} (hc : s.Clear by_ (s.longSpan a))
    (h : ¬s.MayWrite (s.longSpan a)) : RefusedAt (s.write32 by_ a v) s.canWrite (s.longSpan a) := by
  unfold State.write32
  show RefusedAt (s.guardStore _ (s.longSpan a) >>= _) _ _
  rw [guardStore_clear hc]
  show RefusedAt (s.writeByte _ _ >>= _) _ _
  by_cases h0 : s.canWrite (s.evenAddr a).toNat = true
  · by_cases h1 : s.canWrite (s.offset (s.evenAddr a) 1).toNat = true
    · by_cases h2 : s.canWrite (s.offset (s.evenAddr a) 2).toNat = true
      · by_cases h3 : s.canWrite (s.offset (s.evenAddr a) 3).toNat = true
        · exact absurd (fun b hb => by
            simp only [State.longSpan, List.mem_cons, List.not_mem_nil, or_false] at hb
            rcases hb with rfl | rfl | rfl | rfl <;> assumption) h
        · have h3 : s.canWrite (s.offset (s.evenAddr a) 3).toNat = false := by simpa using h3
          refine ⟨_, by simp [State.longSpan], h3, ?_⟩
          rw [writeByte_ok _ h0]
          show ((s.stored _).writeByte _ _ >>= _) = _
          rw [writeByte_ok _ (by rw [stored_canWrite]; exact h1), ← stored_append]
          show ((s.stored _).writeByte _ _ >>= _) = _
          rw [writeByte_ok _ (by rw [stored_canWrite]; exact h2), ← stored_append]
          exact writeByte_no (by rw [stored_canWrite]; exact h3)
      · have h2 : s.canWrite (s.offset (s.evenAddr a) 2).toNat = false := by simpa using h2
        refine ⟨_, by simp [State.longSpan], h2, ?_⟩
        rw [writeByte_ok _ h0]
        show ((s.stored _).writeByte _ _ >>= _) = _
        rw [writeByte_ok _ (by rw [stored_canWrite]; exact h1), ← stored_append]
        show ((s.stored _).writeByte _ _ >>= _) = _
        rw [writeByte_no (by rw [stored_canWrite]; exact h2)]
        rfl
    · have h1 : s.canWrite (s.offset (s.evenAddr a) 1).toNat = false := by simpa using h1
      refine ⟨_, by simp [State.longSpan], h1, ?_⟩
      rw [writeByte_ok _ h0]
      show ((s.stored _).writeByte _ _ >>= _) = _
      rw [writeByte_no (by rw [stored_canWrite]; exact h1)]
      rfl
  · have h0 : s.canWrite (s.evenAddr a).toNat = false := by simpa using h0
    refine ⟨_, by simp [State.longSpan], h0, ?_⟩
    rw [writeByte_no h0]
    rfl

theorem push32_refused {s : State} {by_ : Option Nat} {v : Long} (hc : s.Clear by_ (s.longSpan (s.readL sp - 4)))
    (h : ¬s.MayWrite (s.longSpan (s.readL sp - 4))) :
    RefusedAt (s.push32 by_ v) s.canWrite (s.longSpan (s.readL sp - 4)) :=
  (write32_refused hc h).mono (fun _ => id) (fun _ => id) fun f hf => by unfold State.push32; rw [hf]; rfl

theorem push16_refused {s : State} {by_ : Option Nat} {v : Word} (hc : s.Clear by_ (s.wordSpan (s.readL sp - 2)))
    (h : ¬s.MayWrite (s.wordSpan (s.readL sp - 2))) :
    RefusedAt (s.push16 by_ v) s.canWrite (s.wordSpan (s.readL sp - 2)) :=
  (write16_refused hc h).mono (fun _ => id) (fun _ => id) fun f hf => by unfold State.push16; rw [hf]; rfl

/-! ### Lists of pops and pushes -/

theorem popRegs_refused {regs : List (BitVec 3)} {s : State} (hsp : sp ∉ regs)
    (h : ¬s.MayRead (s.popSpan regs.length (s.readL sp))) :
    RefusedAt (popRegs regs s) s.canRead (s.popSpan regs.length (s.readL sp)) := by
  induction regs generalizing s with
  | nil => exact absurd (fun a ha => by cases ha) h
  | cons r rs ih =>
    by_cases h0 : s.MayRead (s.longSpan (s.readL sp))
    · have hu : ((s.writeL sp (s.readL sp + 4)).writeL r (s.longAt (s.readL sp))).readL sp = s.readL sp + 4 := by
        rw [readL_writeL_ne _ _ (fun e => hsp (by simp [e])), readL_writeL]
      refine (ih (s := (s.writeL sp (s.readL sp + 4)).writeL r (s.longAt (s.readL sp))) (fun hc => hsp (by simp [hc]))
        fun hc => h fun a ha => ?_).mono (fun _ => id) (fun a ha => ?_) fun f hf => ?_
      · rcases List.mem_append.1 ha with ha | ha
        · exact h0 a ha
        · refine hc a ?_
          rw [hu, popSpan_congr (s := s) (t := (s.writeL sp _).writeL r _) rfl]; exact ha
      · rw [hu, popSpan_congr (s := s) (t := (s.writeL sp _).writeL r _) rfl] at ha
        exact List.mem_append_right _ ha
      · rw [← hf]
        conv_lhs => unfold popRegs
        rw [pop32_ok h0]
    · refine (pop32_refused h0).mono (fun _ => id) (fun a ha => List.mem_append_left _ ha) fun f hf => ?_
      unfold popRegs
      rw [hf]

/-- The state after the first push of a list reads like the one before it. -/
theorem pushed_same (s : State) (r : BitVec 3) :
    let u := (s.stored ((s.longSpan (s.readL sp - 4)).zip (longBytes (s.readL r)))).writeL sp (s.readL sp - 4)
    u.hostMap = s.hostMap ∧ u.params = s.params ∧ u.pc = s.pc ∧ u.readL sp = s.readL sp - 4 :=
  ⟨by rw [writeL_hostMap, stored_hostMap], by rw [writeL_params, stored_params], by rw [writeL_pc, stored_pc],
    readL_writeL _ _ _⟩

theorem pushRegs_window {regs : List (BitVec 3)} {s : State} (hw : s.MayWrite (s.pushSpan regs.length (s.readL sp)))
    (h : ∃ a ∈ s.pushSpan regs.length (s.readL sp), s.inPrefetch 4 a = true) :
    pushRegs regs s = .error (s.unmodelled .storeIntoPrefetchWindow) := by
  induction regs generalizing s with
  | nil => obtain ⟨a, ha, _⟩ := h; cases ha
  | cons r rs ih =>
    by_cases h0 : ∃ a ∈ s.longSpan (s.readL sp - 4), s.inPrefetch 4 a = true
    · unfold pushRegs
      rw [push32_window h0]
    · have hc : ∀ a ∈ s.longSpan (s.readL sp - 4), s.inPrefetch 4 a = false := fun a ha => by
        by_contra hc
        exact h0 ⟨a, ha, by simpa using hc⟩
      obtain ⟨hh, hp, hpc, hsp⟩ := pushed_same s r
      have hpush := push32_ok (s := s) (by_ := some 4) (s.readL r)
        ⟨fun a ha => hw a (List.mem_append_left _ ha), fun l hl => by cases hl; exact hc⟩
      unfold pushRegs
      rw [hpush]
      generalize (s.stored _).writeL sp (s.readL sp - 4) = u at *
      have hs : u.pushSpan rs.length (u.readL sp) = s.pushSpan rs.length (s.readL sp - 4) := by
        rw [hsp, pushSpan_congr hp]
      have hih := ih (s := u)
        (fun a ha => by
          rw [canWrite_congr hh]; rw [hs] at ha; exact hw a (List.mem_append_right _ ha))
        (by
          obtain ⟨a, ha, hi⟩ := h
          rcases List.mem_append.1 ha with ha | ha
          · exact absurd (hc a ha) (by simp [hi])
          · exact ⟨a, by rw [hs]; exact ha, by rw [inPrefetch_congr hpc hp]; exact hi⟩)
      show pushRegs rs u = _
      rw [hih]
      unfold State.unmodelled
      rw [hpc]

theorem pushRegs_refused {regs : List (BitVec 3)} {s : State} (hc : s.Clear (some 4) (s.pushSpan regs.length (s.readL sp)))
    (h : ¬s.MayWrite (s.pushSpan regs.length (s.readL sp))) :
    RefusedAt (pushRegs regs s) s.canWrite (s.pushSpan regs.length (s.readL sp)) := by
  induction regs generalizing s with
  | nil => exact absurd (fun a ha => by cases ha) h
  | cons r rs ih =>
    have hc0 : s.Clear (some 4) (s.longSpan (s.readL sp - 4)) := fun l hl a ha => hc l hl a (List.mem_append_left _ ha)
    by_cases h0 : s.MayWrite (s.longSpan (s.readL sp - 4))
    · obtain ⟨hh, hp, hpc, hsp⟩ := pushed_same s r
      have hpush := push32_ok (s := s) (by_ := some 4) (s.readL r) ⟨h0, hc0⟩
      generalize (s.stored _).writeL sp (s.readL sp - 4) = u at *
      have hs : u.pushSpan rs.length (u.readL sp) = s.pushSpan rs.length (s.readL sp - 4) := by
        rw [hsp, pushSpan_congr hp]
      refine (ih (s := u)
        (fun l hl a ha => by rw [inPrefetch_congr hpc hp]; rw [hs] at ha; exact hc l hl a (List.mem_append_right _ ha))
        fun hm => h fun a ha => ?_).mono (fun a ha => by rwa [canWrite_congr hh] at ha) (fun a ha => ?_) fun f hf => ?_
      · rcases List.mem_append.1 ha with ha | ha
        · exact h0 a ha
        · have := hm a (by rw [hs]; exact ha)
          rwa [canWrite_congr hh] at this
      · rw [hs] at ha; exact List.mem_append_right _ ha
      · unfold pushRegs
        rw [hpush]
        exact hf
    · refine (push32_refused (v := s.readL r) hc0 h0).mono (fun _ => id) (fun a ha => List.mem_append_left _ ha)
        fun f hf => ?_
      unfold pushRegs
      rw [hf]

/-! ### Block moves -/

/-- The state after one byte of a block move reads like the one before it. -/
theorem moved_same (s : State) (v : Byte) :
    let u := (((s.stored [(s.addr (s.readL 6), v)]).writeL 5 (s.readL 5 + 1)).writeL 6 (s.readL 6 + 1))
    let t := u.writeB 12 (u.readB 12 - 1)
    t.hostMap = s.hostMap ∧ t.params = s.params ∧ t.pc = s.pc ∧ t.readL 5 = s.readL 5 + 1 ∧ t.readL 6 = s.readL 6 + 1 := by
  refine ⟨by simp [stored_hostMap], by simp [stored_params], by simp [stored_pc], ?_, ?_⟩
  · show State.readL (State.writeB _ _ _) 5 = _
    rw [readL_writeB_ne _ _ (by decide), readL_writeL_ne _ _ (by decide), readL_writeL]
  · show State.readL (State.writeB _ _ _) 6 = _
    rw [readL_writeB_ne _ _ (by decide), readL_writeL]

theorem moveByte_read_refused {s : State} (h : ¬s.MayRead [s.addr (s.readL 5)]) :
    RefusedAt s.moveByte s.canRead [s.addr (s.readL 5)] :=
  (read8_refused h).mono (fun _ => id) (fun _ => id) fun f hf => by unfold State.moveByte; rw [hf]

theorem moveByte_write_refused {s : State} (hr : s.MayRead [s.addr (s.readL 5)])
    (hc : s.Clear (some 4) [s.addr (s.readL 6)]) (h : ¬s.MayWrite [s.addr (s.readL 6)]) :
    RefusedAt s.moveByte s.canWrite [s.addr (s.readL 6)] :=
  (write8_refused (v := s.byteAt (s.addr (s.readL 5))) hc h).mono (fun _ => id) (fun _ => id) fun f hf => by
    unfold State.moveByte
    rw [read8_ok hr]
    simp only [hf]

theorem moveByte_window {s : State} (hr : s.MayRead [s.addr (s.readL 5)])
    (h : ∃ a ∈ [s.addr (s.readL 6)], s.inPrefetch 4 a = true) :
    s.moveByte = .error (s.unmodelled .storeIntoPrefetchWindow) := by
  unfold State.moveByte
  rw [read8_ok hr]
  simp only [write8_window h]

theorem moveBytes_window {n : Nat} {s : State} (hr : s.MayRead (s.byteRange (s.readL 5) n))
    (hw : s.MayWrite (s.byteRange (s.readL 6) n)) (h : ∃ a ∈ s.byteRange (s.readL 6) n, s.inPrefetch 4 a = true) :
    moveBytes n s = .error (s.unmodelled .storeIntoPrefetchWindow) := by
  induction n generalizing s with
  | zero => obtain ⟨a, ha, _⟩ := h; cases ha
  | succ n ih =>
    rw [byteRange_succ] at hr hw h
    have hr0 : s.MayRead [s.addr (s.readL 5)] := fun a ha => hr a (by simp_all)
    unfold moveBytes
    by_cases h0 : s.inPrefetch 4 (s.addr (s.readL 6)) = true
    · rw [moveByte_window hr0 ⟨_, List.mem_singleton.2 rfl, h0⟩]
    · have h0 : s.inPrefetch 4 (s.addr (s.readL 6)) = false := by simpa using h0
      obtain ⟨hh, hp, hpc, h5, h6⟩ := moved_same s (s.byteAt (s.addr (s.readL 5)))
      rw [moveByte_ok hr0 ⟨fun a ha => hw a (by simp_all), fun a ha => by simp_all⟩]
      generalize ((s.stored _).writeL 5 _).writeL 6 _ = u at *
      show moveBytes n (u.writeB 12 (u.readB 12 - 1)) = _
      rw [ih]
      · unfold State.unmodelled
        rw [hpc]
      · intro a ha
        rw [h5, byteRange_congr hp] at ha
        rw [canRead_congr hh]; exact hr a (List.mem_cons_of_mem _ ha)
      · intro a ha
        rw [h6, byteRange_congr hp] at ha
        rw [canWrite_congr hh]; exact hw a (List.mem_cons_of_mem _ ha)
      · obtain ⟨a, ha, hi⟩ := h
        rcases List.mem_cons.1 ha with rfl | ha
        · exact absurd (h0.symm.trans hi) (by decide)
        · exact ⟨a, by rw [h6, byteRange_congr hp]; exact ha, by rw [inPrefetch_congr hpc hp]; exact hi⟩

theorem moveBytes_read_refused {n : Nat} {s : State} (hm : s.MayStore 4 (s.byteRange (s.readL 6) n))
    (h : ¬s.MayRead (s.byteRange (s.readL 5) n)) : RefusedAt (moveBytes n s) s.canRead (s.byteRange (s.readL 5) n) := by
  induction n generalizing s with
  | zero => exact absurd (fun a ha => by cases ha) h
  | succ n ih =>
    rw [byteRange_succ] at hm h ⊢
    by_cases h0 : s.MayRead [s.addr (s.readL 5)]
    · obtain ⟨hh, hp, hpc, h5, h6⟩ := moved_same s (s.byteAt (s.addr (s.readL 5)))
      have hmv := moveByte_ok h0 ⟨fun a ha => hm.1 a (by simp_all), fun a ha => hm.2 a (by simp_all)⟩
      generalize ((s.stored _).writeL 5 _).writeL 6 _ = u at *
      refine (ih (s := u.writeB 12 (u.readB 12 - 1))
        ⟨fun a ha => by
          rw [h6, byteRange_congr hp] at ha
          rw [canWrite_congr hh]; exact hm.1 a (List.mem_cons_of_mem _ ha),
         fun a ha => by
          rw [h6, byteRange_congr hp] at ha
          rw [inPrefetch_congr hpc hp]; exact hm.2 a (List.mem_cons_of_mem _ ha)⟩
        fun hc => h fun a ha => ?_).mono (fun a ha => by rwa [canRead_congr hh] at ha) (fun a ha => ?_) fun f hf => ?_
      · rcases List.mem_cons.1 ha with rfl | ha
        · exact h0 _ (List.mem_singleton.2 rfl)
        · have := hc a (by rw [h5, byteRange_congr hp]; exact ha)
          rwa [canRead_congr hh] at this
      · rw [h5, byteRange_congr hp] at ha
        exact List.mem_cons_of_mem _ ha
      · unfold moveBytes
        rw [hmv]
        exact hf
    · refine (moveByte_read_refused h0).mono (fun _ => id) (fun a ha => by simp_all) fun f hf => ?_
      unfold moveBytes
      rw [hf]

theorem moveBytes_write_refused {n : Nat} {s : State} (hr : s.MayRead (s.byteRange (s.readL 5) n))
    (hc : s.Clear (some 4) (s.byteRange (s.readL 6) n)) (h : ¬s.MayWrite (s.byteRange (s.readL 6) n)) :
    RefusedAt (moveBytes n s) s.canWrite (s.byteRange (s.readL 6) n) := by
  induction n generalizing s with
  | zero => exact absurd (fun a ha => by cases ha) h
  | succ n ih =>
    rw [byteRange_succ] at hr hc h ⊢
    have hr0 : s.MayRead [s.addr (s.readL 5)] := fun a ha => hr a (by simp_all)
    have hc0 : s.Clear (some 4) [s.addr (s.readL 6)] := fun l hl a ha => hc l hl a (by simp_all)
    by_cases h0 : s.MayWrite [s.addr (s.readL 6)]
    · obtain ⟨hh, hp, hpc, h5, h6⟩ := moved_same s (s.byteAt (s.addr (s.readL 5)))
      have hmv := moveByte_ok hr0 ⟨h0, hc0 4 rfl⟩
      generalize ((s.stored _).writeL 5 _).writeL 6 _ = u at *
      refine (ih (s := u.writeB 12 (u.readB 12 - 1))
        (fun a ha => by
          rw [h5, byteRange_congr hp] at ha
          rw [canRead_congr hh]; exact hr a (List.mem_cons_of_mem _ ha))
        (fun l hl a ha => by
          rw [h6, byteRange_congr hp] at ha
          rw [inPrefetch_congr hpc hp]; exact hc l hl a (List.mem_cons_of_mem _ ha))
        fun hm => h fun a ha => ?_).mono (fun a ha => by rwa [canWrite_congr hh] at ha) (fun a ha => ?_) fun f hf => ?_
      · rcases List.mem_cons.1 ha with rfl | ha
        · exact h0 _ (List.mem_singleton.2 rfl)
        · have := hm a (by rw [h6, byteRange_congr hp]; exact ha)
          rwa [canWrite_congr hh] at this
      · rw [h6, byteRange_congr hp] at ha
        exact List.mem_cons_of_mem _ ha
      · unfold moveBytes
        rw [hmv]
        exact hf
    · refine (moveByte_write_refused hr0 hc0 h0).mono (fun _ => id) (fun a ha => by simp_all) fun f hf => ?_
      unfold moveBytes
      rw [hf]

/-- The copies depend on memory, the host's map, the parameters and the draws only. -/
theorem copied_congr {s t : State} (h : SameReads s t) (src dst : Addr) (n : Nat) :
    t.copied src dst n = s.copied src dst n := by
  induction n with
  | zero => exact h.mem
  | succ n ih =>
    unfold State.copied
    rw [ih]
    simp only [isDevice_congr h.hostMap, offset_congr h.params]
    unfold State.byteAt
    simp only [setMem_isDevice, isDevice_congr h.hostMap, setMem_epoch, h.epoch, setMem_mem]
    rfl

/-- The first of the copies, then the rest. -/
theorem copied_head (s : State) (src dst : Addr) (n : Nat) :
    s.copied src dst (n + 1) = (s.setMem (s.copied src dst 1)).copied (src + 1) (dst + 1) n := by
  induction n with
  | zero => rfl
  | succ n ih =>
    have ho : ∀ a : Addr, s.offset a (n + 1) = s.offset (a + 1) n := fun a => by
      unfold State.offset
      congr 1
      apply BitVec.eq_of_toNat_eq
      simp [BitVec.toNat_add]; omega
    rw [show s.copied src dst (n + 1 + 1) = (if s.isDevice (s.offset dst (n + 1)).toNat then s.copied src dst (n + 1)
        else (s.copied src dst (n + 1)).set (s.offset dst (n + 1)).toNat
          ((s.setMem (s.copied src dst (n + 1))).byteAt (s.offset src (n + 1)))) from rfl, ih, ho, ho]
    rfl

/-- What a block move of bytes leaves in memory: the copies in ascending order, overlapping or not (40_data_transfer.md
R417). -/
theorem moveBytes_copied {n : Nat} {s : State} (hr : s.MayRead (s.byteRange (s.readL 5) n))
    (hm : s.MayStore 4 (s.byteRange (s.readL 6) n)) {t : State} (h : moveBytes n s = .ok t) :
    t.mem = s.copied (s.readL 5) (s.readL 6) n := by
  induction n generalizing s with
  | zero => cases h; rfl
  | succ n ih =>
    rw [byteRange_succ] at hr hm
    have hmv := moveByte_ok (s := s) (fun a ha => hr a (by simp_all))
      ⟨fun a ha => hm.1 a (by simp_all), fun a ha => hm.2 a (by simp_all)⟩
    obtain ⟨hh, hp, hpc, h5, h6⟩ := moved_same s (s.byteAt (s.addr (s.readL 5)))
    have hmem : (((s.stored [(s.addr (s.readL 6), s.byteAt (s.addr (s.readL 5)))]).writeL 5 (s.readL 5 + 1)).writeL 6
        (s.readL 6 + 1)).mem = s.copied (s.readL 5) (s.readL 6) 1 := by
      rw [writeL_mem, writeL_mem]
      show (if s.isDevice _ then s else s.setMem _).mem = _
      unfold State.copied State.copied
      rw [show s.offset (s.readL 6) 0 = s.addr (s.readL 6) by unfold State.offset; simp,
        show s.offset (s.readL 5) 0 = s.addr (s.readL 5) by unfold State.offset; simp]
      simp only []
      split <;> rfl
    have hep : (((s.stored [(s.addr (s.readL 6), s.byteAt (s.addr (s.readL 5)))]).writeL 5 (s.readL 5 + 1)).writeL 6
        (s.readL 6 + 1)).epoch = s.epoch := by
      rw [writeL_epoch, writeL_epoch]
      obtain ⟨m, hm⟩ := stored_eq s [(s.addr (s.readL 6), s.byteAt (s.addr (s.readL 5)))]
      rw [hm]; rfl
    unfold moveBytes at h
    rw [hmv] at h
    generalize ((s.stored _).writeL 5 _).writeL 6 _ = u at *
    rw [ih (s := u.writeB 12 (u.readB 12 - 1)) ?_ ?_ h, h5, h6, copied_head]
    · refine copied_congr (s := s.setMem _) ⟨?_, ?_, ?_, ?_⟩ _ _ _ <;> simp_all
    · intro a ha
      rw [h5, byteRange_congr hp] at ha
      rw [canRead_congr hh]; exact hr a (List.mem_cons_of_mem _ ha)
    · exact ⟨fun a ha => by
        rw [h6, byteRange_congr hp] at ha
        rw [canWrite_congr hh]; exact hm.1 a (List.mem_cons_of_mem _ ha),
       fun a ha => by
        rw [h6, byteRange_congr hp] at ha
        rw [inPrefetch_congr hpc hp]; exact hm.2 a (List.mem_cons_of_mem _ ha)⟩

/-! ### An exception's entry -/

/-- The state after the long of a frame reads like the one before it. -/
theorem framed_same (s : State) (v : Long) :
    let u := (s.stored ((s.longSpan (s.readL sp - 4)).zip (longBytes v))).writeL sp (s.readL sp - 4)
    u.hostMap = s.hostMap ∧ u.params = s.params ∧ u.pc = s.pc ∧ u.readL sp = s.readL sp - 4 :=
  ⟨by rw [writeL_hostMap, stored_hostMap], by rw [writeL_params, stored_params], by rw [writeL_pc, stored_pc],
    readL_writeL _ _ _⟩

theorem pushFrame_window {s : State} {len : Nat} {ret : Addr} (hw : s.MayWrite s.frameSpan)
    (h : ∃ a ∈ s.frameSpan, s.inPrefetch len a = true) :
    s.pushFrame (some len) ret = .error (s.unmodelled .storeIntoPrefetchWindow) := by
  unfold State.pushFrame
  by_cases h0 : ∃ a ∈ s.longSpan (s.readL sp - 4), s.inPrefetch len a = true
  · rw [push32_window h0]
    rfl
  · have hc : ∀ a ∈ s.longSpan (s.readL sp - 4), s.inPrefetch len a = false := fun a ha => by
      by_contra hc
      exact h0 ⟨a, ha, by simpa using hc⟩
    cases hi : s.params.intm with
    | mode0 =>
      unfold State.frameSpan at h
      rw [hi] at h
      exact absurd h h0
    | mode2 =>
      unfold State.frameSpan at h hw
      rw [hi] at h hw
      obtain ⟨hh, hp, hpc, hsp⟩ := framed_same s (s.ccrImage ++ ret.extractLsb' 0 24)
      rw [push32_ok _ ⟨fun a ha => hw a (List.mem_append_left _ ha), fun l hl => by cases hl; exact hc⟩]
      generalize (s.stored _).writeL sp (s.readL sp - 4) = u at *
      show u.push16 _ _ = _
      rw [push16_window]
      · unfold State.unmodelled
        rw [hpc]
      · obtain ⟨a, ha, hia⟩ := h
        rcases List.mem_append.1 ha with ha | ha
        · exact absurd (hc a ha) (by simp [hia])
        · exact ⟨a, by rw [hsp, wordSpan_congr hp]; exact ha, by rw [inPrefetch_congr hpc hp]; exact hia⟩

theorem pushFrame_refused {s : State} {by_ : Option Nat} {ret : Addr} (hc : s.Clear by_ s.frameSpan)
    (h : ¬s.MayWrite s.frameSpan) : RefusedAt (s.pushFrame by_ ret) s.canWrite s.frameSpan := by
  unfold State.pushFrame
  cases hi : s.params.intm with
  | mode0 =>
    have e : s.frameSpan = s.longSpan (s.readL sp - 4) := by unfold State.frameSpan; rw [hi]
    rw [e] at hc h ⊢
    exact (push32_refused hc h).mono (fun _ => id) (fun _ => id) fun f hf => by rw [hf]; rfl
  | mode2 =>
    have e : s.frameSpan = s.longSpan (s.readL sp - 4) ++ s.wordSpan (s.readL sp - 4 - 2) := by
      unfold State.frameSpan; rw [hi]
    rw [e] at hc h ⊢
    have hc0 : s.Clear by_ (s.longSpan (s.readL sp - 4)) := fun l hl a ha => hc l hl a (List.mem_append_left _ ha)
    by_cases h0 : s.MayWrite (s.longSpan (s.readL sp - 4))
    · obtain ⟨hh, hp, hpc, hsp⟩ := framed_same s (s.ccrImage ++ ret.extractLsb' 0 24)
      rw [push32_ok _ ⟨h0, hc0⟩]
      generalize (s.stored _).writeL sp (s.readL sp - 4) = u at *
      have hs : u.wordSpan (u.readL sp - 2) = s.wordSpan (s.readL sp - 4 - 2) := by rw [hsp, wordSpan_congr hp]
      refine (push16_refused (s := u) (by_ := by_) (v := u.exr ++ Config.draw 8 .exrPad s.epoch)
        (fun l hl a ha => by rw [inPrefetch_congr hpc hp]; rw [hs] at ha; exact hc l hl a (List.mem_append_right _ ha))
        fun hm => h fun a ha => ?_).mono (fun a ha => by rwa [canWrite_congr hh] at ha) (fun a ha => ?_) fun f hf => hf
      · rcases List.mem_append.1 ha with ha | ha
        · exact h0 a ha
        · have := hm a (by rw [hs]; exact ha)
          rwa [canWrite_congr hh] at this
      · rw [hs] at ha
        exact List.mem_append_right _ ha
    · exact (push32_refused hc0 h0).mono (fun _ => id) (fun a ha => List.mem_append_left _ ha) fun f hf => by
        rw [hf]; rfl

/-- A frame that cannot be stored stops the entry with the same fault. -/
theorem exceptionEntry_frame {s : State} {by_ : Option Nat} {vector : Nat} {ret : Addr} {level : Option (BitVec 3)}
    {f : Fault} (hf : s.FitsFrame ret) (h : s.pushFrame by_ ret = .error f) :
    s.exceptionEntry by_ vector ret level = .error f := by
  unfold State.exceptionEntry
  rw [if_neg fun hc => absurd (hf hc.1) (by omega), h]
  rfl

theorem exceptionEntry_vector_refused {s : State} {by_ : Option Nat} {vector : Nat} {ret : Addr}
    {level : Option (BitVec 3)} (hf : s.FitsFrame ret) (ha : s.Allows by_ s.frameSpan)
    (h : ¬s.MayRead (s.longSpan (vectorAddr vector))) :
    RefusedAt (s.exceptionEntry by_ vector ret level) s.canRead (s.longSpan (vectorAddr vector)) := by
  obtain ⟨u, hu, -, -, -, huf⟩ := pushFrame_ok (by_ := by_) ret ha
  obtain ⟨-, -, -, -, -, -, -, -, -, hout⟩ := enterHandler_same u level
  have hso := huf.outside.trans hout
  generalize hw : u.enterHandler level = w at *
  refine (read32_refused (s := w) (a := vectorAddr vector) fun hc => h fun a ha => ?_).mono
    (fun a ha => by rwa [canRead_congr hso.hostMap] at ha) (fun a ha => by rwa [longSpan_congr hso.params] at ha)
    fun f hr => ?_
  · have := hc a (by rw [longSpan_congr hso.params]; exact ha)
    rwa [canRead_congr hso.hostMap] at this
  · unfold State.exceptionEntry
    rw [if_neg fun hc => absurd (hf hc.1) (by omega), hu]
    show ((u.enterHandler level).vectorEntry vector >>= _) = _
    rw [hw]
    unfold State.vectorEntry
    show ((w.read32 (vectorAddr vector) >>= _) >>= _) = _
    rw [hr]
    rfl

end Sys2Proof.Machine
end

