-- ==== Sys2Proof/Machine/Render.lean ====
section
/-!
DEFINITION. The render port (00_scope.md R14 (c); 30_encoding.md R350 to R352).
-/

namespace Sys2Proof.Machine

/-- A lowercase hexadecimal digit. -/
def hexDigit (n : Nat) : Char := "0123456789abcdef".toList.getD n '0'

/-- The last `k` hexadecimal digits of a number. -/
def hexDigits : (k : Nat) → (v : Nat) → List Char
  | 0, _ => []
  | k + 1, v => hexDigit (v / 16 ^ k % 16) :: hexDigits k v

/-- Lowercase hexadecimal with no leading zeros, of a number below 2^32 (30_encoding.md R351). -/
def hex (v : Nat) : List Char :=
  match (hexDigits 8 v).dropWhile (· == '0') with
  | [] => ['0']
  | ds => ds

/-- A decimal number of one or two digits. -/
def dec2 (n : Nat) : List Char := if n < 10 then [hexDigit n] else [hexDigit (n / 10), hexDigit (n % 10)]

/-- The name of a byte view (10_state.md R101, R107). -/
def nameB (n : BitVec 4) : List Char := 'r' :: hexDigit (n.toNat % 8) :: (if n.msb then ['l'] else ['h'])

/-- The name of a word view (10_state.md R102, R107). -/
def nameW (n : BitVec 4) : List Char := (if n.msb then 'e' else 'r') :: [hexDigit (n.toNat % 8)]

/-- The name of a long view (10_state.md R103, R107). -/
def nameL (n : BitVec 3) : List Char := ['e', 'r', hexDigit n.toNat]

/-- An address as `0x` and hexadecimal digits (30_encoding.md R351). -/
def hexAddr (v : Nat) : List Char := '0' :: 'x' :: hex v

/-- The spelling of an operand (30_encoding.md R350, R351). -/
def renderOperand : Operand → List Char
  | .regB n => nameB n
  | .regW n => nameW n
  | .regL n => nameL n
  | .ccr => ['c', 'c', 'r']
  | .exr => ['e', 'x', 'r']
  | .ind n => '@' :: nameL n
  | .inc n => '@' :: nameL n ++ ['+']
  | .dec n => '@' :: '-' :: nameL n
  | .disp w d n => '@' :: '(' :: hexAddr d ++ ':' :: dec2 w ++ ',' :: nameL n ++ [')']
  | .absolute w aa => '@' :: hexAddr aa ++ ':' :: dec2 w
  | .memInd aa => '@' :: '@' :: hexAddr aa.toNat
  | .imm _ v => '#' :: hex v
  | .implicit k => '#' :: hex k
  | .pcRel _ _ target => hexAddr target.toNat
  | .regList first last => '(' :: nameL first ++ '-' :: nameL last ++ [')']

/-- Operands joined by a comma and a space. -/
def renderOperands : List Operand → List Char
  | [] => []
  | [o] => renderOperand o
  | o :: os => renderOperand o ++ ',' :: ' ' :: renderOperands os

/-- The canonical rendering as characters (30_encoding.md R351). -/
def renderChars (r : Record) : List Char :=
  match r.operands with
  | [] => r.mnemonic.toList
  | ops => r.mnemonic.toList ++ ' ' :: renderOperands ops

/-- The render port (00_scope.md R14 (c)). -/
def render (r : Record) : String := String.ofList (renderChars r)

/-- The input spellings of a canonical mnemonic (30_encoding.md R352). -/
def inputSpellings : List (String × String) := [
  ("bt", "bra"), ("bf", "brn"), ("bhs", "bcc"), ("blo", "bcs"), ("ldc.b", "ldc"), ("stc.b", "stc")]

/-- The canonical mnemonic of an input spelling (30_encoding.md R352). -/
def canonicalMnemonic (m : String) : String := ((inputSpellings.find? fun e => e.1 == m).map (·.2)).getD m

/-- `push.w Rn` (30_encoding.md R352). -/
def pushW (rn : BitVec 4) : Instr := .movWStore rn (.dec sp)

/-- `push.l ERn` (30_encoding.md R352). -/
def pushL (rn : BitVec 3) : Instr := .movLStore rn (.dec sp)

/-- `pop.w Rn` (30_encoding.md R352). -/
def popW (rn : BitVec 4) : Instr := .movWLoad (.inc sp) rn

/-- `pop.l ERn` (30_encoding.md R352). -/
def popL (rn : BitVec 3) : Instr := .movLLoad (.inc sp) rn

end Sys2Proof.Machine
end

