-- ==== Sys2Proof/Tests/Slice0.lean ====
section
/-!
SUPPORT. Tests: the refusals of well-formedness,
  one word of every row of the opcode table written out from its encoding,
the test vectors of 95_test_vectors.md as single steps, and for every statement with hypotheses a state and
operands that meet them. Expected results are the spec's, its vectors or hand calculation from its rules.
-/

namespace Sys2Proof.Tests

set_option Elab.async false

open Sys2Proof.Machine

/-! ### Helpers -/

/-- The bytes decode to the instruction. -/
def decodesTo (bytes : List Byte) (x : Instr) : Bool :=
  match decode bytes with
  | .ok y => y == x
  | .error _ => false

/-- The bytes do not decode, for this reason. -/
def failsWith (bytes : List Byte) (f : DecodeFault) : Bool :=
  match decode bytes with
  | .ok _ => false
  | .error g => g == f

/-- Bytes from an address on, over other memory. -/
def bytesAt (a : Nat) (bs : List Byte) (m : Memory) : Memory :=
  (bs.zipIdx).foldl (fun m p => m.set (a + p.2) p.1) m

/-- A driven state as 95_test_vectors.md starts its vectors: pc 0x001000, every register byte and flag defined, CCR as
given, the named registers at their values. -/
def start (ccr : Byte) (regs : List (RegName × Nat)) (m : Memory) : State :=
  regs.foldl (fun s r => s.setRegister r.1 r.2)
    ({ State.driven Params.default m 0x1000 with er := Vector.replicate 8 { val := 0, dfn := 0b1111 } }.writeCcr ccr)

/-- One step of the instruction with these bytes at pc ends in a next state of which `p` holds. -/
def runs (s : State) (code : List Byte) (p : State → Bool) : Bool :=
  match step (s.place code) with
  | .next t => p t
  | .fault _ => false
  | .refused _ => false

/-- One step of the instruction with these bytes at pc ends in this fault. -/
def faults (s : State) (code : List Byte) (f : Fault) : Bool :=
  match step (s.place code) with
  | .next _ => false
  | .fault g => g == f
  | .refused _ => false

/-- An outcome is a next state of which `p` holds. -/
def ends (o : Out) (p : State → Bool) : Bool :=
  match o with
  | .next t => p t
  | .fault _ => false
  | .refused _ => false

/-- Where every flag is defined, a copy of the CCR is the CCR. -/
theorem ccrImage_defined {s : State} (h : s.ccrDfn = 0xFF) : s.ccrImage = s.ccr := by
  simp only [State.ccrImage, h]
  simp only [show (0xFF : Byte) = BitVec.allOnes 8 from rfl, BitVec.and_allOnes, BitVec.not_allOnes,
    BitVec.and_zero, BitVec.or_zero]

/-- Memory holds these bytes from an address on. -/
def holdsAt (t : State) (a : Nat) (bs : List Byte) : Bool := bs.zipIdx.all fun p => t.mem.get (a + p.2) == p.1

/-! ### Well-formedness refuses an ill-formed term for each check -/

theorem test_wf_refuses_modes :
    ([.movBLoad (.dec 1) 8, .movBStore 8 (.inc 1), .movWLoad (.dec 1) 2, .movWLoad (.abs8 0x10) 2,
      .movWStore 2 (.inc 1),
      .movWStore 2 (.abs8 0x10), .movLLoad (.dec 1) 2, .movLLoad (.abs8 0x10) 2, .movLStore 2 (.inc 1),
      .movLStore 2 (.abs8 0x10), .ldcWCcr (.dec 1), .ldcWCcr (.abs8 0x10), .ldcWExr (.dec 1), .ldcWExr (.abs8 0x10),
      .stcWCcr (.inc 1), .stcWCcr (.abs8 0x10), .stcWExr (.inc 1), .stcWExr (.abs8 0x10)] : List Instr).all
      (fun x => !x.wf) = true := by decide +kernel

theorem test_wf_refuses_lists :
    ([.ldm2 0, .ldm2 2, .ldm2 6, .ldm3 0, .ldm3 1, .ldm3 4, .ldm4 2, .ldm4 4, .ldm4 6, .stm2 1, .stm2 7, .stm3 1,
      .stm3 6, .stm4 2, .stm4 7] : List Instr).all (fun x => !x.wf) = true := by decide +kernel

theorem test_wf_accepts :
    ([.movBLoad (.abs8 0x10) 8, .movBStore 8 (.dec 1), .movWLoad (.inc 1) 2, .movLStore 2 (.dec 1), .ldcWCcr (.inc 1),
      .stcWExr (.dec 1), .ldm2 1, .ldm2 7, .ldm3 2, .ldm3 6, .ldm4 3, .ldm4 7, .stm2 0, .stm2 6, .stm3 4, .stm4 4]
      : List Instr).all (fun x => x.wf) = true := by decide +kernel

/-! ### Decoding: one word of every row, written out from its encoding line in 30_encoding.md R331 -/

/-- nop to ldc.w (30_encoding.md R331). -/
theorem test_decode_system_1 : ([
    ([0x00, 0x00], .nop),
    ([0x57, 0x20], .trapa 2),
    ([0x56, 0x70], .rte),
    ([0x01, 0x80], .sleep),
    ([0x07, 0xF3], .ldcImmCcr 0xF3),
    ([0x06, 0x27], .andcCcr 0x27),
    ([0x04, 0x66], .orcCcr 0x66),
    ([0x05, 0xA7], .xorcCcr 0xA7),
    ([0x03, 0x01], .ldcRegCcr 1),
    ([0x02, 0x02], .stcRegCcr 2),
    ([0x01, 0x40, 0x69, 0x70], .ldcWCcr (.ind 7)),
    ([0x01, 0x40, 0x69, 0xD0], .stcWCcr (.ind 5)),
    ([0x01, 0x40, 0x6F, 0x10, 0x5D, 0x9E], .ldcWCcr (.disp16 0x5D9E 1)),
    ([0x01, 0x40, 0x6F, 0xD0, 0x0E, 0xDA], .stcWCcr (.disp16 0x0EDA 5)),
    ([0x01, 0x40, 0x78, 0x50, 0x6B, 0x20, 0x36, 0xF6, 0x75, 0xCD], .ldcWCcr (.disp32 0x36F675CD 5)),
    ([0x01, 0x40, 0x78, 0x10, 0x6B, 0xA0, 0x16, 0x00, 0xA3, 0x5B], .stcWCcr (.disp32 0x1600A35B 1)),
    ([0x01, 0x40, 0x6D, 0x40], .ldcWCcr (.inc 4)),
    ([0x01, 0x40, 0x6D, 0xC0], .stcWCcr (.dec 4)),
    ([0x01, 0x40, 0x6B, 0x00, 0x11, 0xE3], .ldcWCcr (.abs16 0x11E3)),
    ([0x01, 0x40, 0x6B, 0x20, 0x3D, 0x9C, 0x17, 0x25],
      .ldcWCcr (.abs32 0x3D9C1725))] : List (List Byte × Instr)).all (fun p => decodesTo p.1 p.2) = true :=
      by decide +kernel

/-- stc.w to stc.w (30_encoding.md R331). -/
theorem test_decode_system_2 : ([
    ([0x01, 0x40, 0x6B, 0x80, 0x17, 0x39], .stcWCcr (.abs16 0x1739)),
    ([0x01, 0x40, 0x6B, 0xA0, 0x8D, 0x11, 0x6E, 0xCF], .stcWCcr (.abs32 0x8D116ECF)),
    ([0x01, 0x41, 0x07, 0x6D], .ldcImmExr 0x6D),
    ([0x01, 0x41, 0x06, 0x10], .andcExr 0x10),
    ([0x01, 0x41, 0x04, 0xD4], .orcExr 0xD4),
    ([0x01, 0x41, 0x05, 0x91], .xorcExr 0x91),
    ([0x03, 0x12], .ldcRegExr 2),
    ([0x02, 0x14], .stcRegExr 4),
    ([0x01, 0x41, 0x69, 0x60], .ldcWExr (.ind 6)),
    ([0x01, 0x41, 0x69, 0xE0], .stcWExr (.ind 6)),
    ([0x01, 0x41, 0x6F, 0x50, 0xF2, 0x9E], .ldcWExr (.disp16 0xF29E 5)),
    ([0x01, 0x41, 0x6F, 0x90, 0x93, 0xBE], .stcWExr (.disp16 0x93BE 1)),
    ([0x01, 0x41, 0x78, 0x50, 0x6B, 0x20, 0x65, 0x8C, 0xDA, 0x15], .ldcWExr (.disp32 0x658CDA15 5)),
    ([0x01, 0x41, 0x78, 0x10, 0x6B, 0xA0, 0xF9, 0xEB, 0xDA, 0xCD], .stcWExr (.disp32 0xF9EBDACD 1)),
    ([0x01, 0x41, 0x6D, 0x20], .ldcWExr (.inc 2)),
    ([0x01, 0x41, 0x6D, 0x90], .stcWExr (.dec 1)),
    ([0x01, 0x41, 0x6B, 0x00, 0x8E, 0x82], .ldcWExr (.abs16 0x8E82)),
    ([0x01, 0x41, 0x6B, 0x20, 0xDB, 0xC4, 0x96, 0xCC], .ldcWExr (.abs32 0xDBC496CC)),
    ([0x01, 0x41, 0x6B, 0x80, 0x22, 0x18], .stcWExr (.abs16 0x2218)),
    ([0x01, 0x41, 0x6B, 0xA0, 0x4A, 0x23, 0xD5, 0x97],
      .stcWExr (.abs32 0x4A23D597))] : List (List Byte × Instr)).all (fun p => decodesTo p.1 p.2) = true :=
      by decide +kernel

/-- mov.b to mov.w (30_encoding.md R331). -/
theorem test_decode_data_transfer_1 : ([
    ([0x0C, 0x73], .movBReg 7 3),
    ([0x0D, 0x92], .movWReg 9 2),
    ([0x0F, 0xD3], .movLReg 5 3),
    ([0xFE, 0x90], .movBImm 0x90 14),
    ([0x79, 0x03, 0xAE, 0x98], .movWImm 0xAE98 3),
    ([0x7A, 0x05, 0x1A, 0x61, 0xDB, 0xE3], .movLImm 0x1A61DBE3 5),
    ([0x68, 0x5B], .movBLoad (.ind 5) 11),
    ([0x68, 0xB4], .movBStore 4 (.ind 3)),
    ([0x6E, 0x1C, 0x8C, 0x39], .movBLoad (.disp16 0x8C39 1) 12),
    ([0x6E, 0xD2, 0x0F, 0x43], .movBStore 2 (.disp16 0x0F43 5)),
    ([0x78, 0x50, 0x6A, 0x28, 0x34, 0xB9, 0xB5, 0xE0], .movBLoad (.disp32 0x34B9B5E0 5) 8),
    ([0x78, 0x50, 0x6A, 0xAB, 0x6D, 0x76, 0xB0, 0x7F], .movBStore 11 (.disp32 0x6D76B07F 5)),
    ([0x6C, 0x76], .movBLoad (.inc 7) 6),
    ([0x6C, 0xD8], .movBStore 8 (.dec 5)),
    ([0x28, 0xED], .movBLoad (.abs8 0xED) 8),
    ([0x36, 0x4D], .movBStore 6 (.abs8 0x4D)),
    ([0x6A, 0x0D, 0x3F, 0x99], .movBLoad (.abs16 0x3F99) 13),
    ([0x6A, 0x2C, 0x2E, 0x05, 0x31, 0x9B], .movBLoad (.abs32 0x2E05319B) 12),
    ([0x6A, 0x8D, 0x3E, 0x7E], .movBStore 13 (.abs16 0x3E7E)),
    ([0x6A, 0xA2, 0x93, 0x0D, 0x6E, 0xB0], .movBStore 2 (.abs32 0x930D6EB0)),
    ([0x69, 0x39], .movWLoad (.ind 3) 9),
    ([0x69, 0xB8], .movWStore 8 (.ind 3)),
    ([0x6F, 0x65, 0x72, 0xE7], .movWLoad (.disp16 0x72E7 6) 5),
    ([0x6F, 0x9A, 0x1E, 0x3A], .movWStore 10 (.disp16 0x1E3A 1)),
    ([0x78, 0x50, 0x6B, 0x23, 0x6B, 0x0A, 0x18, 0xE9], .movWLoad (.disp32 0x6B0A18E9 5) 3),
    ([0x78, 0x30, 0x6B, 0xAD, 0x26, 0xE8, 0x75, 0x56], .movWStore 13 (.disp32 0x26E87556 3)),
    ([0x6D, 0x47], .movWLoad (.inc 4) 7)] : List (List Byte × Instr)).all (fun p => decodesTo p.1 p.2) = true :=
      by decide +kernel

/-- mov.w to eepmov.w (30_encoding.md R331). -/
theorem test_decode_data_transfer_2 : ([
    ([0x6D, 0xE1], .movWStore 1 (.dec 6)),
    ([0x6B, 0x0D, 0x13, 0xDF], .movWLoad (.abs16 0x13DF) 13),
    ([0x6B, 0x2A, 0x8E, 0xDE, 0x0D, 0x7B], .movWLoad (.abs32 0x8EDE0D7B) 10),
    ([0x6B, 0x8D, 0xE0, 0x20], .movWStore 13 (.abs16 0xE020)),
    ([0x6B, 0xAE, 0x50, 0x51, 0xC1, 0xCD], .movWStore 14 (.abs32 0x5051C1CD)),
    ([0x01, 0x00, 0x69, 0x36], .movLLoad (.ind 3) 6),
    ([0x01, 0x00, 0x69, 0xD3], .movLStore 3 (.ind 5)),
    ([0x01, 0x00, 0x6F, 0x47, 0x94, 0x75], .movLLoad (.disp16 0x9475 4) 7),
    ([0x01, 0x00, 0x6F, 0x94, 0xD7, 0x09], .movLStore 4 (.disp16 0xD709 1)),
    ([0x01, 0x00, 0x78, 0x10, 0x6B, 0x23, 0xF1, 0xD6, 0x9E, 0xD7], .movLLoad (.disp32 0xF1D69ED7 1) 3),
    ([0x01, 0x00, 0x78, 0x60, 0x6B, 0xA4, 0xAA, 0x05, 0xE1, 0x1B], .movLStore 4 (.disp32 0xAA05E11B 6)),
    ([0x01, 0x00, 0x6D, 0x16], .movLLoad (.inc 1) 6),
    ([0x01, 0x00, 0x6D, 0xB6], .movLStore 6 (.dec 3)),
    ([0x01, 0x00, 0x6B, 0x05, 0xA5, 0xAB], .movLLoad (.abs16 0xA5AB) 5),
    ([0x01, 0x00, 0x6B, 0x26, 0xFE, 0x3B, 0x89, 0x0C], .movLLoad (.abs32 0xFE3B890C) 6),
    ([0x01, 0x00, 0x6B, 0x87, 0x72, 0x16], .movLStore 7 (.abs16 0x7216)),
    ([0x01, 0x00, 0x6B, 0xA3, 0xB7, 0x74, 0xEB, 0x53], .movLStore 3 (.abs32 0xB774EB53)),
    ([0x6A, 0x4F, 0x62, 0xC4], .movfpe 0x62C4 15),
    ([0x6A, 0xCB, 0x58, 0xD6], .movtpe 11 0x58D6),
    ([0x01, 0x10, 0x6D, 0x71], .ldm2 1),
    ([0x01, 0x10, 0x6D, 0xF6], .stm2 6),
    ([0x01, 0x20, 0x6D, 0x76], .ldm3 6),
    ([0x01, 0x20, 0x6D, 0xF0], .stm3 0),
    ([0x01, 0x30, 0x6D, 0x73], .ldm4 3),
    ([0x01, 0x30, 0x6D, 0xF4], .stm4 4),
    ([0x7B, 0x5C, 0x59, 0x8F], .eepmovB),
    ([0x7B, 0xD4, 0x59, 0x8F], .eepmovW)] : List (List Byte × Instr)).all (fun p => decodesTo p.1 p.2) = true :=
      by decide +kernel

/-- add.b to dec.b (30_encoding.md R331). -/
theorem test_decode_arithmetic_1 : ([
    ([0x84, 0x10], .addBImm 0x10 4),
    ([0x08, 0xD5], .addBReg 13 5),
    ([0x79, 0x1C, 0x21, 0x1D], .addWImm 0x211D 12),
    ([0x09, 0x47], .addWReg 4 7),
    ([0x7A, 0x17, 0x64, 0x15, 0x47, 0x9D], .addLImm 0x6415479D 7),
    ([0x0A, 0xC1], .addLReg 4 1),
    ([0x98, 0x2B], .addxImm 0x2B 8),
    ([0x0E, 0x79], .addxReg 7 9),
    ([0x0B, 0x03], .adds1 3),
    ([0x0B, 0x82], .adds2 2),
    ([0x0B, 0x97], .adds4 7),
    ([0x0A, 0x07], .incB 7),
    ([0x0B, 0x5E], .incW1 14),
    ([0x0B, 0xD9], .incW2 9),
    ([0x0B, 0x73], .incL1 3),
    ([0x0B, 0xF6], .incL2 6),
    ([0x0F, 0x07], .daa 7),
    ([0x18, 0x6B], .subBReg 6 11),
    ([0x79, 0x37, 0xE2, 0x5B], .subWImm 0xE25B 7),
    ([0x19, 0x43], .subWReg 4 3),
    ([0x7A, 0x32, 0x15, 0x3E, 0x7C, 0x2B], .subLImm 0x153E7C2B 2),
    ([0x1A, 0xA6], .subLReg 2 6),
    ([0xB1, 0x3C], .subxImm 0x3C 1),
    ([0x1E, 0x8E], .subxReg 8 14),
    ([0x1B, 0x05], .subs1 5),
    ([0x1B, 0x82], .subs2 2),
    ([0x1B, 0x93], .subs4 3),
    ([0x1A, 0x05], .decB 5)] : List (List Byte × Instr)).all (fun p => decodesTo p.1 p.2) = true := by decide +kernel

/-- dec.w to tas (30_encoding.md R331). -/
theorem test_decode_arithmetic_2 : ([
    ([0x1B, 0x51], .decW1 1),
    ([0x1B, 0xD3], .decW2 3),
    ([0x1B, 0x74], .decL1 4),
    ([0x1B, 0xF5], .decL2 5),
    ([0x1F, 0x06], .das 6),
    ([0xAA, 0x9D], .cmpBImm 0x9D 10),
    ([0x1C, 0x63], .cmpBReg 6 3),
    ([0x79, 0x2E, 0xB0, 0xC5], .cmpWImm 0xB0C5 14),
    ([0x1D, 0x9A], .cmpWReg 9 10),
    ([0x7A, 0x26, 0xA7, 0xAB, 0xE1, 0xC3], .cmpLImm 0xA7ABE1C3 6),
    ([0x1F, 0xE1], .cmpLReg 6 1),
    ([0x17, 0x88], .negB 8),
    ([0x17, 0x9F], .negW 15),
    ([0x17, 0xB7], .negL 7),
    ([0x17, 0x5D], .extuW 13),
    ([0x17, 0x77], .extuL 7),
    ([0x17, 0xDB], .extsW 11),
    ([0x17, 0xF7], .extsL 7),
    ([0x50, 0x97], .mulxuB 9 7),
    ([0x52, 0x74], .mulxuW 7 4),
    ([0x01, 0xC0, 0x50, 0x72], .mulxsB 7 2),
    ([0x01, 0xC0, 0x52, 0x86], .mulxsW 8 6),
    ([0x51, 0x71], .divxuB 7 1),
    ([0x53, 0x41], .divxuW 4 1),
    ([0x01, 0xD0, 0x51, 0x48], .divxsB 4 8),
    ([0x01, 0xD0, 0x53, 0x31], .divxsW 3 1),
    ([0x01, 0xE0, 0x7B, 0x3C], .tas 3)] : List (List Byte × Instr)).all (fun p => decodesTo p.1 p.2) = true :=
      by decide +kernel

/-- and.b to not.l (30_encoding.md R331). -/
theorem test_decode_logic_1 : ([
    ([0xE1, 0x9A], .andBImm 0x9A 1),
    ([0x16, 0x21], .andBReg 2 1),
    ([0x79, 0x63, 0x91, 0x19], .andWImm 0x9119 3),
    ([0x66, 0x92], .andWReg 9 2),
    ([0x7A, 0x63, 0xF2, 0xEE, 0x4E, 0x46], .andLImm 0xF2EE4E46 3),
    ([0x01, 0xF0, 0x66, 0x51], .andLReg 5 1),
    ([0xCE, 0x13], .orBImm 0x13 14),
    ([0x14, 0x4A], .orBReg 4 10),
    ([0x79, 0x43, 0x60, 0x51], .orWImm 0x6051 3),
    ([0x64, 0xB5], .orWReg 11 5),
    ([0x7A, 0x43, 0xF4, 0x99, 0x8D, 0x7D], .orLImm 0xF4998D7D 3),
    ([0x01, 0xF0, 0x64, 0x53], .orLReg 5 3),
    ([0xD2, 0x7A], .xorBImm 0x7A 2),
    ([0x15, 0x2E], .xorBReg 2 14),
    ([0x79, 0x58, 0x7C, 0xF3], .xorWImm 0x7CF3 8),
    ([0x65, 0x85], .xorWReg 8 5),
    ([0x7A, 0x52, 0x15, 0xFC, 0x89, 0x9F], .xorLImm 0x15FC899F 2),
    ([0x01, 0xF0, 0x65, 0x16], .xorLReg 1 6),
    ([0x17, 0x06], .notB 6),
    ([0x17, 0x1C], .notW 12),
    ([0x17, 0x33], .notL 3)] : List (List Byte × Instr)).all (fun p => decodesTo p.1 p.2) = true := by decide +kernel

/-- shll.b to shar.l (30_encoding.md R331). -/
theorem test_decode_shift_1 : ([
    ([0x10, 0x08], .shllB 8),
    ([0x10, 0x1E], .shllW 14),
    ([0x10, 0x36], .shllL 6),
    ([0x10, 0x43], .shllB2 3),
    ([0x10, 0x59], .shllW2 9),
    ([0x10, 0x71], .shllL2 1),
    ([0x10, 0x84], .shalB 4),
    ([0x10, 0x99], .shalW 9),
    ([0x10, 0xB3], .shalL 3),
    ([0x10, 0xC3], .shalB2 3),
    ([0x10, 0xDC], .shalW2 12),
    ([0x10, 0xF5], .shalL2 5),
    ([0x11, 0x0F], .shlrB 15),
    ([0x11, 0x11], .shlrW 1),
    ([0x11, 0x37], .shlrL 7),
    ([0x11, 0x49], .shlrB2 9),
    ([0x11, 0x55], .shlrW2 5),
    ([0x11, 0x76], .shlrL2 6),
    ([0x11, 0x8E], .sharB 14),
    ([0x11, 0x92], .sharW 2),
    ([0x11, 0xB6], .sharL 6),
    ([0x11, 0xCE], .sharB2 14),
    ([0x11, 0xD5], .sharW2 5),
    ([0x11, 0xF5], .sharL2 5)] : List (List Byte × Instr)).all (fun p => decodesTo p.1 p.2) = true := by decide +kernel

/-- rotxl.b to rotr.l (30_encoding.md R331). -/
theorem test_decode_shift_2 : ([
    ([0x12, 0x06], .rotxlB 6),
    ([0x12, 0x1F], .rotxlW 15),
    ([0x12, 0x32], .rotxlL 2),
    ([0x12, 0x46], .rotxlB2 6),
    ([0x12, 0x5D], .rotxlW2 13),
    ([0x12, 0x72], .rotxlL2 2),
    ([0x12, 0x89], .rotlB 9),
    ([0x12, 0x99], .rotlW 9),
    ([0x12, 0xB7], .rotlL 7),
    ([0x12, 0xC9], .rotlB2 9),
    ([0x12, 0xD6], .rotlW2 6),
    ([0x12, 0xF6], .rotlL2 6),
    ([0x13, 0x04], .rotxrB 4),
    ([0x13, 0x1A], .rotxrW 10),
    ([0x13, 0x37], .rotxrL 7),
    ([0x13, 0x4D], .rotxrB2 13),
    ([0x13, 0x5D], .rotxrW2 13),
    ([0x13, 0x77], .rotxrL2 7),
    ([0x13, 0x84], .rotrB 4),
    ([0x13, 0x9D], .rotrW 13),
    ([0x13, 0xB2], .rotrL 2),
    ([0x13, 0xCE], .rotrB2 14),
    ([0x13, 0xD7], .rotrW2 7),
    ([0x13, 0xF6], .rotrL2 6)] : List (List Byte × Instr)).all (fun p => decodesTo p.1 p.2) = true := by decide +kernel

/-- bset to bclr (30_encoding.md R331). -/
theorem test_decode_bit_1 : ([
    ([0x70, 0x74], .bsetImm 7 (.reg 4)),
    ([0x7D, 0x50, 0x70, 0x20], .bsetImm 2 (.ind 5)),
    ([0x7F, 0x5C, 0x70, 0x40], .bsetImm 4 (.abs8 0x5C)),
    ([0x6A, 0x18, 0x07, 0x6C, 0x70, 0x60], .bsetImm 6 (.abs16 0x076C)),
    ([0x6A, 0x38, 0xCA, 0x44, 0xEB, 0x87, 0x70, 0x10], .bsetImm 1 (.abs32 0xCA44EB87)),
    ([0x60, 0x58], .bsetRn 5 (.reg 8)),
    ([0x7D, 0x20, 0x60, 0x50], .bsetRn 5 (.ind 2)),
    ([0x7F, 0x9B, 0x60, 0xC0], .bsetRn 12 (.abs8 0x9B)),
    ([0x6A, 0x18, 0x72, 0x7E, 0x60, 0x60], .bsetRn 6 (.abs16 0x727E)),
    ([0x6A, 0x38, 0xEF, 0xE0, 0x9F, 0x08, 0x60, 0xD0], .bsetRn 13 (.abs32 0xEFE09F08)),
    ([0x71, 0x62], .bnotImm 6 (.reg 2)),
    ([0x7D, 0x10, 0x71, 0x20], .bnotImm 2 (.ind 1)),
    ([0x7F, 0x79, 0x71, 0x20], .bnotImm 2 (.abs8 0x79)),
    ([0x6A, 0x18, 0x56, 0x76, 0x71, 0x20], .bnotImm 2 (.abs16 0x5676)),
    ([0x6A, 0x38, 0x7B, 0x8F, 0x2A, 0xB6, 0x71, 0x20], .bnotImm 2 (.abs32 0x7B8F2AB6)),
    ([0x61, 0xAF], .bnotRn 10 (.reg 15)),
    ([0x7D, 0x70, 0x61, 0xA0], .bnotRn 10 (.ind 7)),
    ([0x7F, 0x7B, 0x61, 0x10], .bnotRn 1 (.abs8 0x7B)),
    ([0x6A, 0x18, 0xA7, 0x2A, 0x61, 0xF0], .bnotRn 15 (.abs16 0xA72A)),
    ([0x6A, 0x38, 0xCC, 0xB5, 0x73, 0xDA, 0x61, 0x60], .bnotRn 6 (.abs32 0xCCB573DA)),
    ([0x72, 0x62], .bclrImm 6 (.reg 2)),
    ([0x7D, 0x60, 0x72, 0x70], .bclrImm 7 (.ind 6)),
    ([0x7F, 0xE9, 0x72, 0x10], .bclrImm 1 (.abs8 0xE9))] : List (List Byte × Instr)).all (fun p => decodesTo p.1 p.2) = true := by decide +kernel

/-- bclr to bior (30_encoding.md R331). -/
theorem test_decode_bit_2 : ([
    ([0x6A, 0x18, 0xC8, 0x46, 0x72, 0x40], .bclrImm 4 (.abs16 0xC846)),
    ([0x6A, 0x38, 0xC0, 0x09, 0x34, 0x93, 0x72, 0x60], .bclrImm 6 (.abs32 0xC0093493)),
    ([0x62, 0x48], .bclrRn 4 (.reg 8)),
    ([0x7D, 0x20, 0x62, 0xF0], .bclrRn 15 (.ind 2)),
    ([0x7F, 0xCB, 0x62, 0x70], .bclrRn 7 (.abs8 0xCB)),
    ([0x6A, 0x18, 0x55, 0x20, 0x62, 0xB0], .bclrRn 11 (.abs16 0x5520)),
    ([0x6A, 0x38, 0xCD, 0x02, 0xC5, 0xE2, 0x62, 0x20], .bclrRn 2 (.abs32 0xCD02C5E2)),
    ([0x73, 0x67], .btstImm 6 (.reg 7)),
    ([0x7C, 0x60, 0x73, 0x40], .btstImm 4 (.ind 6)),
    ([0x7E, 0xBA, 0x73, 0x10], .btstImm 1 (.abs8 0xBA)),
    ([0x6A, 0x10, 0x2B, 0x86, 0x73, 0x20], .btstImm 2 (.abs16 0x2B86)),
    ([0x6A, 0x30, 0x07, 0x0D, 0x71, 0x0A, 0x73, 0x20], .btstImm 2 (.abs32 0x070D710A)),
    ([0x63, 0x3A], .btstRn 3 (.reg 10)),
    ([0x7C, 0x40, 0x63, 0xF0], .btstRn 15 (.ind 4)),
    ([0x7E, 0xA8, 0x63, 0xD0], .btstRn 13 (.abs8 0xA8)),
    ([0x6A, 0x10, 0x9C, 0x91, 0x63, 0x30], .btstRn 3 (.abs16 0x9C91)),
    ([0x6A, 0x30, 0x98, 0x8A, 0xF3, 0xFC, 0x63, 0xE0], .btstRn 14 (.abs32 0x988AF3FC)),
    ([0x74, 0x4B], .bor 4 (.reg 11)),
    ([0x7C, 0x20, 0x74, 0x30], .bor 3 (.ind 2)),
    ([0x7E, 0x8D, 0x74, 0x50], .bor 5 (.abs8 0x8D)),
    ([0x6A, 0x10, 0x05, 0x7B, 0x74, 0x20], .bor 2 (.abs16 0x057B)),
    ([0x6A, 0x30, 0xCC, 0xA2, 0xA9, 0x2C, 0x74, 0x10], .bor 1 (.abs32 0xCCA2A92C)),
    ([0x74, 0xEB], .bior 6 (.reg 11))] : List (List Byte × Instr)).all (fun p => decodesTo p.1 p.2) = true :=
      by decide +kernel

/-- bior to biand (30_encoding.md R331). -/
theorem test_decode_bit_3 : ([
    ([0x7C, 0x50, 0x74, 0x90], .bior 1 (.ind 5)),
    ([0x7E, 0xF0, 0x74, 0xE0], .bior 6 (.abs8 0xF0)),
    ([0x6A, 0x10, 0x6F, 0x0F, 0x74, 0xA0], .bior 2 (.abs16 0x6F0F)),
    ([0x6A, 0x30, 0x31, 0xDE, 0xC4, 0xF5, 0x74, 0xF0], .bior 7 (.abs32 0x31DEC4F5)),
    ([0x75, 0x7E], .bxor 7 (.reg 14)),
    ([0x7C, 0x10, 0x75, 0x20], .bxor 2 (.ind 1)),
    ([0x7E, 0x37, 0x75, 0x30], .bxor 3 (.abs8 0x37)),
    ([0x6A, 0x10, 0x80, 0x4D, 0x75, 0x30], .bxor 3 (.abs16 0x804D)),
    ([0x6A, 0x30, 0xC3, 0x80, 0x84, 0xA1, 0x75, 0x20], .bxor 2 (.abs32 0xC38084A1)),
    ([0x75, 0xD6], .bixor 5 (.reg 6)),
    ([0x7C, 0x50, 0x75, 0xB0], .bixor 3 (.ind 5)),
    ([0x7E, 0xD6, 0x75, 0xC0], .bixor 4 (.abs8 0xD6)),
    ([0x6A, 0x10, 0x0F, 0x98, 0x75, 0xA0], .bixor 2 (.abs16 0x0F98)),
    ([0x6A, 0x30, 0x5A, 0x91, 0x96, 0xF1, 0x75, 0xE0], .bixor 6 (.abs32 0x5A9196F1)),
    ([0x76, 0x4B], .band 4 (.reg 11)),
    ([0x7C, 0x70, 0x76, 0x50], .band 5 (.ind 7)),
    ([0x7E, 0x6C, 0x76, 0x50], .band 5 (.abs8 0x6C)),
    ([0x6A, 0x10, 0xEA, 0xF0, 0x76, 0x70], .band 7 (.abs16 0xEAF0)),
    ([0x6A, 0x30, 0x21, 0x79, 0xB3, 0x7E, 0x76, 0x50], .band 5 (.abs32 0x2179B37E)),
    ([0x76, 0xD3], .biand 5 (.reg 3)),
    ([0x7C, 0x10, 0x76, 0xD0], .biand 5 (.ind 1)),
    ([0x7E, 0x71, 0x76, 0xF0], .biand 7 (.abs8 0x71)),
    ([0x6A, 0x10, 0x2E, 0xE1, 0x76, 0xF0],
      .biand 7 (.abs16 0x2EE1))] : List (List Byte × Instr)).all (fun p => decodesTo p.1 p.2) = true :=
      by decide +kernel

/-- biand to bist (30_encoding.md R331). -/
theorem test_decode_bit_4 : ([
    ([0x6A, 0x30, 0x01, 0x01, 0xB8, 0x12, 0x76, 0xD0], .biand 5 (.abs32 0x0101B812)),
    ([0x77, 0x7D], .bld 7 (.reg 13)),
    ([0x7C, 0x40, 0x77, 0x20], .bld 2 (.ind 4)),
    ([0x7E, 0xBA, 0x77, 0x50], .bld 5 (.abs8 0xBA)),
    ([0x6A, 0x10, 0x8E, 0x76, 0x77, 0x10], .bld 1 (.abs16 0x8E76)),
    ([0x6A, 0x30, 0x53, 0x73, 0x90, 0xE6, 0x77, 0x10], .bld 1 (.abs32 0x537390E6)),
    ([0x77, 0xE9], .bild 6 (.reg 9)),
    ([0x7C, 0x40, 0x77, 0xD0], .bild 5 (.ind 4)),
    ([0x7E, 0xC7, 0x77, 0xF0], .bild 7 (.abs8 0xC7)),
    ([0x6A, 0x10, 0xE2, 0x1C, 0x77, 0x90], .bild 1 (.abs16 0xE21C)),
    ([0x6A, 0x30, 0x0E, 0x8B, 0xEC, 0x95, 0x77, 0xD0], .bild 5 (.abs32 0x0E8BEC95)),
    ([0x67, 0x24], .bst 2 (.reg 4)),
    ([0x7D, 0x10, 0x67, 0x30], .bst 3 (.ind 1)),
    ([0x7F, 0x1A, 0x67, 0x70], .bst 7 (.abs8 0x1A)),
    ([0x6A, 0x18, 0x73, 0xC2, 0x67, 0x50], .bst 5 (.abs16 0x73C2)),
    ([0x6A, 0x38, 0x07, 0x22, 0x35, 0xC3, 0x67, 0x50], .bst 5 (.abs32 0x072235C3)),
    ([0x67, 0xFF], .bist 7 (.reg 15)),
    ([0x7D, 0x40, 0x67, 0x90], .bist 1 (.ind 4)),
    ([0x7F, 0x9D, 0x67, 0xB0], .bist 3 (.abs8 0x9D)),
    ([0x6A, 0x18, 0x9B, 0x2C, 0x67, 0xD0], .bist 5 (.abs16 0x9B2C)),
    ([0x6A, 0x38, 0x33, 0x0C, 0x16, 0xA4, 0x67, 0xD0],
      .bist 5 (.abs32 0x330C16A4))] : List (List Byte × Instr)).all (fun p => decodesTo p.1 p.2) = true :=
      by decide +kernel

/-- bra to bpl (30_encoding.md R331). -/
theorem test_decode_branch_1 : ([
    ([0x40, 0xB2], .bra8 0xB2),
    ([0x58, 0x00, 0x46, 0xF6], .bra16 0x46F6),
    ([0x41, 0x74], .brn8 0x74),
    ([0x58, 0x10, 0x82, 0x17], .brn16 0x8217),
    ([0x42, 0x89], .bhi8 0x89),
    ([0x58, 0x20, 0xCE, 0xB0], .bhi16 0xCEB0),
    ([0x43, 0x7B], .bls8 0x7B),
    ([0x58, 0x30, 0x81, 0xFD], .bls16 0x81FD),
    ([0x44, 0xF2], .bcc8 0xF2),
    ([0x58, 0x40, 0x3F, 0x67], .bcc16 0x3F67),
    ([0x45, 0xB3], .bcs8 0xB3),
    ([0x58, 0x50, 0x85, 0xF2], .bcs16 0x85F2),
    ([0x46, 0xE1], .bne8 0xE1),
    ([0x58, 0x60, 0xE0, 0x41], .bne16 0xE041),
    ([0x47, 0xF2], .beq8 0xF2),
    ([0x58, 0x70, 0xED, 0x85], .beq16 0xED85),
    ([0x48, 0x43], .bvc8 0x43),
    ([0x58, 0x80, 0xEC, 0x3C], .bvc16 0xEC3C),
    ([0x49, 0x90], .bvs8 0x90),
    ([0x58, 0x90, 0xE4, 0x8C], .bvs16 0xE48C),
    ([0x4A, 0xF2], .bpl8 0xF2)] : List (List Byte × Instr)).all (fun p => decodesTo p.1 p.2) = true := by decide +kernel

/-- bpl to rts (30_encoding.md R331). -/
theorem test_decode_branch_2 : ([
    ([0x58, 0xA0, 0x33, 0xDD], .bpl16 0x33DD),
    ([0x4B, 0xD8], .bmi8 0xD8),
    ([0x58, 0xB0, 0x72, 0x92], .bmi16 0x7292),
    ([0x4C, 0x24], .bge8 0x24),
    ([0x58, 0xC0, 0x6A, 0xA9], .bge16 0x6AA9),
    ([0x4D, 0x20], .blt8 0x20),
    ([0x58, 0xD0, 0x64, 0x72], .blt16 0x6472),
    ([0x4E, 0x72], .bgt8 0x72),
    ([0x58, 0xE0, 0x50, 0xE5], .bgt16 0x50E5),
    ([0x4F, 0x13], .ble8 0x13),
    ([0x58, 0xF0, 0xAB, 0xD1], .ble16 0xABD1),
    ([0x59, 0x20], .jmpInd 2),
    ([0x5A, 0x6D, 0xA7, 0x9B], .jmpAbs24 0x6DA79B),
    ([0x5B, 0x13], .jmpMemInd 0x13),
    ([0x55, 0x37], .bsr8 0x37),
    ([0x5C, 0x00, 0xAB, 0x63], .bsr16 0xAB63),
    ([0x5D, 0x30], .jsrInd 3),
    ([0x5E, 0xC8, 0xB0, 0x08], .jsrAbs24 0xC8B008),
    ([0x5F, 0x20], .jsrMemInd 0x20),
    ([0x54, 0x70], .rts)] : List (List Byte × Instr)).all (fun p => decodesTo p.1 p.2) = true := by decide +kernel

/-- V11, V12, V14, V23: reserved encodings are refused (30_encoding.md R310, R340, R342). -/
theorem test_decode_invalid :
    ([[0x00, 0x01], [0x00, 0x80], [0x57, 0x40], [0x57, 0x01], [0x0F, 0x8A], [0x01, 0x41, 0x12, 0x34],
      [0x7D, 0x00, 0x73, 0x00], [0x7C, 0x10, 0x78, 0x60], [0x01, 0xE0, 0x7B, 0x9C], [0x7B, 0x5C, 0x59, 0x80],
      [0x17, 0xC0], [0x01, 0x10, 0x6D, 0x76], [0x01, 0x20, 0x6D, 0x77], [0x01, 0x30, 0x6D, 0xF2]]
      : List (List Byte)).all (fun b => failsWith b .invalid) = true := by decide +kernel

/-- V7: a byte string that ends inside an instruction (30_encoding.md R320, R345). -/
theorem test_decode_truncated :
    ([[0x46], [], [0x7A, 0x07], [0x7A, 0x07, 0x00], [0x01, 0x00], [0x01, 0x00, 0x6B]] : List (List Byte)).all
      (fun b => failsWith b .truncated) = true := by decide +kernel

/-- V8, V12, V13, V15, V22: bytes after an instruction are not read, and field values at their ends. -/
theorem test_decode_ends :
    ([([0x83, 0x42, 0x99], .addBImm 0x42 3), ([0x57, 0x00], .trapa 0), ([0xFF, 0xFF], .movBImm 0xFF 15),
      ([0x0F, 0x82], .movLReg 0 2), ([0x0A, 0x80], .addLReg 0 0), ([0x0A, 0xF1], .addLReg 7 1),
      ([0x01, 0x10, 0x6D, 0x77], .ldm2 7), ([0x01, 0x00, 0x6F, 0x12, 0xFF, 0xFC], .movLLoad (.disp16 0xFFFC 1) 2)]
      : List (List Byte × Instr)).all (fun p => decodesTo p.1 p.2) = true := by decide +kernel

/-- The table numbers words with the first word's bytes highest (spec/opcode_table.json): NOP, ADD.B #0x42 and
MOV.L @(0x10:32,ER1), ER2. -/
theorem test_decode_table_word :
    decodeTableWord 16 0x0000 = some .nop ∧ decodeTableWord 16 0x8342 = some (.addBImm 0x42 3) ∧
      decodeTableWord 80 0x010078106B2200000010 = some (.movLLoad (.disp32 0x10 1) 2) := by decide +kernel

/-! ### Test vectors of 95_test_vectors.md, data transfer -/

/-- V4 (corrected): r3h is bits 15:8 of ER3. -/
theorem test_v4_read : runs (start 0x00 [(.long 3, 0xBADFAAAA)] []) [0x00, 0x00]
    (fun t => t.readB 3 == 0xAA && t.readW 11 == 0xBADF) = true := by decide +kernel

/-- V4 (corrected): a write of r3h changes bits 15:8 of ER3 only. -/
theorem test_v4_write : ((start 0 [(.long 3, 0xBADFAAAA), (.byte 3,
  0)] []).readL 3 == 0xBADF00AA) = true := by decide +kernel

/-- V30: mov.b r0l, r3l. -/
theorem test_v30 : runs (start 0x01 [(.byte 8, 0x80), (.byte 11, 0x12)] []) [0x0C, 0x8B]
    (fun t => t.readB 11 == 0x80 && t.pc == 0x1002 && t.ccr == 0x09) = true := by decide +kernel

/-- V31: mov.w r0, r1. -/
theorem test_v31 : runs (start 0x00 [(.word 0, 0), (.word 1, 0xFFFF)] []) [0x0D, 0x01]
    (fun t => t.readW 1 == 0 && t.ccr == 0x04) = true := by decide +kernel

/-- V32: mov.l er0, er2. -/
theorem test_v32 : runs (start 0x00 [(.long 0, 0x12345678)] []) [0x0F, 0x82]
    (fun t => t.readL 2 == 0x12345678 && t.ccr == 0x00) = true := by decide +kernel

/-- V33: mov.b #0x7f, r0l. -/
theorem test_v33 : runs (start 0x00 [] []) [0xF8, 0x7F]
    (fun t => t.readB 8 == 0x7F && t.ccr == 0x00) = true := by decide +kernel

/-- V34: mov.w #0x8000, r2. -/
theorem test_v34 : runs (start 0x00 [] []) [0x79, 0x02, 0x80, 0x00]
    (fun t => t.readW 2 == 0x8000 && t.ccr == 0x08) = true := by decide +kernel

/-- V35: mov.l #0x10000, er3. -/
theorem test_v35 : runs (start 0x00 [] []) [0x7A, 0x03, 0x00, 0x01, 0x00, 0x00]
    (fun t => t.readL 3 == 0x10000 && t.pc == 0x1006 && t.ccr == 0x00) = true := by decide +kernel

/-- V36: mov.b @(-2:16,er1), r2l. -/
theorem test_v36 : runs (start 0x00 [(.long 1, 0x2002)] (bytesAt 0x2000 [0x7F] [])) [0x6E, 0x1A, 0xFF, 0xFE]
    (fun t => t.readB 10 == 0x7F && t.ccr == 0x00) = true := by decide +kernel

/-- V37: mov.w @er1, r2 ignores bit 0 of its address. -/
theorem test_v37 : runs (start 0x00 [(.long 1, 0x2001)] (bytesAt 0x2000 [0x12, 0x34] [])) [0x69, 0x12]
    (fun t => t.readW 2 == 0x1234 && t.readL 1 == 0x2001) = true := by decide +kernel

/-- V38: mov.l @er1, er2. -/
theorem test_v38 : runs (start 0x00 [(.long 1, 0x2000)] (bytesAt 0x2000 [0x80, 0x00, 0x00, 0x01] [])) [0x01, 0x00,
  0x69, 0x12]
    (fun t => t.readL 2 == 0x80000001 && t.ccr == 0x08) = true := by decide +kernel

/-- V39: mov.b r2l, @-er1. -/
theorem test_v39 : runs (start 0x01 [(.long 1, 0x2001), (.byte 10, 0)] (bytesAt 0x2000 [0x55] [])) [0x6C, 0x9A]
    (fun t => t.readL 1 == 0x2000 && t.ccr == 0x05 && holdsAt t 0x2000 [0x00]) = true := by decide +kernel

/-- V40: mov.w r2, @-er7. -/
theorem test_v40 : runs (start 0x00 [(.long 7, 0x3000), (.word 2, 0x1234)] []) [0x6D, 0xF2]
    (fun t => t.readL 7 == 0x2FFE && holdsAt t 0x2FFE [0x12, 0x34]) = true := by decide +kernel

/-- V41: mov.l er2, @-er7. -/
theorem test_v41 : runs (start 0x00 [(.long 7, 0x3000), (.long 2, 0xDEADBEEF)] []) [0x01, 0x00, 0x6D, 0xF2]
    (fun t => t.readL 7 == 0x2FFC && t.ccr == 0x08 &&
      holdsAt t 0x2FFC [0xDE, 0xAD, 0xBE, 0xEF]) = true := by decide +kernel

/-- V42: movfpe without an E clock. -/
theorem test_v42_movfpe : faults (start 0x00 [] []) [0x6A, 0x42, 0xFF, 0x00]
    (.unmodelled .movfpe 0x1000) = true := by decide +kernel

/-- V42: movtpe without an E clock. -/
theorem test_v42_movtpe : faults (start 0x00 [] []) [0x6A, 0xC2, 0xFF, 0x00]
    (.unmodelled .movtpe 0x1000) = true := by decide +kernel

/-- V43: ldm.l @er7+, (er4-er5). -/
theorem test_v43 : runs (start 0x00 [(.long 7, 0x2FF8)] (bytesAt 0x2FF8 [0x44, 0x00, 0x00, 0x00, 0x55, 0x00, 0x00,
  0x00] [])) [0x01, 0x10, 0x6D, 0x75]
    (fun t => t.readL 5 == 0x44000000 && t.readL 4 == 0x55000000 && t.readL 7 == 0x3000) = true := by decide +kernel

/-- V44: stm.l (er0-er3), @-er7. -/
theorem test_v44 : runs (start 0x00 [(.long 7, 0x3000), (.long 1, 1), (.long 2, 2), (.long 3, 3)] []) [0x01, 0x30,
  0x6D, 0xF0]
    (fun t => t.readL 7 == 0x2FF0 && holdsAt t 0x2FF0 [0x00, 0x00, 0x00, 0x03, 0x00, 0x00, 0x00, 0x02, 0x00, 0x00,
      0x00, 0x01, 0x00, 0x00, 0x00, 0x00]) = true := by decide +kernel

/-- V45: eepmov.b of 3 bytes. -/
theorem test_v45 : runs (start 0x2A [(.byte 12, 3), (.long 5, 0x2000), (.long 6, 0x2100)] (bytesAt 0x2000 [0x01,
  0x02, 0x03] [])) [0x7B, 0x5C, 0x59, 0x8F]
    (fun t => t.readB 12 == 0 && t.readL 5 == 0x2003 && t.readL 6 == 0x2103 && t.ccr == 0x2A &&
      holdsAt t 0x2100 [0x01, 0x02, 0x03]) = true := by decide +kernel

/-- V46: the first byte of eepmov.w; it stays at its own address. -/
theorem test_v46 : runs (start 0x00 [(.word 4, 2), (.long 5, 0x2000), (.long 6, 0x2100)] (bytesAt 0x2000 [0x09,
  0x08] [])) [0x7B, 0xD4, 0x59, 0x8F]
    (fun t => t.readW 4 == 1 && t.readL 5 == 0x2001 && t.readL 6 == 0x2101 && t.pc == 0x1000 &&
      holdsAt t 0x2100 [0x09]) = true := by decide +kernel

/-- V46: the last byte of eepmov.w. -/
theorem test_v46_last : runs (start 0x00 [(.word 4, 1), (.long 5, 0x2001), (.long 6, 0x2101)] (bytesAt 0x2000 [0x09,
  0x08] [])) [0x7B, 0xD4, 0x59, 0x8F]
    (fun t => t.readW 4 == 0 && t.readL 5 == 0x2002 && t.readL 6 == 0x2102 && t.pc == 0x1004 &&
      holdsAt t 0x2101 [0x08]) = true := by decide +kernel

/-- V47: eepmov.b of no byte. -/
theorem test_v47 : runs (start 0x00 [(.long 5, 0x2000), (.long 6, 0x2100)] (bytesAt 0x2000 [0x09] [])) [0x7B, 0x5C,
  0x59, 0x8F]
    (fun t => t.readL 5 == 0x2000 && t.pc == 0x1004 && holdsAt t 0x2100 [0x00]) = true := by decide +kernel

/-- V48: mov.w @er7+, r7 runs on and every byte of ER7 is defined; its value is a draw. -/
theorem test_v48 : runs (start 2 [(.long 7, 0x3000)] []) [0x6D, 0x77]
    (fun t => t.definedL 7 && t.pc == 0x1002) = true := by decide +kernel

/-- V42 with an E clock: movfpe loads its byte (40_data_transfer.md R413). -/
theorem test_movfpe_e_clock :
    runs { start 0 [] (bytesAt 0xFFFF00 [0x80] []) with params := { Params.default with hasEClock := true } }
      [0x6A, 0x42, 0xFF, 0x00] (fun t => t.readB 2 == 0x80 && t.ccr == 0x08) = true := by decide +kernel

/-- movtpe with an E clock stores its byte (40_data_transfer.md R414). -/
theorem test_movtpe_e_clock :
    runs { start 0 [(.byte 2, 0x5A)] [] with params := { Params.default with hasEClock := true } }
      [0x6A, 0xC2, 0xFF, 0x00] (fun t => holdsAt t 0xFFFF00 [0x5A]) = true := by decide +kernel

/-- V22: ldm.l with ER7 in its list. -/
theorem test_ldm_with_er7 : faults (start 0x00 [(.long 7, 0x2FF8)] []) [0x01, 0x10, 0x6D, 0x77]
    (.unmodelled .ldmWithEr7 0x1000) = true := by decide +kernel

/-! ### Test vectors, arithmetic -/

/-- V5 and V50: add.b #0x40, r3h. -/
theorem test_v5 : runs (start 0x00 [(.byte 3, 0xCA)] []) [0x83, 0x40]
    (fun t => t.readB 3 == 0x0A && t.ccr == 0x01) = true := by decide +kernel

/-- V51: add.w r0, r1. -/
theorem test_v51 : runs (start 0x00 [(.word 0, 0x8000), (.word 1, 0x8000)] []) [0x09, 0x01]
    (fun t => t.readW 1 == 0 && t.ccr == 0x07) = true := by decide +kernel

/-- V52: add.l #1, er1. -/
theorem test_v52 : runs (start 0x00 [(.long 1, 0xFFFFFFFF)] []) [0x7A, 0x11, 0x00, 0x00, 0x00, 0x01]
    (fun t => t.readL 1 == 0 && t.ccr == 0x25) = true := by decide +kernel

/-- V53: addx #0, r0h keeps Z = 1. -/
theorem test_v53 : runs (start 0x05 [(.byte 0, 0xFF)] []) [0x90, 0x00]
    (fun t => t.readB 0 == 0 && t.ccr == 0x25) = true := by decide +kernel

/-- V54: addx #0, r0h does not set Z. -/
theorem test_v54 : runs (start 0x01 [(.byte 0, 0xFF)] []) [0x90, 0x00]
    (fun t => t.readB 0 == 0 && t.ccr == 0x21) = true := by decide +kernel

/-- V55: adds #4, er0 changes no flag. -/
theorem test_v55 : runs (start 0x2A [(.long 0, 0xFFFFFFFE)] []) [0x0B, 0x90]
    (fun t => t.readL 0 == 2 && t.ccr == 0x2A) = true := by decide +kernel

/-- V56: inc.b r0l keeps C and H. -/
theorem test_v56 : runs (start 0x21 [(.byte 8, 0x7F)] []) [0x0A, 0x08]
    (fun t => t.readB 8 == 0x80 && t.ccr == 0x2B) = true := by decide +kernel

/-- V57: inc.w #2, r0. -/
theorem test_v57 : runs (start 0x00 [(.word 0, 0xFFFE)] []) [0x0B, 0xD0]
    (fun t => t.readW 0 == 0 && t.ccr == 0x04) = true := by decide +kernel

/-- V58: inc.l #2, er0. -/
theorem test_v58 : runs (start 0x00 [(.long 0, 0x7FFFFFFF)] []) [0x0B, 0xF0]
    (fun t => t.readL 0 == 0x80000001 && t.ccr == 0x0A) = true := by decide +kernel

/-- V60: sub.b r0l, r3l. -/
theorem test_v60 : runs (start 0x00 [(.byte 8, 1), (.byte 11, 0x80)] []) [0x18, 0x8B]
    (fun t => t.readB 11 == 0x7F && t.ccr == 0x22) = true := by decide +kernel

/-- V61: sub.w #1, r1. -/
theorem test_v61 : runs (start 0x00 [(.word 1, 0x1000)] []) [0x79, 0x31, 0x00, 0x01]
    (fun t => t.readW 1 == 0x0FFF && t.ccr == 0x20) = true := by decide +kernel

/-- V62: sub.l er0, er1. -/
theorem test_v62 : runs (start 0x00 [(.long 0, 1), (.long 1, 0)] []) [0x1A, 0x81]
    (fun t => t.readL 1 == 0xFFFFFFFF && t.ccr == 0x29) = true := by decide +kernel

/-- V63: subx r0l, r3l keeps Z = 1. -/
theorem test_v63 : runs (start 0x05 [(.byte 8, 0), (.byte 11, 1)] []) [0x1E, 0x8B]
    (fun t => t.readB 11 == 0 && t.ccr == 0x04) = true := by decide +kernel

/-- V63: subx r0l, r3l does not set Z. -/
theorem test_v63_z0 : runs (start 0x01 [(.byte 8, 0), (.byte 11, 1)] []) [0x1E, 0x8B]
    (fun t => t.readB 11 == 0 && t.ccr == 0x00) = true := by decide +kernel

/-- V64: subs #4, er0. -/
theorem test_v64 : runs (start 0x2A [(.long 0, 2)] []) [0x1B, 0x90]
    (fun t => t.readL 0 == 0xFFFFFFFE && t.ccr == 0x2A) = true := by decide +kernel

/-- V65: dec.b r0l. -/
theorem test_v65 : runs (start 0x00 [(.byte 8, 0x80)] []) [0x1A, 0x08]
    (fun t => t.readB 8 == 0x7F && t.ccr == 0x02) = true := by decide +kernel

/-- V66: dec.w #2, r0. -/
theorem test_v66 : runs (start 0x00 [(.word 0, 1)] []) [0x1B, 0xD0]
    (fun t => t.readW 0 == 0xFFFF && t.ccr == 0x08) = true := by decide +kernel

/-- V67: dec.l #1, er0. -/
theorem test_v67 : runs (start 0x00 [(.long 0, 0x80000000)] []) [0x1B, 0x70]
    (fun t => t.readL 0 == 0x7FFFFFFF && t.ccr == 0x02) = true := by decide +kernel

/-- V70: cmp.b #6, r0l. -/
theorem test_v70 : runs (start 0x00 [(.byte 8, 5)] []) [0xA8, 0x06]
    (fun t => t.readB 8 == 5 && t.ccr == 0x29) = true := by decide +kernel

/-- V71: cmp.w #0x8000, r0. -/
theorem test_v71 : runs (start 0x00 [(.word 0, 0x7FFF)] []) [0x79, 0x20, 0x80, 0x00]
    (fun t => t.readW 0 == 0x7FFF && t.ccr == 0x0B) = true := by decide +kernel

/-- V72: cmp.l er0, er1. -/
theorem test_v72 : runs (start 0x00 [(.long 0, 1), (.long 1, 1)] []) [0x1F, 0x81]
    (fun t => t.readL 1 == 1 && t.ccr == 0x04) = true := by decide +kernel

/-- V73: neg.b r0l. -/
theorem test_v73 : runs (start 0x00 [(.byte 8, 1)] []) [0x17, 0x88]
    (fun t => t.readB 8 == 0xFF && t.ccr == 0x29) = true := by decide +kernel

/-- V74: neg.w r0. -/
theorem test_v74 : runs (start 0x00 [(.word 0, 0x8000)] []) [0x17, 0x90]
    (fun t => t.readW 0 == 0x8000 && t.ccr == 0x0B) = true := by decide +kernel

/-- V75: neg.l er0. -/
theorem test_v75 : runs (start 0x00 [(.long 0, 1)] []) [0x17, 0xB0]
    (fun t => t.readL 0 == 0xFFFFFFFF && t.ccr == 0x29) = true := by decide +kernel

/-- V76: extu.w r0. -/
theorem test_v76 : runs (start 0x00 [(.word 0, 0xFF80)] []) [0x17, 0x50]
    (fun t => t.readW 0 == 0x80 && t.ccr == 0x00) = true := by decide +kernel

/-- V77: extu.l er0. -/
theorem test_v77 : runs (start 0x00 [(.long 0, 0x1234FFFF)] []) [0x17, 0x70]
    (fun t => t.readL 0 == 0xFFFF && t.ccr == 0x00) = true := by decide +kernel

/-- V78: exts.w r0. -/
theorem test_v78 : runs (start 0x00 [(.word 0, 0x80)] []) [0x17, 0xD0]
    (fun t => t.readW 0 == 0xFF80 && t.ccr == 0x08) = true := by decide +kernel

/-- V79: exts.l er0. -/
theorem test_v79 : runs (start 0x00 [(.long 0, 0x8000)] []) [0x17, 0xF0]
    (fun t => t.readL 0 == 0xFFFF8000 && t.ccr == 0x08) = true := by decide +kernel

/-- V80: mulxu.b r0l, r0 changes no flag. -/
theorem test_v80 : runs (start 0x2A [(.word 0, 0xFF)] []) [0x50, 0x80]
    (fun t => t.readW 0 == 0xFE01 && t.ccr == 0x2A) = true := by decide +kernel

/-- V81: mulxu.w r0, er1. -/
theorem test_v81 : runs (start 0x00 [(.word 0, 0xFFFF), (.long 1, 0xFFFF)] []) [0x52, 0x01]
    (fun t => t.readL 1 == 0xFFFE0001 && t.ccr == 0x00) = true := by decide +kernel

/-- V82: mulxs.b r0l, r1. -/
theorem test_v82 : runs (start 0x00 [(.byte 8, 0xFF), (.word 1, 3)] []) [0x01, 0xC0, 0x50, 0x81]
    (fun t => t.readW 1 == 0xFFFD && t.ccr == 0x08) = true := by decide +kernel

/-- V83: mulxs.w r0, er1. -/
theorem test_v83 : runs (start 0x00 [(.word 0, 0xFFFF), (.long 1, 1)] []) [0x01, 0xC0, 0x52, 0x01]
    (fun t => t.readL 1 == 0xFFFFFFFF && t.ccr == 0x08) = true := by decide +kernel

/-- V84: divxu.b r0l, r1. -/
theorem test_v84 : runs (start 0x00 [(.byte 8, 7), (.word 1, 0x64)] []) [0x51, 0x81]
    (fun t => t.readW 1 == 0x020E && t.ccr == 0x00) = true := by decide +kernel

/-- V86: divxu.w r0, er1. -/
theorem test_v86 : runs (start 0x00 [(.word 0, 0x8000), (.long 1, 0x12345)] []) [0x53, 0x01]
    (fun t => t.readL 1 == 0x23450002 && t.ccr == 0x08) = true := by decide +kernel

/-- V87: divxs.b r0l, r1. -/
theorem test_v87 : runs (start 0x00 [(.byte 8, 0xFD), (.word 1, 7)] []) [0x01, 0xD0, 0x51, 0x81]
    (fun t => t.readW 1 == 0x01FE && t.ccr == 0x08) = true := by decide +kernel

/-- V89: divxs.w r0, er1. -/
theorem test_v89 : runs (start 0x00 [(.word 0, 0xFFFE), (.long 1, 0xFFFFFFF9)] []) [0x01, 0xD0, 0x53, 0x01]
    (fun t => t.readL 1 == 0xFFFF0003 && t.ccr == 0x00) = true := by decide +kernel

/-- V59: daa r0l; H and V are draws. -/
theorem test_v59 : runs (start 0x00 [(.byte 8, 0x0A)] []) [0x0F, 0x08]
    (fun t => t.readB 8 == 0x10 && t.pc == 0x1002) = true := by decide +kernel

/-- V68: das r0l; H and V are draws. -/
theorem test_v68 : runs (start 0x20 [(.byte 8, 0x0F)] []) [0x1F, 0x08]
    (fun t => t.readB 8 == 0x09 && t.pc == 0x1002) = true := by decide +kernel

/-- V69: das r0l outside its table runs on with draws. -/
theorem test_v69 : runs (start 0x21 [(.byte 8, 0x2F)] []) [0x1F, 0x08]
    (fun t => t.pc == 0x1002) = true := by decide +kernel

/-- V85: divxu.b by zero: a free result, Z and N from the divisor. -/
theorem test_v85 : runs (start 0x00 [(.word 1, 0x64)] []) [0x51, 0x81]
    (fun t => t.pc == 0x1002 && t.flag .z && !t.flag .n) = true := by decide +kernel

/-- V88: divxs.b overflow: a free result. -/
theorem test_v88 : runs (start 0x00 [(.byte 8, 0xFF), (.word 1, 0xFF80)] []) [0x01, 0xD0, 0x51, 0x81]
    (fun t => t.pc == 0x1004) = true := by decide +kernel

/-- V90: tas @er1. -/
theorem test_v90 : runs (start 0x01 [(.long 1, 0x2000)] []) [0x01, 0xE0, 0x7B, 0x1C]
    (fun t => t.ccr == 0x05 && holdsAt t 0x2000 [0x80]) = true := by decide +kernel

/-! ### Test vectors, logic -/

/-- V100: and.b #0x0f, r0l keeps H and C. -/
theorem test_v100 : runs (start 0x21 [(.byte 8, 0xF5)] []) [0xE8, 0x0F]
    (fun t => t.readB 8 == 5 && t.ccr == 0x21) = true := by decide +kernel

/-- V101: and.w #0x8000, r0. -/
theorem test_v101 : runs (start 0x00 [(.word 0, 0xFFFF)] []) [0x79, 0x60, 0x80, 0x00]
    (fun t => t.readW 0 == 0x8000 && t.ccr == 0x08) = true := by decide +kernel

/-- V102: and.l er0, er1. -/
theorem test_v102 : runs (start 0x00 [(.long 0, 0xFFFF0000), (.long 1, 0xFFFF)] []) [0x01, 0xF0, 0x66, 0x01]
    (fun t => t.readL 1 == 0 && t.ccr == 0x04) = true := by decide +kernel

/-- V103: or.b #0x80, r0l. -/
theorem test_v103 : runs (start 0x00 [(.byte 8, 1)] []) [0xC8, 0x80]
    (fun t => t.readB 8 == 0x81 && t.ccr == 0x08) = true := by decide +kernel

/-- V104: or.w r0, r1. -/
theorem test_v104 : runs (start 0x00 [(.word 0, 0x00F0), (.word 1, 0x0F00)] []) [0x64, 0x01]
    (fun t => t.readW 1 == 0x0FF0 && t.ccr == 0x00) = true := by decide +kernel

/-- V105: or.l #1, er0. -/
theorem test_v105 : runs (start 0x00 [(.long 0, 0x80000000)] []) [0x7A, 0x40, 0x00, 0x00, 0x00, 0x01]
    (fun t => t.readL 0 == 0x80000001 && t.ccr == 0x08) = true := by decide +kernel

/-- V106: xor.b r0l, r3l. -/
theorem test_v106 : runs (start 0x00 [(.byte 8, 0xAA), (.byte 11, 0xAA)] []) [0x15, 0x8B]
    (fun t => t.readB 11 == 0 && t.ccr == 0x04) = true := by decide +kernel

/-- V107: xor.w #0xffff, r0. -/
theorem test_v107 : runs (start 0x00 [(.word 0, 0xFF)] []) [0x79, 0x50, 0xFF, 0xFF]
    (fun t => t.readW 0 == 0xFF00 && t.ccr == 0x08) = true := by decide +kernel

/-- V108: xor.l er0, er1. -/
theorem test_v108 : runs (start 0x00 [(.long 0, 0xFFFFFFFF)] []) [0x01, 0xF0, 0x65, 0x01]
    (fun t => t.readL 1 == 0xFFFFFFFF && t.ccr == 0x08) = true := by decide +kernel

/-- V109: not.b r0l. -/
theorem test_v109 : runs (start 0x01 [(.byte 8, 0xFF)] []) [0x17, 0x08]
    (fun t => t.readB 8 == 0 && t.ccr == 0x05) = true := by decide +kernel

/-- V110: not.w r0. -/
theorem test_v110 : runs (start 0x00 [(.word 0, 0x7FFF)] []) [0x17, 0x10]
    (fun t => t.readW 0 == 0x8000 && t.ccr == 0x08) = true := by decide +kernel

/-- V111: not.l er0. -/
theorem test_v111 : runs (start 0x00 [(.long 0, 0)] []) [0x17, 0x30]
    (fun t => t.readL 0 == 0xFFFFFFFF && t.ccr == 0x08) = true := by decide +kernel

/-- V112: and.b clears V. -/
theorem test_v112 : runs (start 0x02 [(.byte 8, 0xF5)] []) [0xE8, 0x0F]
    (fun t => t.readB 8 == 5 && t.ccr == 0x00) = true := by decide +kernel

/-! ### Test vectors, shifts and rotates -/

/-- V2: rotl.b r3h. -/
theorem test_v2 : runs (start 0x00 [(.byte 3, 0xAA)] []) [0x12, 0x83]
    (fun t => t.readB 3 == 0x55 && t.ccr == 0x01) = true := by decide +kernel

/-- V3: rotl.b #2, r3h. -/
theorem test_v3 : runs (start 0x00 [(.byte 3, 0xAA)] []) [0x12, 0xC3]
    (fun t => t.readB 3 == 0xAA && t.ccr == 0x08) = true := by decide +kernel

/-- V20: shal.b #2, r3h: V from every step. -/
theorem test_v20 : runs (start 0x00 [(.byte 3, 0xA0)] []) [0x10, 0xC3]
    (fun t => t.readB 3 == 0x80 && t.ccr == 0x0A) = true := by decide +kernel

/-- V120: shal.b r3h. -/
theorem test_v120 : runs (start 0x00 [(.byte 3, 0xA0)] []) [0x10, 0x83]
    (fun t => t.readB 3 == 0x40 && t.ccr == 0x03) = true := by decide +kernel

/-- V121: shar.b #2, r3h. -/
theorem test_v121 : runs (start 0x00 [(.byte 3, 0x82)] []) [0x11, 0xC3]
    (fun t => t.readB 3 == 0xE0 && t.ccr == 0x09) = true := by decide +kernel

/-- V122: shll.b #2, r3h. -/
theorem test_v122 : runs (start 0x00 [(.byte 3, 0x60)] []) [0x10, 0x43]
    (fun t => t.readB 3 == 0x80 && t.ccr == 0x09) = true := by decide +kernel

/-- V123: shlr.b #2, r3h. -/
theorem test_v123 : runs (start 0x00 [(.byte 3, 0x82)] []) [0x11, 0x43]
    (fun t => t.readB 3 == 0x20 && t.ccr == 0x01) = true := by decide +kernel

/-- V124: rotr.b #2, r3h. -/
theorem test_v124 : runs (start 0x00 [(.byte 3, 1)] []) [0x13, 0xC3]
    (fun t => t.readB 3 == 0x40 && t.ccr == 0x00) = true := by decide +kernel

/-- V125: rotxl.b #2, r3h. -/
theorem test_v125 : runs (start 0x01 [(.byte 3, 0x80)] []) [0x12, 0x43]
    (fun t => t.readB 3 == 3 && t.ccr == 0x00) = true := by decide +kernel

/-- V126: rotxr.b #2, r3h. -/
theorem test_v126 : runs (start 0x01 [(.byte 3, 3)] []) [0x13, 0x43]
    (fun t => t.readB 3 == 0xC0 && t.ccr == 0x09) = true := by decide +kernel

/-- shar.w r0 keeps the sign (43_shift_rotate.md R711). -/
theorem test_shar_w : runs (start 0x00 [(.word 0, 0x8001)] []) [0x11, 0x90]
    (fun t => t.readW 0 == 0xC000 && t.ccr == 0x09) = true := by decide +kernel

/-- shal.l er0 sets V where the sign changes (43_shift_rotate.md R710). -/
theorem test_shal_l : runs (start 0x00 [(.long 0, 0x40000000)] []) [0x10, 0xB0]
    (fun t => t.readL 0 == 0x80000000 && t.ccr == 0x0A) = true := by decide +kernel

/-- rotxr.l er0 takes C in at the top (43_shift_rotate.md R717). -/
theorem test_rotxr_l : runs (start 0x01 [(.long 0, 1)] []) [0x13, 0x30]
    (fun t => t.readL 0 == 0x80000000 && t.ccr == 0x09) = true := by decide +kernel

/-- shlr.w #2, r0 (43_shift_rotate.md R713). -/
theorem test_shlr_w2 : runs (start 0x00 [(.word 0, 0xFFFE)] []) [0x11, 0x50]
    (fun t => t.readW 0 == 0x3FFF && t.ccr == 0x01) = true := by decide +kernel

/-! ### Test vectors, bit manipulation -/

/-- V130: bset #7, @er1. -/
theorem test_v130 : runs (start 0x2A [(.long 1, 0x2000)] []) [0x7D, 0x10, 0x70, 0x70]
    (fun t => t.ccr == 0x2A && holdsAt t 0x2000 [0x80]) = true := by decide +kernel

/-- V131: bclr r2l, r0l takes the low 3 bits of r2l. -/
theorem test_v131 : runs (start 0x00 [(.byte 10, 0xFE), (.byte 8, 0xFF)] []) [0x62, 0xA8]
    (fun t => t.readB 8 == 0xBF) = true := by decide +kernel

/-- V132: bnot #0, @0x20:8 at 0xFFFF20. -/
theorem test_v132 : runs (start 0x00 [] (bytesAt 0xFFFF20 [0x01] [])) [0x7F, 0x20, 0x71, 0x00]
    (fun t => holdsAt t 0xFFFF20 [0x00]) = true := by decide +kernel

/-- V133: btst #0, r0l. -/
theorem test_v133 : runs (start 0x00 [(.byte 8, 0x80)] []) [0x73, 0x08]
    (fun t => t.ccr == 0x04) = true := by decide +kernel

/-- V133: btst #7, r0l. -/
theorem test_v133_set : runs (start 0x04 [(.byte 8, 0x80)] []) [0x73, 0x78]
    (fun t => t.ccr == 0x00) = true := by decide +kernel

/-- V134: bld #6, @er1. -/
theorem test_v134 : runs (start 0x00 [(.long 1, 0x2000)] (bytesAt 0x2000 [0x40] [])) [0x7C, 0x10, 0x77, 0x60]
    (fun t => t.ccr == 0x01) = true := by decide +kernel

/-- V135: bild #7, r0l. -/
theorem test_v135 : runs (start 0x01 [(.byte 8, 0x80)] []) [0x77, 0xF8]
    (fun t => t.ccr == 0x00) = true := by decide +kernel

/-- V136: bst #3, @0x2000:32. -/
theorem test_v136 : runs (start 0x01 [] []) [0x6A, 0x38, 0x00, 0x00, 0x20, 0x00, 0x67, 0x30]
    (fun t => t.pc == 0x1008 && holdsAt t 0x2000 [0x08]) = true := by decide +kernel

/-- V137: bist #0, r0l. -/
theorem test_v137 : runs (start 0x01 [(.byte 8, 1)] []) [0x67, 0x88]
    (fun t => t.readB 8 == 0 && t.ccr == 0x01) = true := by decide +kernel

/-- V138: band #3, @0x2000:16. -/
theorem test_v138 : runs (start 0x01 [] (bytesAt 0x2000 [0x08] [])) [0x6A, 0x10, 0x20, 0x00, 0x76, 0x30]
    (fun t => t.ccr == 0x01) = true := by decide +kernel

/-- V139: biand #0, r0l. -/
theorem test_v139 : runs (start 0x01 [(.byte 8, 1)] []) [0x76, 0x88]
    (fun t => t.ccr == 0x00) = true := by decide +kernel

/-- V140: bor #0, r0l. -/
theorem test_v140_bor : runs (start 0x00 [] []) [0x74, 0x08]
    (fun t => t.ccr == 0x00) = true := by decide +kernel

/-- V140: bior #0, r0l. -/
theorem test_v140_bior : runs (start 0x00 [] []) [0x74, 0x88]
    (fun t => t.ccr == 0x01) = true := by decide +kernel

/-- V141: bxor #0, r0l. -/
theorem test_v141_bxor : runs (start 0x01 [(.byte 8, 1)] []) [0x75, 0x08]
    (fun t => t.ccr == 0x00) = true := by decide +kernel

/-- V141: bixor #0, r0l. -/
theorem test_v141_bixor : runs (start 0x01 [(.byte 8, 1)] []) [0x75, 0x88]
    (fun t => t.ccr == 0x01) = true := by decide +kernel

/-! ### Test vectors, branches -/

/-- V6: bne 0x45d2 at 0x4560 with Z = 0. -/
theorem test_v6_taken : runs (start 0x00 [(.pc, 0x4560)] []) [0x46, 0x70]
    (fun t => t.pc == 0x45D2) = true := by decide +kernel

/-- V6: bne 0x45d2 at 0x4560 with Z = 1. -/
theorem test_v6_not_taken : runs (start 0x04 [(.pc, 0x4560)] []) [0x46, 0x70]
    (fun t => t.pc == 0x4562) = true := by decide +kernel

/-- V28: bra at 0xFFFFFE wraps and comes back. -/
theorem test_v28 : runs (start 0x00 [(.pc, 0xFFFFFE)] []) [0x40, 0xFE]
    (fun t => t.pc == 0xFFFFFE) = true := by decide +kernel

/-- V27: bne 0x1081 taken. -/
theorem test_v27 : faults (start 0x00 [] []) [0x46, 0x7F]
    (.unmodelled .oddBranchTarget 0x1000) = true := by decide +kernel

/-- V150: bra 0x1000 with a 16-bit displacement. -/
theorem test_v150 : runs (start 0x00 [] []) [0x58, 0x00, 0xFF, 0xFC]
    (fun t => t.pc == 0x1000) = true := by decide +kernel

/-- V151: brn. -/
theorem test_v151 : runs (start 0x00 [] []) [0x41, 0x10]
    (fun t => t.pc == 0x1002) = true := by decide +kernel

/-- V152: each condition in a flag state that makes it true, CCR bits N, Z, V, C. -/
theorem test_v152 :
    ([(0x42, 0x00), (0x43, 0x01), (0x44, 0x00), (0x45, 0x01), (0x46, 0x00), (0x47, 0x04), (0x48, 0x00), (0x49, 0x02),
      (0x4A, 0x00), (0x4B, 0x08), (0x4C, 0x0A), (0x4D, 0x08), (0x4E, 0x00), (0x4F, 0x04)] : List (Byte × Byte)).all
      (fun p => runs (start p.2 [] []) [p.1, 0x10] fun t => t.pc == 0x1012) = true := by decide +kernel

/-- The same conditions in a flag state that makes each false (45_branch.md R900). -/
theorem test_bcc_not_taken :
    ([(0x42, 0x01), (0x43, 0x00), (0x44, 0x01), (0x45, 0x00), (0x46, 0x04), (0x47, 0x00), (0x48, 0x02), (0x49, 0x00),
      (0x4A, 0x08), (0x4B, 0x00), (0x4C, 0x08), (0x4D, 0x0A), (0x4E, 0x02), (0x4F, 0x0A)] : List (Byte × Byte)).all
      (fun p => runs (start p.2 [] []) [p.1, 0x10] fun t => t.pc == 0x1002) = true := by decide +kernel

/-- V153: beq 0x1004 at 0x9000, displacement -0x8000. -/
theorem test_v153 : runs (start 0x04 [(.pc, 0x9000)] []) [0x58, 0x70, 0x80, 0x00]
    (fun t => t.pc == 0x1004) = true := by decide +kernel

/-- V155: jmp @er2. -/
theorem test_v155 : runs (start 0x00 [(.long 2, 0x123456)] []) [0x59, 0x20]
    (fun t => t.pc == 0x123456) = true := by decide +kernel

/-- V156: jmp @@0x20. -/
theorem test_v156 : runs (start 0x00 [] (bytesAt 0x20 [0x00, 0x00, 0x30, 0x00] [])) [0x5B, 0x20]
    (fun t => t.pc == 0x3000) = true := by decide +kernel

/-- V157: bsr; the top byte of the frame is a draw. -/
theorem test_v157 : runs (start 0x00 [(.long 7, 0x3000)] []) [0x55, 0x10]
    (fun t => t.readL 7 == 0x2FFC && t.pc == 0x1012) = true := by decide +kernel

/-- V157 with ADDR_BITS = 32, where the frame is the return address. -/
theorem test_bsr_frame_32 : runs ({ start 0x00 [(.long 7, 0x3000)] [] with params := { Params.default with addrBits := .bits32 } }) [0x55, 0x10]
    (fun t => t.readL 7 == 0x2FFC && t.pc == 0x1012 &&
      holdsAt t 0x2FFC [0x00, 0x00, 0x10, 0x02]) = true := by decide +kernel

/-- V158: jsr @0x4000:24. -/
theorem test_v158 : runs (start 0x00 [(.long 7, 0x3000)] []) [0x5E, 0x00, 0x40, 0x00]
    (fun t => t.readL 7 == 0x2FFC && t.pc == 0x4000) = true := by decide +kernel

/-- V158 with ADDR_BITS = 32. -/
theorem test_jsr_frame_32 : runs ({ start 0x00 [(.long 7, 0x3000)] [] with params := { Params.default with addrBits := .bits32 } }) [0x5E, 0x00, 0x40, 0x00]
    (fun t => t.readL 7 == 0x2FFC && t.pc == 0x4000 &&
      holdsAt t 0x2FFC [0x00, 0x00, 0x10, 0x04]) = true := by decide +kernel

/-- V159: rts. -/
theorem test_v159 : runs (start 0x00 [(.long 7, 0x2FFC)] (bytesAt 0x2FFC [0x00, 0x00, 0x10, 0x04] [])) [0x54, 0x70]
    (fun t => t.pc == 0x1004 && t.readL 7 == 0x3000) = true := by decide +kernel

/-- V160: jmp @er2 to an odd address. -/
theorem test_v160 : faults (start 0x00 [(.long 2, 0x123457)] []) [0x59, 0x20]
    (.unmodelled .oddBranchTarget 0x1000) = true := by decide +kernel

/-- V161: bsr with its frame refused by the host. -/
theorem test_v161 : faults ({ start 0x00 [(.long 7, 0x3000)] [] with hostMap := [{ base := 0x2FFC, size := 4, readable := false, writable := false, device := false }] }) [0x55, 0x10]
    (.memoryAccess 0x2FFC) = true := by decide +kernel

/-! ### Test vectors, system control -/

/-- V170: trapa #2. -/
theorem test_v170 : ends (exec (.trapa 2) (start 0x05 [(.long 7, 0x3000)] (bytesAt 0x28 [0, 0, 0x20, 0] [])))
    (fun t => t.readL 7 == 0x2FFC && t.pc == 0x2000 && t.ccr == 0x85 &&
      holdsAt t 0x2FFC [0x05, 0x00, 0x10, 0x02]) = true := by
  rw [exec, execTrapa, State.exceptionEntry, State.pushFrame, ccrImage_defined (by decide +kernel)]
  decide +kernel

/-- V171: rte. -/
theorem test_v171 : runs (start 0x00 [(.long 7, 0x2FFC)] (bytesAt 0x2FFC [0x85, 0x00, 0x10, 0x02] [])) [0x56, 0x70]
    (fun t => t.pc == 0x1002 && t.readL 7 == 0x3000 && t.ccr == 0x85) = true := by decide +kernel

/-- V172: sleep. -/
theorem test_v172 : runs (start 0x00 [] []) [0x01, 0x80]
    (fun t => t.pc == 0x1002 && t.sleeping) = true := by decide +kernel

/-- V173: ldc #0x2a, ccr opens the shadow. -/
theorem test_v173 : runs (start 0x00 [] []) [0x07, 0x2A]
    (fun t => t.ccr == 0x2A && t.irqHold) = true := by decide +kernel

/-- V174: ldc.w @er1+, ccr. -/
theorem test_v174 : runs (start 0x00 [(.long 1, 0x2000)] (bytesAt 0x2000 [0x0F, 0xFF] [])) [0x01, 0x40, 0x6D, 0x10]
    (fun t => t.readL 1 == 0x2002 && t.ccr == 0x0F) = true := by decide +kernel

/-- V175: ldc #0, exr. -/
theorem test_v175 : runs (start 0x00 [] []) [0x01, 0x41, 0x07, 0x00]
    (fun t => t.exr == 0x78) = true := by decide +kernel

/-- V176: ldc.w @0x2000:32, exr. -/
theorem test_v176 : runs (start 0x00 [] (bytesAt 0x2000 [0x05, 0x00] [])) [0x01, 0x41, 0x6B, 0x20, 0x00, 0x00, 0x20,
  0x00]
    (fun t => t.exr == 0x7D) = true := by decide +kernel

/-- V177: stc ccr, r0l. -/
theorem test_v177 : ends (exec (.stcRegCcr 8) (start 0xA5 [] [])) (fun t => t.readB 8 == 0xA5 &&
  t.ccr == 0xA5) = true := by
  rw [exec, execStcRegCcr, ccrImage_defined (by decide +kernel)]
  decide +kernel

/-- V178: stc.w ccr, @-er1; its low byte is a draw. -/
theorem test_v178 : runs (start 0x2A [(.long 1, 0x2002)] []) [0x01, 0x40, 0x6D, 0x90]
    (fun t => t.readL 1 == 0x2000 && t.pc == 0x1004) = true := by decide +kernel

/-- V179: stc exr, r0l. -/
theorem test_v179 : runs (start 0x00 [(.exr, 0x7D)] []) [0x02, 0x18]
    (fun t => t.readB 8 == 0x7D) = true := by decide +kernel

/-- V180: andc #0x7f, ccr. -/
theorem test_v180 : ends (exec (.andcCcr 0x7F) (start 0x85 [] [])) (fun t => t.ccr == 0x05 && t.irqHold) = true := by
  rw [exec, execAndcCcr, ccrImage_defined (by decide +kernel)]
  decide +kernel

/-- V181: andc #0x7f, exr. -/
theorem test_v181 : runs (start 0x00 [(.exr, 0xFF)] []) [0x01, 0x41, 0x06, 0x7F]
    (fun t => t.exr == 0x7F) = true := by decide +kernel

/-- V182: orc #1, ccr. -/
theorem test_v182 : ends (exec (.orcCcr 1) (start 0x80 [] [])) (fun t => t.ccr == 0x81) = true := by
  rw [exec, execOrcCcr, ccrImage_defined (by decide +kernel)]
  decide +kernel

/-- V183: orc #0x80, exr. -/
theorem test_v183 : runs (start 0x00 [(.exr, 0x7F)] []) [0x01, 0x41, 0x04, 0x80]
    (fun t => t.exr == 0xFF) = true := by decide +kernel

/-- V184: xorc #0xff, ccr. -/
theorem test_v184 : ends (exec (.xorcCcr 0xFF) (start 0x0F [] [])) (fun t => t.ccr == 0xF0) = true := by
  rw [exec, execXorcCcr, ccrImage_defined (by decide +kernel)]
  decide +kernel

/-- V185: xorc #7, exr. -/
theorem test_v185 : runs (start 0x00 [(.exr, 0x7F)] []) [0x01, 0x41, 0x05, 0x07]
    (fun t => t.exr == 0x78) = true := by decide +kernel

/-- V186: nop. -/
theorem test_v186 : runs (start 0x2A [] []) [0x00, 0x00]
    (fun t => t.pc == 0x1002 && t.ccr == 0x2A) = true := by decide +kernel

/-- V187: stc ccr, r0l straight after reset copies I, the other bits are draws. -/
theorem test_v187 : runs (State.driven Params.default [] 0x1000) [0x02, 0x08]
    (fun t => t.definedB 8 && t.ccrDfn == 0x80) = true ∧ State.reset.ccrImage.getLsbD 7 = true := by
  refine ⟨by decide +kernel, ?_⟩
  simp [State.ccrImage, State.reset]

/-- V188: andc #0x7f, ccr straight after reset clears I and defines every flag. -/
theorem test_v188 : runs (State.driven Params.default [] 0x1000) [0x06, 0x7F] (fun t => t.ccrDfn == 0xFF) = true ∧
    ∀ d : Byte, (d &&& 0x7F).getLsbD 7 = false := by decide +kernel

/-! ### Test vectors, memory, exceptions and reset -/

/-- V191: a push into the prefetch window. -/
theorem test_v191 : faults (start 0x00 [(.long 7, 0x1004)] []) [0x6D, 0xF2]
    (.unmodelled .storeIntoPrefetchWindow 0x1000) = true := by decide +kernel

/-- V192: a store the host refuses. -/
theorem test_v192 : faults ({ start 0x00 [(.long 0, 0x4000)] [] with hostMap := [{ base := 0x4000, size := 1, readable := true, writable := false, device := false }] }) [0x68, 0x8A]
    (.memoryAccess 0x4000) = true := by decide +kernel

/-- V193: a window that ends inside an instruction. -/
theorem test_v193 : faults ({ start 0x00 [] [] with hostMap := [{ base := 0x1002, size := 0x1000, readable := false, writable := false, device := false }] }) [0x7A, 0x07]
    (.memoryAccess 0x1002) = true := by decide +kernel

/-- V194: mov.l @0x2001:32, er2 ignores bit 0. -/
theorem test_v194 : runs (start 0x00 [] (bytesAt 0x2000 [0x11, 0x22, 0x33, 0x44] [])) [0x01, 0x00, 0x6B, 0x22, 0x00,
  0x00, 0x20, 0x01]
    (fun t => t.readL 2 == 0x11223344) = true := by decide +kernel

/-- The state at a boundary after an instruction: not the first of a run. -/
def later (s : State) : State := { s with fresh := false }

/-- The parameters with `INTM` = 2. -/
def intm2 : Params := { Params.default with intm := .mode2 }

/-- V200: an interrupt under `INTM` = 0, at the boundary before 0x1002. -/
theorem test_v200 :
    let s := later { start 0 [(.long 7, 0x3000), (.pc, 0x1002)] (bytesAt 0x100 [0, 0, 0x20, 0] []) with irq := [⟨64, 3⟩] }
    s.due = .irq ⟨64, 3⟩ ∧ ends (Out.of (s.enter 64 (some 3)))
      (fun t => holdsAt t 0x2FFC [0, 0, 0x10, 0x02] && t.readL 7 == 0x2FFC && t.ccr == 0x80 &&
        t.pc == 0x2000) = true := by
  refine ⟨by decide +kernel, ?_⟩
  rw [State.enter, State.exceptionEntry, State.pushFrame, ccrImage_defined (by decide +kernel)]
  decide +kernel

/-- V201: the same request with I = 1 is not accepted. -/
theorem test_v201 :
    runs (later { start 0x80 [(.long 7, 0x3000), (.pc, 0x1002)] (bytesAt 0x100 [0, 0, 0x20, 0] []) with irq := [⟨64, 3⟩] })
      [0x00, 0x00] (fun t => t.pc == 0x1004 && t.readL 7 == 0x3000) = true := by decide +kernel

/-- V202: an interrupt under `INTM` = 2 also saves EXR and takes its level. -/
theorem test_v202 :
    let s := later { start 0 [(.long 7, 0x3000), (.pc, 0x1002), (.exr, 0x78)] (bytesAt 0x100 [0, 0, 0x20, 0] []) with
        irq := [⟨64, 5⟩], params := intm2 }
    s.due = .irq ⟨64, 5⟩ ∧ ends (Out.of (s.enter 64 (some 5)))
      (fun t => holdsAt t 0x2FFC [0, 0, 0x10, 0x02] && holdsAt t 0x2FFA [0x78] && t.readL 7 == 0x2FFA &&
        t.ccr == 0x80 &&
        t.exr == 0x7D && t.pc == 0x2000) = true := by
  refine ⟨by decide +kernel, ?_⟩
  rw [State.enter, State.exceptionEntry, State.pushFrame, ccrImage_defined (by decide +kernel)]
  generalize Config.draw 8 .exrPad _ = d
  revert d
  decide +kernel

/-- V203: rte under `INTM` = 2. -/
theorem test_v203 :
    runs { start 0x80 [(.long 7, 0x2FFA), (.exr, 0x7D)] (bytesAt 0x2FFA [0x78, 0xFF, 0x00, 0x00, 0x10, 0x02] []) with
        params := intm2 } [0x56, 0x70]
      (fun t => t.exr == 0x78 && t.ccr == 0 && t.pc == 0x1002 && t.readL 7 == 0x3000) = true := by decide +kernel

/-- V204: a level equal to the mask is not accepted, a higher one is, though I = 1. -/
theorem test_v204 :
    ({ start 0x80 [(.exr, 0x7D)] [] with irq := [⟨64, 5⟩], params := intm2 }.chosenIrq == none &&
      { start 0x80 [(.exr, 0x7D)] [] with irq := [⟨64, 6⟩], params := intm2 }.chosenIrq == some ⟨64, 6⟩) = true := by
  decide +kernel

/-- V205: the highest level, then the lowest vector. -/
theorem test_v205 :
    ({ start 0 [(.exr, 0x78)] [] with irq := [⟨64, 3⟩, ⟨70, 6⟩, ⟨65, 6⟩], params := intm2 }.chosenIrq ==
      some ⟨65, 6⟩) = true := by decide +kernel

/-- V206: the NMI under `INTM` = 0 with I = 1. -/
theorem test_v206 :
    let s := later { start 0x80 [(.long 7, 0x3000)] (bytesAt 0x1C [0, 0, 0x30, 0] []) with nmiPending := true }
    s.due = .nmi ∧ ends (Out.of s.enterNmi) (fun t => t.ccr == 0x80 && t.pc == 0x3000 && !t.nmiPending) = true := by
  refine ⟨by decide +kernel, ?_⟩
  rw [State.enterNmi, State.enter, State.exceptionEntry, State.pushFrame, ccrImage_defined (by decide +kernel)]
  decide +kernel

/-- V207: the boundary after a control-register write takes nothing and ends the shadow. -/
theorem test_v207 :
    runs (later { start 0 [(.long 7, 0x3000), (.pc, 0x1002)] [] with irq := [⟨64, 0⟩], irqHold := true }) [0x00, 0x00]
      (fun t => t.pc == 0x1004 && !t.irqHold) = true := by decide +kernel

/-- V208: trace after an instruction that started with T = 1: due at its end. -/
theorem test_v208_due :
    runs { start 0 [(.long 7, 0x3000), (.exr, 0xF8)] [] with params := intm2 } [0x00, 0x00] (fun t => t.traceDue) = true := by
  decide +kernel

/-- V208: the trace exception. -/
theorem test_v208_entry :
    let s := later { start 0 [(.long 7, 0x3000), (.pc, 0x1002), (.exr, 0xF8)] (bytesAt 0x14 [0, 0, 0x20, 0] []) with
        params := intm2, traceDue := true }
    s.due = .trace ∧ ends (Out.of (s.enter 5 none))
      (fun t => holdsAt t 0x2FFC [0, 0, 0x10, 0x02] && holdsAt t 0x2FFA [0xF8] && t.readL 7 == 0x2FFA &&
        t.exr == 0x78 &&
        t.flag .i && t.pc == 0x2000) = true := by
  refine ⟨by decide +kernel, ?_⟩
  rw [State.enter, State.exceptionEntry, State.pushFrame, ccrImage_defined (by decide +kernel)]
  generalize Config.draw 8 .exrPad _ = d
  revert d
  decide +kernel

/-- V209: no trace follows the instruction that sets T. -/
theorem test_v209 :
    runs { start 0 [(.exr, 0x78)] [] with params := intm2 } [0x01, 0x41, 0x04, 0x80]
      (fun t => t.exr == 0xF8 && !t.traceDue) = true := by decide +kernel

/-- V210: asleep with every interrupt masked the step changes nothing. -/
theorem test_v210 : runs { start 0x80 [] [] with sleeping := true } []
    (fun t => t == { start 0x80 [] [] with sleeping := true }) = true := by decide +kernel

/-- V211: a return address beyond 24 bits. -/
theorem test_v211 :
    faults { later (start 0 [(.long 7, 0x3000)] []) with
        pc := 0x01000000, irq := [⟨64, 0⟩], params := { Params.default with addrBits := .bits32 } } []
      (.unmodelled .returnAddressBeyond24Bits 0x01000000) = true := by decide +kernel

/-- V212: an interrupt between two bytes of eepmov.w returns to its own address. -/
theorem test_v212 :
    let s := later { start 0 [(.long 7, 0x3000), (.word 4, 1), (.long 5, 0x2001), (.long 6, 0x2101)]
        (bytesAt 0x100 [0, 0, 0x20, 0] []) with irq := [⟨64, 0⟩], eepmovActive := true }
    s.due = .irq ⟨64, 0⟩ ∧ ends (Out.of (s.enter 64 (some 0)))
      (fun t => holdsAt t 0x2FFC [0, 0, 0x10, 0x00] && t.pc == 0x2000 && !t.eepmovActive && t.readW 4 == 1) = true := by
  refine ⟨by decide +kernel, ?_⟩
  rw [State.enter, State.exceptionEntry, State.pushFrame, ccrImage_defined (by decide +kernel)]
  decide +kernel

/-- V220: the reset sequence. -/
theorem test_v220 :
    runs { start 0 [] (bytesAt 0 [0, 0, 0x01, 0x00] []) with resetIn := some 0, nmiPending := true, sleeping := true } []
      (fun t => t.pc == 0x100 && t.flag .i && t.ccrDfn == 0x80 && t.exr == 0x7F && !t.definedB 0 && !t.sleeping &&
        !t.irqHold && !t.nmiPending) = true := by decide +kernel

/-- V221: an odd reset vector. -/
theorem test_v221 : faults { start 0 [] (bytesAt 0 [0, 0, 0x01, 0x01] []) with resetIn := some 0 } []
    (.unmodelled .oddBranchTarget 0x1000) = true := by decide +kernel

/-- A reset once two of the four longs of stm.l (er0-er3), @-sp are stored: those two stay, er2's does not come
(70_reset_and_hazards.md R1200). -/
theorem test_reset_cuts_stm :
    runs { start 0 [(.long 7, 0x3000), (.long 0, 9), (.long 1, 1), (.long 2, 2)] (bytesAt 0 [0, 0, 0x01, 0x00] []) with
        resetIn := some 2 } [0x01, 0x30, 0x6D, 0xF0]
      (fun t => holdsAt t 0x2FF4 [0, 0, 0, 0, 0, 0, 0, 1, 0, 0, 0, 9] && t.pc == 0x100 && !t.definedL 7 &&
        t.resetIn == none)
      = true := by decide +kernel

/-- A reset after the first byte of eepmov.b (70_reset_and_hazards.md R1201). -/
theorem test_reset_cuts_eepmov :
    runs { start 0 [(.byte 12, 3), (.long 5, 0x2000), (.long 6, 0x2100)]
        (bytesAt 0 [0, 0, 0x01, 0x00] (bytesAt 0x2000 [1, 2, 3] [])) with resetIn := some 1 } [0x7B, 0x5C, 0x59, 0x8F]
      (fun t => holdsAt t 0x2100 [1, 0, 0] && t.pc == 0x100) = true := by decide +kernel

/-- A reset starts a new run where the last one has ended with a fault (log 13). -/
theorem test_reset_after_fault :
    runs { (start 0 [] (bytesAt 0 [0, 0, 0x01, 0x00] [])).recordFault (.memoryAccess 4) with resetIn := some 0 } []
      (fun t => t.pc == 0x100 && t.fault == none) = true := by decide +kernel

/-- Overlapping ranges copy byte by byte upward (40_data_transfer.md R417). -/
theorem test_eepmov_overlap :
    runs (start 0 [(.byte 12, 3), (.long 5, 0x2000), (.long 6, 0x2001)] (bytesAt 0x2000 [0xAA] [])) [0x7B, 0x5C,
      0x59, 0x8F]
      (fun t => holdsAt t 0x2000 [0xAA, 0xAA, 0xAA, 0xAA, 0]) = true := by decide +kernel

/-- Between the bytes of eepmov.w nothing is fetched: a nop now at its address does not run (40_data_transfer.md R418,
20_memory.md R207). -/
theorem test_eepmov_goes_on :
    runs { start 0 [(.word 4, 2), (.long 5, 0x2000), (.long 6, 0x2100)] (bytesAt 0x2000 [7] []) with eepmovActive := true }
      [0x00, 0x00] (fun t => holdsAt t 0x2100 [7] && t.readW 4 == 1 && t.pc == 0x1000) = true := by decide +kernel

/-- A record executes at its own virtual address, not at pc: bra +0x10 decoded at 0x2000 (00_scope.md R14 (b),
  10_state.md
R108). -/
theorem test_execute_port :
    (match decodePort Params.default [0x40, 0x10] 0 0x2000 with
      | .ok r => ends (execute (start 0 [] []) r) fun t => t.pc == 0x2012
      | .error _ => false) = true := by decide +kernel

/-- The bytes of a row with no fixed bit. -/
def openBytes (r : Row) : Nat := ((List.range r.len).filter fun i => (r.mask >>> (8 * i)) % 256 == 0).length

/-- The operands' contributions to the length are the bytes of the row no opcode bit is in, but where the only such byte
holds two register numbers (10_state.md R120, 30_encoding.md R321). -/
theorem test_operand_lengths :
    opcodeTable.all (fun r =>
      8 * openBytes r == lengthBits (operandsOf Params.default 0 (r.build 0)) ||
        (openBytes r == 1 && lengthBits (operandsOf Params.default 0 (r.build 0)) == 0 &&
          r.mask % 256 == 0)) = true := by
  decide +kernel

/-- V222: the first instruction after reset runs before a pending NMI is taken. -/
theorem test_v222 : runs { start 0x80 [] [] with nmiPending := true } [0x7A, 0x07, 0x00, 0x00, 0x30, 0x00]
    (fun t => t.readL 7 == 0x3000 && t.pc == 0x1006 && t.nmiPending) = true := by decide +kernel

/-- The host's placing of a word: the next step from reset runs exactly it. -/
theorem test_withFetchWord :
    (match step (State.reset.withFetchWord 16 0xF87F) with
      | .next t => t.readB 8 == 0x7F && t.pc == 2
      | .fault _ => false
      | .refused _ => false) = true := by decide +kernel

/-- V190, V142, V154: the driver port faults where nothing has been written; a step of the model reads on (log 1). -/
theorem test_driver_port :
    (State.reset.getRegister (.byte 8) matches .error (.unmodelled .readOfUnwrittenRegister _)) &&
      (State.reset.getFlag .c matches .error (.unmodelled .readOfUnwrittenFlag _)) &&
      (readsDefined (.movBReg 8 11) State.reset == false) &&
        (readsDefined (.bne8 0x10) State.reset == false) = true := by
  decide +kernel

/-! ### Witnesses: for each statement with hypotheses, a state and operands that meet them

The name after `witness_` is the statement's, then the clause. -/

theorem open_read {s : State} (h : s.hostMap = []) (as : List Addr) : s.MayRead as := fun a _ => by
  simp [State.canRead, State.region?, h]

theorem open_write {s : State} (h : s.hostMap = []) (as : List Addr) : s.MayWrite as := fun a _ => by
  simp [State.canWrite, State.region?, h]

theorem fits24 {s : State} (h : s.params.addrBits = .bits24) (ret : Addr) : s.FitsFrame ret := fun h32 => by
  rw [h] at h32
  cases h32

theorem open_device {s : State} (h : s.hostMap = []) (a : Nat) : s.isDevice a = false := by
  simp [State.isDevice, State.region?, h]

theorem open_store {s : State} {len : Nat} {as : List Addr} (h : s.hostMap = [])
    (hp : (as.all fun a => !s.inPrefetch len a) = true) : s.MayStore len as :=
  And.intro (open_write h as) fun a ha => by simpa using List.all_eq_true.mp hp a ha

theorem all_apart {as bs : List Addr} (h : (as.all fun a => !bs.contains a) = true) : ∀ a ∈ as, a ∉ bs := fun a ha => by
  simpa using List.all_eq_true.mp h a ha

theorem open_entry {s : State} {by_ : Option Nat} {vector : Nat} {ret : Addr} (h : s.hostMap = [])
    (window : ∀ len, by_ = some len → (s.frameSpan.all fun a => !s.inPrefetch len a) = true)
    (apart : ((s.longSpan (vectorAddr vector)).all fun a => !s.frameSpan.contains a) = true)
      (even : (s.handler vector).getLsbD 0 = false)
    (fits : s.params.addrBits = .bits32 → ret.toNat < 2 ^ 24) (wf : s.mem.wf) : EntryOk s by_ vector ret :=
  { frame := open_write h _
    window := fun len hl a ha => by simpa using List.all_eq_true.mp (window len hl) a ha
    readable := open_read h _
    apart := all_apart apart
    even := even
    fits := fits
    wf := wf }

/-- A state with some memory, a stack at 0x003000 and a code address of 0x001000. -/
def w : State :=
  start 0 [(.long 1, 0x2000), (.long 2, 0x1006), (.long 5, 0x2000), (.long 6, 0x2100), (.long 7, 0x3000), (.word 4, 3)]
    (bytesAt 0x2000 [0x12, 0x34, 0x56, 0x78] (bytesAt 0x20 [0, 0, 0x30, 0] []))

/-- The same under `INTM` = 2. -/
def w2 : State := { w with params := intm2 }

/-- The same with `ADDR_BITS` = 32 and a pc beyond 24 bits. -/
def wFar : State := { w with params := { Params.default with addrBits := .bits32 }, pc := 0x01000000 }

/-- The same with an E clock. -/
def wClock : State := { w with params := { Params.default with hasEClock := true } }

/-- A run's later boundary in `w`. -/
def wLater : State := { w with fresh := false }

theorem witness_DecodeUndoesEncode : (Instr.ldm2 7).wf = true ∧
  (Instr.movLLoad (.disp32 0xFFFFFFFF 7) 7).wf = true := by
  decide +kernel

theorem witness_EncodeUndoesDecode : decodesTo [0x01, 0x00, 0x78, 0x10, 0x6B, 0x22, 0x00, 0x00, 0x00, 0x10, 0x99]
    (.movLLoad (.disp32 0x10 1) 2) = true ∧ ∃ x, decode [0x83, 0x42] = .ok x := by
  exact ⟨by decide +kernel, .addBImm 0x42 3, by decide +kernel⟩

theorem witness_NoTwoRowsOverlap : ∃ (i j : Nat) (hi : i < opcodeTable.length) (hj : j < opcodeTable.length)
    (bytes : List Byte), i ≠ j ∧ opcodeTable[i].len ≤ opcodeTable[j].len ∧ bytes.length = opcodeTable[j].len ∧
      beNat bytes &&& opcodeTable[j].mask = opcodeTable[j].mtch :=
  ⟨0, 1, by decide +kernel, by decide +kernel, [0x0C, 0x9A], by decide +kernel, by decide +kernel, by decide +kernel,
    by decide +kernel⟩

theorem witness_ComparisonsOrderTheBranches : (8 = 8 ∨ 8 = 16 ∨ 8 = 32) ∧ (16 = 8 ∨ 16 = 16 ∨ 16 = 32) ∧
    (32 = 8 ∨ 32 = 16 ∨ 32 = 32) := by decide

/-- Divisor and dividend in r0 and r1 (er1), as the division tests use them. -/
def divState (divisor dividend : Nat) : State := start 0 [(.word 0, divisor), (.long 1, dividend)] []

/-- 0, 99 and 45 in R0L, 99, 0 and 55 in R1L, with C set and clear. -/
theorem witness_DecimalAdjustCorrectsDecimalSums :
    ([(0, 99), (99, 0), (45, 55)] : List (Nat × Nat)).all (fun p => [0, 1].all fun c =>
      let s := start c [(.byte 8, (decimalByte p.1).toNat), (.byte 9, (decimalByte p.2).toNat)] []
      s.readB 8 == decimalByte p.1 && s.readB 9 == decimalByte p.2 && s.flag .c == (c == 1)) = true := by
  decide +kernel

theorem witness_DivideResults_byte_unsigned :
    ((divState 2 0x1FF).readB 8 ≠ 0 ∧ ((divState 2 0x1FF).readW 1).toNat / ((divState 2 0x1FF).readB 8).toNat < 2 ^ 8) ∧
      (divState 0 7).readB 8 = 0 ∧
      2 ^ 8 ≤ ((divState 2 0x200).readW 1).toNat / ((divState 2 0x200).readB 8).toNat := by decide +kernel

theorem witness_DivideResults_word_unsigned :
    ((divState 2 0x1FFFF).readW 0 ≠ 0 ∧
      ((divState 2 0x1FFFF).readL 1).toNat / ((divState 2 0x1FFFF).readW 0).toNat < 2 ^ 16) ∧
      (divState 0 7).readW 0 = 0 ∧
      2 ^ 16 ≤ ((divState 2 0x20000).readL 1).toNat / ((divState 2 0x20000).readW 0).toNat := by decide +kernel

theorem witness_DivideResults_byte_signed :
    ((divState 1 0xFF80).readB 8 ≠ 0 ∧
      fitsSigned 8 (((divState 1 0xFF80).readW 1).toInt.tdiv ((divState 1 0xFF80).readB 8).toInt)) ∧
      (divState 0 7).readB 8 = 0 ∧
      ¬fitsSigned 8 (((divState 0xFF 0xFF80).readW 1).toInt.tdiv ((divState 0xFF 0xFF80).readB 8).toInt) := by
  simp only [fitsSigned]
  decide +kernel

theorem witness_DivideResults_word_signed :
    ((divState 1 0xFFFF8000).readW 0 ≠ 0 ∧
        fitsSigned 16 (((divState 1 0xFFFF8000).readL 1).toInt.tdiv ((divState 1 0xFFFF8000).readW 0).toInt)) ∧
      (divState 0 7).readW 0 = 0 ∧
      ¬fitsSigned 16 (((divState 0xFFFF 0xFFFF8000).readL 1).toInt.tdiv ((divState 0xFFFF 0xFFFF8000).readW 0).toInt) := by
  simp only [fitsSigned]
  decide +kernel

theorem witness_TestAndSetResult : w.mem.wf ∧ w.MayRead [w.eaInd 1] ∧ w.MayStore 4 [w.eaInd 1] :=
  ⟨by decide +kernel, open_read rfl _, open_store rfl (by decide +kernel)⟩

theorem witness_BitChangeOnMemory : ∀ tgt ∈ ([.ind 1, .abs8 0x20, .abs16 0x2000, .abs32 0x2000] : List BitTarget),
    ∃ a, tgt.ea? w = some a ∧ w.mem.wf ∧ w.MayRead [a] ∧ w.MayStore tgt.len [a] := by
  intro tgt ht
  fin_cases ht <;>
    exact ⟨_, rfl, by decide +kernel, open_read rfl _, open_store rfl (by decide +kernel)⟩

theorem witness_BitTestResults : ∀ tgt ∈ ([.reg 9, .ind 1, .abs8 0x20, .abs16 0x2000,
  .abs32 0xFFFFFF] : List BitTarget),
    ∀ a, tgt.ea? w = some a → w.MayRead [a] := fun _ _ a _ => open_read rfl [a]

/-- Targets even and odd, of a taken and of a not taken branch, for both displacement widths. -/
theorem witness_ConditionalBranchResults :
    (w.relative 2 (0x10 : BitVec 8)).getLsbD 0 = false ∧ (w.relative 2 (0x7F : BitVec 8)).getLsbD 0 = true ∧
      (w.relative 4 (0x8000 : BitVec 16)).getLsbD 0 = false ∧ (w.relative 4 (0xFFFF : BitVec 16)).getLsbD 0 = true ∧
      w.flag .z = false ∧ (w.setFlag .z true).flag .z = true ∧ w.flag .c = false ∧ (w.setFlag .c true).flag .c = true ∧
      w.flag .n = false ∧ (w.setFlag .n true).flag .n = true ∧ w.flag .v = false ∧
        (w.setFlag .v true).flag .v = true := by
  decide +kernel

theorem next_of {o : Out} (h : ends o (fun _ => true) = true) : ∃ t, o = .next t := by
  cases o with
  | next t => exact ⟨t, rfl⟩
  | fault f => simp [ends] at h
  | refused r => simp [ends] at h

theorem witness_BranchFamilyEffects : w.mem.wf ∧
    (Instr.rts.inBranchFamily = true ∧ Instr.rts.isCall = false ∧ Instr.rts.movesStack = true ∧
      ∃ t, exec .rts w = .next t) ∧
    ((Instr.bsr8 0x10).inBranchFamily = true ∧ (Instr.bsr8 0x10).isCall = true ∧ ∃ t, exec (.bsr8 0x10) w = .next t) ∧
    ((Instr.beq8 0x10).inBranchFamily = true ∧ (Instr.beq8 0x10).movesStack = false ∧
      (Instr.beq8 0x10).condition = some .eq ∧ Cond.eq.holds (w.flag .n) (w.flag .z) (w.flag .v) (w.flag .c) = false ∧
      ∃ t, exec (.beq8 0x10) w = .next t) :=
  ⟨by decide +kernel,
    ⟨by decide +kernel, by decide +kernel, by decide +kernel, next_of (by decide +kernel)⟩,
    ⟨by decide +kernel, by decide +kernel, next_of (by decide +kernel)⟩,
    ⟨by decide +kernel, by decide +kernel, by decide +kernel, by decide +kernel, next_of (by decide +kernel)⟩⟩

/-- Even and odd targets of JMP through a register, an operand and a table entry. -/
theorem witness_JumpResults :
    (w.addr (w.readL 1)).getLsbD 0 = false ∧ (w.addr ((w.writeL 1 0x2001).readL 1)).getLsbD 0 = true ∧
      ((0x123456 : BitVec 24).zeroExtend 32).getLsbD 0 = false ∧
        ((0x123457 : BitVec 24).zeroExtend 32).getLsbD 0 = true ∧
      (w.addr (w.longAt ((0x20 : BitVec 8).zeroExtend 32))).getLsbD 0 = false ∧
      (w.addr ((w.setMem (w.mem.set 0x23 1)).longAt ((0x20 : BitVec 8).zeroExtend 32))).getLsbD 0 = true ∧
      w.MayRead (w.longSpan ((0x20 : BitVec 8).zeroExtend 32)) := by
  refine ⟨?_, ?_, ?_, ?_, ?_, ?_, open_read rfl _⟩ <;> decide +kernel

/-- The stack frame just past the prefetch window is the lowest one a call may store. -/
theorem witness_CallResults : w.mem.wf ∧ w.MayStore 2 (w.longSpan (w.readL sp - 4)) ∧
    w.MayStore 4 (w.longSpan (w.readL sp - 4)) ∧
    (w.writeL sp 0x100A).MayStore 2 ((w.writeL sp 0x100A).longSpan ((w.writeL sp 0x100A).readL sp - 4)) ∧
    (w.relative 2 (0x10 : BitVec 8)).getLsbD 0 = false ∧ (w.relative 2 (0x11 : BitVec 8)).getLsbD 0 = true ∧
    (w.relative 4 (0x10 : BitVec 16)).getLsbD 0 = false ∧ (w.relative 4 (0x11 : BitVec 16)).getLsbD 0 = true ∧
    w.MayRead (w.longSpan ((0x20 : BitVec 8).zeroExtend 32)) :=
  ⟨by decide +kernel, open_store rfl (by decide +kernel), open_store rfl (by decide +kernel),
    open_store rfl (by decide +kernel), by decide +kernel, by decide +kernel, by decide +kernel, by decide +kernel,
    open_read rfl _⟩

theorem witness_ReturnFromSubroutineResult : w.MayRead (w.longSpan (w.readL sp)) ∧
    (w.addr (w.longAt (w.readL sp))).getLsbD 0 = false ∧
    (w.addr ((w.setMem (w.mem.set 0x3003 1)).longAt (w.readL sp))).getLsbD 0 = true :=
  ⟨open_read rfl _, by decide +kernel, by decide +kernel⟩

theorem witness_LoadResults : Mode.loadByteOk (.inc 1) = true ∧ Mode.loadWideOk (.inc 1) = true ∧
    w.MayRead [Mode.ea (.inc 1) 1 w] ∧ w.MayRead (w.wordSpan (Mode.ea (.inc 1) 2 w)) ∧
    w.MayRead (w.longSpan (Mode.ea (.inc 1) 4 w)) ∧ Mode.steps (.inc 1) (ern 2) = false ∧
      Mode.steps (.inc 1) (ern 9) = true ∧
    Mode.steps (.inc 1) 2 = false ∧ Mode.steps (.inc 1) 1 = true :=
  ⟨by decide, by decide, open_read rfl _, open_read rfl _, open_read rfl _, by decide, by decide, by decide, by decide⟩

/-- The last clause stands at the lowest address outside the prefetch window, pc + 2 + 4. -/
theorem witness_StoreResults : w.mem.wf ∧ Mode.storeByteOk (.dec 1) = true ∧ Mode.storeWideOk (.dec 1) = true ∧
    w.MayStore 2 [Mode.ea (.dec 1) 1 w] ∧ w.MayStore 2 (w.wordSpan (Mode.ea (.dec 1) 2 w)) ∧
    w.MayStore 4 (w.longSpan (Mode.ea (.dec 1) 4 w)) ∧ Mode.steps (.dec 1) (ern 2) = false ∧
    Mode.steps (.dec 1) (ern 9) = true ∧ Mode.steps (.dec 1) 2 = false ∧ Mode.steps (.dec 1) 1 = true ∧
    w.MayStore 2 [Mode.ea (.ind 2) 1 w] :=
  ⟨by decide +kernel, by decide, by decide, open_store rfl (by decide +kernel), open_store rfl (by decide +kernel),
    open_store rfl (by decide +kernel), by decide, by decide, by decide, by decide, open_store rfl (by decide +kernel)⟩

theorem witness_PeripheralMoveResults : (wClock.params.hasEClock = true ∧ wClock.MayRead [wClock.eaAbs16 0xFF00] ∧
    wClock.mem.wf ∧ wClock.MayStore 4 [wClock.eaAbs16 0xFF00]) ∧ w.params.hasEClock = false :=
  ⟨⟨rfl, open_read rfl _, by decide +kernel, open_store rfl (by decide +kernel)⟩, rfl⟩

theorem witness_LoadListResults :
    ((Instr.ldm2 5).wf = true ∧ sp ∉ ([5, 5 - 1] : List (BitVec 3)) ∧ w.MayRead (w.popSpan 2 (w.readL sp))) ∧
      ((Instr.ldm3 6).wf = true ∧ sp ∉ ([6, 6 - 1, 6 - 2] : List (BitVec 3)) ∧ w.MayRead (w.popSpan 3 (w.readL sp))) ∧
      ((Instr.ldm4 3).wf = true ∧ sp ∉ ([3, 3 - 1, 3 - 2, 3 - 3] : List (BitVec 3)) ∧
        w.MayRead (w.popSpan 4 (w.readL sp))) ∧
      ((Instr.ldm2 7).wf = true ∧ sp ∈ ([7, 7 - 1] : List (BitVec 3))) ∧
      ((Instr.ldm4 7).wf = true ∧ sp ∈ ([7, 7 - 1, 7 - 2, 7 - 3] : List (BitVec 3))) :=
  ⟨⟨by decide, by decide, open_read rfl _⟩, ⟨by decide, by decide, open_read rfl _⟩,
    ⟨by decide, by decide, open_read rfl _⟩, by decide, by decide⟩

theorem witness_StoreListResults : w.mem.wf ∧
    ((Instr.stm2 4).wf = true ∧ sp ∉ ([4, 4 + 1] : List (BitVec 3)) ∧ w.MayStore 4 (w.pushSpan 2 (w.readL sp))) ∧
    ((Instr.stm3 4).wf = true ∧ sp ∉ ([4, 4 + 1, 4 + 2] : List (BitVec 3)) ∧ w.MayStore 4 (w.pushSpan 3 (w.readL sp))) ∧
    ((Instr.stm4 0).wf = true ∧ sp ∉ ([0, 0 + 1, 0 + 2, 0 + 3] : List (BitVec 3)) ∧
      w.MayStore 4 (w.pushSpan 4 (w.readL sp))) ∧
    ((Instr.stm2 6).wf = true ∧ sp ∈ ([6, 6 + 1] : List (BitVec 3))) ∧
    ((Instr.stm4 4).wf = true ∧ sp ∈ ([4, 4 + 1, 4 + 2, 4 + 3] : List (BitVec 3))) :=
  ⟨by decide +kernel, ⟨by decide, by decide, open_store rfl (by decide +kernel)⟩,
    ⟨by decide, by decide, open_store rfl (by decide +kernel)⟩, ⟨by decide, by decide,
      open_store rfl (by decide +kernel)⟩,
    by decide, by decide⟩

theorem witness_LoadListUndoesStoreList : w.mem.wf ∧ (Instr.stm2 4).wf = true ∧ sp ∉ ([4, 4 + 1] : List (BitVec 3)) ∧
    (Instr.stm3 4).wf = true ∧ sp ∉ ([4, 4 + 1, 4 + 2] : List (BitVec 3)) ∧ (Instr.stm4 0).wf = true ∧
    sp ∉ ([0, 0 + 1, 0 + 2, 0 + 3] : List (BitVec 3)) ∧ w.MayStore 4 (w.pushSpan 4 (w.readL sp)) ∧
    w.MayRead (w.pushSpan 4 (w.readL sp)) ∧ (∀ a ∈ w.pushSpan 4 (w.readL sp), w.isDevice a.toNat = false) :=
  ⟨by decide +kernel, by decide, by decide, by decide, by decide, by decide, by decide,
    open_store rfl (by decide +kernel),
    open_read rfl _, fun _ _ => open_device rfl _⟩

theorem witness_BlockMoveByteResult : (w.readB 12).toNat = 3 ∧ w.MayRead (w.byteRange (w.readL 5) 3) ∧
    w.MayStore 4 (w.byteRange (w.readL 6) 3) ∧ w.mem.wf ∧
    (∀ a ∈ w.byteRange (w.readL 5) 3, a ∉ w.byteRange (w.readL 6) 3) ∧ ((w.writeB 12 0).readB 12).toNat = 0 :=
  ⟨by decide +kernel, open_read rfl _, open_store rfl (by decide +kernel), by decide +kernel,
    all_apart (by decide +kernel), by decide +kernel⟩

theorem witness_BlockMoveWordStep : (w.writeW 4 0).readW 4 = 0 ∧ w.readW 4 ≠ 0 ∧ (w.writeW 4 1).readW 4 ≠ 0 ∧ w.mem.wf ∧
    w.MayRead [w.addr (w.readL 5)] ∧ w.MayStore 4 [w.addr (w.readL 6)] :=
  ⟨by decide +kernel, by decide +kernel, by decide +kernel, by decide +kernel, open_read rfl _,
    open_store rfl (by decide +kernel)⟩

theorem witness_ControlRegisterLoadResults : Mode.loadWideOk (.inc 1) = true ∧
    w.MayRead (w.wordSpan (Mode.ea (.inc 1) 2 w)) := ⟨by decide, open_read rfl _⟩

theorem witness_ControlRegisterStoreResults : Mode.storeWideOk (.dec 1) = true ∧ w.mem.wf ∧
    w.MayStore (Mode.len (.dec 1) + 2) (w.wordSpan (Mode.ea (.dec 1) 2 w)) :=
  ⟨by decide, by decide +kernel, open_store rfl (by decide +kernel)⟩

/-- The last clauses stand at the last return address of 24 bits and at 2^24. -/
theorem witness_TrapResult : EntryOk w (some 2) (8 + (2 : BitVec 2).toNat) (w.pcNext 2) ∧
    EntryOk w2 (some 2) (8 + (3 : BitVec 2).toNat) (w2.pcNext 2) ∧
    (wFar.params.addrBits = .bits32 ∧ 2 ^ 24 ≤ (wFar.pcNext 2).toNat) ∧
    EntryOk { wFar with pc := 0xFFFFFC } (some 2) (8 + (0 : BitVec 2).toNat) (({ wFar with pc := 0xFFFFFC } : State).pcNext 2) ∧
    (({ wFar with pc := 0xFFFFFE } : State).pcNext 2).toNat = 2 ^ 24 := by
  refine ⟨open_entry rfl ?_ (by decide +kernel) (by decide +kernel) (by decide +kernel) (by decide +kernel),
    open_entry rfl ?_ (by decide +kernel) (by decide +kernel) (by decide +kernel) (by decide +kernel),
      by decide +kernel,
    open_entry rfl ?_ (by decide +kernel) (by decide +kernel) (by decide +kernel) (by decide +kernel),
      by decide +kernel⟩ <;>
  · intro len h
    cases h
    decide +kernel

theorem witness_ReturnFromExceptionResult :
    (w.params.intm = .mode0 ∧ w.MayRead (w.longSpan (w.readL sp)) ∧ (w.longAt (w.readL sp)).getLsbD 0 = false ∧
        ((w.setMem (w.mem.set 0x3003 1)).longAt (w.readL sp)).getLsbD 0 = true) ∧
      (w2.params.intm = .mode2 ∧ w2.MayRead (w2.wordSpan (w2.readL sp)) ∧ w2.MayRead (w2.longSpan (w2.readL sp + 2)) ∧
        (w2.longAt (w2.readL sp + 2)).getLsbD 0 = false ∧
        ((w2.setMem (w2.mem.set 0x3005 1)).longAt (w2.readL sp + 2)).getLsbD 0 = true) :=
  ⟨⟨rfl, open_read rfl _, by decide +kernel, by decide +kernel⟩,
    rfl, open_read rfl _, open_read rfl _, by decide +kernel, by decide +kernel⟩

theorem witness_ReturnUndoesExceptionEntry : ∀ s ∈ [w, w2], EntryOk s none 64 0x1002 ∧ s.MayRead s.frameSpan ∧
    (∀ a ∈ s.frameSpan, s.isDevice a.toNat = false) ∧ (0x1002 : Addr).toNat < 2 ^ 24 ∧
    (0x1002 : Addr).getLsbD 0 = false ∧ s.ExrOk := by
  intro s hs
  fin_cases hs <;>
    exact ⟨open_entry rfl (fun _ h => by cases h) (by decide +kernel) (by decide +kernel) (by decide +kernel)
      (by decide +kernel), open_read rfl _, fun _ _ => open_device rfl _, by decide, by decide,
      show _ &&& _ = _ by decide +kernel⟩

theorem w_pcOk : w.PcOk := And.intro (by decide +kernel) (by decide +kernel)

theorem witness_ReturnUndoesCall : w.mem.wf ∧ w.PcOk ∧ w.MayRead (w.longSpan (w.readL sp - 4)) ∧
    (∀ a ∈ w.longSpan (w.readL sp - 4), w.isDevice a.toNat = false) ∧ w.MayStore 2 (w.longSpan (w.readL sp - 4)) ∧
    w.MayStore 4 (w.longSpan (w.readL sp - 4)) ∧ (w.relative 2 (0x10 : BitVec 8)).getLsbD 0 = false ∧
    (w.relative 4 (0x10 : BitVec 16)).getLsbD 0 = false ∧ (w.addr (w.readL 1)).getLsbD 0 = false ∧
    ((0x4000 : BitVec 24).zeroExtend 32).getLsbD 0 = false ∧
    (w.addr (w.longAt ((0x20 : BitVec 8).zeroExtend 32))).getLsbD 0 = false ∧
    w.MayRead (w.longSpan ((0x20 : BitVec 8).zeroExtend 32)) :=
  ⟨by decide +kernel, w_pcOk, open_read rfl _, fun _ _ => open_device rfl _, open_store rfl (by decide +kernel),
    open_store rfl (by decide +kernel), by decide +kernel, by decide +kernel, by decide +kernel, by decide +kernel,
    by decide +kernel, open_read rfl _⟩

theorem w_runsNext : w.RunsNext := ⟨rfl, rfl, rfl, .inl rfl⟩

/-- The first instruction of a run, a later one with no interrupt pending, one held by the shadow, an EEPMOV.W between
its bytes, and the decode port's record. -/
theorem witness_StepRunsTheDecodedInstruction :
    (w.RunsNext ∧ w.eepmovActive = false ∧ ∃ x, decode w.window = .ok x) ∧ wLater.RunsNext ∧
      { wLater with irqHold := true, nmiPending := true }.RunsNext ∧
      ({ wLater with eepmovActive := true }.RunsNext ∧
        ({ wLater with eepmovActive := true } : State).eepmovActive = true) ∧
      w.PcOk ∧ ∃ r, decodePort w.params w.window 0 w.pc = .ok r := by
  have none_asserted : ∀ {s : State}, s.irq = [] → ∀ r ∈ s.irq, ¬s.LetsThrough r := fun h r hr => by
    rw [h] at hr; cases hr
  refine ⟨⟨w_runsNext, rfl, .nop, by decide +kernel⟩, ⟨rfl, rfl, rfl, .inr ⟨rfl, .inr ⟨rfl, none_asserted rfl⟩⟩⟩,
    ⟨rfl, rfl, rfl, .inr ⟨rfl, .inl rfl⟩⟩, ⟨⟨rfl, rfl, rfl, .inr ⟨rfl, .inr ⟨rfl, none_asserted rfl⟩⟩⟩, rfl⟩,
      w_pcOk, ?_⟩
  cases h : decodePort w.params w.window 0 w.pc with
  | ok r => exact ⟨r, rfl⟩
  | error f =>
    have : (match decodePort w.params w.window 0 w.pc with | .ok _ => true | .error _ => false) = true :=
      by decide +kernel
    rw [h] at this
    cases this

theorem witness_EncodedInstructionInMemoryIsFetched :
    let s := w.place [0x83, 0x42]
    (Instr.addBImm 0x42 3).wf = true ∧ s.MayRead (s.byteRange s.pc (Instr.addBImm 0x42 3).length) ∧
      (∀ a ∈ s.byteRange s.pc (Instr.addBImm 0x42 3).length, s.isDevice a.toNat = false) ∧
      s.Holds (s.byteRange s.pc (Instr.addBImm 0x42 3).length) (encode (.addBImm 0x42 3)) := by
  refine ⟨by decide, open_read rfl _, fun _ _ => open_device rfl _, ?_⟩
  intro p hp _
  have h : (((w.place [0x83, 0x42]).byteRange (w.place [0x83, 0x42]).pc (Instr.addBImm 0x42 3).length).zip
      (encode (.addBImm 0x42 3))).all (fun p => (w.place [0x83,
        0x42]).mem.get p.1.toNat == p.2) = true := by decide +kernel
  simpa using List.all_eq_true.mp h p hp

/-- `w` with reads refused from an address on. -/
def shutFrom (a : Nat) (code : List Byte) : State :=
  { w.place code with hostMap := [{ base := a, size := 0x100, readable := false, writable := true, device := false }] }

theorem witness_FetchFaults : ((shutFrom 0x1000 []).eepmovActive = false ∧
  (shutFrom 0x1002 [0x7A, 0x07]).eepmovActive = false ∧
      (w.place [0x57, 0x01]).eepmovActive = false) ∧
    ((shutFrom 0x1000 []).RunsNext ∧
      (shutFrom 0x1000 []).canRead ((shutFrom 0x1000 []).addr (shutFrom 0x1000 []).pc).toNat = false) ∧
      ((shutFrom 0x1002 [0x7A, 0x07]).RunsNext ∧
        (shutFrom 0x1002 [0x7A, 0x07]).canRead ((shutFrom 0x1002 [0x7A, 0x07]).addr (shutFrom 0x1002 [0x7A,
          0x07]).pc).toNat = true ∧
        decode (shutFrom 0x1002 [0x7A, 0x07]).window = .error .truncated) ∧
      ((w.place [0x57, 0x01]).RunsNext ∧
        (w.place [0x57, 0x01]).canRead ((w.place [0x57, 0x01]).addr (w.place [0x57, 0x01]).pc).toNat = true ∧
        decode (w.place [0x57, 0x01]).window = .error .invalid) :=
  ⟨⟨rfl, rfl, rfl⟩, ⟨⟨rfl, rfl, rfl, .inl rfl⟩, by decide +kernel⟩,
    ⟨⟨rfl, rfl, rfl, .inl rfl⟩, by decide +kernel, by decide +kernel⟩,
    ⟨rfl, rfl, rfl, .inl rfl⟩, by decide +kernel, by decide +kernel⟩

theorem witness_EveryStepKeepsTheInvariant : w.Inv ∧ ∃ t, step w = .next t := by
  refine ⟨⟨w_pcOk, show _ &&& _ = _ by decide +kernel, And.intro (by decide +kernel) ?_⟩, next_of (by decide +kernel)⟩
  decide +kernel

/-- `s` with the reset input asserted. -/
def resetAt (k : Nat) (s : State) : State := { s with resetIn := some k }

/-- An even vector, an odd one, and a run that has ended with a fault. -/
theorem witness_ResetSequenceResult :
    (∀ s ∈ [resetAt 0 w, resetAt 0 (w.setMem (w.mem.set 3 1)), resetAt 0 (w.recordFault (.memoryAccess 4))],
      s.resetIn = some 0 ∧ s.MayRead (s.longSpan 0)) ∧
      ((resetAt 0 w).handler 0).getLsbD 0 = false ∧
        ((resetAt 0 (w.setMem (w.mem.set 3 1))).handler 0).getLsbD 0 = true := by
  refine ⟨?_, by decide +kernel, by decide +kernel⟩
  intro s hs
  fin_cases hs <;> exact ⟨rfl, open_read rfl _⟩

/-- The code stands at pc and runs next, with a reset `k` writes into the step. -/
theorem cut_next {k : Nat} {code : List Byte} {x : Instr} (h : (resetAt k (w.place code)).nextInstr = .ok x) :
    (resetAt k (w.place code)).resetIn = some k ∧ (resetAt k (w.place code)).unreset.RunsNext ∧
      (resetAt k (w.place code)).nextInstr = .ok x := ⟨rfl, ⟨rfl, rfl, rfl, .inl rfl⟩, h⟩

/-- A run that has ended, a CPU asleep, a fetch that faults,
  and instructions of one write that complete and that stop. -/
theorem witness_ResetCutsAStepShort_plain :
    w.mem.wf ∧ (resetAt 1 (w.recordFault (.memoryAccess 4))).fault ≠ none ∧
      (resetAt 1 { w with sleeping := true }).unreset.due = .asleep ∧
      ((resetAt 1 (shutFrom 0x1000 [])).unreset.RunsNext ∧ ∃ f, (resetAt 1 (shutFrom 0x1000 [])).nextInstr = .error f) ∧
      ((resetAt 1 (w.place [0x68, 0x98])).nextInstr = .ok (.movBStore 8 (.ind 1)) ∧
        writesInParts (.movBStore 8 (.ind 1)) = false ∧
        ∃ t, exec (.movBStore 8 (.ind 1)) (resetAt 1 (w.place [0x68, 0x98])).pastBoundary = .next t) ∧
      ((resetAt 1 (w.place [0x01, 0x10, 0x6D, 0x77])).nextInstr = .ok (.ldm2 7) ∧
        ∃ f, exec (.ldm2 7) (resetAt 1 (w.place [0x01, 0x10, 0x6D, 0x77])).pastBoundary = .fault f) :=
  ⟨by decide +kernel, by decide +kernel, by decide +kernel, ⟨⟨rfl, rfl, rfl, .inl rfl⟩, .memoryAccess 0x1000,
    by decide +kernel⟩,
    ⟨(cut_next (by decide +kernel)).2.2, by decide, next_of (by decide +kernel)⟩,
    (cut_next (by decide +kernel)).2.2, .unmodelled .ldmWithEr7 0x1000, by rfl⟩

/-- STM.L cut after its first long and after its last, EEPMOV.B after its first byte and after its last. -/
theorem witness_ResetCutsAStepShort_lists :
    ((resetAt 1 (w.place [0x01, 0x10, 0x6D, 0xF4])).nextInstr = .ok (.stm2 4) ∧ sp ∉ ([4, 4 + 1] : List (BitVec 3))) ∧
      ((resetAt 1 (w.place [0x01, 0x20, 0x6D, 0xF4])).nextInstr = .ok (.stm3 4) ∧
        sp ∉ ([4, 4 + 1, 4 + 2] : List (BitVec 3))) ∧
      ((resetAt 1 (w.place [0x01, 0x30, 0x6D, 0xF0])).nextInstr = .ok (.stm4 0) ∧
        sp ∉ ([0, 0 + 1, 0 + 2, 0 + 3] : List (BitVec 3))) ∧
      (∀ k ∈ [1, 2, 3, 4, 5], (resetAt k (w.place [0x01, 0x30, 0x6D, 0xF0])).MayStore 4
        ((resetAt k (w.place [0x01, 0x30, 0x6D, 0xF0])).pushSpan (min k 4) 0x3000)) ∧
      (resetAt 1 (w.place [0x7B, 0x5C, 0x59, 0x8F])).nextInstr = .ok .eepmovB ∧
      ∀ k ∈ [1, 3, 4], (resetAt k (w.place [0x7B, 0x5C, 0x59, 0x8F])).MayRead
          ((resetAt k (w.place [0x7B, 0x5C, 0x59, 0x8F])).byteRange 0x2000 (min k 3)) ∧
        (resetAt k (w.place [0x7B, 0x5C, 0x59, 0x8F])).MayStore 4
          ((resetAt k (w.place [0x7B, 0x5C, 0x59, 0x8F])).byteRange 0x2100 (min k 3)) := by
  refine ⟨⟨(cut_next (by decide +kernel)).2.2, by decide⟩, ⟨(cut_next (by decide +kernel)).2.2, by decide⟩,
    ⟨(cut_next (by decide +kernel)).2.2, by decide⟩, ?_, (cut_next (by decide +kernel)).2.2, ?_⟩
  · intro k hk
    fin_cases hk <;> exact open_store rfl (by decide +kernel)
  · intro k hk
    fin_cases hk <;> exact ⟨open_read rfl _, open_store rfl (by decide +kernel)⟩

/-- The frames of TRAPA, of an NMI under both modes, and of calls. -/
theorem witness_ResetCutsAStepShort_frames :
    ((resetAt 1 (w.place [0x57, 0x20])).nextInstr = .ok (.trapa 2) ∧ w.FitsFrame (w.pcNext 2) ∧
        (w.MayStore 2 (w.frameSpan.take (frameLength 1)) ∧ w2.MayStore 2 (w2.frameSpan.take (frameLength 2)))) ∧
      (∀ s ∈ [{ wLater with nmiPending := true }, { w2 with fresh := false, nmiPending := true }],
        s.fault = none ∧ (resetAt 1 s).unreset.due.entered ≠ none ∧ s.FitsFrame s.pc ∧
          s.MayWrite (s.frameSpan.take (frameLength 2))) ∧
      ((resetAt 1 (w.place [0x55, 0x10])).nextInstr = .ok (.bsr8 0x10) ∧
        (resetAt 1 (w.place [0x5F, 0x20])).nextInstr = .ok (.jsrMemInd 0x20) ∧
        w.MayRead (w.longSpan ((0x20 : BitVec 8).zeroExtend 32)) ∧
        w.MayStore (Instr.bsr8 0x10).length (w.longSpan (w.readL sp - 4))) := by
  refine ⟨⟨(cut_next (by decide +kernel)).2.2, fits24 rfl _, open_store rfl (by decide +kernel),
      open_store rfl (by decide +kernel)⟩, ?_,
    (cut_next (by decide +kernel)).2.2, (cut_next (by decide +kernel)).2.2, open_read rfl _,
      open_store rfl (by decide +kernel)⟩
  intro s hs
  fin_cases hs <;> exact ⟨rfl, by decide +kernel, fits24 rfl _, open_write rfl _⟩

theorem witness_StepKeepsInputsAndParameters : (w.PcOk ∧ ∃ t, step w = .next t) ∧
    w.resetIn = none ∧ (w.recordFault (.memoryAccess 0)).resetIn = none ∧
    (w.recordFault (.memoryAccess 0)).fault = some (.memoryAccess 0) :=
  ⟨⟨w_pcOk, next_of (by decide +kernel)⟩, rfl, rfl, rfl⟩

theorem witness_DefinednessGrows : w.PcOk ∧ (∃ t, exec (.movBImm 0x7F 8) w = .next t) ∧ w.laneDefined 0 0 = true ∧
    w.definedFlag .c = true := ⟨w_pcOk, next_of (by decide +kernel), by decide +kernel, by decide +kernel⟩

theorem wLater_entry {s : State} (vector : Nat) (h : s.hostMap = [])
    (apart : ((s.longSpan (vectorAddr vector)).all fun a => !s.frameSpan.contains a) = true)
      (even : (s.handler vector).getLsbD 0 = false)
    (fits : s.params.addrBits = .bits32 → s.pc.toNat < 2 ^ 24) (wf : s.mem.wf) : EntryOk s none vector s.pc :=
  open_entry h (fun _ h => by cases h) apart even fits wf

theorem witness_TraceEntryResult :
    let s := { w2 with fresh := false, traceDue := true }
    s.Checked ∧ s.traceDue = true ∧ EntryOk s none 5 s.pc :=
  ⟨⟨rfl, rfl, .inl rfl⟩, rfl, wLater_entry 5 rfl (by decide +kernel) (by decide +kernel) (by decide +kernel)
    (by decide +kernel)⟩

theorem witness_NmiEntryResult :
    let s := { wLater with nmiPending := true }
    s.Checked ∧ s.traceDue = false ∧ s.irqHold = false ∧ s.nmiPending = true ∧ EntryOk s none 7 s.pc :=
  ⟨⟨rfl, rfl, .inl rfl⟩, rfl, rfl, rfl,
    wLater_entry 7 rfl (by decide +kernel) (by decide +kernel) (by decide +kernel) (by decide +kernel)⟩

/-- The lowest and the highest vector of a request; one of them is let through. -/
theorem witness_InterruptChoice :
    let s := { wLater with irq := [⟨16, 0⟩, ⟨255, 7⟩] }
    s.IrqOk ∧ s.chosenIrq = some ⟨16, 0⟩ ∧ wLater.chosenIrq = none ∧ { wLater with nmiPending := true }.Checked := by
  refine ⟨?_, by decide +kernel, by decide +kernel, ⟨rfl, rfl, .inl rfl⟩⟩
  show ∀ r ∈ _, _
  decide +kernel

theorem witness_InterruptEntryResult :
    ∀ s ∈ [{ wLater with irq := [⟨64, 0⟩] }, { w2 with irq := [⟨64, 5⟩], fresh := false, exr := 0x7C },
        { w with irq := [⟨64, 0⟩], sleeping := true }],
      ∃ r, s.Checked ∧ s.traceDue = false ∧ s.irqHold = false ∧ s.nmiPending = false ∧ s.chosenIrq = some r ∧
        EntryOk s none r.vector.toNat s.pc := by
  intro s hs
  fin_cases hs
  · exact ⟨⟨64, 0⟩, ⟨rfl, rfl, .inl rfl⟩, rfl, rfl, rfl, by decide +kernel,
      wLater_entry 64 rfl (by decide +kernel) (by decide +kernel) (by decide +kernel) (by decide +kernel)⟩
  · exact ⟨⟨64, 5⟩, ⟨rfl, rfl, .inl rfl⟩, rfl, rfl, rfl, by decide +kernel,
      wLater_entry 64 rfl (by decide +kernel) (by decide +kernel) (by decide +kernel) (by decide +kernel)⟩
  · exact ⟨⟨64, 0⟩, ⟨rfl, rfl, .inr rfl⟩, rfl, rfl, rfl, by decide +kernel,
      wLater_entry 64 rfl (by decide +kernel) (by decide +kernel) (by decide +kernel) (by decide +kernel)⟩

theorem witness_SleepWaits :
    let s := { w with sleeping := true, ccr := 0x80, irq := [⟨64, 0⟩] }
    s.fault = none ∧ s.resetIn = none ∧ s.sleeping = true ∧ s.traceDue = false ∧ s.NoInterrupt := by
  refine ⟨rfl, rfl, rfl, rfl, .inr ⟨rfl, ?_⟩⟩
  intro r _
  show ¬(State.flag _ .i = false)
  decide +kernel

theorem witness_BytesAreBigEndian : w.mem.wf ∧ w.evenAddr 0x2000 = 0x2000 ∧ w.evenAddr 0xFFFFFE = 0xFFFFFE ∧
    w.MayRead (w.longSpan 0x2000) ∧ w.MayWrite (w.longSpan 0x2000) ∧ w.MayRead (w.wordSpan 0xFFFFFE) ∧
    w.MayWrite (w.wordSpan 0xFFFFFE) ∧ ∀ b ∈ w.longSpan 0x2000, w.isDevice b.toNat = false :=
  ⟨by decide +kernel, by decide +kernel, by decide +kernel, open_read rfl _, open_write rfl _, open_read rfl _,
    open_write rfl _, fun _ _ => open_device rfl _⟩

theorem prefetched_of {s : State} {len : Nat} {as : List Addr}
    (h : (as.any fun a => (List.range (len + 4)).any fun k => a == s.offset s.pc k) = true) : ∃ a ∈ as,
      s.Prefetched len a := by
  obtain ⟨a, ha, h⟩ := List.any_eq_true.mp h
  obtain ⟨k, hk, h⟩ := List.any_eq_true.mp h
  exact ⟨a, ha, k, List.mem_range.mp hk, by simpa using h⟩

theorem not_prefetched_of {s : State} {len : Nat} {as : List Addr}
    (h : (as.all fun a => (List.range (len + 4)).all fun k => a != s.offset s.pc k) = true) :
    ∀ a ∈ as, ¬s.Prefetched len a := fun a ha ⟨k, hk, hp⟩ => by
  have := List.all_eq_true.mp (List.all_eq_true.mp h a ha) k (List.mem_range.mpr hk)
  simp [hp] at this

theorem not_read_of {s : State} {as : List Addr} (h : (as.all fun a => s.canRead a.toNat) = false) : ¬s.MayRead as :=
  fun hr => by rw [List.all_eq_true.mpr hr] at h; cases h

theorem not_write_of {s : State} {as : List Addr} (h : (as.all fun a => s.canWrite a.toNat) = false) : ¬s.MayWrite as :=
  fun hr => by rw [List.all_eq_true.mpr hr] at h; cases h

theorem store_of {s : State} {len : Nat} {as : List Addr} (h : (as.all fun a => s.canWrite a.toNat) = true)
    (hp : (as.all fun a => !s.inPrefetch len a) = true) : s.MayStore len as :=
  And.intro (List.all_eq_true.mp h) fun a ha => by simpa using List.all_eq_true.mp hp a ha

theorem read_of {s : State} {as : List Addr} (h : (as.all fun a => s.canRead a.toNat) = true) : s.MayRead as :=
  List.all_eq_true.mp h

/-- `w` with ER1 and SP at the last address of the prefetch window of an instruction of 2 bytes, and of one of 4; ER6 at
pc. -/
def wNear : State := ((wClock.writeL 1 0x1005).writeL sp 0x1008).writeL 6 0x1000

theorem witness_StoresIntoThePrefetchWindowStop :
    let s := wNear
    (∃ a ∈ [Mode.ea (.ind 1) 1 s], s.Prefetched 2 a) ∧ (∃ a ∈ s.wordSpan (Mode.ea (.ind 1) 2 s), s.Prefetched 2 a) ∧
      (∃ a ∈ s.longSpan (Mode.ea (.ind 1) 4 s), s.Prefetched 4 a) ∧
        (∃ a ∈ s.wordSpan (Mode.ea (.ind 1) 2 s), s.Prefetched 4 a) ∧
      (s.params.hasEClock = true ∧ ∃ a ∈ [s.eaAbs16 0x1007], s.Prefetched 4 a) ∧
      (s.MayRead [s.eaInd 1] ∧ ∃ a ∈ [s.eaInd 1], s.Prefetched 4 a) ∧ (BitTarget.ind 1).ea? s = some (s.eaInd 1) := by
  refine ⟨prefetched_of ?_, prefetched_of ?_, prefetched_of ?_, prefetched_of ?_, ⟨rfl, prefetched_of ?_⟩,
    ⟨open_read rfl _, prefetched_of ?_⟩, rfl⟩ <;> decide +kernel

theorem witness_StoresIntoThePrefetchWindowStop_several :
    let s := wNear
    (sp ∉ ([4, 4 + 1] : List (BitVec 3)) ∧ s.MayWrite (s.pushSpan 2 (s.readL sp)) ∧
        ∃ a ∈ s.pushSpan 2 (s.readL sp), s.Prefetched 4 a) ∧
      (sp ∉ ([0, 0 + 1, 0 + 2] : List (BitVec 3)) ∧ ∃ a ∈ s.pushSpan 3 (s.readL sp), s.Prefetched 4 a) ∧
      (sp ∉ ([0, 0 + 1, 0 + 2, 0 + 3] : List (BitVec 3)) ∧ ∃ a ∈ s.pushSpan 4 (s.readL sp), s.Prefetched 4 a) ∧
      (s.MayRead (s.byteRange (s.readL 5) (s.readB 12).toNat) ∧
        s.MayWrite (s.byteRange (s.readL 6) (s.readB 12).toNat) ∧
        ∃ a ∈ s.byteRange (s.readL 6) (s.readB 12).toNat, s.Prefetched 4 a) ∧
      (s.readW 4 ≠ 0 ∧ ∃ a ∈ [s.addr (s.readL 6)], s.Prefetched 4 a) ∧
      (∃ a ∈ s.longSpan (s.readL sp - 4), s.Prefetched 2 a) ∧ (∃ a ∈ s.longSpan (s.readL sp - 4), s.Prefetched 4 a) ∧
      s.MayRead (s.longSpan ((0x20 : BitVec 8).zeroExtend 32)) ∧
      (s.FitsFrame (s.pcNext 2) ∧ s.MayWrite s.frameSpan ∧ ∃ a ∈ s.frameSpan, s.Prefetched 2 a) :=
  ⟨⟨by decide, open_write rfl _, prefetched_of (by decide +kernel)⟩, ⟨by decide, prefetched_of (by decide +kernel)⟩,
    ⟨by decide, prefetched_of (by decide +kernel)⟩, ⟨open_read rfl _, open_write rfl _,
      prefetched_of (by decide +kernel)⟩,
    ⟨by decide +kernel, prefetched_of (by decide +kernel)⟩, prefetched_of (by decide +kernel),
    prefetched_of (by decide +kernel), open_read rfl _, fits24 rfl _, open_write rfl _,
      prefetched_of (by decide +kernel)⟩

/-- `s` with the bytes from `a` on refused for reading, writing or both. -/
def refusing (s : State) (a size : Nat) (readable writable : Bool) : State :=
  { s with hostMap := [{ base := a, size := size, readable := readable, writable := writable, device := false }] }

/-- Operands of MOV, LDC.W, STC.W, MOVFPE, MOVTPE, TAS and the bit instructions. -/
theorem witness_RefusedAccessesFault :
    let s := refusing wClock 0x2000 0x100 false false
    let t := refusing wClock 0x2000 0x100 true false
    ¬s.MayRead [Mode.ea (.ind 1) 1 s] ∧ ¬s.MayRead (s.wordSpan (Mode.ea (.ind 1) 2 s)) ∧
      ¬s.MayRead (s.longSpan (Mode.ea (.ind 1) 4 s)) ∧ ¬s.MayWrite [Mode.ea (.ind 1) 1 s] ∧
      ¬s.MayWrite (s.wordSpan (Mode.ea (.ind 1) 2 s)) ∧ ¬s.MayWrite (s.longSpan (Mode.ea (.ind 1) 4 s)) ∧
      (∀ a ∈ s.longSpan (Mode.ea (.ind 1) 4 s), ¬s.Prefetched 4 a) ∧
      (s.params.hasEClock = true ∧ ¬s.MayRead [s.eaAbs16 0x2000] ∧ ¬s.MayWrite [s.eaAbs16 0x2000]) ∧
      (¬s.MayRead [s.eaInd 1] ∧ (BitTarget.ind 1).ea? s = some (s.eaInd 1)) ∧
      (t.MayRead [t.eaInd 1] ∧ ¬t.MayWrite [t.eaInd 1] ∧ ∀ a ∈ [t.eaInd 1], ¬t.Prefetched 4 a) :=
  ⟨not_read_of (by decide +kernel), not_read_of (by decide +kernel), not_read_of (by decide +kernel),
    not_write_of (by decide +kernel), not_write_of (by decide +kernel), not_write_of (by decide +kernel),
    not_prefetched_of (by decide +kernel),
    ⟨rfl, not_read_of (by decide +kernel), not_write_of (by decide +kernel)⟩, ⟨not_read_of (by decide +kernel), rfl⟩,
    read_of (by decide +kernel), not_write_of (by decide +kernel), not_prefetched_of (by decide +kernel)⟩

/-- Lists, block moves, tables, calls and returns. -/
theorem witness_RefusedAccessesFault_several :
    let s := (refusing wClock 0x2000 0x100 false false).writeL sp 0x2010
    let t := refusing w 0x2100 0x100 false false
    let u := refusing w 0x20 4 false true
    (sp ∉ ([5, 5 - 1] : List (BitVec 3)) ∧ ¬s.MayRead (s.popSpan 2 (s.readL sp)) ∧
      ¬s.MayRead (s.popSpan 4 (s.readL sp))) ∧
      (sp ∉ ([4, 4 + 1] : List (BitVec 3)) ∧ ¬s.MayWrite (s.pushSpan 2 (s.readL sp)) ∧
        (∀ a ∈ s.pushSpan 4 (s.readL sp), ¬s.Prefetched 4 a)) ∧
      (s.MayStore 4 (s.byteRange (s.readL 6) (s.readB 12).toNat) ∧
        ¬s.MayRead (s.byteRange (s.readL 5) (s.readB 12).toNat) ∧
        s.readW 4 ≠ 0 ∧ ¬s.MayRead [s.addr (s.readL 5)]) ∧
      (t.MayRead (t.byteRange (t.readL 5) (t.readB 12).toNat) ∧
        ¬t.MayWrite (t.byteRange (t.readL 6) (t.readB 12).toNat) ∧
        (∀ a ∈ t.byteRange (t.readL 6) (t.readB 12).toNat, ¬t.Prefetched 4 a) ∧ ¬t.MayWrite [t.addr (t.readL 6)]) ∧
      ¬u.MayRead (u.longSpan ((0x20 : BitVec 8).zeroExtend 32)) ∧
      (s.MayRead (s.longSpan ((0x20 : BitVec 8).zeroExtend 32)) ∧ ¬s.MayWrite (s.longSpan (s.readL sp - 4)) ∧
        ∀ a ∈ s.longSpan (s.readL sp - 4), ¬s.Prefetched 4 a) ∧
      (s.params.intm = .mode0 ∧ ¬s.MayRead (s.longSpan (s.readL sp))) ∧
      ({ s with params := intm2 }.params.intm = .mode2 ∧
        ¬({ s with params := intm2 } : State).MayRead (({ s with params := intm2 } : State).wordSpan (s.readL sp) ++
          ({ s with params := intm2 } : State).longSpan (s.readL sp + 2))) :=
  ⟨⟨by decide, not_read_of (by decide +kernel), not_read_of (by decide +kernel)⟩,
    ⟨by decide, not_write_of (by decide +kernel), not_prefetched_of (by decide +kernel)⟩,
    ⟨store_of (by decide +kernel) (by decide +kernel), not_read_of (by decide +kernel), by decide +kernel,
      not_read_of (by decide +kernel)⟩,
    ⟨read_of (by decide +kernel), not_write_of (by decide +kernel), not_prefetched_of (by decide +kernel),
      not_write_of (by decide +kernel)⟩,
    not_read_of (by decide +kernel),
    ⟨read_of (by decide +kernel), not_write_of (by decide +kernel), not_prefetched_of (by decide +kernel)⟩,
    ⟨rfl, not_read_of (by decide +kernel)⟩, rfl, not_read_of (by decide +kernel)⟩

/-- Exceptions: the frame refused, the vector's entry refused; and reset. -/
theorem witness_RefusedAccessesFault_entries :
    let s := { (refusing w 0x2000 0x100 false false).writeL sp 0x2010 with fresh := false, nmiPending := true }
    let t := { refusing w 0x1C 8 false true with fresh := false, nmiPending := true }
    let u := resetAt 0 (refusing w 2 1 false true)
    (s.FitsFrame (s.pcNext 2) ∧ ¬s.MayWrite s.frameSpan ∧ ∀ a ∈ s.frameSpan, ¬s.Prefetched 2 a) ∧
      (t.MayStore 2 t.frameSpan ∧ ¬t.MayRead (t.longSpan (vectorAddr (8 + (0 : BitVec 2).toNat)))) ∧
      (s.fault = none ∧ s.resetIn = none ∧ s.due.entered = some 7) ∧
      (t.fault = none ∧ t.resetIn = none ∧ t.due.entered = some 7 ∧ t.MayWrite t.frameSpan ∧
        ¬t.MayRead (t.longSpan (vectorAddr 7))) ∧
      (u.resetIn = some 0 ∧ ¬u.MayRead (u.longSpan 0)) :=
  ⟨⟨fits24 rfl _, not_write_of (by decide +kernel), not_prefetched_of (by decide +kernel)⟩,
    ⟨store_of (by decide +kernel) (by decide +kernel), not_read_of (by decide +kernel)⟩,
    ⟨rfl, rfl, by decide +kernel⟩,
    ⟨rfl, rfl, by decide +kernel, (store_of (len := 2) (by decide +kernel) (by decide +kernel)).1,
      not_read_of (by decide +kernel)⟩,
    rfl, not_read_of (by decide +kernel)⟩

end Sys2Proof.Tests
end

section
/-!
PROOFS. The step of the whole block: the boundary where an instruction runs next, the step as one instruction's meaning
with its bookkeeping, and everything a step that goes on can do (00_scope.md R6, R10, R14, R15).
-/

namespace Sys2Proof.Machine

/-! ### The boundary -/

/-- The mask lets an acceptable request through. -/
theorem letsThrough_of_acceptable {s : State} {r : IrqRequest} (h : s.acceptable r = true) : s.LetsThrough r := by
  unfold State.acceptable at h
  unfold State.LetsThrough
  have hlevel : s.maskLevel.toNat = s.exr.toNat % 8 := by simp [State.maskLevel, BitVec.extractLsb'_toNat]
  cases hi : s.params.intm <;> simp_all

/-- Where the mask lets no request through none is chosen. -/
theorem chosenIrq_eq_none {s : State} (h : ∀ r ∈ s.irq, ¬s.LetsThrough r) : s.chosenIrq = none := by
  have hnone : s.irq.filter s.acceptable = [] :=
    List.filter_eq_nil_iff.2 fun r hr ha => h r hr (letsThrough_of_acceptable ha)
  unfold State.chosenIrq
  rw [hnone]
  rfl

theorem quiet_awake {s : State} (h : s.sleeping = false) : s.quiet = .run := by
  unfold State.quiet
  rw [h]
  rfl

/-- A boundary that takes neither trace nor an interrupt leaves the CPU as it is, running or asleep. -/
theorem due_quiet {s : State} (hr : s.resetIn = none) (hf : (s.fresh && !s.sleeping) = false) (ht : s.traceDue = false)
    (hn : s.NoInterrupt) : s.due = s.quiet := by
  unfold State.due
  rw [hr, hf, ht]
  rcases hn with hold | ⟨hnmi, hirq⟩
  · simp [hold]
  · simp [hnmi, chosenIrq_eq_none hirq]

/-- Where an instruction runs next, the boundary decides so. -/
theorem due_of_runsNext {s : State} (h : s.RunsNext) : s.due = .run := by
  obtain ⟨-, hr, hs, hboundary⟩ := h
  cases hf : s.fresh with
  | true => simp [State.due, hr, hf, hs]
  | false =>
    obtain hfresh | ⟨ht, hn⟩ := hboundary
    · rw [hf] at hfresh
      cases hfresh
    · rw [due_quiet hr (by simp [hf]) ht hn, quiet_awake hs]

theorem quiet_ne_reset (s : State) : s.quiet ≠ .reset := by
  unfold State.quiet
  split <;> simp

/-- Only an asserted reset input makes a reset due. -/
theorem due_ne_reset {s : State} (h : s.resetIn = none) : s.due ≠ .reset := by
  unfold State.due
  rw [if_neg (by simp [h])]
  split
  · simp
  split
  · simp
  split
  · exact quiet_ne_reset s
  split
  · simp
  split
  · simp
  · exact quiet_ne_reset s

/-! ### Fetch and the decode port -/

/-- A window that decodes is not empty, and its instruction is the one fetched (20_memory.md R210). -/
theorem fetch_of_decode {s : State} {x : Instr} (h : decode s.window = .ok x) : s.fetch = .ok x := by
  have hne : s.window ≠ [] := fun he => by
    rw [he] at h
    cases h
  unfold State.fetch State.fetchFrom
  rw [if_neg hne, h]

/-- The decode port's record holds what the decoder reads, and the address it was given. -/
theorem decodePort_ok {p : Params} {bytes : List Byte} {offset : Nat} {va : Addr} {r : Record}
    (h : decodePort p bytes offset va = .ok r) :
    decode (bytes.drop offset) = .ok r.form ∧ r.virtualAddress = va := by
  unfold decodePort at h
  unfold decode
  cases hd : decodeRow (bytes.drop offset) with
  | ok q =>
    simp only [hd] at h
    cases h
    exact ⟨rfl, rfl⟩
  | error e => cases e <;> simp only [hd] at h <;> cases h

/-- A program counter inside the address space stays as it is while the instruction decoded there executes. -/
theorem atAddress_pc {s : State} (h : s.addr s.pc = s.pc) : s.atAddress s.pc = s := by
  unfold State.atAddress
  rw [h]
  rfl

/-! ### The step that runs an instruction -/

/-- One instruction run from a boundary is its meaning and the marks of the next boundary. -/
theorem runInstr_eq (x : Instr) (s : State) : runInstr x s = s.afterRunning x (exec x s.pastBoundary) := by
  have ho : s.opened = s.pastBoundary := rfl
  unfold runInstr
  rw [ho]
  cases exec x s.pastBoundary <;> rfl

/-- Where an instruction runs next the step is the one fetched, or EEPMOV.W under way, with its bookkeeping. -/
theorem step_of_nextInstr {s : State} {x : Instr} (h : s.RunsNext) (hx : s.nextInstr = .ok x) :
    step s = s.afterRunning x (exec x s.pastBoundary) := by
  obtain ⟨hfault, hreset, -, -⟩ := id h
  rw [step_proceeds hreset]
  unfold State.proceed
  rw [hfault, due_of_runsNext h]
  show fetchAndRun s = _
  unfold fetchAndRun
  rw [hx]
  exact runInstr_eq x s

/-- Settles O43: the boundary decides to run, the bytes at `pc` or the block move under way name the instruction, and
the two ports together are the same meaning, since `pc` is inside the address space. -/
theorem stepRunsTheDecodedInstruction : Obligations.StepRunsTheDecodedInstruction := by
  unfold Obligations.StepRunsTheDecodedInstruction
  refine fun s hs => ⟨fun x hx => step_of_nextInstr hs ?_, fun r hpc hm hr => ?_⟩
  · rcases hx with ⟨hm, hd⟩ | ⟨hm, rfl⟩
    · rw [nextInstr_fetch hm, fetch_of_decode hd]
    · exact nextInstr_moving hm
  · obtain ⟨hd, hva⟩ := decodePort_ok hr
    have hexec : execute s.pastBoundary r = exec r.form s.pastBoundary := by
      unfold execute
      rw [hva]
      exact congrArg (exec r.form) (atAddress_pc (s := s.pastBoundary) hpc.1)
    rw [hexec]
    exact step_of_nextInstr hs (by rw [nextInstr_fetch hm, fetch_of_decode hd])

/-! ### Everything a step can do -/

theorem of_eq_next {r : Except Fault State} {t : State} (h : Out.of r = .next t) : r = .ok t := by
  cases r with
  | error f => cases h
  | ok u => cases h; rfl

/-- What a step that goes on from `s` has done: a reset, before the step or within it; an exception entered; nothing
but the end of the shadow, asleep; or an instruction run. -/
inductive StepCase (s : State) : State → Prop where
  | reset {t : State} : s.resetIn = some 0 → s.enterReset = .ok t → StepCase s t
  | cut {k : Nat} {u t : State} : s.resetIn = some (k + 1) → s.abandoned (k + 1) = .next u →
      (s.leftWith u.mem).enterReset = .ok t → StepCase s t
  | entered {vector : Nat} {level : Option (BitVec 3)} {t : State} : s.resetIn = none → s.fault = none →
      s.enter vector level = .ok t → StepCase s t
  | nmi {t : State} : s.resetIn = none → s.fault = none → s.enterNmi = .ok t → StepCase s t
  | asleep : s.resetIn = none → s.fault = none → StepCase s s.stayAsleep
  | ran {x : Instr} {u : State} : s.resetIn = none → s.fault = none → s.nextInstr = .ok x →
      exec x s.opened = .next u → StepCase s (u.close (traceAfter x s u))

theorem stepCase_of_cutByReset {s t : State} {k : Nat} (hr : s.resetIn = some k) (h : s.cutByReset k = .next t) :
    StepCase s t := by
  cases k with
  | zero => exact .reset hr (of_eq_next h)
  | succ k =>
    unfold State.cutByReset at h
    cases ha : s.abandoned (k + 1) with
    | next u => simp only [ha] at h; exact .cut hr ha (of_eq_next h)
    | fault f => simp only [ha] at h; cases h
    | refused q => simp only [ha] at h; cases h

theorem stepCase_of_fetchAndRun {s t : State} (hr : s.resetIn = none) (hf : s.fault = none)
    (h : fetchAndRun s = .next t) : StepCase s t := by
  unfold fetchAndRun runInstr at h
  split at h
  · cases h
  · rename_i x hx
    split at h
    · rename_i u hu
      cases h
      exact .ran hr hf hx hu
    · cases h
    · cases h

theorem stepCase_of_proceed {s t : State} (hr : s.resetIn = none) (h : s.proceed = .next t) : StepCase s t := by
  unfold State.proceed at h
  cases hf : s.fault with
  | some f => simp [hf] at h
  | none =>
    cases hd : s.due with
    | reset => exact absurd hd (due_ne_reset hr)
    | trace => simp only [hf, hd] at h; exact .entered hr hf (of_eq_next h)
    | nmi => simp only [hf, hd] at h; exact .nmi hr hf (of_eq_next h)
    | irq r => simp only [hf, hd] at h; exact .entered hr hf (of_eq_next h)
    | asleep => simp only [hf, hd] at h; cases h; exact .asleep hr hf
    | run => simp only [hf, hd] at h; exact stepCase_of_fetchAndRun hr hf h

/-- A step that goes on has done one of the things of `StepCase`. -/
theorem stepCase_of_step {s t : State} (h : step s = .next t) : StepCase s t := by
  cases hr : s.resetIn with
  | none => rw [step_proceeds hr] at h; exact stepCase_of_proceed hr h
  | some k =>
    unfold step cycle at h
    rw [hr] at h
    exact stepCase_of_cutByReset hr h

/-! ### The surroundings of a run -/

/-- An exception entered at a boundary is made of elementary updates and the bookkeeping. -/
theorem enter_reach {s t : State} {vector : Nat} {level : Option (BitVec 3)} (h : s.enter vector level = .ok t) :
    ∃ u, Reach s u ∧ t = u.close false := by
  unfold State.enter at h
  split at h
  · cases h
  · rename_i u hu
    cases h
    exact ⟨u, exceptionEntry_reach .refl hu, rfl⟩

/-- An accepted NMI likewise, and the NMI taken note of. -/
theorem enterNmi_reach {s t : State} (h : s.enterNmi = .ok t) : ∃ u, Reach s u ∧ t = (u.close false).clearNmi := by
  unfold State.enterNmi at h
  split at h
  · cases h
  · rename_i v hv
    cases h
    obtain ⟨u, hu, rfl⟩ := enter_reach hv
    exact ⟨u, hu, rfl⟩

/-- The reset sequence goes on from the reset values. -/
theorem enterReset_reach {s t : State} (h : s.enterReset = .ok t) : ∃ u, Reach s.resetState u ∧ t = u.close false := by
  unfold State.enterReset State.resetSequence at h
  split at h
  · cases h
  · rename_i u hu
    cases h
    obtain ⟨a, ha, hj⟩ := bind_ok hu
    exact ⟨u, jumpTo_reach .refl hj (vectorEntry_addr ha), rfl⟩

/-- The run goes on in the surroundings of `s`: the same parameters, host's map and asserted interrupt requests, and no
fault on record. -/
structure RunsOn (s t : State) : Prop where
  params : t.params = s.params
  hostMap : t.hostMap = s.hostMap
  irq : t.irq = s.irq
  fault : t.fault = none

theorem Reach.runsOn {s t : State} (h : Reach s t) (hf : s.fault = none) : RunsOn s t :=
  ⟨h.params, h.hostMap, h.irq, h.fault.trans hf⟩

theorem RunsOn.close {s t : State} (h : RunsOn s t) (trace : Bool) : RunsOn s (t.close trace) :=
  ⟨h.params, h.hostMap, h.irq, h.fault⟩

theorem RunsOn.clearNmi {s t : State} (h : RunsOn s t) : RunsOn s t.clearNmi := ⟨h.params, h.hostMap, h.irq, h.fault⟩

/-- A reset keeps the surroundings and clears the record, whatever the state before it. -/
theorem enterReset_runsOn {s t : State} (h : s.enterReset = .ok t) : RunsOn s t := by
  obtain ⟨u, hu, rfl⟩ := enterReset_reach h
  have hr := (hu.runsOn (resetState_fault s)).close false
  exact ⟨hr.params, hr.hostMap, hr.irq, hr.fault⟩

/-- An instruction keeps them. -/
theorem exec_runsOn {s t : State} (hs : s.PcOk) (hf : s.fault = none) {x : Instr} (h : exec x s.opened = .next t) :
    RunsOn s t := by
  have hpc : s.opened.PcOk := hs
  have hr := (exec_reach hpc x h).runsOn hf
  exact ⟨hr.params, hr.hostMap, hr.irq, hr.fault⟩

/-- Every step keeps them. -/
theorem step_runsOn {s t : State} (hs : s.PcOk) (h : step s = .next t) : RunsOn s t := by
  cases stepCase_of_step h with
  | reset _ he => exact enterReset_runsOn he
  | cut _ _ he =>
    have hr := enterReset_runsOn he
    exact ⟨hr.params, hr.hostMap, hr.irq, hr.fault⟩
  | entered _ hf he =>
    obtain ⟨u, hu, rfl⟩ := enter_reach he
    exact (hu.runsOn hf).close false
  | nmi _ hf he =>
    obtain ⟨u, hu, rfl⟩ := enterNmi_reach he
    exact ((hu.runsOn hf).close false).clearNmi
  | asleep _ hf => exact ⟨rfl, rfl, rfl, hf⟩
  | ran _ hf _ he => exact (exec_runsOn hs hf he).close _

/-- A run that has ended with a fault does not go on without a reset (log 13). -/
theorem step_recorded {s : State} {f : Fault} (hr : s.resetIn = none) (hf : s.fault = some f) : step s = .fault f := by
  rw [step_proceeds hr]
  unfold State.proceed
  rw [hf]

/-- Settles O51, by the cases of a step; that none goes on from a recorded fault without a reset is the second part. -/
theorem stepKeepsInputsAndParameters : Obligations.StepKeepsInputsAndParameters := by
  unfold Obligations.StepKeepsInputsAndParameters
  refine ⟨fun s t hs h => ?_, fun s f => step_recorded⟩
  obtain ⟨hparams, hhost, hirq, hfault⟩ := step_runsOn hs h
  refine ⟨hparams, hhost, hirq, hfault, fun hr => ?_⟩
  cases hf : s.fault with
  | none => rfl
  | some f => rw [step_recorded hr hf] at h; cases h

end Sys2Proof.Machine
end

section
/-!
PROOFS. The invariant of the model, at reset and after every step, and that an instruction leaves defined what was
defined (10_state.md R106, R108, R110, R113, R114, R119; 20_memory.md R201).
-/

namespace Sys2Proof.Machine

/-! ### The state after reset -/

/-- Every register is as `Reg.reset` says. -/
theorem reset_reg (n : BitVec 3) : State.reset.reg n = Reg.reset := Vector.getElem_replicate n.isLt

/-- No byte of memory is listed and none belongs to a device (logs 2, 6). -/
theorem reset_byteAt (a : Addr) : State.reset.byteAt a = 0 := rfl

/-- The entry of every vector is 0 (log 3). -/
theorem reset_handler (vector : Nat) : State.reset.handler vector = 0 := by
  simp only [State.handler, State.longAt, reset_byteAt]
  decide

theorem reset_pcOk : State.reset.PcOk := by unfold State.PcOk; decide

theorem reset_exrOk : State.reset.ExrOk := by unfold State.ExrOk; decide

theorem reset_memOk : State.reset.MemOk := ⟨reset_mem_wf, fun _ h => by cases h⟩

/-- Settles O47, a fact for each part of the invariant. -/
theorem resetMeetsTheInvariant : Obligations.ResetMeetsTheInvariant := by
  unfold Obligations.ResetMeetsTheInvariant
  exact ⟨reset_pcOk, reset_exrOk, reset_memOk⟩

theorem reset_laneDefined (n : BitVec 3) (k : Nat) : State.reset.laneDefined n k = false := by
  unfold State.laneDefined
  rw [reset_reg]
  exact BitVec.getLsbD_zero

/-- Only I has a value the spec states (10_state.md R119). -/
theorem reset_definedFlag (f : Flag) : State.reset.definedFlag f = decide (f = .i) := by cases f <;> rfl

/-- Settles O48: `pc` is the vector's entry because the memory of `State.reset` lists nothing. -/
theorem resetValues : Obligations.ResetValues := by
  unfold Obligations.ResetValues
  exact ⟨reset_laneDefined, (reset_handler 0).symm, rfl, reset_definedFlag, rfl, rfl, rfl, rfl, rfl, rfl⟩

/-! ### Definedness -/

/-- Settles O52: no elementary update an instruction is made of undefines a register byte or a flag. -/
theorem definednessGrows : Obligations.DefinednessGrows := by
  unfold Obligations.DefinednessGrows
  intro x s t hs h
  have hr : Reach s t := exec_reach hs x h
  exact ⟨hr.laneDefined, hr.definedFlag⟩

/-! ### The invariant -/

/-- The invariant speaks of `pc`, EXR, memory and the width of addresses alone. -/
theorem State.Inv.of_fields {s t : State} (h : s.Inv) (hpc : t.pc = s.pc) (hexr : t.exr = s.exr) (hmem : t.mem = s.mem)
    (hparams : t.params = s.params) : t.Inv := by
  obtain ⟨hp, he, hm⟩ := h
  refine ⟨?_, ?_, ?_⟩
  · unfold State.PcOk
    rwa [hpc, hparams]
  · unfold State.ExrOk
    rwa [hexr]
  · unfold State.MemOk
    rwa [hmem, hparams]

theorem State.Inv.opened {s : State} (h : s.Inv) : s.opened.Inv := h.of_fields rfl rfl rfl rfl

theorem State.Inv.stayAsleep {s : State} (h : s.Inv) : s.stayAsleep.Inv := h.of_fields rfl rfl rfl rfl

theorem State.Inv.clearNmi {s : State} (h : s.Inv) : s.clearNmi.Inv := h.of_fields rfl rfl rfl rfl

theorem State.Inv.close {s : State} (h : s.Inv) (trace : Bool) : (s.close trace).Inv := h.of_fields rfl rfl rfl rfl

/-- Elementary updates keep the invariant. -/
theorem Reach.inv {s t : State} (h : Reach s t) (hs : s.Inv) : t.Inv :=
  ⟨h.pcOk hs.pcOk, h.exrOk hs.exrOk, h.memOk hs.memOk⟩

/-- The reset values keep `pc` and memory, and EXR is then 0x7F. -/
theorem resetState_inv {s : State} (hs : s.Inv) : s.resetState.Inv := ⟨hs.pcOk, reset_exrOk, hs.memOk⟩

/-- The memory a step cut short leaves keeps the invariant; `pc` and EXR are those before the step. -/
theorem abandoned_inv {s u : State} (hs : s.Inv) {k : Nat} (h : s.abandoned k = .next u) : (s.leftWith u.mem).Inv :=
  ⟨hs.pcOk, hs.exrOk, abandoned_memOk hs.pcOk hs.memOk h⟩

theorem enterReset_inv {s t : State} (hs : s.Inv) (h : s.enterReset = .ok t) : t.Inv := by
  obtain ⟨u, hu, rfl⟩ := enterReset_reach h
  exact (hu.inv (resetState_inv hs)).close false

theorem enter_inv {s t : State} (hs : s.Inv) {vector : Nat} {level : Option (BitVec 3)}
    (h : s.enter vector level = .ok t) : t.Inv := by
  obtain ⟨u, hu, rfl⟩ := enter_reach h
  exact (hu.inv hs).close false

theorem enterNmi_inv {s t : State} (hs : s.Inv) (h : s.enterNmi = .ok t) : t.Inv := by
  obtain ⟨u, hu, rfl⟩ := enterNmi_reach h
  exact ((hu.inv hs).close false).clearNmi

/-- An instruction run from a boundary keeps it. -/
theorem exec_opened_inv {s t : State} (hs : s.Inv) {x : Instr} (h : exec x s.opened = .next t) : t.Inv :=
  (exec_reach hs.opened.pcOk x h).inv hs.opened

/-- Settles O46, by the cases of a step. -/
theorem everyStepKeepsTheInvariant : Obligations.EveryStepKeepsTheInvariant := by
  unfold Obligations.EveryStepKeepsTheInvariant
  intro s t hs h
  cases stepCase_of_step h with
  | reset _ he => exact enterReset_inv hs he
  | cut _ ha he => exact enterReset_inv (abandoned_inv hs ha) he
  | entered _ _ he => exact enter_inv hs he
  | nmi _ _ he => exact enterNmi_inv hs he
  | asleep _ _ => exact hs.stayAsleep
  | ran _ _ _ he => exact (exec_opened_inv hs he).close _

end Sys2Proof.Machine
end

section
/-!
PROOFS. The encoder's bytes decode to the instruction they encode (30_encoding.md R302, R320, R325, R331).
-/

namespace Sys2Proof

/-! ### Operands at their places -/

/-- The place of an operand in an instruction: the `n` bits from bit `lo` upward (30_encoding.md R302). -/
structure Place where
  lo : Nat
  n : Nat

/-- An operand at its place. -/
structure Placed extends Place where
  val : BitVec n

/-- The fixed bits `m` of an instruction with operands added at their places. -/
def withFields (m : Nat) : List Placed → Nat
  | [] => m
  | f :: fs => withFields (m + f.val.toNat <<< f.lo) fs

/-- The places lie outside the bits `used` and apart from one another, and all of these below `bound`. -/
def placesFit (bound used : Nat) : List Place → Bool
  | [] => used.blt bound
  | p :: ps => (used >>> p.lo % 2 ^ p.n).beq 0 && placesFit bound (used ||| (2 ^ p.n - 1) <<< p.lo) ps

/-- Every bit of `w` is one of `used`. -/
def BitsWithin (w used : Nat) : Prop := ∀ i, w.testBit i = true → used.testBit i = true

theorem BitsWithin.le {w used : Nat} (h : BitsWithin w used) : w ≤ used := Nat.le_of_testBit h

/-- A place clear in `used` has none of its bits. -/
theorem testBit_of_clear {used lo n i : Nat} (h : used >>> lo % 2 ^ n = 0) (hlo : lo ≤ i) (hn : i < lo + n) :
    used.testBit i = false := by
  have hb := congrArg (fun x => x.testBit (i - lo)) h
  simpa [Nat.testBit_mod_two_pow, Nat.testBit_shiftRight, show i - lo < n by omega, show lo + (i - lo) = i by omega]
    using hb

/-- The bits of a sum whose second part is an operand at a place clear in the first. -/
theorem testBit_add_field {w used lo n : Nat} {v : BitVec n} (hw : BitsWithin w used) (h : used >>> lo % 2 ^ n = 0)
    (i : Nat) : (w + v.toNat <<< lo).testBit i = (w.testBit i || decide (lo ≤ i) && v.getLsbD (i - lo)) := by
  have hdisjoint : w &&& v.toNat <<< lo = 0 := by
    apply Nat.eq_of_testBit_eq
    intro j
    rw [Nat.testBit_and, Nat.testBit_shiftLeft, Nat.zero_testBit]
    by_cases hj : lo ≤ j ∧ j < lo + n
    · have hclear := testBit_of_clear h hj.1 hj.2
      cases hwj : w.testBit j with
      | false => rfl
      | true => rw [hw j hwj] at hclear; cases hclear
    · by_cases hlo : lo ≤ j
      · have hout : v.toNat.testBit (j - lo) = false := BitVec.getLsbD_of_ge v _ (by omega)
        simp [hout]
      · simp [hlo]
  rw [add_eq_or hdisjoint, Nat.testBit_or, Nat.testBit_shiftLeft]
  rfl

theorem testBit_used {used lo n i : Nat} :
    (used ||| (2 ^ n - 1) <<< lo).testBit i = (used.testBit i || decide (lo ≤ i) && decide (i - lo < n)) := by
  rw [Nat.testBit_or, Nat.testBit_shiftLeft, Nat.testBit_two_pow_sub_one]

/-- Operands at places that fit change none of the bits used before them, keep below the bound, and are read back. -/
theorem withFields_spec {bound : Nat} (fs : List Placed) {used w : Nat} (hw : BitsWithin w used)
    (hfit : placesFit bound used (fs.map (·.toPlace)) = true) :
    (∀ i, used.testBit i = true → (withFields w fs).testBit i = w.testBit i) ∧ withFields w fs < bound ∧
      ∀ f ∈ fs, field (withFields w fs) f.lo f.n = f.val := by
  induction fs generalizing used w with
  | nil =>
    have hlt : used < bound := by simpa [placesFit] using hfit
    exact ⟨fun _ _ => rfl, Nat.lt_of_le_of_lt hw.le hlt, fun _ hf => by cases hf⟩
  | cons f fs ih =>
    obtain ⟨hclear, hrest⟩ : used >>> f.lo % 2 ^ f.n = 0 ∧ placesFit bound _ (fs.map (·.toPlace)) = true := by
      simpa [placesFit] using hfit
    have hbits := testBit_add_field (v := f.val) hw hclear
    obtain ⟨hkeep, hlt, hread⟩ := ih (w := w + f.val.toNat <<< f.lo) (fun i hi => by
      rw [hbits] at hi
      rw [testBit_used]
      cases hwi : w.testBit i with
      | true => simp [hw i hwi]
      | false =>
        rw [hwi, Bool.false_or, Bool.and_eq_true] at hi
        have hn := BitVec.lt_of_getLsbD hi.2
        simp [of_decide_eq_true hi.1, hn]) hrest
    refine ⟨fun i hi => ?_, hlt, fun g hg => ?_⟩
    · show (withFields (w + f.val.toNat <<< f.lo) fs).testBit i = _
      rw [hkeep i (by rw [testBit_used, hi, Bool.true_or]), hbits]
      by_cases hplace : f.lo ≤ i ∧ i < f.lo + f.n
      · rw [testBit_of_clear hclear hplace.1 hplace.2] at hi
        cases hi
      · by_cases hlo : f.lo ≤ i
        · rw [BitVec.getLsbD_of_ge f.val _ (by omega), Bool.and_false, Bool.or_false]
        · simp [hlo]
    · rcases List.mem_cons.1 hg with rfl | hg
      · apply BitVec.eq_of_getLsbD_eq
        intro j hj
        have hwj : w.testBit (g.lo + j) = false := by
          cases hwj : w.testBit (g.lo + j) with
          | false => rfl
          | true =>
            have := testBit_of_clear hclear (Nat.le_add_right _ j) (by omega)
            rw [hw _ hwj] at this
            cases this
        have hused : (used ||| (2 ^ g.n - 1) <<< g.lo).testBit (g.lo + j) = true := by
          rw [testBit_used]
          simp [hj]
        show (field (withFields (w + g.val.toNat <<< g.lo) fs) g.lo g.n).getLsbD j = _
        unfold field
        rw [BitVec.getLsbD_ofNat, Nat.testBit_shiftRight, hkeep _ hused, hbits, hwj]
        simp [hj]
      · exact hread g hg

/-! ### Rows of the table -/

/-- The fixed bits of a row lie under its mask. -/
theorem table_fixed : ∀ r ∈ opcodeTable, r.mtch &&& r.mask = r.mtch := by decide +kernel

/-- The encoder's bytes of `x` are at most ten, and decode to `x` whatever follows them. -/
structure DecodesBack (x : Instr) : Prop where
  length_le : x.length ≤ 10
  decode_eq : ∀ rest, decode (encode x ++ rest) = .ok x

/-- An instruction encoded as a row's fixed bits with its operands at their places, which the row reads back as the
instruction, decodes by that row. -/
theorem decodesBack_of_row {r : Row} (hr : r ∈ opcodeTable) {x : Instr} (fs : List Placed)
    (henc : encodeWord x = (r.len, withFields r.mtch fs))
    (hfit : placesFit (256 ^ r.len) r.mask (fs.map (·.toPlace)) = true)
    (hread : ∀ w, (∀ f ∈ fs, field w f.lo f.n = f.val) → r.build w = x ∧ r.constraint w = true) : DecodesBack x := by
  have hfixed : BitsWithin r.mtch r.mask := fun i hi => by
    have h := congrArg (fun m => m.testBit i) (table_fixed r hr)
    simp only [Nat.testBit_and, hi, Bool.true_and] at h
    exact h
  obtain ⟨hkeep, hlt, hfields⟩ := withFields_spec fs hfixed hfit
  obtain ⟨hbuild, hconstraint⟩ := hread _ hfields
  have hmask : withFields r.mtch fs &&& r.mask = r.mtch := by
    apply Nat.eq_of_testBit_eq
    intro i
    rw [Nat.testBit_and]
    cases hi : r.mask.testBit i with
    | true => rw [hkeep i hi, Bool.and_true]
    | false =>
      cases hm : r.mtch.testBit i with
      | false => rw [Bool.and_false]
      | true => rw [hfixed i hm] at hi; cases hi
  have haccepts : r.accepts (withFields r.mtch fs) = true := by
    unfold Row.accepts
    rw [hmask, hconstraint, beq_self_eq_true]
    rfl
  refine ⟨?_, fun rest => ?_⟩
  · unfold Instr.length
    rw [henc]
    exact (table_lengths r hr).2.1
  · unfold encode
    rw [henc, decode_of_row hr hlt haccepts, hbuild]

/-- The lists of rows the table is put together from, in its order. -/
def tableParts : List (List Row) :=
  [rowsNop, rowsDataTransfer1, rowsDataTransfer2, rowsArithmetic1, rowsArithmetic2, rowsLogic, rowsShift1, rowsShift2,
    rowsBit1, rowsBit2, rowsBit3, rowsBranch1, rowsBranch2, rowsSystem1, rowsSystem2]

theorem opcodeTable_eq : opcodeTable = tableParts.flatten := by
  simp [opcodeTable, tableParts, List.append_assoc]

/-- The row at a place of the table: which part, and which row of it. -/
def rowAt (place : Nat × Nat) : Option Row := (tableParts.getD place.1 [])[place.2]?

theorem mem_of_rowAt {place : Nat × Nat} {r : Row} (h : rowAt place = some r) : r ∈ opcodeTable := by
  unfold rowAt at h
  rw [List.getD_eq_getElem?_getD] at h
  rw [opcodeTable_eq]
  cases hp : tableParts[place.1]? with
  | none => rw [hp] at h; cases h
  | some part =>
    rw [hp] at h
    exact List.mem_flatten.2 ⟨part, List.mem_of_getElem? hp, List.mem_of_getElem? h⟩

/-! ### Rows by the number of their operands

What a row says of an instruction is read off the table: the hypotheses with a default hold by evaluation. -/

theorem decodesBack_noOperand (place : Nat × Nat) {x : Instr} {r : Row} (hr : rowAt place = some r := by rfl)
    (henc : encodeWord x = (r.len, r.mtch) := by rfl)
    (hfit : placesFit (256 ^ r.len) r.mask [] = true := by rfl)
    (hread : ∀ w, r.build w = x ∧ r.constraint w = true := by exact fun _ => ⟨rfl, rfl⟩) : DecodesBack x :=
  decodesBack_of_row (mem_of_rowAt hr) [] henc hfit fun w _ => hread w

theorem decodesBack_oneOperand (place : Nat × Nat) (lo : Nat) {n : Nat} {x : Instr} (a : BitVec n) {r : Row}
    (hr : rowAt place = some r := by rfl)
    (henc : encodeWord x = (r.len, r.mtch + a.toNat <<< lo) := by rfl)
    (hfit : placesFit (256 ^ r.len) r.mask [⟨lo, n⟩] = true := by rfl)
    (hread : ∀ w, field w lo n = a → r.build w = x ∧ r.constraint w = true := by rintro _ rfl; exact ⟨rfl, rfl⟩) :
    DecodesBack x :=
  decodesBack_of_row (mem_of_rowAt hr) [⟨⟨lo, n⟩, a⟩] henc hfit fun w h => hread w (h ⟨⟨lo, n⟩, a⟩ (by simp))

theorem decodesBack_twoOperands (place : Nat × Nat) (lo₁ lo₂ : Nat) {n₁ n₂ : Nat} {x : Instr} (a : BitVec n₁)
    (b : BitVec n₂) {r : Row} (hr : rowAt place = some r := by rfl)
    (henc : encodeWord x = (r.len, r.mtch + a.toNat <<< lo₁ + b.toNat <<< lo₂) := by rfl)
    (hfit : placesFit (256 ^ r.len) r.mask [⟨lo₁, n₁⟩, ⟨lo₂, n₂⟩] = true := by rfl)
    (hread : ∀ w, field w lo₁ n₁ = a → field w lo₂ n₂ = b → r.build w = x ∧ r.constraint w = true := by
      rintro _ rfl rfl; exact ⟨rfl, rfl⟩) : DecodesBack x :=
  decodesBack_of_row (mem_of_rowAt hr) [⟨⟨lo₁, n₁⟩, a⟩, ⟨⟨lo₂, n₂⟩, b⟩] henc hfit fun w h =>
    hread w (h ⟨⟨lo₁, n₁⟩, a⟩ (by simp)) (h ⟨⟨lo₂, n₂⟩, b⟩ (by simp))

theorem decodesBack_threeOperands (place : Nat × Nat) (lo₁ lo₂ lo₃ : Nat) {n₁ n₂ n₃ : Nat} {x : Instr} (a : BitVec n₁)
    (b : BitVec n₂) (c : BitVec n₃) {r : Row} (hr : rowAt place = some r := by rfl)
    (henc : encodeWord x = (r.len, r.mtch + a.toNat <<< lo₁ + b.toNat <<< lo₂ + c.toNat <<< lo₃) := by rfl)
    (hfit : placesFit (256 ^ r.len) r.mask [⟨lo₁, n₁⟩, ⟨lo₂, n₂⟩, ⟨lo₃, n₃⟩] = true := by rfl)
    (hread : ∀ w, field w lo₁ n₁ = a → field w lo₂ n₂ = b → field w lo₃ n₃ = c →
      r.build w = x ∧ r.constraint w = true := by rintro _ rfl rfl rfl; exact ⟨rfl, rfl⟩) : DecodesBack x :=
  decodesBack_of_row (mem_of_rowAt hr) [⟨⟨lo₁, n₁⟩, a⟩, ⟨⟨lo₂, n₂⟩, b⟩, ⟨⟨lo₃, n₃⟩, c⟩] henc hfit fun w h =>
    hread w (h ⟨⟨lo₁, n₁⟩, a⟩ (by simp)) (h ⟨⟨lo₂, n₂⟩, b⟩ (by simp)) (h ⟨⟨lo₃, n₃⟩, c⟩ (by simp))

/-- Every well-formed instruction decodes back: for each its row in the table and the places of its operands, in the order
of `encodeWord`. -/
theorem decodesBack : (x : Instr) → x.wf = true → DecodesBack x
  -- 46_system_control.md
  | .nop, _ => decodesBack_noOperand (0, 0)
  -- 40_data_transfer.md
  | .movBReg rs rd, _ => decodesBack_twoOperands (1, 0) 4 0 rs rd
  | .movWReg rs rd, _ => decodesBack_twoOperands (1, 1) 4 0 rs rd
  | .movLReg rs rd, _ => decodesBack_twoOperands (1, 2) 4 0 rs rd
  | .movBImm imm rd, _ => decodesBack_twoOperands (1, 3) 0 8 imm rd
  | .movWImm imm rd, _ => decodesBack_twoOperands (1, 4) 0 16 imm rd
  | .movLImm imm rd, _ => decodesBack_twoOperands (1, 5) 0 32 imm rd
  | .movBLoad (.ind ra) rd, _ => decodesBack_twoOperands (1, 6) 4 0 ra rd
  | .movBLoad (.disp16 disp ra) rd, _ => decodesBack_threeOperands (1, 8) 20 0 16 ra disp rd
  | .movBLoad (.disp32 disp ra) rd, _ => decodesBack_threeOperands (1, 10) 52 0 32 ra disp rd
  | .movBLoad (.inc ra) rd, _ => decodesBack_twoOperands (1, 12) 4 0 ra rd
  | .movBLoad (.abs8 aa) rd, _ => decodesBack_twoOperands (1, 14) 0 8 aa rd
  | .movBLoad (.abs16 aa) rd, _ => decodesBack_twoOperands (1, 16) 0 16 aa rd
  | .movBLoad (.abs32 aa) rd, _ => decodesBack_twoOperands (1, 17) 0 32 aa rd
  | .movBLoad (.dec _) _, h => nomatch h
  | .movBStore rs (.ind ra), _ => decodesBack_twoOperands (1, 7) 0 4 rs ra
  | .movBStore rs (.disp16 disp ra), _ => decodesBack_threeOperands (1, 9) 16 20 0 rs ra disp
  | .movBStore rs (.disp32 disp ra), _ => decodesBack_threeOperands (1, 11) 32 52 0 rs ra disp
  | .movBStore rs (.dec ra), _ => decodesBack_twoOperands (1, 13) 0 4 rs ra
  | .movBStore rs (.abs8 aa), _ => decodesBack_twoOperands (1, 15) 8 0 rs aa
  | .movBStore rs (.abs16 aa), _ => decodesBack_twoOperands (1, 18) 16 0 rs aa
  | .movBStore rs (.abs32 aa), _ => decodesBack_twoOperands (1, 19) 32 0 rs aa
  | .movBStore _ (.inc _), h => nomatch h
  | .movWLoad (.ind ra) rd, _ => decodesBack_twoOperands (1, 20) 4 0 ra rd
  | .movWLoad (.disp16 disp ra) rd, _ => decodesBack_threeOperands (1, 22) 20 0 16 ra disp rd
  | .movWLoad (.disp32 disp ra) rd, _ => decodesBack_threeOperands (1, 24) 52 0 32 ra disp rd
  | .movWLoad (.inc ra) rd, _ => decodesBack_twoOperands (1, 26) 4 0 ra rd
  | .movWLoad (.abs16 aa) rd, _ => decodesBack_twoOperands (1, 28) 0 16 aa rd
  | .movWLoad (.abs32 aa) rd, _ => decodesBack_twoOperands (1, 29) 0 32 aa rd
  | .movWLoad (.dec _) _, h => nomatch h
  | .movWLoad (.abs8 _) _, h => nomatch h
  | .movWStore rs (.ind ra), _ => decodesBack_twoOperands (1, 21) 0 4 rs ra
  | .movWStore rs (.disp16 disp ra), _ => decodesBack_threeOperands (1, 23) 16 20 0 rs ra disp
  | .movWStore rs (.disp32 disp ra), _ => decodesBack_threeOperands (1, 25) 32 52 0 rs ra disp
  | .movWStore rs (.dec ra), _ => decodesBack_twoOperands (1, 27) 0 4 rs ra
  | .movWStore rs (.abs16 aa), _ => decodesBack_twoOperands (2, 0) 16 0 rs aa
  | .movWStore rs (.abs32 aa), _ => decodesBack_twoOperands (2, 1) 32 0 rs aa
  | .movWStore _ (.inc _), h => nomatch h
  | .movWStore _ (.abs8 _), h => nomatch h
  | .movLLoad (.ind ra) rd, _ => decodesBack_twoOperands (2, 2) 4 0 ra rd
  | .movLLoad (.disp16 disp ra) rd, _ => decodesBack_threeOperands (2, 4) 20 0 16 ra disp rd
  | .movLLoad (.disp32 disp ra) rd, _ => decodesBack_threeOperands (2, 6) 52 0 32 ra disp rd
  | .movLLoad (.inc ra) rd, _ => decodesBack_twoOperands (2, 8) 4 0 ra rd
  | .movLLoad (.abs16 aa) rd, _ => decodesBack_twoOperands (2, 10) 0 16 aa rd
  | .movLLoad (.abs32 aa) rd, _ => decodesBack_twoOperands (2, 11) 0 32 aa rd
  | .movLLoad (.dec _) _, h => nomatch h
  | .movLLoad (.abs8 _) _, h => nomatch h
  | .movLStore rs (.ind ra), _ => decodesBack_twoOperands (2, 3) 0 4 rs ra
  | .movLStore rs (.disp16 disp ra), _ => decodesBack_threeOperands (2, 5) 16 20 0 rs ra disp
  | .movLStore rs (.disp32 disp ra), _ => decodesBack_threeOperands (2, 7) 32 52 0 rs ra disp
  | .movLStore rs (.dec ra), _ => decodesBack_twoOperands (2, 9) 0 4 rs ra
  | .movLStore rs (.abs16 aa), _ => decodesBack_twoOperands (2, 12) 16 0 rs aa
  | .movLStore rs (.abs32 aa), _ => decodesBack_twoOperands (2, 13) 32 0 rs aa
  | .movLStore _ (.inc _), h => nomatch h
  | .movLStore _ (.abs8 _), h => nomatch h
  | .movfpe aa rd, _ => decodesBack_twoOperands (2, 14) 0 16 aa rd
  | .movtpe rs aa, _ => decodesBack_twoOperands (2, 15) 16 0 rs aa
  | .ldm2 rd, h => decodesBack_oneOperand (2, 16) 0 rd (hread := by rintro _ rfl; exact ⟨rfl, h⟩)
  | .stm2 rs, h => decodesBack_oneOperand (2, 17) 0 rs (hread := by rintro _ rfl; exact ⟨rfl, h⟩)
  | .ldm3 rd, h => decodesBack_oneOperand (2, 18) 0 rd (hread := by rintro _ rfl; exact ⟨rfl, h⟩)
  | .stm3 rs, h => decodesBack_oneOperand (2, 19) 0 rs (hread := by rintro _ rfl; exact ⟨rfl, h⟩)
  | .ldm4 rd, h => decodesBack_oneOperand (2, 20) 0 rd (hread := by rintro _ rfl; exact ⟨rfl, h⟩)
  | .stm4 rs, h => decodesBack_oneOperand (2, 21) 0 rs (hread := by rintro _ rfl; exact ⟨rfl, h⟩)
  | .eepmovB, _ => decodesBack_noOperand (2, 22)
  | .eepmovW, _ => decodesBack_noOperand (2, 23)
  -- 41_arithmetic.md
  | .addBImm imm rd, _ => decodesBack_twoOperands (3, 0) 0 8 imm rd
  | .addBReg rs rd, _ => decodesBack_twoOperands (3, 1) 4 0 rs rd
  | .addWImm imm rd, _ => decodesBack_twoOperands (3, 2) 0 16 imm rd
  | .addWReg rs rd, _ => decodesBack_twoOperands (3, 3) 4 0 rs rd
  | .addLImm imm rd, _ => decodesBack_twoOperands (3, 4) 0 32 imm rd
  | .addLReg rs rd, _ => decodesBack_twoOperands (3, 5) 4 0 rs rd
  | .addxImm imm rd, _ => decodesBack_twoOperands (3, 6) 0 8 imm rd
  | .addxReg rs rd, _ => decodesBack_twoOperands (3, 7) 4 0 rs rd
  | .adds1 rd, _ => decodesBack_oneOperand (3, 8) 0 rd
  | .adds2 rd, _ => decodesBack_oneOperand (3, 9) 0 rd
  | .adds4 rd, _ => decodesBack_oneOperand (3, 10) 0 rd
  | .incB rd, _ => decodesBack_oneOperand (3, 11) 0 rd
  | .incW1 rd, _ => decodesBack_oneOperand (3, 12) 0 rd
  | .incW2 rd, _ => decodesBack_oneOperand (3, 13) 0 rd
  | .incL1 rd, _ => decodesBack_oneOperand (3, 14) 0 rd
  | .incL2 rd, _ => decodesBack_oneOperand (3, 15) 0 rd
  | .daa rd, _ => decodesBack_oneOperand (3, 16) 0 rd
  | .subBReg rs rd, _ => decodesBack_twoOperands (3, 17) 4 0 rs rd
  | .subWImm imm rd, _ => decodesBack_twoOperands (3, 18) 0 16 imm rd
  | .subWReg rs rd, _ => decodesBack_twoOperands (3, 19) 4 0 rs rd
  | .subLImm imm rd, _ => decodesBack_twoOperands (3, 20) 0 32 imm rd
  | .subLReg rs rd, _ => decodesBack_twoOperands (3, 21) 4 0 rs rd
  | .subxImm imm rd, _ => decodesBack_twoOperands (3, 22) 0 8 imm rd
  | .subxReg rs rd, _ => decodesBack_twoOperands (3, 23) 4 0 rs rd
  | .subs1 rd, _ => decodesBack_oneOperand (3, 24) 0 rd
  | .subs2 rd, _ => decodesBack_oneOperand (3, 25) 0 rd
  | .subs4 rd, _ => decodesBack_oneOperand (3, 26) 0 rd
  | .decB rd, _ => decodesBack_oneOperand (3, 27) 0 rd
  | .decW1 rd, _ => decodesBack_oneOperand (3, 28) 0 rd
  | .decW2 rd, _ => decodesBack_oneOperand (3, 29) 0 rd
  | .decL1 rd, _ => decodesBack_oneOperand (4, 0) 0 rd
  | .decL2 rd, _ => decodesBack_oneOperand (4, 1) 0 rd
  | .das rd, _ => decodesBack_oneOperand (4, 2) 0 rd
  | .cmpBImm imm rd, _ => decodesBack_twoOperands (4, 3) 0 8 imm rd
  | .cmpBReg rs rd, _ => decodesBack_twoOperands (4, 4) 4 0 rs rd
  | .cmpWImm imm rd, _ => decodesBack_twoOperands (4, 5) 0 16 imm rd
  | .cmpWReg rs rd, _ => decodesBack_twoOperands (4, 6) 4 0 rs rd
  | .cmpLImm imm rd, _ => decodesBack_twoOperands (4, 7) 0 32 imm rd
  | .cmpLReg rs rd, _ => decodesBack_twoOperands (4, 8) 4 0 rs rd
  | .negB rd, _ => decodesBack_oneOperand (4, 9) 0 rd
  | .negW rd, _ => decodesBack_oneOperand (4, 10) 0 rd
  | .negL rd, _ => decodesBack_oneOperand (4, 11) 0 rd
  | .extuW rd, _ => decodesBack_oneOperand (4, 12) 0 rd
  | .extuL rd, _ => decodesBack_oneOperand (4, 13) 0 rd
  | .extsW rd, _ => decodesBack_oneOperand (4, 14) 0 rd
  | .extsL rd, _ => decodesBack_oneOperand (4, 15) 0 rd
  | .mulxuB rs rd, _ => decodesBack_twoOperands (4, 16) 4 0 rs rd
  | .mulxuW rs rd, _ => decodesBack_twoOperands (4, 17) 4 0 rs rd
  | .mulxsB rs rd, _ => decodesBack_twoOperands (4, 18) 4 0 rs rd
  | .mulxsW rs rd, _ => decodesBack_twoOperands (4, 19) 4 0 rs rd
  | .divxuB rs rd, _ => decodesBack_twoOperands (4, 20) 4 0 rs rd
  | .divxuW rs rd, _ => decodesBack_twoOperands (4, 21) 4 0 rs rd
  | .divxsB rs rd, _ => decodesBack_twoOperands (4, 22) 4 0 rs rd
  | .divxsW rs rd, _ => decodesBack_twoOperands (4, 23) 4 0 rs rd
  | .tas ra, _ => decodesBack_oneOperand (4, 24) 4 ra
  -- 42_logic.md
  | .andBImm imm rd, _ => decodesBack_twoOperands (5, 0) 0 8 imm rd
  | .andBReg rs rd, _ => decodesBack_twoOperands (5, 1) 4 0 rs rd
  | .andWImm imm rd, _ => decodesBack_twoOperands (5, 2) 0 16 imm rd
  | .andWReg rs rd, _ => decodesBack_twoOperands (5, 3) 4 0 rs rd
  | .andLImm imm rd, _ => decodesBack_twoOperands (5, 4) 0 32 imm rd
  | .andLReg rs rd, _ => decodesBack_twoOperands (5, 5) 4 0 rs rd
  | .orBImm imm rd, _ => decodesBack_twoOperands (5, 6) 0 8 imm rd
  | .orBReg rs rd, _ => decodesBack_twoOperands (5, 7) 4 0 rs rd
  | .orWImm imm rd, _ => decodesBack_twoOperands (5, 8) 0 16 imm rd
  | .orWReg rs rd, _ => decodesBack_twoOperands (5, 9) 4 0 rs rd
  | .orLImm imm rd, _ => decodesBack_twoOperands (5, 10) 0 32 imm rd
  | .orLReg rs rd, _ => decodesBack_twoOperands (5, 11) 4 0 rs rd
  | .xorBImm imm rd, _ => decodesBack_twoOperands (5, 12) 0 8 imm rd
  | .xorBReg rs rd, _ => decodesBack_twoOperands (5, 13) 4 0 rs rd
  | .xorWImm imm rd, _ => decodesBack_twoOperands (5, 14) 0 16 imm rd
  | .xorWReg rs rd, _ => decodesBack_twoOperands (5, 15) 4 0 rs rd
  | .xorLImm imm rd, _ => decodesBack_twoOperands (5, 16) 0 32 imm rd
  | .xorLReg rs rd, _ => decodesBack_twoOperands (5, 17) 4 0 rs rd
  | .notB rd, _ => decodesBack_oneOperand (5, 18) 0 rd
  | .notW rd, _ => decodesBack_oneOperand (5, 19) 0 rd
  | .notL rd, _ => decodesBack_oneOperand (5, 20) 0 rd
  -- 43_shift_rotate.md
  | .shllB rd, _ => decodesBack_oneOperand (6, 0) 0 rd
  | .shllW rd, _ => decodesBack_oneOperand (6, 1) 0 rd
  | .shllL rd, _ => decodesBack_oneOperand (6, 2) 0 rd
  | .shllB2 rd, _ => decodesBack_oneOperand (6, 3) 0 rd
  | .shllW2 rd, _ => decodesBack_oneOperand (6, 4) 0 rd
  | .shllL2 rd, _ => decodesBack_oneOperand (6, 5) 0 rd
  | .shalB rd, _ => decodesBack_oneOperand (6, 6) 0 rd
  | .shalW rd, _ => decodesBack_oneOperand (6, 7) 0 rd
  | .shalL rd, _ => decodesBack_oneOperand (6, 8) 0 rd
  | .shalB2 rd, _ => decodesBack_oneOperand (6, 9) 0 rd
  | .shalW2 rd, _ => decodesBack_oneOperand (6, 10) 0 rd
  | .shalL2 rd, _ => decodesBack_oneOperand (6, 11) 0 rd
  | .shlrB rd, _ => decodesBack_oneOperand (6, 12) 0 rd
  | .shlrW rd, _ => decodesBack_oneOperand (6, 13) 0 rd
  | .shlrL rd, _ => decodesBack_oneOperand (6, 14) 0 rd
  | .shlrB2 rd, _ => decodesBack_oneOperand (6, 15) 0 rd
  | .shlrW2 rd, _ => decodesBack_oneOperand (6, 16) 0 rd
  | .shlrL2 rd, _ => decodesBack_oneOperand (6, 17) 0 rd
  | .sharB rd, _ => decodesBack_oneOperand (6, 18) 0 rd
  | .sharW rd, _ => decodesBack_oneOperand (6, 19) 0 rd
  | .sharL rd, _ => decodesBack_oneOperand (6, 20) 0 rd
  | .sharB2 rd, _ => decodesBack_oneOperand (6, 21) 0 rd
  | .sharW2 rd, _ => decodesBack_oneOperand (6, 22) 0 rd
  | .sharL2 rd, _ => decodesBack_oneOperand (6, 23) 0 rd
  | .rotxlB rd, _ => decodesBack_oneOperand (6, 24) 0 rd
  | .rotxlW rd, _ => decodesBack_oneOperand (6, 25) 0 rd
  | .rotxlL rd, _ => decodesBack_oneOperand (6, 26) 0 rd
  | .rotxlB2 rd, _ => decodesBack_oneOperand (6, 27) 0 rd
  | .rotxlW2 rd, _ => decodesBack_oneOperand (6, 28) 0 rd
  | .rotxlL2 rd, _ => decodesBack_oneOperand (6, 29) 0 rd
  | .rotlB rd, _ => decodesBack_oneOperand (7, 0) 0 rd
  | .rotlW rd, _ => decodesBack_oneOperand (7, 1) 0 rd
  | .rotlL rd, _ => decodesBack_oneOperand (7, 2) 0 rd
  | .rotlB2 rd, _ => decodesBack_oneOperand (7, 3) 0 rd
  | .rotlW2 rd, _ => decodesBack_oneOperand (7, 4) 0 rd
  | .rotlL2 rd, _ => decodesBack_oneOperand (7, 5) 0 rd
  | .rotxrB rd, _ => decodesBack_oneOperand (7, 6) 0 rd
  | .rotxrW rd, _ => decodesBack_oneOperand (7, 7) 0 rd
  | .rotxrL rd, _ => decodesBack_oneOperand (7, 8) 0 rd
  | .rotxrB2 rd, _ => decodesBack_oneOperand (7, 9) 0 rd
  | .rotxrW2 rd, _ => decodesBack_oneOperand (7, 10) 0 rd
  | .rotxrL2 rd, _ => decodesBack_oneOperand (7, 11) 0 rd
  | .rotrB rd, _ => decodesBack_oneOperand (7, 12) 0 rd
  | .rotrW rd, _ => decodesBack_oneOperand (7, 13) 0 rd
  | .rotrL rd, _ => decodesBack_oneOperand (7, 14) 0 rd
  | .rotrB2 rd, _ => decodesBack_oneOperand (7, 15) 0 rd
  | .rotrW2 rd, _ => decodesBack_oneOperand (7, 16) 0 rd
  | .rotrL2 rd, _ => decodesBack_oneOperand (7, 17) 0 rd
  -- 44_bit_manipulation.md
  | .bsetImm bit (.reg rd), _ => decodesBack_twoOperands (8, 0) 4 0 bit rd
  | .bsetImm bit (.ind ra), _ => decodesBack_twoOperands (8, 1) 4 20 bit ra
  | .bsetImm bit (.abs8 aa), _ => decodesBack_twoOperands (8, 2) 4 16 bit aa
  | .bsetImm bit (.abs16 aa), _ => decodesBack_twoOperands (8, 3) 4 16 bit aa
  | .bsetImm bit (.abs32 aa), _ => decodesBack_twoOperands (8, 4) 4 16 bit aa
  | .bsetRn rn (.reg rd), _ => decodesBack_twoOperands (8, 5) 4 0 rn rd
  | .bsetRn rn (.ind ra), _ => decodesBack_twoOperands (8, 6) 4 20 rn ra
  | .bsetRn rn (.abs8 aa), _ => decodesBack_twoOperands (8, 7) 4 16 rn aa
  | .bsetRn rn (.abs16 aa), _ => decodesBack_twoOperands (8, 8) 4 16 rn aa
  | .bsetRn rn (.abs32 aa), _ => decodesBack_twoOperands (8, 9) 4 16 rn aa
  | .bnotImm bit (.reg rd), _ => decodesBack_twoOperands (8, 10) 4 0 bit rd
  | .bnotImm bit (.ind ra), _ => decodesBack_twoOperands (8, 11) 4 20 bit ra
  | .bnotImm bit (.abs8 aa), _ => decodesBack_twoOperands (8, 12) 4 16 bit aa
  | .bnotImm bit (.abs16 aa), _ => decodesBack_twoOperands (8, 13) 4 16 bit aa
  | .bnotImm bit (.abs32 aa), _ => decodesBack_twoOperands (8, 14) 4 16 bit aa
  | .bnotRn rn (.reg rd), _ => decodesBack_twoOperands (8, 15) 4 0 rn rd
  | .bnotRn rn (.ind ra), _ => decodesBack_twoOperands (8, 16) 4 20 rn ra
  | .bnotRn rn (.abs8 aa), _ => decodesBack_twoOperands (8, 17) 4 16 rn aa
  | .bnotRn rn (.abs16 aa), _ => decodesBack_twoOperands (8, 18) 4 16 rn aa
  | .bnotRn rn (.abs32 aa), _ => decodesBack_twoOperands (8, 19) 4 16 rn aa
  | .bclrImm bit (.reg rd), _ => decodesBack_twoOperands (8, 20) 4 0 bit rd
  | .bclrImm bit (.ind ra), _ => decodesBack_twoOperands (8, 21) 4 20 bit ra
  | .bclrImm bit (.abs8 aa), _ => decodesBack_twoOperands (8, 22) 4 16 bit aa
  | .bclrImm bit (.abs16 aa), _ => decodesBack_twoOperands (8, 23) 4 16 bit aa
  | .bclrImm bit (.abs32 aa), _ => decodesBack_twoOperands (8, 24) 4 16 bit aa
  | .bclrRn rn (.reg rd), _ => decodesBack_twoOperands (8, 25) 4 0 rn rd
  | .bclrRn rn (.ind ra), _ => decodesBack_twoOperands (8, 26) 4 20 rn ra
  | .bclrRn rn (.abs8 aa), _ => decodesBack_twoOperands (8, 27) 4 16 rn aa
  | .bclrRn rn (.abs16 aa), _ => decodesBack_twoOperands (8, 28) 4 16 rn aa
  | .bclrRn rn (.abs32 aa), _ => decodesBack_twoOperands (8, 29) 4 16 rn aa
  | .btstImm bit (.reg rd), _ => decodesBack_twoOperands (9, 0) 4 0 bit rd
  | .btstImm bit (.ind ra), _ => decodesBack_twoOperands (9, 1) 4 20 bit ra
  | .btstImm bit (.abs8 aa), _ => decodesBack_twoOperands (9, 2) 4 16 bit aa
  | .btstImm bit (.abs16 aa), _ => decodesBack_twoOperands (9, 3) 4 16 bit aa
  | .btstImm bit (.abs32 aa), _ => decodesBack_twoOperands (9, 4) 4 16 bit aa
  | .btstRn rn (.reg rd), _ => decodesBack_twoOperands (9, 5) 4 0 rn rd
  | .btstRn rn (.ind ra), _ => decodesBack_twoOperands (9, 6) 4 20 rn ra
  | .btstRn rn (.abs8 aa), _ => decodesBack_twoOperands (9, 7) 4 16 rn aa
  | .btstRn rn (.abs16 aa), _ => decodesBack_twoOperands (9, 8) 4 16 rn aa
  | .btstRn rn (.abs32 aa), _ => decodesBack_twoOperands (9, 9) 4 16 rn aa
  | .bor bit (.reg rd), _ => decodesBack_twoOperands (9, 10) 4 0 bit rd
  | .bor bit (.ind ra), _ => decodesBack_twoOperands (9, 11) 4 20 bit ra
  | .bor bit (.abs8 aa), _ => decodesBack_twoOperands (9, 12) 4 16 bit aa
  | .bor bit (.abs16 aa), _ => decodesBack_twoOperands (9, 13) 4 16 bit aa
  | .bor bit (.abs32 aa), _ => decodesBack_twoOperands (9, 14) 4 16 bit aa
  | .bior bit (.reg rd), _ => decodesBack_twoOperands (9, 15) 4 0 bit rd
  | .bior bit (.ind ra), _ => decodesBack_twoOperands (9, 16) 4 20 bit ra
  | .bior bit (.abs8 aa), _ => decodesBack_twoOperands (9, 17) 4 16 bit aa
  | .bior bit (.abs16 aa), _ => decodesBack_twoOperands (9, 18) 4 16 bit aa
  | .bior bit (.abs32 aa), _ => decodesBack_twoOperands (9, 19) 4 16 bit aa
  | .bxor bit (.reg rd), _ => decodesBack_twoOperands (9, 20) 4 0 bit rd
  | .bxor bit (.ind ra), _ => decodesBack_twoOperands (9, 21) 4 20 bit ra
  | .bxor bit (.abs8 aa), _ => decodesBack_twoOperands (9, 22) 4 16 bit aa
  | .bxor bit (.abs16 aa), _ => decodesBack_twoOperands (9, 23) 4 16 bit aa
  | .bxor bit (.abs32 aa), _ => decodesBack_twoOperands (9, 24) 4 16 bit aa
  | .bixor bit (.reg rd), _ => decodesBack_twoOperands (9, 25) 4 0 bit rd
  | .bixor bit (.ind ra), _ => decodesBack_twoOperands (9, 26) 4 20 bit ra
  | .bixor bit (.abs8 aa), _ => decodesBack_twoOperands (9, 27) 4 16 bit aa
  | .bixor bit (.abs16 aa), _ => decodesBack_twoOperands (9, 28) 4 16 bit aa
  | .bixor bit (.abs32 aa), _ => decodesBack_twoOperands (9, 29) 4 16 bit aa
  | .band bit (.reg rd), _ => decodesBack_twoOperands (10, 0) 4 0 bit rd
  | .band bit (.ind ra), _ => decodesBack_twoOperands (10, 1) 4 20 bit ra
  | .band bit (.abs8 aa), _ => decodesBack_twoOperands (10, 2) 4 16 bit aa
  | .band bit (.abs16 aa), _ => decodesBack_twoOperands (10, 3) 4 16 bit aa
  | .band bit (.abs32 aa), _ => decodesBack_twoOperands (10, 4) 4 16 bit aa
  | .biand bit (.reg rd), _ => decodesBack_twoOperands (10, 5) 4 0 bit rd
  | .biand bit (.ind ra), _ => decodesBack_twoOperands (10, 6) 4 20 bit ra
  | .biand bit (.abs8 aa), _ => decodesBack_twoOperands (10, 7) 4 16 bit aa
  | .biand bit (.abs16 aa), _ => decodesBack_twoOperands (10, 8) 4 16 bit aa
  | .biand bit (.abs32 aa), _ => decodesBack_twoOperands (10, 9) 4 16 bit aa
  | .bld bit (.reg rd), _ => decodesBack_twoOperands (10, 10) 4 0 bit rd
  | .bld bit (.ind ra), _ => decodesBack_twoOperands (10, 11) 4 20 bit ra
  | .bld bit (.abs8 aa), _ => decodesBack_twoOperands (10, 12) 4 16 bit aa
  | .bld bit (.abs16 aa), _ => decodesBack_twoOperands (10, 13) 4 16 bit aa
  | .bld bit (.abs32 aa), _ => decodesBack_twoOperands (10, 14) 4 16 bit aa
  | .bild bit (.reg rd), _ => decodesBack_twoOperands (10, 15) 4 0 bit rd
  | .bild bit (.ind ra), _ => decodesBack_twoOperands (10, 16) 4 20 bit ra
  | .bild bit (.abs8 aa), _ => decodesBack_twoOperands (10, 17) 4 16 bit aa
  | .bild bit (.abs16 aa), _ => decodesBack_twoOperands (10, 18) 4 16 bit aa
  | .bild bit (.abs32 aa), _ => decodesBack_twoOperands (10, 19) 4 16 bit aa
  | .bst bit (.reg rd), _ => decodesBack_twoOperands (10, 20) 4 0 bit rd
  | .bst bit (.ind ra), _ => decodesBack_twoOperands (10, 21) 4 20 bit ra
  | .bst bit (.abs8 aa), _ => decodesBack_twoOperands (10, 22) 4 16 bit aa
  | .bst bit (.abs16 aa), _ => decodesBack_twoOperands (10, 23) 4 16 bit aa
  | .bst bit (.abs32 aa), _ => decodesBack_twoOperands (10, 24) 4 16 bit aa
  | .bist bit (.reg rd), _ => decodesBack_twoOperands (10, 25) 4 0 bit rd
  | .bist bit (.ind ra), _ => decodesBack_twoOperands (10, 26) 4 20 bit ra
  | .bist bit (.abs8 aa), _ => decodesBack_twoOperands (10, 27) 4 16 bit aa
  | .bist bit (.abs16 aa), _ => decodesBack_twoOperands (10, 28) 4 16 bit aa
  | .bist bit (.abs32 aa), _ => decodesBack_twoOperands (10, 29) 4 16 bit aa
  -- 45_branch.md
  | .bra8 disp, _ => decodesBack_oneOperand (11, 0) 0 disp
  | .bra16 disp, _ => decodesBack_oneOperand (11, 1) 0 disp
  | .brn8 disp, _ => decodesBack_oneOperand (11, 2) 0 disp
  | .brn16 disp, _ => decodesBack_oneOperand (11, 3) 0 disp
  | .bhi8 disp, _ => decodesBack_oneOperand (11, 4) 0 disp
  | .bhi16 disp, _ => decodesBack_oneOperand (11, 5) 0 disp
  | .bls8 disp, _ => decodesBack_oneOperand (11, 6) 0 disp
  | .bls16 disp, _ => decodesBack_oneOperand (11, 7) 0 disp
  | .bcc8 disp, _ => decodesBack_oneOperand (11, 8) 0 disp
  | .bcc16 disp, _ => decodesBack_oneOperand (11, 9) 0 disp
  | .bcs8 disp, _ => decodesBack_oneOperand (11, 10) 0 disp
  | .bcs16 disp, _ => decodesBack_oneOperand (11, 11) 0 disp
  | .bne8 disp, _ => decodesBack_oneOperand (11, 12) 0 disp
  | .bne16 disp, _ => decodesBack_oneOperand (11, 13) 0 disp
  | .beq8 disp, _ => decodesBack_oneOperand (11, 14) 0 disp
  | .beq16 disp, _ => decodesBack_oneOperand (11, 15) 0 disp
  | .bvc8 disp, _ => decodesBack_oneOperand (11, 16) 0 disp
  | .bvc16 disp, _ => decodesBack_oneOperand (11, 17) 0 disp
  | .bvs8 disp, _ => decodesBack_oneOperand (11, 18) 0 disp
  | .bvs16 disp, _ => decodesBack_oneOperand (11, 19) 0 disp
  | .bpl8 disp, _ => decodesBack_oneOperand (11, 20) 0 disp
  | .bpl16 disp, _ => decodesBack_oneOperand (11, 21) 0 disp
  | .bmi8 disp, _ => decodesBack_oneOperand (11, 22) 0 disp
  | .bmi16 disp, _ => decodesBack_oneOperand (11, 23) 0 disp
  | .bge8 disp, _ => decodesBack_oneOperand (11, 24) 0 disp
  | .bge16 disp, _ => decodesBack_oneOperand (11, 25) 0 disp
  | .blt8 disp, _ => decodesBack_oneOperand (11, 26) 0 disp
  | .blt16 disp, _ => decodesBack_oneOperand (11, 27) 0 disp
  | .bgt8 disp, _ => decodesBack_oneOperand (11, 28) 0 disp
  | .bgt16 disp, _ => decodesBack_oneOperand (11, 29) 0 disp
  | .ble8 disp, _ => decodesBack_oneOperand (12, 0) 0 disp
  | .ble16 disp, _ => decodesBack_oneOperand (12, 1) 0 disp
  | .jmpInd ra, _ => decodesBack_oneOperand (12, 2) 4 ra
  | .jmpAbs24 aa, _ => decodesBack_oneOperand (12, 3) 0 aa
  | .jmpMemInd aa, _ => decodesBack_oneOperand (12, 4) 0 aa
  | .bsr8 disp, _ => decodesBack_oneOperand (12, 5) 0 disp
  | .bsr16 disp, _ => decodesBack_oneOperand (12, 6) 0 disp
  | .jsrInd ra, _ => decodesBack_oneOperand (12, 7) 4 ra
  | .jsrAbs24 aa, _ => decodesBack_oneOperand (12, 8) 0 aa
  | .jsrMemInd aa, _ => decodesBack_oneOperand (12, 9) 0 aa
  | .rts, _ => decodesBack_noOperand (12, 10)
  -- 46_system_control.md
  | .trapa tn, _ => decodesBack_oneOperand (13, 0) 4 tn
  | .rte, _ => decodesBack_noOperand (13, 1)
  | .sleep, _ => decodesBack_noOperand (13, 2)
  | .ldcImmCcr imm, _ => decodesBack_oneOperand (13, 3) 0 imm
  | .andcCcr imm, _ => decodesBack_oneOperand (13, 4) 0 imm
  | .orcCcr imm, _ => decodesBack_oneOperand (13, 5) 0 imm
  | .xorcCcr imm, _ => decodesBack_oneOperand (13, 6) 0 imm
  | .ldcRegCcr rs, _ => decodesBack_oneOperand (13, 7) 0 rs
  | .stcRegCcr rd, _ => decodesBack_oneOperand (13, 8) 0 rd
  | .ldcWCcr (.ind ra), _ => decodesBack_oneOperand (13, 9) 4 ra
  | .ldcWCcr (.disp16 disp ra), _ => decodesBack_twoOperands (13, 11) 20 0 ra disp
  | .ldcWCcr (.disp32 disp ra), _ => decodesBack_twoOperands (13, 13) 52 0 ra disp
  | .ldcWCcr (.inc ra), _ => decodesBack_oneOperand (13, 15) 4 ra
  | .ldcWCcr (.abs16 aa), _ => decodesBack_oneOperand (13, 17) 0 aa
  | .ldcWCcr (.abs32 aa), _ => decodesBack_oneOperand (13, 18) 0 aa
  | .ldcWCcr (.dec _), h => nomatch h
  | .ldcWCcr (.abs8 _), h => nomatch h
  | .stcWCcr (.ind ra), _ => decodesBack_oneOperand (13, 10) 4 ra
  | .stcWCcr (.disp16 disp ra), _ => decodesBack_twoOperands (13, 12) 20 0 ra disp
  | .stcWCcr (.disp32 disp ra), _ => decodesBack_twoOperands (13, 14) 52 0 ra disp
  | .stcWCcr (.dec ra), _ => decodesBack_oneOperand (13, 16) 4 ra
  | .stcWCcr (.abs16 aa), _ => decodesBack_oneOperand (13, 19) 0 aa
  | .stcWCcr (.abs32 aa), _ => decodesBack_oneOperand (13, 20) 0 aa
  | .stcWCcr (.inc _), h => nomatch h
  | .stcWCcr (.abs8 _), h => nomatch h
  | .ldcImmExr imm, _ => decodesBack_oneOperand (13, 21) 0 imm
  | .andcExr imm, _ => decodesBack_oneOperand (13, 22) 0 imm
  | .orcExr imm, _ => decodesBack_oneOperand (13, 23) 0 imm
  | .xorcExr imm, _ => decodesBack_oneOperand (13, 24) 0 imm
  | .ldcRegExr rs, _ => decodesBack_oneOperand (13, 25) 0 rs
  | .stcRegExr rd, _ => decodesBack_oneOperand (13, 26) 0 rd
  | .ldcWExr (.ind ra), _ => decodesBack_oneOperand (13, 27) 4 ra
  | .ldcWExr (.disp16 disp ra), _ => decodesBack_twoOperands (13, 29) 20 0 ra disp
  | .ldcWExr (.disp32 disp ra), _ => decodesBack_twoOperands (14, 1) 52 0 ra disp
  | .ldcWExr (.inc ra), _ => decodesBack_oneOperand (14, 3) 4 ra
  | .ldcWExr (.abs16 aa), _ => decodesBack_oneOperand (14, 5) 0 aa
  | .ldcWExr (.abs32 aa), _ => decodesBack_oneOperand (14, 6) 0 aa
  | .ldcWExr (.dec _), h => nomatch h
  | .ldcWExr (.abs8 _), h => nomatch h
  | .stcWExr (.ind ra), _ => decodesBack_oneOperand (13, 28) 4 ra
  | .stcWExr (.disp16 disp ra), _ => decodesBack_twoOperands (14, 0) 20 0 ra disp
  | .stcWExr (.disp32 disp ra), _ => decodesBack_twoOperands (14, 2) 52 0 ra disp
  | .stcWExr (.dec ra), _ => decodesBack_oneOperand (14, 4) 4 ra
  | .stcWExr (.abs16 aa), _ => decodesBack_oneOperand (14, 7) 0 aa
  | .stcWExr (.abs32 aa), _ => decodesBack_oneOperand (14, 8) 0 aa
  | .stcWExr (.inc _), h => nomatch h
  | .stcWExr (.abs8 _), h => nomatch h

/-- Decoding undoes encoding, whatever bytes follow (30_encoding.md R325). -/
theorem decode_encode {x : Instr} (hx : x.wf = true) (rest : List Byte) : decode (encode x ++ rest) = .ok x :=
  (decodesBack x hx).decode_eq rest

theorem encode_length (x : Instr) : (encode x).length = x.length := beBytes_length _ _

end Sys2Proof
end

section
/-!
PROOFS. Instruction fetch, the instruction it finds and its faults, and the byte order of memory (20_memory.md R202 to R205,
R210).
-/

namespace Sys2Proof.Machine

/-! ### Fetch -/

/-- Where an instruction runs next and none can be fetched, the step ends with the fault of the fetch. -/
theorem step_of_nextInstr_error {s : State} {f : Fault} (h : s.RunsNext) (hx : s.nextInstr = .error f) :
    step s = .fault f := by
  obtain ⟨hfault, hreset, -, -⟩ := id h
  rw [step_proceeds hreset]
  unfold State.proceed
  rw [hfault, due_of_runsNext h]
  show fetchAndRun s = _
  unfold fetchAndRun
  rw [hx]

/-- A refused first byte leaves the window empty. -/
theorem window_eq_nil {s : State} (h : s.canRead (s.addr s.pc).toNat = false) : s.window = [] := by
  unfold State.window State.windowFrom
  rw [if_neg (by simp [h])]

/-- A readable first byte is in the window. -/
theorem window_ne_nil {s : State} (h : s.canRead (s.addr s.pc).toNat = true) : s.window ≠ [] := by
  unfold State.window State.windowFrom
  rw [if_pos h]
  exact List.cons_ne_nil _ _

theorem fetch_refused {s : State} (h : s.canRead (s.addr s.pc).toNat = false) :
    s.fetch = .error (.memoryAccess (s.addr s.pc).toNat) := by
  unfold State.fetch State.fetchFrom
  rw [if_pos (window_eq_nil h)]

/-- A window that ends inside an instruction faults at the first address after it. -/
theorem fetch_truncated {s : State} (h : s.canRead (s.addr s.pc).toNat = true) (hd : decode s.window = .error .truncated) :
    s.fetch = .error (.memoryAccess (s.offset (s.addr s.pc) s.window.length).toNat) := by
  unfold State.fetch State.fetchFrom
  rw [if_neg (window_ne_nil h), hd]

theorem fetch_invalid {s : State} (h : s.canRead (s.addr s.pc).toNat = true) (hd : decode s.window = .error .invalid) :
    s.fetch = .error (.invalidInstruction s.pc.toNat s.window) := by
  unfold State.fetch State.fetchFrom
  rw [if_neg (window_ne_nil h), hd]

/-- A range modulo the address space, from any address that reaches its first byte. -/
theorem byteRange_addr (s : State) (a : Addr) (n : Nat) : s.byteRange (s.addr a) n = s.byteRange a n := by
  refine List.map_congr_left fun i _ => BitVec.eq_of_toNat_eq ?_
  rw [offset_toNat, offset_toNat, addr_toNat, Nat.mod_add_mod]

/-- A window of `k` bytes begins with the bytes that stand from `a` on, where these may be read and are no device's. -/
theorem windowFrom_prefix {s : State} (bs : List Byte) {k : Nat} {a : Addr} (hk : bs.length ≤ k) (ha : s.addr a = a)
    (hr : s.MayRead (s.byteRange a bs.length)) (hd : ∀ b ∈ s.byteRange a bs.length, s.isDevice b.toNat = false)
    (hh : s.Holds (s.byteRange a bs.length) bs) : ∃ rest, s.windowFrom k a = bs ++ rest := by
  induction bs generalizing k a with
  | nil => exact ⟨_, rfl⟩
  | cons b bs ih =>
    obtain ⟨k, rfl⟩ : ∃ j, k = j + 1 := ⟨k - 1, by simp at hk; omega⟩
    have hrange : s.byteRange a (bs.length + 1) = a :: s.byteRange (s.offset a 1) bs.length := by
      rw [byteRange_succ, ha, show s.offset a 1 = s.addr (a + 1) from rfl, byteRange_addr]
    rw [List.length_cons, hrange] at hr hd hh
    obtain ⟨rest, hrest⟩ := ih (k := k) (a := s.offset a 1) (by simpa using hk) (addr_offset s a 1)
      (fun c hc => hr c (List.mem_cons_of_mem _ hc)) (fun c hc => hd c (List.mem_cons_of_mem _ hc))
      (fun p hp => hh p (List.mem_cons_of_mem _ hp))
    have hfirst : s.fetchByte a = b := by
      unfold State.fetchByte
      rw [if_neg (by simp [hd a List.mem_cons_self])]
      exact hh (a, b) List.mem_cons_self (hd a List.mem_cons_self)
    refine ⟨rest, ?_⟩
    unfold State.windowFrom
    rw [if_pos (hr a List.mem_cons_self), hfirst, hrest, List.cons_append]

/-- Settles O44: the window begins with the encoding, which decodes whatever follows it. -/
theorem encodedInstructionInMemoryIsFetched : Obligations.EncodedInstructionInMemoryIsFetched := by
  unfold Obligations.EncodedInstructionInMemoryIsFetched
  intro s x hx hr hd hh
  rw [← encode_length, ← byteRange_addr] at hr hd hh
  have hlen : (encode x).length ≤ 10 := by
    rw [encode_length]
    exact (decodesBack x hx).length_le
  obtain ⟨rest, hrest⟩ := windowFrom_prefix (encode x) hlen (addr_addr s s.pc) hr hd hh
  refine fetch_of_decode ?_
  unfold State.window
  rw [hrest, decode_encode hx]

/-- Settles O45: the three faults of a fetch, each the fault of the step. -/
theorem fetchFaults : Obligations.FetchFaults := by
  unfold Obligations.FetchFaults
  intro s hs hm
  have hstep : ∀ f, s.fetch = .error f → step s = .fault f := fun f hf =>
    step_of_nextInstr_error hs ((nextInstr_fetch hm).trans hf)
  exact ⟨fun h => hstep _ (fetch_refused h), fun h hd => hstep _ (fetch_truncated h hd),
    fun h hd => hstep _ (fetch_invalid h hd)⟩

/-! ### Byte order -/

/-- An even address of the address space is an address of it. -/
theorem addr_of_evenAddr {s : State} {a : Addr} (h : s.evenAddr a = a) : s.addr a = a := by
  have he := congrArg BitVec.toNat h
  rw [evenAddr_toNat] at he
  apply BitVec.eq_of_toNat_eq
  rw [addr_toNat]
  have hle := Nat.mod_le a.toNat (2 ^ s.params.addrBits.toNat)
  omega

/-- A byte held by ordinary memory is the byte read at every address that reaches it. -/
theorem read8_of_holds {t : State} {as : List Addr} {bs : List Byte} {a b : Addr} {v : Byte} (h : t.Holds as bs)
    (hr : t.MayRead as) (hd : ∀ x ∈ as, t.isDevice x.toNat = false) (hb : (b, v) ∈ as.zip bs) (ha : t.addr a = b) :
    t.read8 a = .ok v := by
  have hmem : b ∈ as := (List.of_mem_zip hb).1
  have hbyte : t.byteAt b = v := by
    unfold State.byteAt
    rw [if_neg (by simp [hd b hmem])]
    exact h _ hb (hd b hmem)
  rw [read8_ok (by rw [ha]; exact fun x hx => by rw [List.mem_singleton.1 hx]; exact hr b hmem), ha, hbyte]

/-- Bytes stored by no instruction where the host takes and answers them and no device stands: the host's answers are as
before and memory holds the bytes. -/
theorem stored_ordinary {s : State} {as : List Addr} {bs : List Byte} (hw : s.mem.wf) (hl : as.length ≤ bs.length)
    (hn : (as.map BitVec.toNat).Nodup) (hr : s.MayRead as) (hd : ∀ b ∈ as, s.isDevice b.toNat = false) :
    (s.stored (as.zip bs)).MayRead as ∧ (∀ b ∈ as, (s.stored (as.zip bs)).isDevice b.toNat = false) ∧
      (s.stored (as.zip bs)).Holds as bs :=
  ⟨fun a ha => (stored_canRead s _ _).trans (hr a ha), fun b hb => (stored_isDevice s _ _).trans (hd b hb),
    holds_stored hw hl hn⟩

/-- A word written by no instruction at an even address reads back, high byte first. -/
theorem write16_reads {s : State} {a : Addr} (v : Word) (hwf : s.mem.wf) (ha : s.evenAddr a = a)
    (hr : s.MayRead (s.wordSpan a)) (hw : s.MayWrite (s.wordSpan a))
    (hd : ∀ b ∈ s.wordSpan a, s.isDevice b.toNat = false) :
    ∃ t, s.write16 none a v = .ok t ∧ t.read8 a = .ok (v.extractLsb' 8 8) ∧
      t.read8 (a + 1) = .ok (v.extractLsb' 0 8) ∧ t.read16 a = .ok v := by
  refine ⟨_, write16_ok v ⟨hw, nofun⟩, ?_⟩
  obtain ⟨hr', hd', hh⟩ := stored_ordinary (bs := wordBytes v) hwf (Nat.le_refl _) (wordSpan_nodup s a) hr hd
  have hp := stored_params s ((s.wordSpan a).zip (wordBytes v))
  generalize s.stored ((s.wordSpan a).zip (wordBytes v)) = t at *
  rw [← wordSpan_congr hp a] at hr' hd' hh
  have he : t.evenAddr a = a := (evenAddr_congr hp a).trans ha
  refine ⟨read8_of_holds (b := t.evenAddr a) hh hr' hd' ?_ ?_,
    read8_of_holds (b := t.offset (t.evenAddr a) 1) hh hr' hd' ?_ ?_, ?_⟩
  · simp [State.wordSpan, wordBytes]
  · rw [he, addr_of_evenAddr he]
  · simp [State.wordSpan, wordBytes]
  · rw [he]; rfl
  · rw [read16_ok hr', holds_wordAt hh hd']

/-- A long likewise. -/
theorem write32_reads {s : State} {a : Addr} (v : Long) (hwf : s.mem.wf) (ha : s.evenAddr a = a)
    (hr : s.MayRead (s.longSpan a)) (hw : s.MayWrite (s.longSpan a))
    (hd : ∀ b ∈ s.longSpan a, s.isDevice b.toNat = false) :
    ∃ t, s.write32 none a v = .ok t ∧ t.read8 a = .ok (v.extractLsb' 24 8) ∧
      t.read8 (a + 1) = .ok (v.extractLsb' 16 8) ∧ t.read8 (a + 2) = .ok (v.extractLsb' 8 8) ∧
      t.read8 (a + 3) = .ok (v.extractLsb' 0 8) ∧ t.read32 a = .ok v := by
  refine ⟨_, write32_ok v ⟨hw, nofun⟩, ?_⟩
  obtain ⟨hr', hd', hh⟩ := stored_ordinary (bs := longBytes v) hwf (Nat.le_refl _) (longSpan_nodup s a) hr hd
  have hp := stored_params s ((s.longSpan a).zip (longBytes v))
  generalize s.stored ((s.longSpan a).zip (longBytes v)) = t at *
  rw [← longSpan_congr hp a] at hr' hd' hh
  have he : t.evenAddr a = a := (evenAddr_congr hp a).trans ha
  have hoff : ∀ i v', (t.offset (t.evenAddr a) i, v') ∈ (t.longSpan a).zip (longBytes v) →
      t.read8 (a + BitVec.ofNat 32 i) = .ok v' := fun i v' hb => by
    refine read8_of_holds hh hr' hd' hb ?_
    rw [he]; rfl
  refine ⟨read8_of_holds (b := t.evenAddr a) hh hr' hd' ?_ ?_, hoff 1 _ ?_, hoff 2 _ ?_, hoff 3 _ ?_, ?_⟩
  · simp [State.longSpan, longBytes]
  · rw [he, addr_of_evenAddr he]
  · simp [State.longSpan, longBytes]
  · simp [State.longSpan, longBytes]
  · simp [State.longSpan, longBytes]
  · rw [read32_ok hr', holds_longAt hh hd']

/-- The instruction stream has the same order. -/
theorem decode_movWImm : decode [0x79, 0x00, 0x12, 0x34] = .ok (.movWImm 0x1234 0) := by
  have hbytes : encode (.movWImm 0x1234 0) = [0x79, 0x00, 0x12, 0x34] := by decide
  rw [← hbytes, ← List.append_nil (encode _)]
  exact decode_encode rfl []

/-- Settles O58, by what is stored at a word's and a long's span. -/
theorem bytesAreBigEndian : Obligations.BytesAreBigEndian := by
  unfold Obligations.BytesAreBigEndian
  exact ⟨fun s a v => write16_reads v, fun s a v => write32_reads v, decode_movWImm⟩

end Sys2Proof.Machine
end

section
/-!
PROOFS. Accesses that stop an instruction or a step: bytes the host refuses, and stores into the prefetch window
(20_memory.md R200, R202, R203, R209, R214; 60_exceptions.md R1103, R1112; 70_reset_and_hazards.md R1200).
-/

namespace Sys2Proof.Machine

/-! ### Addresses an access names -/

/-- The bytes lie in the address space. -/
def State.InSpace (s : State) (as : List Addr) : Prop := ∀ a ∈ as, s.addr a = a

theorem State.InSpace.append {s : State} {as bs : List Addr} (ha : s.InSpace as) (hb : s.InSpace bs) : s.InSpace (as ++ bs) :=
  fun a h => (List.mem_append.1 h).elim (ha a) (hb a)

theorem inSpace_single {s : State} {a : Addr} (h : s.addr a = a) : s.InSpace [a] :=
  fun b hb => by rw [List.mem_singleton.1 hb, h]

theorem wordSpan_inSpace (s : State) (a : Addr) : s.InSpace (s.wordSpan a) := by
  simp [State.InSpace, State.wordSpan, addr_evenAddr, addr_offset]

theorem longSpan_inSpace (s : State) (a : Addr) : s.InSpace (s.longSpan a) := by
  simp [State.InSpace, State.longSpan, addr_evenAddr, addr_offset]

theorem pushSpan_inSpace (s : State) (k : Nat) (a : Addr) : s.InSpace (s.pushSpan k a) := by
  induction k generalizing a with
  | zero => exact fun _ h => by cases h
  | succ k ih => exact (longSpan_inSpace s _).append (ih _)

theorem byteRange_inSpace (s : State) (a : Addr) (n : Nat) : s.InSpace (s.byteRange a n) := fun b hb => by
  obtain ⟨i, -, rfl⟩ := List.mem_map.1 hb
  exact addr_offset s a i

theorem frameSpan_inSpace (s : State) : s.InSpace s.frameSpan := by
  unfold State.frameSpan
  cases s.params.intm with
  | mode0 => exact longSpan_inSpace s _
  | mode2 => exact (longSpan_inSpace s _).append (wordSpan_inSpace s _)

/-- Bytes outside the prefetch window pass the guard of a store. -/
theorem clear_of_not_prefetched {s : State} {len : Nat} {as : List Addr} (hin : s.InSpace as)
    (h : ∀ a ∈ as, ¬s.Prefetched len a) : s.Clear (some len) as := by
  rintro l ⟨⟩ a ha
  exact not_inPrefetch_of (hin a ha) (h a ha)

theorem mode_len_le (m : Mode) : m.len ≤ 8 := by cases m <;> simp [Mode.len]

theorem target_len_le (t : BitTarget) : t.len ≤ 8 := by cases t <;> simp [BitTarget.len]

/-! ### One access of an instruction -/

/-- A fault of the access `r` is the outcome of instruction `x`. -/
def StopsWith {α : Type} (x : Instr) (s : State) (r : Except Fault α) : Prop := ∀ f, r = .error f → exec x s = .fault f

/-- What an instruction of `len` bytes does where a byte of `as`, its store, lies in the prefetch window or is refused. -/
structure StoreStops (x : Instr) (s : State) (len : Nat) (as : List Addr) : Prop where
  window : WindowStops x s len as
  refused : WriteRefused x s len as

theorem ReadRefused.of {α : Type} {x : Instr} {s : State} {as : List Addr} {r : Except Fault α} (hx : StopsWith x s r)
    (hr : ¬s.MayRead as → RefusedAt r s.canRead as) : ReadRefused x s as := fun h => FaultsAt.of (hr h) hx

theorem WriteRefused.of {α : Type} {x : Instr} {s : State} {len : Nat} {as : List Addr} {r : Except Fault α}
    (hx : StopsWith x s r) (hin : s.InSpace as)
    (hr : s.Clear (some len) as → ¬s.MayWrite as → RefusedAt r s.canWrite as) : WriteRefused x s len as :=
  fun h hc => FaultsAt.of (hr (clear_of_not_prefetched hin hc) h) hx

theorem WindowStops.of {α : Type} {x : Instr} {s : State} {len : Nat} {as : List Addr} {r : Except Fault α}
    (hx : StopsWith x s r) (hl : len ≤ 10)
    (hr : (∃ a ∈ as, s.inPrefetch len a = true) → r = .error (s.unmodelled .storeIntoPrefetchWindow)) :
    WindowStops x s len as := fun ⟨a, ha, hp⟩ => hx _ (hr ⟨a, ha, inPrefetch_of hl hp⟩)

/-! ### The accesses by their size -/

theorem ReadRefused.of_read8 {x : Instr} {s : State} {a : Addr} (hx : StopsWith x s (s.read8 a)) (ha : s.addr a = a) :
    ReadRefused x s [a] := .of hx fun h => by
  have := read8_refused (s := s) (a := a) (by rwa [ha])
  rwa [ha] at this

theorem ReadRefused.of_read16 {x : Instr} {s : State} {a : Addr} (hx : StopsWith x s (s.read16 a)) :
    ReadRefused x s (s.wordSpan a) := .of hx read16_refused

theorem ReadRefused.of_read32 {x : Instr} {s : State} {a : Addr} (hx : StopsWith x s (s.read32 a)) :
    ReadRefused x s (s.longSpan a) := .of hx read32_refused

theorem StoreStops.of_write8 {x : Instr} {s : State} {len : Nat} {a : Addr} {v : Byte}
    (hx : StopsWith x s (s.write8 (some len) a v)) (hl : len ≤ 10) (ha : s.addr a = a) : StoreStops x s len [a] :=
  ⟨.of hx hl fun h => write8_window (by rwa [ha]), .of hx (inSpace_single ha) fun hc h => by
    have := write8_refused (s := s) (a := a) (v := v) (by rwa [ha]) (by rwa [ha])
    rwa [ha] at this⟩

theorem StoreStops.of_write16 {x : Instr} {s : State} {len : Nat} {a : Addr} {v : Word}
    (hx : StopsWith x s (s.write16 (some len) a v)) (hl : len ≤ 10) : StoreStops x s len (s.wordSpan a) :=
  ⟨.of hx hl write16_window, .of hx (wordSpan_inSpace s a) write16_refused⟩

theorem StoreStops.of_write32 {x : Instr} {s : State} {len : Nat} {a : Addr} {v : Long}
    (hx : StopsWith x s (s.write32 (some len) a v)) (hl : len ≤ 10) : StoreStops x s len (s.longSpan a) :=
  ⟨.of hx hl write32_window, .of hx (longSpan_inSpace s a) write32_refused⟩

theorem StoreStops.of_push32 {x : Instr} {s : State} {len : Nat} {v : Long}
    (hx : StopsWith x s (s.push32 (some len) v)) (hl : len ≤ 10) : StoreStops x s len (s.longSpan (s.readL sp - 4)) :=
  ⟨.of hx hl push32_window, .of hx (longSpan_inSpace s _) push32_refused⟩

/-! ### MOV, LDC.W and STC.W -/

theorem loadB_readRefused {x : Instr} {s : State} {len : Nat} {m : Mode} {rd : BitVec 4}
    (hx : exec x s = loadB len m rd s) : ReadRefused x s [m.ea 1 s] :=
  .of_read8 (fun f hf => by rw [hx]; unfold loadB; rw [hf]) (addr_ea m 1 s)

theorem loadW_readRefused {x : Instr} {s : State} {len : Nat} {m : Mode} {rd : BitVec 4}
    (hx : exec x s = loadW len m rd s) : ReadRefused x s (s.wordSpan (m.ea 2 s)) :=
  .of_read16 fun f hf => by rw [hx]; unfold loadW; rw [hf]

theorem loadL_readRefused {x : Instr} {s : State} {len : Nat} {m : Mode} {rd : BitVec 3}
    (hx : exec x s = loadL len m rd s) : ReadRefused x s (s.longSpan (m.ea 4 s)) :=
  .of_read32 fun f hf => by rw [hx]; unfold loadL; rw [hf]

theorem loadControl_readRefused {x : Instr} {s : State} {len : Nat} {m : Mode} {put : State → Byte → State}
    (hx : exec x s = loadControl len m put s) : ReadRefused x s (s.wordSpan (m.ea 2 s)) :=
  .of_read16 fun f hf => by rw [hx]; unfold loadControl; rw [hf]

theorem storeB_stops {x : Instr} {s : State} {len : Nat} {m : Mode} {rs : BitVec 4}
    (hx : exec x s = storeB len rs m s) (hl : len ≤ 10) : StoreStops x s len [m.ea 1 s] :=
  .of_write8 (v := storedB m rs s) (fun f hf => by rw [hx]; unfold storeB; rw [hf]) hl (addr_ea m 1 s)

theorem storeW_stops {x : Instr} {s : State} {len : Nat} {m : Mode} {rs : BitVec 4}
    (hx : exec x s = storeW len rs m s) (hl : len ≤ 10) : StoreStops x s len (s.wordSpan (m.ea 2 s)) :=
  .of_write16 (v := storedW m rs s) (fun f hf => by rw [hx]; unfold storeW; rw [hf]) hl

theorem storeL_stops {x : Instr} {s : State} {len : Nat} {m : Mode} {rs : BitVec 3}
    (hx : exec x s = storeL len rs m s) (hl : len ≤ 10) : StoreStops x s len (s.longSpan (m.ea 4 s)) :=
  .of_write32 (v := storedL m rs s) (fun f hf => by rw [hx]; unfold storeL; rw [hf]) hl

theorem storeControl_stops {x : Instr} {s : State} {len : Nat} {m : Mode} {v : Byte}
    (hx : exec x s = storeControl len m v s) (hl : len ≤ 10) : StoreStops x s len (s.wordSpan (m.ea 2 s)) :=
  .of_write16 (v := v ++ Config.draw 8 .stcPad s.epoch) (fun f hf => by rw [hx]; unfold storeControl; rw [hf]) hl

/-- MOVFPE and MOVTPE with the E clock are a load and a store of the byte. -/
theorem exec_movfpe {s : State} (h : s.params.hasEClock = true) (aa : BitVec 16) (rd : BitVec 4) :
    exec (.movfpe aa rd) s = loadB 4 (.abs16 aa) rd s := if_pos h

theorem exec_movtpe {s : State} (h : s.params.hasEClock = true) (rs : BitVec 4) (aa : BitVec 16) :
    exec (.movtpe rs aa) s = storeB 4 rs (.abs16 aa) s := if_pos h

/-! ### TAS and the bit instructions -/

theorem tas_readRefused (s : State) (ra : BitVec 3) : ReadRefused (.tas ra) s [s.eaInd ra] :=
  .of (r := s.read8 (s.readL ra)) (fun f hf => by show execTas ra s = _; unfold execTas; rw [hf]) read8_refused

/-- TAS writes only after its byte has been read. -/
theorem tas_stops {s : State} {ra : BitVec 3} (hr : s.MayRead [s.eaInd ra]) : StoreStops (.tas ra) s 4 [s.eaInd ra] := by
  have hx : StopsWith (.tas ra) s (s.write8 (some 4) (s.readL ra) (s.byteAt (s.eaInd ra) ||| 0x80)) := fun f hf => by
    show execTas ra s = _
    unfold execTas
    rw [show s.read8 (s.readL ra) = .ok (s.byteAt (s.eaInd ra)) from read8_ok hr]
    simp only [hf]
  exact ⟨.of hx (by decide) write8_window, .of hx (inSpace_single (addr_addr s _)) write8_refused⟩

/-- A memory target is one byte of the address space, read and written as such. -/
theorem target_access {t : BitTarget} {s : State} {a : Addr} (ha : t.ea? s = some a) :
    s.addr a = a ∧ t.read s = s.read8 a ∧ ∀ v, t.write v s = s.write8 (some t.len) a v := by
  cases t with
  | reg rd => cases ha
  | ind ra => cases ha; exact ⟨addr_addr s _, rfl, fun _ => rfl⟩
  | abs8 aa => cases ha; exact ⟨addr_addr s _, rfl, fun _ => rfl⟩
  | abs16 aa => cases ha; exact ⟨addr_addr s _, rfl, fun _ => rfl⟩
  | abs32 aa => cases ha; exact ⟨addr_addr s _, rfl, fun _ => rfl⟩

theorem bitModify_readRefused {x : Instr} {s : State} {t : BitTarget} {f : Byte → Byte} {a : Addr}
    (hx : exec x s = bitModify t f s) (ha : t.ea? s = some a) : ReadRefused x s [a] := by
  obtain ⟨hin, hread, -⟩ := target_access ha
  exact .of_read8 (fun e he => by rw [hx]; unfold bitModify; rw [hread, he]) hin

theorem bitTest_readRefused {x : Instr} {s : State} {t : BitTarget} {fl : Flag} {f : Byte → Bool} {a : Addr}
    (hx : exec x s = bitTest t fl f s) (ha : t.ea? s = some a) : ReadRefused x s [a] := by
  obtain ⟨hin, hread, -⟩ := target_access ha
  exact .of_read8 (fun e he => by rw [hx]; unfold bitTest; rw [hread, he]) hin

/-- A bit instruction writes only after its byte has been read. -/
theorem bitModify_stops {x : Instr} {s : State} {t : BitTarget} {f : Byte → Byte} {a : Addr}
    (hx : exec x s = bitModify t f s) (ha : t.ea? s = some a) (hr : s.MayRead [a]) : StoreStops x s t.len [a] := by
  obtain ⟨hin, -, hwrite⟩ := target_access ha
  refine .of_write8 (v := f (s.byteAt a)) (fun e he => ?_) (Nat.le_trans (target_len_le t) (by decide)) hin
  rw [hx]
  unfold bitModify
  rw [read_target ha hr]
  simp only [hwrite, he]

/-! ### Register lists and block moves -/

theorem loadList_readRefused {x : Instr} {s : State} {regs : List (BitVec 3)} (hx : exec x s = loadList regs s)
    (hsp : sp ∉ regs) : ReadRefused x s (s.popSpan regs.length (s.readL sp)) :=
  .of (r := popRegs regs s) (fun f hf => by rw [hx]; unfold loadList; rw [if_neg (by simpa using hsp), hf])
    (popRegs_refused hsp)

/-- STM.L of a list without ER7 stops where one of its pushes does. -/
theorem storeList_stopsWith {x : Instr} {s : State} {regs : List (BitVec 3)} (hx : exec x s = storeList regs s)
    (hsp : sp ∉ regs) : StopsWith x s (pushRegs regs s) := fun f hf => by
  rw [hx]
  unfold storeList
  rw [if_neg (by simpa using hsp), hf]

theorem storeList_writeRefused {x : Instr} {s : State} {regs : List (BitVec 3)} (hx : exec x s = storeList regs s)
    (hsp : sp ∉ regs) : WriteRefused x s 4 (s.pushSpan regs.length (s.readL sp)) :=
  .of (storeList_stopsWith hx hsp) (pushSpan_inSpace s _ _) pushRegs_refused

theorem storeList_windowStops {x : Instr} {s : State} {regs : List (BitVec 3)} (hx : exec x s = storeList regs s)
    (hsp : sp ∉ regs) (hw : s.MayWrite (s.pushSpan regs.length (s.readL sp))) :
    WindowStops x s 4 (s.pushSpan regs.length (s.readL sp)) :=
  .of (storeList_stopsWith hx hsp) (by decide) (pushRegs_window hw)

theorem eepmovB_stopsWith (s : State) : StopsWith .eepmovB s (moveBytes (s.readB 12).toNat s) := fun f hf => by
  show execEepmovB s = _
  unfold execEepmovB
  rw [hf]

/-- EEPMOV.W with bytes left to move stops where the next one does. -/
theorem eepmovW_stopsWith {s : State} (h : s.readW 4 ≠ 0) : StopsWith .eepmovW s s.moveByte := fun f hf => by
  show execEepmovW s = _
  unfold execEepmovW
  rw [if_neg h, hf]

theorem eepmovW_stops {s : State} (h : s.readW 4 ≠ 0) (hr : s.MayRead [s.addr (s.readL 5)]) :
    StoreStops .eepmovW s 4 [s.addr (s.readL 6)] :=
  ⟨.of (eepmovW_stopsWith h) (by decide) (moveByte_window hr),
    .of (eepmovW_stopsWith h) (inSpace_single (addr_addr s _)) (moveByte_write_refused hr)⟩

/-! ### Branches, calls and returns -/

theorem call_stops {x : Instr} {s : State} {len : Nat} {target : Addr} (hx : exec x s = call len target s)
    (hl : len ≤ 10) : StoreStops x s len (s.longSpan (s.readL sp - 4)) :=
  .of_push32 (v := s.callFrame (s.pcNext len)) (fun f hf => by rw [hx]; unfold call; rw [hf]) hl

theorem memIndTarget_error {s : State} {aa : BitVec 8} {f : Fault} (h : s.read32 (aa.zeroExtend 32) = .error f) :
    s.memIndTarget aa = .error f := by
  unfold State.memIndTarget
  rw [h]
  rfl

theorem jmpMemInd_readRefused (s : State) (aa : BitVec 8) :
    ReadRefused (.jmpMemInd aa) s (s.longSpan (aa.zeroExtend 32)) := .of_read32 fun f hf => by
  show execJmpMemInd aa s = _
  unfold execJmpMemInd
  rw [memIndTarget_error hf]

theorem jsrMemInd_readRefused (s : State) (aa : BitVec 8) :
    ReadRefused (.jsrMemInd aa) s (s.longSpan (aa.zeroExtend 32)) := .of_read32 fun f hf => by
  show execJsrMemInd aa s = _
  unfold execJsrMemInd
  rw [memIndTarget_error hf]

/-- JSR @@aa:8 is a call once its table entry has been read. -/
theorem exec_jsrMemInd {s : State} {aa : BitVec 8} (hr : s.MayRead (s.longSpan (aa.zeroExtend 32))) :
    exec (.jsrMemInd aa) s = call 2 (s.addr (s.longAt (aa.zeroExtend 32))) s := by
  show execJsrMemInd aa s = _
  unfold execJsrMemInd State.memIndTarget
  rw [read32_ok hr]
  rfl

theorem rts_readRefused (s : State) : ReadRefused .rts s (s.longSpan (s.readL sp)) :=
  .of (fun f hf => by show execRts s = _; unfold execRts; rw [hf]) pop32_refused

theorem rte_stopsWith (s : State) : StopsWith .rte s s.exceptionReturn := fun f hf => by
  show Out.of s.exceptionReturn = _
  rw [hf]
  rfl

theorem rte_readRefused_mode0 {s : State} (h : s.params.intm = .mode0) :
    ReadRefused .rte s (s.longSpan (s.readL sp)) :=
  .of (rte_stopsWith s) fun hr => (pop32_refused hr).mono (fun _ => id) (fun _ => id) fun f hf => by
    unfold State.exceptionReturn State.popExr
    rw [h]
    show (s.pop32 >>= _) = _
    rw [hf]
    rfl

/-- Under `INTM` = 2 RTE pops the word of EXR, then the long above it. -/
theorem exceptionReturn_refused {s : State} (h : s.params.intm = .mode2)
    (hr : ¬s.MayRead (s.wordSpan (s.readL sp) ++ s.longSpan (s.readL sp + 2))) :
    RefusedAt s.exceptionReturn s.canRead (s.wordSpan (s.readL sp) ++ s.longSpan (s.readL sp + 2)) := by
  by_cases hw : s.MayRead (s.wordSpan (s.readL sp))
  · have hpop : s.popExr =
        .ok ((s.writeL sp (s.readL sp + 2)).writeExr ((s.wordAt (s.readL sp)).extractLsb' 8 8)) := by
      unfold State.popExr
      rw [h, pop16_ok hw]
    generalize hu : (s.writeL sp (s.readL sp + 2)).writeExr ((s.wordAt (s.readL sp)).extractLsb' 8 8) = u at hpop
    have hsp : u.readL sp = s.readL sp + 2 := by rw [← hu]; exact readL_writeL _ _ _
    have hspan : u.longSpan (u.readL sp) = s.longSpan (s.readL sp + 2) := by
      rw [hsp]; exact longSpan_congr (by rw [← hu]; rfl) _
    have hread : ∀ a, u.canRead a = s.canRead a := fun a => by rw [← hu]; rfl
    refine (pop32_refused (s := u) fun hc => hr fun a ha => ?_).mono (fun a ha => (hread a).symm.trans ha)
      (fun a ha => List.mem_append_right _ (hspan ▸ ha)) fun f hf => ?_
    · rcases List.mem_append.1 ha with ha | ha
      · exact hw a ha
      · exact (hread _).symm.trans (hc a (hspan ▸ ha))
    · unfold State.exceptionReturn
      rw [hpop]
      show (u.pop32 >>= _) = _
      rw [hf]
      rfl
  · refine (pop16_refused hw).mono (fun _ => id) (fun a ha => List.mem_append_left _ ha) fun f hf => ?_
    unfold State.exceptionReturn State.popExr
    rw [h, hf]
    rfl

/-! ### Exceptions -/

theorem trapa_stopsWith (s : State) (tn : BitVec 2) :
    StopsWith (.trapa tn) s (s.exceptionEntry (some 2) (8 + tn.toNat) (s.pcNext 2) none) := fun f hf => by
  show Out.of (s.exceptionEntry _ _ _ _) = _
  rw [hf]
  rfl

theorem trapa_windowStops {s : State} (tn : BitVec 2) (hf : s.FitsFrame (s.pcNext 2)) (hw : s.MayWrite s.frameSpan) :
    WindowStops (.trapa tn) s 2 s.frameSpan :=
  .of (trapa_stopsWith s tn) (by decide) fun h => exceptionEntry_frame hf (pushFrame_window hw h)

theorem trapa_writeRefused {s : State} (tn : BitVec 2) (hf : s.FitsFrame (s.pcNext 2)) :
    WriteRefused (.trapa tn) s 2 s.frameSpan :=
  .of (trapa_stopsWith s tn) (frameSpan_inSpace s) fun hc h =>
    (pushFrame_refused hc h).mono (fun _ => id) (fun _ => id) fun _ he => exceptionEntry_frame hf he

theorem trapa_readRefused {s : State} (tn : BitVec 2) (hf : s.FitsFrame (s.pcNext 2)) (hm : s.MayStore 2 s.frameSpan) :
    ReadRefused (.trapa tn) s (s.longSpan (vectorAddr (8 + tn.toNat))) :=
  .of (trapa_stopsWith s tn) (exceptionEntry_vector_refused hf (allows_of_mayStore hm))

theorem enter_error {s : State} {vector : Nat} {level : Option (BitVec 3)} {f : Fault}
    (h : s.exceptionEntry none vector s.pc level = .error f) : s.enter vector level = .error f := by
  unfold State.enter
  rw [h]

/-- A step that enters an exception ends with the fault of its entry. -/
theorem step_of_entry_error {s : State} {v : Nat} (hfault : s.fault = none) (hreset : s.resetIn = none)
    (hv : s.due.entered = some v) :
    ∃ level, ∀ f, s.exceptionEntry none v s.pc level = .error f → step s = .fault f := by
  rw [step_proceeds hreset]
  unfold State.proceed
  rw [hfault]
  cases hd : s.due with
  | trace => rw [hd] at hv; cases hv; exact ⟨none, fun f hf => by simp only [enter_error hf]; rfl⟩
  | nmi =>
    rw [hd] at hv; cases hv
    exact ⟨some 7, fun f hf => by simp only [State.enterNmi, enter_error hf]; rfl⟩
  | irq r => rw [hd] at hv; cases hv; exact ⟨some r.level, fun f hf => by simp only [enter_error hf]; rfl⟩
  | reset => rw [hd] at hv; cases hv
  | asleep => rw [hd] at hv; cases hv
  | run => rw [hd] at hv; cases hv

/-- What the step answers where an operation it runs is refused a byte. -/
theorem StepFaultsAt.of {α : Type} {r : Except Fault α} {s : State} {p : Nat → Bool} {as : List Addr}
    (h : RefusedAt r p as) (hx : ∀ f, r = .error f → step s = .fault f) : StepFaultsAt s p as := by
  obtain ⟨a, ha, hd, hr⟩ := h
  exact ⟨a, ha, hd, hx _ hr⟩

/-- An exception entered at a boundary stores its frame, then reads its vector. -/
theorem entry_faults {s : State} {v : Nat} (hfault : s.fault = none) (hreset : s.resetIn = none)
    (hv : s.due.entered = some v) (hf : s.FitsFrame s.pc) :
    (¬s.MayWrite s.frameSpan → StepFaultsAt s s.canWrite s.frameSpan) ∧
      (s.MayWrite s.frameSpan → ¬s.MayRead (s.longSpan (vectorAddr v)) →
        StepFaultsAt s s.canRead (s.longSpan (vectorAddr v))) := by
  obtain ⟨level, hstep⟩ := step_of_entry_error hfault hreset hv
  have hclear : s.Clear none s.frameSpan := fun _ hl => by cases hl
  exact ⟨fun h => .of (pushFrame_refused hclear h) fun f he => hstep f (exceptionEntry_frame hf he),
    fun hw h => .of (exceptionEntry_vector_refused hf ⟨hw, fun _ hl => by cases hl⟩ h) hstep⟩

/-- The reset sequence reads its vector first. -/
theorem reset_faults {s : State} (hreset : s.resetIn = some 0) (h : ¬s.MayRead (s.longSpan 0)) :
    StepFaultsAt s s.canRead (s.longSpan 0) := by
  refine .of (read32_refused (s := s.resetState) (a := 0) h) fun f hf => ?_
  rw [step_reset hreset]
  unfold State.enterReset State.resetSequence State.vectorEntry
  rw [show s.resetState.read32 (BitVec.ofNat 32 (4 * 0)) = .error f from hf]
  rfl

/-! ### The statements -/

/-- Settles O59: every store is guarded before the host is asked, and an instruction of several stores reaches the one
whose guard stops it. -/
theorem storesIntoThePrefetchWindowStop : Obligations.StoresIntoThePrefetchWindowStop := by
  unfold Obligations.StoresIntoThePrefetchWindowStop
  intro s
  have hlen : ∀ m : Mode, m.len ≤ 10 := fun m => Nat.le_trans (mode_len_le m) (by decide)
  have hlen2 : ∀ m : Mode, m.len + 2 ≤ 10 := fun m => Nat.add_le_add_right (mode_len_le m) 2
  refine ⟨fun rs m => (storeB_stops rfl (hlen m)).window, fun rs m => (storeW_stops rfl (hlen m)).window,
    fun rs m => (storeL_stops rfl (hlen2 m)).window, fun m => (storeControl_stops rfl (hlen2 m)).window,
    fun m => (storeControl_stops rfl (hlen2 m)).window,
    fun rs aa h => (storeB_stops (exec_movtpe h rs aa) (by decide)).window, fun ra hr => (tas_stops hr).window,
    fun tgt a ha hr => ?_, fun r h hw => storeList_windowStops rfl h hw, fun r h hw => storeList_windowStops rfl h hw,
    fun r h hw => storeList_windowStops rfl h hw,
    fun hr hw => .of (eepmovB_stopsWith s) (by decide) (moveBytes_window hr hw),
    fun h hr => (eepmovW_stops h hr).window, fun d => (call_stops rfl (by decide)).window,
    fun d => (call_stops rfl (by decide)).window, fun ra => (call_stops rfl (by decide)).window,
    fun aa => (call_stops rfl (by decide)).window,
    fun aa hr => (call_stops (exec_jsrMemInd hr) (by decide)).window, fun tn => trapa_windowStops tn⟩
  have hbit : ∀ {x f}, exec x s = bitModify tgt f s → WindowStops x s tgt.len [a] :=
    fun hx => (bitModify_stops hx ha hr).window
  exact ⟨fun _ => hbit rfl, fun _ => hbit rfl, fun _ => hbit rfl, fun _ => hbit rfl, fun _ => hbit rfl,
    fun _ => hbit rfl, fun _ => hbit rfl, fun _ => hbit rfl⟩

/-- Settles O60: each access that comes first ends its instruction, and each that comes later is reached where those
before it complete. -/
theorem refusedAccessesFault : Obligations.RefusedAccessesFault := by
  unfold Obligations.RefusedAccessesFault
  intro s
  have hlen : ∀ m : Mode, m.len ≤ 10 := fun m => Nat.le_trans (mode_len_le m) (by decide)
  have hlen2 : ∀ m : Mode, m.len + 2 ≤ 10 := fun m => Nat.add_le_add_right (mode_len_le m) 2
  refine ⟨fun m rd => loadB_readRefused rfl, fun m rd => loadW_readRefused rfl, fun m rd => loadL_readRefused rfl,
    fun m => loadControl_readRefused rfl, fun m => loadControl_readRefused rfl,
    fun aa rd h => loadB_readRefused (exec_movfpe h aa rd), fun rs m => (storeB_stops rfl (hlen m)).refused,
    fun rs m => (storeW_stops rfl (hlen m)).refused, fun rs m => (storeL_stops rfl (hlen2 m)).refused,
    fun m => (storeControl_stops rfl (hlen2 m)).refused, fun m => (storeControl_stops rfl (hlen2 m)).refused,
    fun rs aa h => (storeB_stops (exec_movtpe h rs aa) (by decide)).refused, fun ra hr => (tas_stops hr).refused,
    tas_readRefused s, fun tgt a ha => ?bitReads, fun tgt a ha hr => ?bitWrites,
    fun r h => loadList_readRefused rfl h, fun r h => loadList_readRefused rfl h, fun r h => loadList_readRefused rfl h,
    fun r h => storeList_writeRefused rfl h, fun r h => storeList_writeRefused rfl h,
    fun r h => storeList_writeRefused rfl h, fun hm => .of (eepmovB_stopsWith s) (moveBytes_read_refused hm),
    fun hr => .of (eepmovB_stopsWith s) (byteRange_inSpace s _ _) (moveBytes_write_refused hr),
    fun h => .of (eepmovW_stopsWith h) moveByte_read_refused, fun h hr => (eepmovW_stops h hr).refused,
    jmpMemInd_readRefused s, jsrMemInd_readRefused s, fun d => (call_stops rfl (by decide)).refused,
    fun d => (call_stops rfl (by decide)).refused, fun ra => (call_stops rfl (by decide)).refused,
    fun aa => (call_stops rfl (by decide)).refused,
    fun aa hr => (call_stops (exec_jsrMemInd hr) (by decide)).refused, rts_readRefused s, rte_readRefused_mode0,
    fun h => .of (rte_stopsWith s) (exceptionReturn_refused h), fun tn => trapa_writeRefused tn,
    fun tn => trapa_readRefused tn, fun v => entry_faults, reset_faults⟩
  case bitReads =>
    have hmod : ∀ {x f}, exec x s = bitModify tgt f s → ReadRefused x s [a] := fun hx => bitModify_readRefused hx ha
    have htest : ∀ {x fl f}, exec x s = bitTest tgt fl f s → ReadRefused x s [a] := fun hx => bitTest_readRefused hx ha
    exact ⟨fun _ => hmod rfl, fun _ => hmod rfl, fun _ => hmod rfl, fun _ => hmod rfl, fun _ => hmod rfl,
      fun _ => hmod rfl, fun _ => hmod rfl, fun _ => hmod rfl, fun _ => htest rfl, fun _ => htest rfl,
      fun _ => htest rfl, fun _ => htest rfl, fun _ => htest rfl, fun _ => htest rfl, fun _ => htest rfl,
      fun _ => htest rfl, fun _ => htest rfl, fun _ => htest rfl⟩
  case bitWrites =>
    have hmod : ∀ {x f}, exec x s = bitModify tgt f s → WriteRefused x s tgt.len [a] :=
      fun hx => (bitModify_stops hx ha hr).refused
    exact ⟨fun _ => hmod rfl, fun _ => hmod rfl, fun _ => hmod rfl, fun _ => hmod rfl, fun _ => hmod rfl,
      fun _ => hmod rfl, fun _ => hmod rfl, fun _ => hmod rfl⟩

end Sys2Proof.Machine
end

section
/-!
PROOFS. What decodes is the instruction its bytes encode, no bytes match two rows, and words of the spec decode
(30_encoding.md R302, R320, R321, R324, R331, R342).
-/

namespace Sys2Proof

/-! ### Bytes and the word a row sees of them -/

theorem beNat_cons (b : Byte) (bs : List Byte) : beNat (b :: bs) = 256 ^ bs.length * b.toNat + beNat bs := by
  simpa [beNat, Nat.mul_comm] using beNat_append [b] bs

/-- Byte strings of one length that are one number are the same. -/
theorem beNat_inj {as bs : List Byte} (hlen : as.length = bs.length) (h : beNat as = beNat bs) : as = bs := by
  induction as generalizing bs with
  | nil => exact (List.length_eq_zero_iff.1 hlen.symm).symm
  | cons a as ih =>
    cases bs with
    | nil => cases hlen
    | cons b bs =>
      have hl : as.length = bs.length := Nat.succ.inj hlen
      have hpos : 0 < 256 ^ bs.length := Nat.pow_pos (by decide)
      have ha : beNat as < 256 ^ bs.length := hl ▸ beNat_lt as
      rw [beNat_cons, beNat_cons, hl] at h
      have hhead : a.toNat = b.toNat := by
        have hdiv := congrArg (· / 256 ^ bs.length) h
        simpa [Nat.mul_add_div hpos, Nat.div_eq_of_lt ha, Nat.div_eq_of_lt (beNat_lt bs)] using hdiv
      rw [hhead] at h
      rw [BitVec.eq_of_toNat_eq hhead, ih hl (Nat.add_left_cancel h)]

theorem beBytes_beNat (bs : List Byte) : beBytes bs.length (beNat bs) = bs :=
  beNat_inj (beBytes_length _ _) (by rw [beNat_beBytes, Nat.mod_eq_of_lt (beNat_lt bs)])

/-- The first bytes are those of their number. -/
theorem beBytes_take {len : Nat} {bytes : List Byte} (hlen : len ≤ bytes.length) :
    beBytes len (beNat (bytes.take len)) = bytes.take len ∧ beNat (bytes.take len) < 256 ^ len := by
  have htake : (bytes.take len).length = len := List.length_take_of_le hlen
  have hbytes := beBytes_beNat (bytes.take len)
  have hlt := beNat_lt (bytes.take len)
  rw [htake] at hbytes hlt
  exact ⟨hbytes, hlt⟩

/-- A row no longer than the bytes sees the first of them. -/
theorem word_window80 {r : Row} {bytes : List Byte} (h10 : r.len ≤ 10) (hlen : r.len ≤ bytes.length) :
    r.word (window80 bytes) = beNat (bytes.take r.len) := by
  obtain ⟨hbytes, hlt⟩ := beBytes_take hlen
  have hword := window80_word h10 hlt (bytes.drop r.len)
  rwa [hbytes, List.take_append_drop] at hword

/-- Bytes that decode to an instruction begin with a word that a row accepts and reads as the instruction. -/
theorem row_of_decode {bytes : List Byte} {x : Instr} (h : decode bytes = .ok x) :
    ∃ r ∈ opcodeTable, r.len ≤ bytes.length ∧ ∃ w < 256 ^ r.len, beBytes r.len w = bytes.take r.len ∧
      r.accepts w = true ∧ r.build w = x := by
  obtain ⟨r, hrow, hx⟩ : ∃ r, decodeRow bytes = .ok r ∧ r.build (r.word (window80 bytes)) = x := by
    unfold decode at h
    split at h
    · next r hr => exact ⟨r, hr, Except.ok.inj h⟩
    · cases h
  have hfind : lookup bytes.length (window80 bytes) = some r := by
    unfold decodeRow at hrow
    split at hrow
    · cases hrow
    · split at hrow
      · next hr => rw [hr, Except.ok.inj hrow]
      · split at hrow <;> cases hrow
  have hmem := List.mem_of_find?_eq_some hfind
  obtain ⟨hlen, haccepts⟩ : r.len ≤ bytes.length ∧ r.accepts (r.word (window80 bytes)) = true := by
    simpa using List.find?_some hfind
  rw [word_window80 (table_lengths r hmem).2.1 hlen] at haccepts hx
  obtain ⟨hbytes, hlt⟩ := beBytes_take hlen
  exact ⟨r, hmem, hlen, _, hlt, hbytes, haccepts, hx⟩

/-! ### Operands read from their places -/

/-- The operand a word holds at a place. -/
def Place.read (w : Nat) (p : Place) : Placed := ⟨p, field w p.lo p.n⟩

/-- The bits `used` and those of the places. -/
def bitsWith (used : Nat) (ps : List Place) : Nat := ps.foldl (fun u p => u ||| (2 ^ p.n - 1) <<< p.lo) used

/-- Adding the operand a word holds at one more place gives the word's bits at that place too. -/
theorem add_read (w : Nat) {used lo n : Nat} (h : used >>> lo % 2 ^ n = 0) :
    (w &&& used) + (field w lo n).toNat <<< lo = w &&& (used ||| (2 ^ n - 1) <<< lo) := by
  have hwithin : BitsWithin (w &&& used) used := fun i hi => by
    rw [Nat.testBit_and, Bool.and_eq_true] at hi
    exact hi.2
  apply Nat.eq_of_testBit_eq
  intro i
  rw [testBit_add_field hwithin h, Nat.testBit_and, Nat.testBit_and, testBit_used, Bool.and_or_distrib_left]
  by_cases hlo : lo ≤ i
  · rw [field, BitVec.getLsbD_ofNat, Nat.testBit_shiftRight, Nat.add_sub_cancel' hlo]
    simp [hlo, Bool.and_comm]
  · simp [hlo]

/-- The bits of a word under `used` with the operands it holds at places that fit are its bits at all of these. -/
theorem withFields_read (w : Nat) {bound used : Nat} {ps : List Place} (hfit : placesFit bound used ps = true) :
    withFields (w &&& used) (ps.map (Place.read w)) = w &&& bitsWith used ps := by
  induction ps generalizing used with
  | nil => rfl
  | cons p ps ih =>
    obtain ⟨hclear, hrest⟩ : used >>> p.lo % 2 ^ p.n = 0 ∧ placesFit bound _ ps = true := by
      simpa [placesFit] using hfit
    calc withFields (w &&& used) ((p :: ps).map (Place.read w))
        = withFields ((w &&& used) + (field w p.lo p.n).toNat <<< p.lo) (ps.map (Place.read w)) := rfl
      _ = withFields (w &&& (used ||| (2 ^ p.n - 1) <<< p.lo)) (ps.map (Place.read w)) := by rw [add_read w hclear]
      _ = w &&& bitsWith used (p :: ps) := ih hrest

/-! ### The places of every row's operands -/

/-- A row's instructions are encoded as its fixed bits with the operands back at the places they are read from, these
places are the bits the row does not fix, and the row's constraint is the instruction's. -/
structure Row.OperandsAt (r : Row) (ps : List Place) : Prop where
  encodeWord_build : ∀ w, encodeWord (r.build w) = (r.len, withFields r.mtch (ps.map (Place.read w)))
  build_wf : ∀ w, r.constraint w = true → (r.build w).wf = true
  fit : placesFit (256 ^ r.len) r.mask ps = true
  covers : bitsWith r.mask ps = 256 ^ r.len - 1

/-- A word that a row accepts is that of the instruction the row reads it as. -/
theorem Row.OperandsAt.encodeWord_eq {r : Row} {ps : List Place} (h : r.OperandsAt ps) {w : Nat} (hw : w < 256 ^ r.len)
    (ha : r.accepts w = true) : encodeWord (r.build w) = (r.len, w) ∧ (r.build w).wf = true := by
  obtain ⟨hfixed, hconstraint⟩ : w &&& r.mask = r.mtch ∧ r.constraint w = true := by simpa [Row.accepts] using ha
  have hall : w &&& (256 ^ r.len - 1) = w := by
    rw [show 256 ^ r.len = 2 ^ (8 * r.len) by rw [Nat.pow_mul]] at hw ⊢
    rw [Nat.and_two_pow_sub_one_eq_mod, Nat.mod_eq_of_lt hw]
  refine ⟨?_, h.build_wf w hconstraint⟩
  rw [h.encodeWord_build, ← hfixed, withFields_read w h.fit, h.covers, hall]

/-- The place of one operand in the lowest bits. -/
def lowPlace (n : Nat) : List Place := [⟨0, n⟩]

/-- The places of two registers that share the last byte. -/
def pairPlaces (n m : Nat) : List Place := [⟨4, n⟩, ⟨0, m⟩]

/-- The places of an extension of `n` bits and of a register just above it. -/
def extensionPlaces (n m : Nat) : List Place := [⟨0, n⟩, ⟨n, m⟩]

/-- The places of an operation at widths B, W and L, each with an immediate and with a register as source. -/
def binaryPlaces : List (List Place) :=
  [extensionPlaces 8 4, pairPlaces 4 4, extensionPlaces 16 4, pairPlaces 4 4, extensionPlaces 32 3, pairPlaces 3 3]

/-- The places of MOV with a register of `n` bits and a mode through an address register, load and store in turn. -/
def movePlaces (n : Nat) : List (List Place) :=
  [[⟨4, 3⟩, ⟨0, n⟩], [⟨0, n⟩, ⟨4, 3⟩], [⟨20, 3⟩, ⟨0, 16⟩, ⟨16, n⟩], [⟨16, n⟩, ⟨20, 3⟩, ⟨0, 16⟩],
    [⟨52, 3⟩, ⟨0, 32⟩, ⟨32, n⟩], [⟨32, n⟩, ⟨52, 3⟩, ⟨0, 32⟩], [⟨4, 3⟩, ⟨0, n⟩], [⟨0, n⟩, ⟨4, 3⟩]]

/-- The places of MOV with a register of `n` bits and `@aa:16` or `@aa:32`, the loads first. -/
def moveAbsPlaces (n : Nat) : List (List Place) :=
  [[⟨0, 16⟩, ⟨16, n⟩], [⟨0, 32⟩, ⟨32, n⟩], [⟨16, n⟩, ⟨0, 16⟩], [⟨32, n⟩, ⟨0, 32⟩]]

/-- The places of ADDS, INC and DAA, and of SUBS, DEC and DAS. -/
def stepPlaces : List (List Place) := [3, 3, 3, 4, 4, 4, 3, 3, 4].map lowPlace

/-- The places of a bit number of `n` bits and of each target of 44_bit_manipulation.md R802. -/
def bitPlaces (n : Nat) : List (List Place) :=
  [[⟨4, n⟩, ⟨0, 4⟩], [⟨4, n⟩, ⟨20, 3⟩], [⟨4, n⟩, ⟨16, 8⟩], [⟨4, n⟩, ⟨16, 16⟩], [⟨4, n⟩, ⟨16, 32⟩]]

/-- The places of the byte forms on a control register: LDC, ANDC, ORC, XORC with an immediate, then LDC and STC. -/
def controlBytePlaces : List (List Place) := [8, 8, 8, 8, 4, 4].map lowPlace

/-- The places of LDC.W and STC.W, in the table's order of modes. -/
def controlWordPlaces : List (List Place) :=
  [[⟨4, 3⟩], [⟨4, 3⟩], [⟨20, 3⟩, ⟨0, 16⟩], [⟨20, 3⟩, ⟨0, 16⟩], [⟨52, 3⟩, ⟨0, 32⟩], [⟨52, 3⟩, ⟨0, 32⟩],
    [⟨4, 3⟩], [⟨4, 3⟩], [⟨0, 16⟩], [⟨0, 32⟩], [⟨0, 16⟩], [⟨0, 32⟩]]

/-- The places of the operands of every row, in the table's order of rows and the encoder's order of operands. -/
def tablePlaces : List (List Place) :=
  -- nop
  [[]] ++
  -- 40_data_transfer.md
  [pairPlaces 4 4, pairPlaces 4 4, pairPlaces 3 3, extensionPlaces 8 4, extensionPlaces 16 4, extensionPlaces 32 3] ++
  movePlaces 4 ++ [[⟨0, 8⟩, ⟨8, 4⟩], [⟨8, 4⟩, ⟨0, 8⟩]] ++ moveAbsPlaces 4 ++ movePlaces 4 ++ moveAbsPlaces 4 ++
  movePlaces 3 ++ moveAbsPlaces 3 ++ [[⟨0, 16⟩, ⟨16, 4⟩], [⟨16, 4⟩, ⟨0, 16⟩]] ++ List.replicate 6 (lowPlace 3) ++
  [[], []] ++
  -- 41_arithmetic.md
  binaryPlaces ++ [extensionPlaces 8 4, pairPlaces 4 4] ++ stepPlaces ++
  binaryPlaces.tail ++ [extensionPlaces 8 4, pairPlaces 4 4] ++ stepPlaces ++
  binaryPlaces ++ [4, 4, 3, 4, 3, 4, 3].map lowPlace ++
  (List.replicate 4 [pairPlaces 4 4, pairPlaces 4 3]).flatten ++ [[⟨4, 3⟩]] ++
  -- 42_logic.md
  (List.replicate 3 binaryPlaces).flatten ++ [4, 4, 3].map lowPlace ++
  -- 43_shift_rotate.md
  (List.replicate 16 ([4, 4, 3].map lowPlace)).flatten ++
  -- 44_bit_manipulation.md
  (List.replicate 4 (bitPlaces 3 ++ bitPlaces 4)).flatten ++ (List.replicate 10 (bitPlaces 3)).flatten ++
  -- 45_branch.md
  (List.replicate 16 ([8, 16].map lowPlace)).flatten ++ [[⟨4, 3⟩], lowPlace 24, lowPlace 8] ++
  [8, 16].map lowPlace ++ [[⟨4, 3⟩], lowPlace 24, lowPlace 8] ++ [[]] ++
  -- 46_system_control.md
  [[⟨4, 2⟩], [], []] ++ controlBytePlaces ++ controlWordPlaces ++ controlBytePlaces ++ controlWordPlaces

/-- Every row's operands are at these places: each row says so by evaluation. -/
theorem table_operandsAt : List.Forall₂ Row.OperandsAt opcodeTable tablePlaces := by
  repeat refine .cons ⟨fun _ => rfl, fun _ h => h, rfl, rfl⟩ ?_
  exact .nil

/-- A word that a row of the table accepts is that of the instruction the row reads it as, a well-formed one. -/
theorem encodeWord_of_accepts {r : Row} (hr : r ∈ opcodeTable) {w : Nat} (hw : w < 256 ^ r.len)
    (ha : r.accepts w = true) : encodeWord (r.build w) = (r.len, w) ∧ (r.build w).wf = true := by
  obtain ⟨i, hi, rfl⟩ := List.getElem_of_mem hr
  have hplaces : i < tablePlaces.length := table_operandsAt.length_eq ▸ hi
  exact (table_operandsAt.get hi hplaces).encodeWord_eq hw ha

/-! ### The statements -/

/-- Settles O1, by each instruction's row and its operands' places (`decodesBack`). -/
theorem decodeUndoesEncode : Obligations.DecodeUndoesEncode := by
  unfold Obligations.DecodeUndoesEncode
  exact fun x rest hx => decode_encode hx rest

/-- Settles O2: the row that decodes the bytes says what the instruction's encoding is. -/
theorem encodeUndoesDecode : Obligations.EncodeUndoesDecode := by
  unfold Obligations.EncodeUndoesDecode
  intro bytes x h
  obtain ⟨r, hr, hlen, w, hw, hbytes, haccepts, rfl⟩ := row_of_decode h
  obtain ⟨hword, hwf⟩ := encodeWord_of_accepts hr hw haccepts
  have hlength : (r.build w).length = r.len := congrArg Prod.fst hword
  rw [hlength, encode, hword]
  exact ⟨hwf, hbytes, hlen, table_lengths r hr⟩

/-- A row's fixed bits alone. -/
def Row.unconstrained (r : Row) : Row := { r with constraint := fun _ => true }

theorem Row.unconstrained_accepts {r : Row} {bytes : List Byte} (h10 : r.len ≤ 10) (hlen : r.len ≤ bytes.length)
    (h : beNat (bytes.take r.len) &&& r.mask = r.mtch) :
    r.unconstrained.accepts (r.unconstrained.word (window80 bytes)) = true := by
  have hword : r.unconstrained.word (window80 bytes) = beNat (bytes.take r.len) := word_window80 h10 hlen
  rw [hword]
  simp [Row.accepts, Row.unconstrained, h]

/-- A row and a later one of the table differ on a bit both fix. -/
theorem apart_of_lt {i j : Nat} (hi : i < opcodeTable.length) (hj : j < opcodeTable.length) (hij : i < j) :
    opcodeTable[i].unconstrained.apart opcodeTable[j].unconstrained = true :=
  List.pairwise_iff_getElem.1 table_apart i j hi hj hij

/-- Settles O4: two rows of the table differ on a bit both fix. -/
theorem noTwoRowsOverlap : Obligations.NoTwoRowsOverlap := by
  unfold Obligations.NoTwoRowsOverlap
  intro i j hi hj bytes hij hle hlen hlong hshort
  have hten : ∀ k (hk : k < opcodeTable.length), opcodeTable[k].len ≤ 10 := fun k hk =>
    (table_lengths _ (List.getElem_mem hk)).2.1
  have hA := Row.unconstrained_accepts (hten i hi) (hlen ▸ hle) hshort
  have hB := Row.unconstrained_accepts (hten j hj) hlen.ge (by rwa [← hlen, List.take_length])
  rcases Nat.lt_or_gt_of_ne hij with hlt | hlt
  · exact apart_accepts (apart_of_lt hi hj hlt) _ hA hB
  · exact apart_accepts (apart_of_lt hj hi hlt) _ hB hA

/-- The bytes an instruction encodes to decode to it. -/
theorem decode_eq_of_encode {bytes : List Byte} {x : Instr} (hx : x.wf = true) (h : encode x = bytes) :
    decode bytes = .ok x := by
  have hd := decode_encode hx []
  rwa [h, List.append_nil] at hd

/-- Settles O3: each word is the encoding of its instruction. -/
theorem wordsOfTheSpecDecode : Obligations.WordsOfTheSpecDecode := by
  unfold Obligations.WordsOfTheSpecDecode
  and_intros <;> exact decode_eq_of_encode rfl rfl

end Sys2Proof
end

section
/-!
PROOFS. MOV, EXTU, EXTS, MOVFPE and MOVTPE (40_data_transfer.md R400 to R414, R419; 41_arithmetic.md R536 to R539).
-/

namespace Sys2Proof.Machine

/-! ### A value moved to a register -/

theorem moveB_result {x : Instr} {s : State} {len : Nat} {rd : BitVec 4} {v : Byte} (hx : exec x s = moveB len rd v s) :
    MovesB x s len rd v := putB_result hx (flagsOnly_movFlags _ v)

theorem moveW_result {x : Instr} {s : State} {len : Nat} {rd : BitVec 4} {v : Word} (hx : exec x s = moveW len rd v s) :
    MovesW x s len rd v := putW_result hx (flagsOnly_movFlags _ v)

theorem moveL_result {x : Instr} {s : State} {len : Nat} {rd : BitVec 3} {v : Long} (hx : exec x s = moveL len rd v s) :
    MovesL x s len rd v := putL_result hx (flagsOnly_movFlags _ v)

/-! ### The low half of a value, extended -/

theorem zeroExtend_lowByte (v : Word) : (v.extractLsb' 0 8).zeroExtend 16 = v &&& 0x00FF := by
  apply BitVec.eq_of_toNat_eq
  have hmask : v.toNat &&& 255 = v.toNat % 256 := Nat.and_two_pow_sub_one_eq_mod v.toNat 8
  simp [BitVec.extractLsb'_toNat, hmask]
  omega

theorem zeroExtend_lowWord (v : Long) : (v.extractLsb' 0 16).zeroExtend 32 = v &&& 0x0000FFFF := by
  apply BitVec.eq_of_toNat_eq
  have hmask : v.toNat &&& 65535 = v.toNat % 65536 := Nat.and_two_pow_sub_one_eq_mod v.toNat 16
  simp [BitVec.extractLsb'_toNat, hmask]
  omega

/-- Sign extension keeps the signed value of the low bits. -/
theorem signExtend_low {w n : Nat} (v : BitVec w) (h : n ≤ w) (k : Nat) :
    (v.extractLsb' 0 n).signExtend k = BitVec.ofInt k (v.setWidth n).toInt := by
  rw [BitVec.setWidth_eq_extractLsb' h, BitVec.signExtend]

/-- Settles O5: each of the instructions moves its value to a register. -/
theorem moveAndExtendResults : Obligations.MoveAndExtendResults := by
  unfold Obligations.MoveAndExtendResults
  intro s
  refine ⟨?movBReg, ?movWReg, ?movLReg, ?movBImm, ?movWImm, ?movLImm, ?extuW, ?extuL, ?extsW, ?extsL⟩
  case movBReg | movBImm => exact fun _ _ => moveB_result rfl
  case movWReg | movWImm => exact fun _ _ => moveW_result rfl
  case movLReg | movLImm => exact fun _ _ => moveL_result rfl
  case extuW => exact fun rd => zeroExtend_lowByte (s.readW rd) ▸ moveW_result rfl
  case extuL => exact fun rd => zeroExtend_lowWord (s.readL rd) ▸ moveL_result rfl
  case extsW => exact fun rd => signExtend_low (n := 8) (s.readW rd) (by decide) 16 ▸ moveW_result rfl
  case extsL => exact fun rd => signExtend_low (n := 16) (s.readL rd) (by decide) 32 ▸ moveL_result rfl

/-! ### Loads and stores -/

/-- Settles O26: a load by its size, its address register stepped or, in the case of 40_data_transfer.md R419, drawn. -/
theorem loadResults : Obligations.LoadResults := by
  unfold Obligations.LoadResults
  intro s
  refine ⟨fun mem rd _ hr => ⟨?_, ?_⟩, fun mem rd _ hr => ⟨?_, ?_⟩, fun mem rd _ hr => ⟨?_, ?_⟩⟩
  · exact loadB_result rfl hr
  · exact loadB_over rfl hr
  · exact loadW_result rfl hr
  · exact loadW_over rfl hr
  · exact loadL_result rfl hr
  · exact loadL_over rfl hr

/-- A store stores its register where its mode does not step it (40_data_transfer.md R419). -/
theorem storedB_of_not_steps {m : Mode} {rs : BitVec 4} (h : m.steps (ern rs) = false) (s : State) :
    storedB m rs s = s.readB rs := if_neg (by simp [h])

theorem storedW_of_not_steps {m : Mode} {rs : BitVec 4} (h : m.steps (ern rs) = false) (s : State) :
    storedW m rs s = s.readW rs := if_neg (by simp [h])

theorem storedL_of_not_steps {m : Mode} {rs : BitVec 3} (h : m.steps rs = false) (s : State) :
    storedL m rs s = s.readL rs := if_neg (by simp [h])

/-- Settles O27: a store by its size, of the register or, in the case of 40_data_transfer.md R419, of a draw. -/
theorem storeResults : Obligations.StoreResults := by
  unfold Obligations.StoreResults
  intro s hw
  refine ⟨fun rs mem _ hm => ?_, fun rs mem _ hm => ?_, fun rs mem _ hm => ?_⟩
  · have h : StoresB (.movBStore rs mem) s mem.len mem (storedB mem rs s) := storeB_result rfl hw hm
    exact ⟨fun hs => storedB_of_not_steps hs s ▸ h, fun _ => ⟨_, h⟩⟩
  · have h : StoresW (.movWStore rs mem) s mem.len mem (storedW mem rs s) := storeW_result rfl hw hm
    exact ⟨fun hs => storedW_of_not_steps hs s ▸ h, fun _ => ⟨_, h⟩⟩
  · have h : StoresL (.movLStore rs mem) s (mem.len + 2) mem (storedL mem rs s) := storeL_result rfl hw hm
    exact ⟨fun hs => storedL_of_not_steps hs s ▸ h, fun _ => ⟨_, h⟩⟩

/-! ### MOVFPE and MOVTPE -/

theorem exec_movfpe_noEClock {s : State} (h : s.params.hasEClock = false) (aa : BitVec 16) (rd : BitVec 4) :
    exec (.movfpe aa rd) s = .fault (.unmodelled .movfpe s.pc.toNat) := if_neg (by simp [h])

theorem exec_movtpe_noEClock {s : State} (h : s.params.hasEClock = false) (rs : BitVec 4) (aa : BitVec 16) :
    exec (.movtpe rs aa) s = .fault (.unmodelled .movtpe s.pc.toNat) := if_neg (by simp [h])

/-- Settles O28: with the E clock MOVFPE is the load and MOVTPE the store of a byte at `@aa:16`. -/
theorem peripheralMoveResults : Obligations.PeripheralMoveResults := by
  unfold Obligations.PeripheralMoveResults
  intro s aa r
  refine ⟨fun he hr => ?_, fun he hw hm => ?_, fun he => ⟨?_, ?_⟩⟩
  · exact loadB_result (exec_movfpe he aa r) hr rfl
  · rw [← storedB_of_not_steps (m := .abs16 aa) rfl s]
    exact storeB_result (exec_movtpe he r aa) hw hm
  · exact exec_movfpe_noEClock he aa r
  · exact exec_movtpe_noEClock he r aa

end Sys2Proof.Machine
end

section
/-!
PROOFS. Register lists and block moves (40_data_transfer.md R415 to R418).
-/

namespace Sys2Proof.Machine

/-! ### Register lists -/

/-- The registers of a list differ, since it has at most 4 of the 8. -/
theorem ldm_nodup : ∀ r : BitVec 3, [r, r - 1, r - 2, r - 3].Nodup := by decide

theorem stm_nodup : ∀ r : BitVec 3, [r, r + 1, r + 2, r + 3].Nodup := by decide

/-- Settles O29: a list of pops. -/
theorem loadListResults : Obligations.LoadListResults := by
  unfold Obligations.LoadListResults
  intro s
  refine ⟨fun r _ => ⟨?_, ?_⟩, fun r _ => ⟨?_, ?_⟩, fun r _ => ⟨?_, ?_⟩⟩
  · exact loadList_result rfl (.of_append_left (l₂ := [r - 2, r - 3]) (ldm_nodup r)) (List.cons_ne_nil _ _)
  · exact loadList_er7 rfl
  · exact loadList_result rfl (.of_append_left (l₂ := [r - 3]) (ldm_nodup r)) (List.cons_ne_nil _ _)
  · exact loadList_er7 rfl
  · exact loadList_result rfl (ldm_nodup r) (List.cons_ne_nil _ _)
  · exact loadList_er7 rfl

/-- Settles O30: a list of pushes. -/
theorem storeListResults : Obligations.StoreListResults := by
  unfold Obligations.StoreListResults
  intro s hw
  refine ⟨fun r _ => ⟨fun hsp => ?_, ?_⟩, fun r _ => ⟨fun hsp => ?_, ?_⟩, fun r _ => ⟨fun hsp => ?_, ?_⟩⟩
  · exact storeList_result rfl (List.cons_ne_nil _ _) (by simp) hsp hw
  · exact storeList_er7 rfl
  · exact storeList_result rfl (List.cons_ne_nil _ _) (by simp) hsp hw
  · exact storeList_er7 rfl
  · exact storeList_result rfl (List.cons_ne_nil _ _) (by simp) hsp hw
  · exact storeList_er7 rfl

/-! ### A list pushed and popped again -/

theorem State.Holds.left {t : State} {as bs : List Addr} {xs ys : List Byte} (hl : as.length = xs.length)
    (h : t.Holds (as ++ bs) (xs ++ ys)) : t.Holds as xs := fun p hp =>
  h p (by rw [List.zip_append hl]; exact List.mem_append_left _ hp)

theorem State.Holds.right {t : State} {as bs : List Addr} {xs ys : List Byte} (hl : as.length = xs.length)
    (h : t.Holds (as ++ bs) (xs ++ ys)) : t.Holds bs ys := fun p hp =>
  h p (by rw [List.zip_append hl]; exact List.mem_append_right _ hp)

/-- Where SP stands after `k + 1` pops from `a`: `k` pops above the first of them. -/
theorem above_succ (a : Addr) (k : Nat) : a + BitVec.ofNat 32 (4 * (k + 1)) = a + 4 + BitVec.ofNat 32 (4 * k) := by
  rw [Nat.mul_succ, Nat.add_comm, BitVec.ofNat_add, ← BitVec.add_assoc]
  rfl

/-- Where SP stands after `k + 1` pushes from `a`: `k` pushes below the first of them. -/
theorem below_succ (a : Addr) (k : Nat) : a - BitVec.ofNat 32 (4 * (k + 1)) = a - 4 - BitVec.ofNat 32 (4 * k) := by
  rw [Nat.mul_succ, Nat.add_comm, BitVec.ofNat_add]
  exact sub_add_eq_sub_sub a _ _

/-- The last long of a run of pops. -/
theorem popSpan_succ (s : State) (k : Nat) (a : Addr) :
    s.popSpan (k + 1) a = s.popSpan k a ++ s.longSpan (a + BitVec.ofNat 32 (4 * k)) := by
  induction k generalizing a with
  | zero => simp [State.popSpan]
  | succ k ih =>
    rw [State.popSpan, ih, State.popSpan, List.append_assoc, above_succ]

/-- The last register of a list popped. -/
theorem listLoaded_append {s t : State} {regs : List (BitVec 3)} {r : BitVec 3} {a : Addr}
    (h : ListLoaded s t (regs ++ [r]) a) :
    ListLoaded s t regs a ∧ t.readL r = s.longAt (a + BitVec.ofNat 32 (4 * regs.length)) := by
  induction regs generalizing a with
  | nil => simpa [ListLoaded] using h
  | cons q qs ih =>
    obtain ⟨hq, h⟩ := h
    obtain ⟨hqs, hr⟩ := ih h
    exact ⟨⟨hq, hqs⟩, by rw [hr, List.length_cons, above_succ]⟩

/-- The bytes popped from where a run of pushes ended are those it stored. -/
theorem mem_pushSpan_of_popSpan {s : State} {k : Nat} {a x : Addr}
    (hx : x ∈ s.popSpan k (a - BitVec.ofNat 32 (4 * k))) : x ∈ s.pushSpan k a := by
  induction k generalizing a with
  | zero => cases hx
  | succ k ih =>
    rw [below_succ, popSpan_succ, BitVec.sub_add_cancel] at hx
    exact (List.mem_append.1 hx).elim (fun h => List.mem_append_right _ (ih h)) (List.mem_append_left _)

/-- The registers popped in reverse order from a stack that holds a list's pushes get back what was pushed. -/
theorem readL_of_popped {s t u : State} (hp : t.params = s.params) {regs : List (BitVec 3)} {a : Addr}
    (hheld : t.Holds (s.pushSpan regs.length a) (regs.flatMap fun r => longBytes (s.readL r)))
    (hd : ∀ x ∈ s.pushSpan regs.length a, t.isDevice x.toNat = false)
    (hl : ListLoaded t u regs.reverse (a - BitVec.ofNat 32 (4 * regs.length))) :
    ∀ r ∈ regs, u.readL r = s.readL r := by
  induction regs generalizing a with
  | nil => exact fun _ h => by cases h
  | cons q qs ih =>
    rw [List.length_cons, State.pushSpan] at hheld hd
    rw [List.reverse_cons, List.length_cons, below_succ] at hl
    obtain ⟨hqs, hq⟩ := listLoaded_append hl
    rw [List.length_reverse, BitVec.sub_add_cancel] at hq
    have hlong : t.longAt (a - 4) = s.readL q := holds_longAt
      (by rw [longSpan_congr hp]; exact hheld.left rfl)
      (fun x hx => hd x (List.mem_append_left _ (by rwa [longSpan_congr hp] at hx)))
    intro r hr
    rcases List.mem_cons.1 hr with rfl | hr
    · exact hq.trans hlong
    · exact ih (hheld.right rfl) (fun x hx => hd x (List.mem_append_right _ hx)) hqs r hr

/-- STM.L of a list, then LDM.L of the same registers, which it takes in the other order: both complete and every
register is as before. -/
theorem loadList_undoes_storeList {x y : Instr} {s : State} {regs popped : List (BitVec 3)}
    (hx : exec x s = storeList regs s) (hy : ∀ t, exec y t = loadList popped t) (hpop : popped = regs.reverse)
    (hne : regs ≠ []) (hn : regs.Nodup) (hlen : regs.length ≤ 8) (hsp : sp ∉ regs) (hw : s.mem.wf)
    (hm : s.MayStore 4 (s.pushSpan regs.length (s.readL sp))) (hr : s.MayRead (s.pushSpan regs.length (s.readL sp)))
    (hd : ∀ a ∈ s.pushSpan regs.length (s.readL sp), s.isDevice a.toNat = false) :
    ∃ t u, exec x s = .next t ∧ exec y t = .next u ∧ ∀ n, u.readL n = s.readL n := by
  subst hpop
  obtain ⟨t, ht, hheld, htsp, -, htf⟩ := storeList_result hx hne hlen hsp hw hm
  have hsame := htf.outside
  have hread : t.MayRead (t.popSpan regs.reverse.length (t.readL sp)) := fun a ha => by
    rw [popSpan_congr hsame.params, List.length_reverse, htsp] at ha
    rw [canRead_congr hsame.hostMap]
    exact hr a (mem_pushSpan_of_popSpan ha)
  obtain ⟨u, hu, hl, husp, -, huf⟩ := loadList_result (hy t) (List.nodup_reverse.2 hn) (by simpa using hne)
    (by simpa using hsp) hread
  rw [htsp] at hl
  have hback := readL_of_popped hsame.params hheld (fun a ha => by rw [isDevice_congr hsame.hostMap]; exact hd a ha) hl
  refine ⟨t, u, ht, hu, fun n => ?_⟩
  by_cases hnsp : n = sp
  · rw [hnsp, husp, htsp, List.length_reverse, BitVec.sub_add_cancel]
  by_cases hreg : n ∈ regs
  · exact hback n hreg
  · have hu' : u.readL n = t.readL n := huf.regs.readL fun k => by
      have := covered_longs (l := regs.reverse ++ [sp]) (n := n) (by simp [hreg, hnsp]) k
      rwa [List.map_append] at this
    have ht' : t.readL n = s.readL n := htf.regs.readL fun k => covered_longs (l := [sp]) (by simpa using hnsp) k
    exact hu'.trans ht'

/-- LDM.L of STM.L's registers pops them in the other order (40_data_transfer.md R415, R416). -/
theorem ldm2_reverse : ∀ r : BitVec 3, [r + 1, r + 1 - 1] = [r, r + 1].reverse := by decide

theorem ldm3_reverse : ∀ r : BitVec 3, [r + 2, r + 2 - 1, r + 2 - 2] = [r, r + 1, r + 2].reverse := by decide

theorem ldm4_reverse : ∀ r : BitVec 3,
    [r + 3, r + 3 - 1, r + 3 - 2, r + 3 - 3] = [r, r + 1, r + 2, r + 3].reverse := by decide

/-- Settles O31: what the pushes stored is what the pops, in the other order, read. -/
theorem loadListUndoesStoreList : Obligations.LoadListUndoesStoreList := by
  unfold Obligations.LoadListUndoesStoreList
  intro s hw
  refine ⟨fun r _ hsp => ?_, fun r _ hsp => ?_, fun r _ hsp => ?_⟩
  · exact loadList_undoes_storeList rfl (fun _ => rfl) (ldm2_reverse r) (List.cons_ne_nil _ _)
      (.of_append_left (l₂ := [r + 2, r + 3]) (stm_nodup r)) (by simp) hsp hw
  · exact loadList_undoes_storeList rfl (fun _ => rfl) (ldm3_reverse r) (List.cons_ne_nil _ _)
      (.of_append_left (l₂ := [r + 3]) (stm_nodup r)) (by simp) hsp hw
  · exact loadList_undoes_storeList rfl (fun _ => rfl) (ldm4_reverse r) (List.cons_ne_nil _ _) (stm_nodup r) (by simp)
      hsp hw

/-! ### EEPMOV.B -/

/-- Settles O32: the bytes of the block move one after the other, in one step. -/
theorem blockMoveByteResult : Obligations.BlockMoveByteResult := by
  unfold Obligations.BlockMoveByteResult
  rintro s n rfl
  have hx : exec .eepmovB s = execEepmovB s := rfl
  unfold execEepmovB at hx
  constructor
  · intro h0
    rw [h0] at hx
    exact jumpsTo_of_setPc hx
  · intro hpos hr hm
    obtain ⟨t, ht, hcount, h5, h6, hpc, hf, hheld⟩ := moveBytes_ok (by have := (s.readB 12).isLt; omega) hr hm
    have hcopied := moveBytes_copied hr hm ht
    rw [ht] at hx
    rw [if_neg (by omega)] at hf
    refine ⟨_, hx, h5, h6, ?_, hf.pcNext hpc 4, ?_, hheld, hcopied⟩
    · rw [advance_readB, hcount]
      simp
    · simpa using hf.trans (frame_advance t 4)

/-! ### EEPMOV.W -/

/-- The state after one byte of a block move, both pointers stepped (40_data_transfer.md R417). -/
def State.movedByte (s : State) : State :=
  ((s.stored [(s.addr (s.readL 6), s.byteAt (s.addr (s.readL 5)))]).writeL 5 (s.readL 5 + 1)).writeL 6 (s.readL 6 + 1)

theorem moveByte_eq_movedByte {s : State} (hr : s.MayRead [s.addr (s.readL 5)]) (hm : s.MayStore 4 [s.addr (s.readL 6)]) :
    s.moveByte = .ok s.movedByte := moveByte_ok hr hm

theorem movedByte_frame (s : State) : Frame s s.movedByte [.long 5, .long 6] [] [s.addr (s.readL 6)] :=
  moveByte_frame s _ _ _ _

theorem movedByte_pc (s : State) : s.movedByte.pc = s.pc := stored_pc _ _

theorem movedByte_readL5 (s : State) : s.movedByte.readL 5 = s.readL 5 + 1 := by
  rw [State.movedByte, readL_writeL_ne _ _ (by decide), readL_writeL]

theorem movedByte_readL6 (s : State) : s.movedByte.readL 6 = s.readL 6 + 1 := readL_writeL _ _ _

theorem movedByte_holds {s : State} (hw : s.mem.wf) :
    s.movedByte.Holds [s.addr (s.readL 6)] [s.byteAt (s.addr (s.readL 5))] :=
  holds_stored hw (Nat.le_refl _) (by simp)

/-- The count of EEPMOV.W is in neither pointer. -/
theorem movedByte_readW4 (s : State) : s.movedByte.readW 4 = s.readW 4 := by
  have h4 : s.movedByte.readL 4 = s.readL 4 := (movedByte_frame s).regs.readL fun _ => by
    simp [covered, RegName.covers]
  exact congrArg (BitVec.extractLsb' 0 16) h4

/-- What a step of EEPMOV.W with a byte to move leaves, the count at `left` (40_data_transfer.md R418). -/
def State.movedOne (s : State) (left : Word) : State :=
  ((s.movedByte.writeW 4 left).setMoving (left != 0)).setPc (if left = 0 then s.pcNext 4 else s.pc)

/-- The step at the last byte clears the mid-move state and moves on; every other step stays at its address. -/
theorem exec_eepmovW_moves {s : State} (h : s.readW 4 ≠ 0) (hr : s.MayRead [s.addr (s.readL 5)])
    (hm : s.MayStore 4 [s.addr (s.readL 6)]) : exec .eepmovW s = .next (s.movedOne (s.readW 4 - 1)) := by
  have hx : exec .eepmovW s = execEepmovW s := rfl
  rw [hx, execEepmovW, if_neg h, moveByte_eq_movedByte hr hm]
  simp only [movedByte_readW4]
  unfold State.movedOne
  by_cases h1 : s.readW 4 = 1
  · have hpc : ((s.movedByte.writeW 4 0).setMoving false).pcNext 4 = s.pcNext 4 :=
      pcNext_congr (movedByte_pc s) (movedByte_frame s).outside.params 4
    rw [if_pos h1, h1, State.advance, hpc]
    rfl
  · have hleft : s.readW 4 - 1 ≠ 0 := fun h0 => h1 (sub_eq_zero.1 h0)
    rw [if_neg h1, if_neg hleft, bne_iff_ne.2 hleft, ← movedByte_pc s]
    rfl

theorem movedOne_spec {s : State} (hw : s.mem.wf) (left : Word) : MovedOne s (s.movedOne left) left := by
  have hf := movedByte_frame s
  have hfw := hf.trans (frame_writeW s.movedByte 4 left)
  have hkeep : ∀ n, n ≠ 4 → (s.movedOne left).readL n = s.movedByte.readL n := fun n hn => readL_writeW_ne _ _ hn
  exact {
    byte := movedByte_holds hw
    source := (hkeep 5 (by decide)).trans (movedByte_readL5 s)
    target := (hkeep 6 (by decide)).trans (movedByte_readL6 s)
    count := readW_writeW _ _ _
    moving := rfl
    pc := rfl
    regs := ⟨fun n k hk hc => hfw.regs.swap.value n k hk hc, fun n k hk => hfw.regs.swap.defined n k hk⟩
    flags := ⟨fun f hfl => hfw.flags.value f hfl, fun f => hfw.flags.defined f⟩
    mem := fun a ha => hf.mem a ha
    exr := hf.control.exr
    sleeping := hf.control.sleeping
    irqHold := hf.control.irqHold
    nmiPending := hf.control.nmiPending
    outside := hf.outside.trans ⟨rfl, rfl, rfl, rfl, rfl, rfl, rfl, rfl⟩ }

/-- Settles O33: with no byte left nothing moves, else one byte does. -/
theorem blockMoveWordStep : Obligations.BlockMoveWordStep := by
  unfold Obligations.BlockMoveWordStep
  intro s
  constructor
  · intro h0
    exact if_pos h0
  · intro h0 hw hr hm
    exact ⟨_, exec_eepmovW_moves h0 hr hm, movedOne_spec hw _⟩

end Sys2Proof.Machine
end

section
/-!
PROOFS. Addition, subtraction, comparison, decimal adjust, multiplication, division and TAS (41_arithmetic.md R500 to
R535, R540 to R548).
-/

namespace Sys2Proof.Machine

/-! ### The adder and the subtracter -/

/-- A computed result has this value and these five flags. -/
structure AluResult.Is {w : Nat} (r : AluResult w) (v : BitVec w) (val : Flag → Bool) : Prop where
  val_eq : r.val = v
  flags_eq : r.flags.val = val

theorem carryIn_eq (w : Nat) (cin : Bool) : carryIn w cin = BitVec.ofNat w cin.toNat := by cases cin <;> rfl

theorem addCore_val {w : Nat} (a b : BitVec w) (cin : Bool) : (addCore a b cin).val = sumOf a b cin := by
  show BitVec.ofNat w (a.toNat + b.toNat + cin.toNat) = a + b + carryIn w cin
  rw [carryIn_eq, BitVec.ofNat_add, BitVec.ofNat_add, BitVec.ofNat_toNat, BitVec.ofNat_toNat, BitVec.setWidth_eq,
    BitVec.setWidth_eq]

theorem subCore_val {w : Nat} (a b : BitVec w) (cin : Bool) : (subCore a b cin).val = differenceOf a b cin := by
  show BitVec.ofInt w ((a.toNat : Int) - b.toNat - cin.toNat) = a - b - carryIn w cin
  simp only [carryIn_eq, Int.sub_eq_add_neg, BitVec.sub_eq_add_neg, BitVec.ofInt_add, BitVec.ofInt_neg,
    BitVec.ofInt_natCast, BitVec.ofNat_toNat, BitVec.setWidth_eq]

/-- The adder gives the sum and its flags (41_arithmetic.md R500). -/
theorem addCore_is {w : Nat} (a b : BitVec w) (cin : Bool) :
    (addCore a b cin).Is (sumOf a b cin) (sumFlags a b cin) := by
  refine ⟨addCore_val a b cin, ?_⟩
  funext f
  cases f <;> simp only [sumFlags, ← addCore_val] <;> rfl

/-- The subtracter gives the difference and its flags (41_arithmetic.md R501). -/
theorem subCore_is {w : Nat} (a b : BitVec w) (cin : Bool) :
    (subCore a b cin).Is (differenceOf a b cin) (differenceFlags a b cin) := by
  refine ⟨subCore_val a b cin, ?_⟩
  funext f
  cases f <;> simp only [differenceFlags, ← subCore_val] <;> rfl

/-- ADDX and SUBX only clear Z (41_arithmetic.md R513, R523). -/
theorem AluResult.Is.stickyZ {w : Nat} {r : AluResult w} {v : BitVec w} {val : Flag → Bool} (h : r.Is v val)
    (z : Bool) : (r.stickyZ z).Is v (keepingZ val z) := by
  obtain ⟨rfl, rfl⟩ := h
  refine ⟨rfl, ?_⟩
  funext f
  cases f <;> rfl

theorem sumOf_noCarry {w : Nat} (a b : BitVec w) : sumOf a b false = a + b := BitVec.add_zero _

theorem differenceOf_noCarry {w : Nat} (a b : BitVec w) : differenceOf a b false = a - b := BitVec.sub_zero _

theorem addCore_noCarry_is {w : Nat} (a b : BitVec w) : (addCore a b false).Is (a + b) (sumFlags a b false) :=
  sumOf_noCarry a b ▸ addCore_is a b false

theorem subCore_noCarry_is {w : Nat} (a b : BitVec w) : (subCore a b false).Is (a - b) (differenceFlags a b false) :=
  differenceOf_noCarry a b ▸ subCore_is a b false

/-! ### A computed result written -/

theorem aluB_result {x : Instr} {s : State} {len : Nat} {rd : BitVec 4} {r : AluResult 8} {v : Byte}
    {val : Flag → Bool} (hx : exec x s = aluB len rd r s) (hr : r.Is v val) :
    ResultB x s len rd v arithmeticFlags val := by
  obtain ⟨rfl, rfl⟩ := hr
  exact putB_result hx (flagsOnly_setFlags _ _)

theorem aluW_result {x : Instr} {s : State} {len : Nat} {rd : BitVec 4} {r : AluResult 16} {v : Word}
    {val : Flag → Bool} (hx : exec x s = aluW len rd r s) (hr : r.Is v val) :
    ResultW x s len rd v arithmeticFlags val := by
  obtain ⟨rfl, rfl⟩ := hr
  exact putW_result hx (flagsOnly_setFlags _ _)

theorem aluL_result {x : Instr} {s : State} {len : Nat} {rd : BitVec 3} {r : AluResult 32} {v : Long}
    {val : Flag → Bool} (hx : exec x s = aluL len rd r s) (hr : r.Is v val) :
    ResultL x s len rd v arithmeticFlags val := by
  obtain ⟨rfl, rfl⟩ := hr
  exact putL_result hx (flagsOnly_setFlags _ _)

theorem stepB_result {x : Instr} {s : State} {len : Nat} {rd : BitVec 4} {r : AluResult 8} {v : Byte}
    {val : Flag → Bool} (hx : exec x s = stepB len rd r s) (hr : r.Is v val) :
    ResultB x s len rd v [.n, .z, .v] val := by
  obtain ⟨rfl, rfl⟩ := hr
  exact putB_result hx (flagsOnly_nzvFlags _ _)

theorem stepW_result {x : Instr} {s : State} {len : Nat} {rd : BitVec 4} {r : AluResult 16} {v : Word}
    {val : Flag → Bool} (hx : exec x s = stepW len rd r s) (hr : r.Is v val) :
    ResultW x s len rd v [.n, .z, .v] val := by
  obtain ⟨rfl, rfl⟩ := hr
  exact putW_result hx (flagsOnly_nzvFlags _ _)

theorem stepL_result {x : Instr} {s : State} {len : Nat} {rd : BitVec 3} {r : AluResult 32} {v : Long}
    {val : Flag → Bool} (hx : exec x s = stepL len rd r s) (hr : r.Is v val) :
    ResultL x s len rd v [.n, .z, .v] val := by
  obtain ⟨rfl, rfl⟩ := hr
  exact putL_result hx (flagsOnly_nzvFlags _ _)

/-- CMP writes the five flags of the difference. -/
theorem cmp_result {w : Nat} {x : Instr} {s : State} {len : Nat} {a b : BitVec w}
    (hx : exec x s = compare len (subCore a b false) s) :
    ResultFlags x s len arithmeticFlags (differenceFlags a b false) :=
  (subCore_is a b false).flags_eq ▸ compare_result hx

/-- Settles O7: each form writes the adder's result, which is the sum and its flags. -/
theorem addResults : Obligations.AddResults := by
  unfold Obligations.AddResults
  intro s
  refine ⟨?addBImm, ?addBReg, ?addWImm, ?addWReg, ?addLImm, ?addLReg, ?addxImm, ?addxReg⟩
  case addBImm | addBReg => exact fun _ _ => aluB_result rfl (addCore_is _ _ _)
  case addWImm | addWReg => exact fun _ _ => aluW_result rfl (addCore_is _ _ _)
  case addLImm | addLReg => exact fun _ _ => aluL_result rfl (addCore_is _ _ _)
  case addxImm | addxReg => exact fun _ _ => aluB_result rfl ((addCore_is _ _ _).stickyZ _)

/-- Settles O8: each form but CMP writes the subtracter's result, which is the difference and its flags. -/
theorem subtractAndCompareResults : Obligations.SubtractAndCompareResults := by
  unfold Obligations.SubtractAndCompareResults
  intro s
  refine ⟨?subBReg, ?subWImm, ?subWReg, ?subLImm, ?subLReg, ?subxImm, ?subxReg, ?negB, ?negW, ?negL, ?cmpBImm,
    ?cmpBReg, ?cmpWImm, ?cmpWReg, ?cmpLImm, ?cmpLReg⟩
  case subBReg => exact fun _ _ => aluB_result rfl (subCore_is _ _ _)
  case subWImm | subWReg => exact fun _ _ => aluW_result rfl (subCore_is _ _ _)
  case subLImm | subLReg => exact fun _ _ => aluL_result rfl (subCore_is _ _ _)
  case subxImm | subxReg => exact fun _ _ => aluB_result rfl ((subCore_is _ _ _).stickyZ _)
  case negB => exact fun _ => aluB_result rfl (subCore_is _ _ _)
  case negW => exact fun _ => aluW_result rfl (subCore_is _ _ _)
  case negL => exact fun _ => aluL_result rfl (subCore_is _ _ _)
  case cmpBImm | cmpBReg | cmpWImm | cmpWReg | cmpLImm | cmpLReg => exact fun _ _ => cmp_result rfl

/-- Settles O10: INC and DEC write the adder's and the subtracter's N, Z and V, ADDS and SUBS no flag. -/
theorem incrementDecrementResults : Obligations.IncrementDecrementResults := by
  unfold Obligations.IncrementDecrementResults
  intro s
  refine ⟨?incB, ?incW1, ?incW2, ?incL1, ?incL2, ?decB, ?decW1, ?decW2, ?decL1, ?decL2, ?adds1, ?adds2, ?adds4,
    ?subs1, ?subs2, ?subs4⟩
  case incB => exact fun _ => stepB_result rfl (addCore_noCarry_is _ _)
  case incW1 | incW2 => exact fun _ => stepW_result rfl (addCore_noCarry_is _ _)
  case incL1 | incL2 => exact fun _ => stepL_result rfl (addCore_noCarry_is _ _)
  case decB => exact fun _ => stepB_result rfl (subCore_noCarry_is _ _)
  case decW1 | decW2 => exact fun _ => stepW_result rfl (subCore_noCarry_is _ _)
  case decL1 | decL2 => exact fun _ => stepL_result rfl (subCore_noCarry_is _ _)
  case adds1 | adds2 | adds4 | subs1 | subs2 | subs4 => exact fun _ => putL_result rfl (flagsOnly_noFlags _ _)

/-! ### The flags of a comparison -/

theorem subCore_z {w : Nat} (a b : BitVec w) : (subCore a b false).flags.z = (a == b) := by
  show ((subCore a b false).val == 0) = _
  rw [subCore_val, differenceOf_noCarry, Bool.eq_iff_iff, beq_iff_eq, beq_iff_eq]
  exact sub_eq_zero

theorem subCore_c {w : Nat} (a b : BitVec w) : (subCore a b false).flags.c = decide (a.toNat < b.toNat) := rfl

/-- Where the signs are equal the signed difference does not overflow. -/
theorem msb_sub_of_msb_eq {w : Nat} {a b : BitVec w} (h : a.msb = b.msb) :
    (a - b).msb = decide (a.toInt < b.toInt) := by
  rw [BitVec.msb_eq_toInt, BitVec.msb_eq_toInt, decide_eq_decide] at h
  have ha := a.two_mul_toInt_lt
  have hb := b.two_mul_toInt_lt
  have ha' := a.le_two_mul_toInt
  have hb' := b.le_two_mul_toInt
  have hpow : ((2 ^ w : Nat) : Int) = 2 ^ w := Nat.cast_pow 2 w
  have hsub : (a - b).toInt = a.toInt - b.toInt := by
    rw [BitVec.toInt_sub]
    exact Int.bmod_eq_of_le_mul_two (by omega) (by omega)
  rw [BitVec.msb_eq_toInt, hsub, decide_eq_decide]
  omega

theorem toInt_lt_of_msb_ne {w : Nat} {a b : BitVec w} (h : a.msb ≠ b.msb) : a.msb = decide (a.toInt < b.toInt) := by
  rw [BitVec.msb_eq_toInt, BitVec.msb_eq_toInt, Ne, decide_eq_decide] at h
  rw [BitVec.msb_eq_toInt, decide_eq_decide]
  omega

/-- N and V differ exactly where the signed order is strict: with equal signs V is 0 and N decides, with different signs
V corrects N to the sign of `a`. -/
theorem subCore_n_xor_v {w : Nat} (a b : BitVec w) :
    ((subCore a b false).flags.n ^^ (subCore a b false).flags.v) = decide (a.toInt < b.toInt) := by
  have hval : (subCore a b false).val = a - b := (subCore_noCarry_is a b).val_eq
  show ((subCore a b false).val.msb ^^ (a.msb != b.msb && (subCore a b false).val.msb != a.msb)) = _
  rw [hval]
  by_cases h : a.msb = b.msb
  · rw [h, bne_self_eq_false, Bool.false_and, Bool.xor_false, msb_sub_of_msb_eq h]
  · rw [bne_iff_ne.2 h, Bool.true_and, ← toInt_lt_of_msb_ne h]
    cases (a - b).msb <;> cases a.msb <;> rfl

/-- Settles O9: C is the unsigned order, Z equality, and N with V the signed order. -/
theorem comparisonsOrderTheBranches : Obligations.ComparisonsOrderTheBranches := by
  unfold Obligations.ComparisonsOrderTheBranches
  intro w a b _
  have hnat : a = b ↔ a.toNat = b.toNat := BitVec.toNat_inj.symm
  have hint : a = b ↔ a.toInt = b.toInt := BitVec.toInt_inj.symm
  simp only [Cond.holds, subCore_n_xor_v, subCore_z, subCore_c, Bool.not_eq_true', Bool.or_eq_true,
    Bool.or_eq_false_iff, decide_eq_true_eq, decide_eq_false_iff_not, beq_iff_eq, beq_eq_false_iff_ne, ne_eq]
  refine ⟨?hi, ?ls, ?cc, trivial, trivial, trivial, ?ge, trivial, ?gt, ?le⟩
  case hi | ls => rw [hnat]; omega
  case cc => exact Nat.not_lt
  case ge => exact Int.not_lt
  case gt | le => rw [hint]; omega

/-! ### DAA and DAS -/

/-- Where a row of the table matches, `rd` gains its adjustment and C is its carry. -/
theorem decimalAdjust_row {x : Instr} {s : State} {table : List AdjustRow} {rd : BitVec 4} {row : AdjustRow}
    (hx : exec x s = decimalAdjust table rd s)
    (hrow : adjustRow? table (s.flag .c) (s.flag .h) (s.readB rd) = some row) :
    Ends x s fun t =>
      t.readB rd = s.readB rd + row.add ∧ t.flag .c = row.cAfter ∧ t.flag .n = (s.readB rd + row.add).msb ∧
        t.flag .z = (s.readB rd + row.add == 0) ∧ t.pc = s.pcNext 2 ∧ Frame s t [.byte rd] arithmeticFlags [] := by
  unfold decimalAdjust at hx
  simp only [hrow] at hx
  obtain ⟨t, ht, hval, hflags, hpc, hframe⟩ :=
    putB_result (upd := fun u => u.setFlags _) hx (flagsOnly_setFlags (s.writeB rd (s.readB rd + row.add)) _)
  exact ⟨t, ht, hval, hflags .c (by simp), hflags .n (by simp), hflags .z (by simp), hpc, hframe⟩

/-- Where none matches only the frame is known. -/
theorem decimalAdjust_free {x : Instr} {s : State} {table : List AdjustRow} {rd : BitVec 4}
    (hx : exec x s = decimalAdjust table rd s)
    (hrow : adjustRow? table (s.flag .c) (s.flag .h) (s.readB rd) = none) :
    Ends x s fun t => t.pc = s.pcNext 2 ∧ Frame s t [.byte rd] arithmeticFlags [] := by
  unfold decimalAdjust at hx
  simp only [hrow] at hx
  obtain ⟨t, ht, -, -, hpc, hframe⟩ := putB_result (upd := fun u => u.setFlags _) hx
    (flagsOnly_setFlags (s.writeB rd (Config.draw 8 .adjustResult s.epoch)) _)
  exact ⟨t, ht, hpc, hframe⟩

/-- Settles O11: the table has a row for the operand, or it has none. -/
theorem decimalAdjustResults : Obligations.DecimalAdjustResults := by
  unfold Obligations.DecimalAdjustResults
  refine fun s => ⟨fun rd => ?_, fun rd => ?_⟩
  · split
    next hrow => exact decimalAdjust_row rfl hrow
    next hrow => exact decimalAdjust_free rfl hrow
  · split
    next hrow => exact decimalAdjust_row rfl hrow
    next hrow => exact decimalAdjust_free rfl hrow

/-! ### Decimal sums and differences -/

/-- A table's adjustment of the byte `b` with C and H, and the C after it. -/
def adjusted (table : List AdjustRow) (c h : Bool) (b : Byte) : Option (Byte × Bool) :=
  (adjustRow? table c h b).map fun row => (b + row.add, row.cAfter)

/-- An operation that leaves a byte, C and H, then an adjustment that turns them into the digits of `n`. -/
theorem givesDecimal_of {x y : Instr} {s : State} {len : Nat} {rd : BitVec 4} {v : Byte} {val : Flag → Bool} {n : Nat}
    {c : Bool} {table : List AdjustRow} (hx : ResultB x s len rd v arithmeticFlags val)
    (hy : ∀ t, exec y t = decimalAdjust table rd t)
    (had : adjusted table (val .c) (val .h) v = some (decimalByte n, c)) : GivesDecimal x y s rd n c := by
  obtain ⟨t, ht, hv, hflags, -, -⟩ := hx
  obtain ⟨row, hrow, hadd⟩ := Option.map_eq_some_iff.1 had
  obtain ⟨hn, hc⟩ := Prod.mk.inj hadd
  rw [← hv, ← hflags .c (by simp [arithmeticFlags]), ← hflags .h (by simp [arithmeticFlags])] at hrow
  obtain ⟨u, hu, huv, huc, -⟩ := decimalAdjust_row (hy t) hrow
  exact ⟨t, ht, u, hu, by rw [huv, hv, hn], huc.trans hc⟩

/-- DAA on the sum of two decimal bytes, whose high digits add up to `i` and whose low digits and carry to `j`. -/
theorem daa_adjusts : ∀ (i : Fin 19) (j : Fin 20),
    adjusted daaTable (decide (256 ≤ 16 * i.val + j.val)) (decide (16 ≤ j.val))
        (BitVec.ofNat 8 (16 * i.val + j.val)) =
      some (decimalByte (10 * i.val + j.val), decide (100 ≤ 10 * i.val + j.val)) := by decide

/-- DAS on the difference of two decimal bytes, whose high digits differ by `i - 9` and whose low digits and borrow by
`j - 10`. -/
theorem das_adjusts : ∀ (i : Fin 19) (j : Fin 20),
    adjusted dasTable (decide (16 * i.val + j.val < 154)) (decide (j.val < 10))
        (BitVec.ofInt 8 (16 * (i.val : Int) + j.val - 154)) =
      some (decimalByte (10 * i.val + j.val), decide (10 * i.val + j.val < 100)) := by decide

theorem decimalByte_toNat {n : Nat} (h : n < 100) : (decimalByte n).toNat = 16 * (n / 10) + n % 10 := by
  have htens : n / 10 % 10 = n / 10 := Nat.mod_eq_of_lt (by omega)
  unfold decimalByte
  rw [htens, BitVec.toNat_ofNat, Nat.mod_eq_of_lt (by omega), Nat.mul_comm]

/-- The sum of two decimal bytes, digit by digit. -/
theorem sum_adjusts {x y : Nat} (hx : x < 100) (hy : y < 100) (cin : Bool) :
    adjusted daaTable (sumFlags (decimalByte x) (decimalByte y) cin .c)
        (sumFlags (decimalByte x) (decimalByte y) cin .h) (sumOf (decimalByte x) (decimalByte y) cin) =
      some (decimalByte (x + y + cin.toNat), decide (100 ≤ x + y + cin.toNat)) := by
  have hcin := cin.toNat_le
  have hdigits : x + y + cin.toNat = 10 * (x / 10 + y / 10) + (x % 10 + y % 10 + cin.toNat) := by omega
  have hbytes : (decimalByte x).toNat + (decimalByte y).toNat + cin.toNat =
      16 * (x / 10 + y / 10) + (x % 10 + y % 10 + cin.toNat) := by
    rw [decimalByte_toNat hx, decimalByte_toNat hy]
    omega
  have hlow : (decimalByte x).toNat % 2 ^ (8 - 4) + (decimalByte y).toNat % 2 ^ (8 - 4) + cin.toNat =
      x % 10 + y % 10 + cin.toNat := by
    rw [decimalByte_toNat hx, decimalByte_toNat hy]
    omega
  have hsum : sumOf (decimalByte x) (decimalByte y) cin =
      BitVec.ofNat 8 (16 * (x / 10 + y / 10) + (x % 10 + y % 10 + cin.toNat)) := by
    rw [← addCore_val, ← hbytes]
    rfl
  unfold sumFlags
  rw [hbytes, hlow, hsum, hdigits]
  exact daa_adjusts ⟨x / 10 + y / 10, by omega⟩ ⟨x % 10 + y % 10 + cin.toNat, by omega⟩

/-- The difference of two decimal bytes, digit by digit. -/
theorem difference_adjusts {x y : Nat} (hx : x < 100) (hy : y < 100) (cin : Bool) :
    adjusted dasTable (differenceFlags (decimalByte x) (decimalByte y) cin .c)
        (differenceFlags (decimalByte x) (decimalByte y) cin .h) (differenceOf (decimalByte x) (decimalByte y) cin) =
      some (decimalByte (100 + x - y - cin.toNat), decide (x < y + cin.toNat)) := by
  have hcin := cin.toNat_le
  obtain ⟨i, hi⟩ : ∃ i, 9 + x / 10 = i + y / 10 := ⟨9 + x / 10 - y / 10, by omega⟩
  obtain ⟨j, hj⟩ : ∃ j, 10 + x % 10 = j + y % 10 + cin.toNat := ⟨10 + x % 10 - y % 10 - cin.toNat, by omega⟩
  have hxb := decimalByte_toNat hx
  have hyb := decimalByte_toNat hy
  have hdigits : 100 + x - y - cin.toNat = 10 * i + j := by omega
  have hless : x < y + cin.toNat ↔ 10 * i + j < 100 := by omega
  have hborrow : (decimalByte x).toNat < (decimalByte y).toNat + cin.toNat ↔ 16 * i + j < 154 := by omega
  have hhalf : (decimalByte x).toNat % 2 ^ (8 - 4) < (decimalByte y).toNat % 2 ^ (8 - 4) + cin.toNat ↔ j < 10 := by
    omega
  have hbytes : ((decimalByte x).toNat : Int) - (decimalByte y).toNat - cin.toNat = 16 * (i : Int) + j - 154 := by omega
  have hdifference : differenceOf (decimalByte x) (decimalByte y) cin = BitVec.ofInt 8 (16 * (i : Int) + j - 154) := by
    rw [← subCore_val, ← hbytes]
    rfl
  simp only [differenceFlags, hborrow, hhalf, hdifference, hdigits, hless]
  exact das_adjusts ⟨i, by omega⟩ ⟨j, by omega⟩

/-- An instruction that leaves the sum of two decimal bytes, with its C and H, and then DAA. -/
theorem givesDecimal_sum {x : Instr} {s : State} {rd : BitVec 4} {m n : Fin 100} {b : Byte} {cin : Bool}
    {val : Flag → Bool} (hm : s.readB rd = decimalByte m.val) (hn : b = decimalByte n.val)
    (hx : ResultB x s 2 rd (sumOf (s.readB rd) b cin) arithmeticFlags val)
    (hc : val .c = sumFlags (s.readB rd) b cin .c) (hh : val .h = sumFlags (s.readB rd) b cin .h) :
    GivesDecimal x (.daa rd) s rd (m.val + n.val + cin.toNat) (decide (100 ≤ m.val + n.val + cin.toNat)) := by
  refine givesDecimal_of hx (fun _ => rfl) ?_
  rw [hc, hh, hm, hn]
  exact sum_adjusts m.isLt n.isLt cin

/-- An instruction that leaves the difference of two decimal bytes, with its C and H, and then DAS. -/
theorem givesDecimal_difference {x : Instr} {s : State} {rd : BitVec 4} {m n : Fin 100} {b : Byte} {cin : Bool}
    {val : Flag → Bool} (hm : s.readB rd = decimalByte m.val) (hn : b = decimalByte n.val)
    (hx : ResultB x s 2 rd (differenceOf (s.readB rd) b cin) arithmeticFlags val)
    (hc : val .c = differenceFlags (s.readB rd) b cin .c) (hh : val .h = differenceFlags (s.readB rd) b cin .h) :
    GivesDecimal x (.das rd) s rd (100 + m.val - n.val - cin.toNat) (decide (m.val < n.val + cin.toNat)) := by
  refine givesDecimal_of hx (fun _ => rfl) ?_
  rw [hc, hh, hm, hn]
  exact difference_adjusts m.isLt n.isLt cin

/-- Settles O12: the results of the additions and subtractions, on decimal digits, are those the tables adjust. -/
theorem decimalAdjustCorrectsDecimalSums : Obligations.DecimalAdjustCorrectsDecimalSums := by
  unfold Obligations.DecimalAdjustCorrectsDecimalSums
  intro s x y rd hx
  obtain ⟨addBImm, addBReg, -, -, -, -, addxImm, addxReg⟩ := addResults s
  obtain ⟨subBReg, -, -, -, -, subxImm, subxReg, -⟩ := subtractAndCompareResults s
  refine ⟨?addImm, ?addxImm, ?subxImm, fun rs hy => ⟨?addReg, ?addxReg, ?subReg, ?subxReg⟩⟩
  case addImm => exact (givesDecimal_sum hx rfl (addBImm _ _) rfl rfl :)
  case addxImm => exact givesDecimal_sum hx rfl (addxImm _ _) rfl rfl
  case subxImm => exact givesDecimal_difference hx rfl (subxImm _ _) rfl rfl
  case addReg => exact (givesDecimal_sum hx hy (addBReg _ _) rfl rfl :)
  case addxReg => exact givesDecimal_sum hx hy (addxReg _ _) rfl rfl
  case subReg => exact (givesDecimal_difference hx hy (subBReg _ _) rfl rfl :)
  case subxReg => exact givesDecimal_difference hx hy (subxReg _ _) rfl rfl

/-! ### Multiplication -/

/-- The product of a source and the low half of a destination, of numbers and of bit vectors. -/
theorem unsigned_product {n m : Nat} (a : BitVec n) (b : BitVec m) (h : n ≤ m) (k : Nat) :
    BitVec.ofNat k (a.toNat * (b.extractLsb' 0 n).toNat) = a.zeroExtend k * (b.setWidth n).zeroExtend k := by
  rw [BitVec.setWidth_eq_extractLsb' h, BitVec.ofNat_mul, BitVec.ofNat_toNat, BitVec.ofNat_toNat]

theorem signed_product {n m : Nat} (a : BitVec n) (b : BitVec m) (h : n ≤ m) (k : Nat) :
    BitVec.ofInt k (a.toInt * (b.extractLsb' 0 n).toInt) = a.signExtend k * (b.setWidth n).signExtend k := by
  rw [BitVec.setWidth_eq_extractLsb' h, BitVec.ofInt_mul, BitVec.signExtend, BitVec.signExtend]

/-- Settles O13: a product of the source and the destination's low half, without or with N and Z. -/
theorem multiplyResults : Obligations.MultiplyResults := by
  unfold Obligations.MultiplyResults
  intro s
  refine ⟨fun rs rd => ?mulxuB, fun rs rd => ?mulxuW, fun rs rd => ?mulxsB, fun rs rd => ?mulxsW⟩
  case mulxuB =>
    rw [← unsigned_product (s.readB rs) (s.readW rd) (by decide)]
    exact putW_result rfl (flagsOnly_noFlags _ _)
  case mulxuW =>
    rw [← unsigned_product (s.readW rs) (s.readL rd) (by decide)]
    exact putL_result rfl (flagsOnly_noFlags _ _)
  case mulxsB =>
    rw [← signed_product (s.readB rs) (s.readW rd) (by decide)]
    exact putW_result rfl (flagsOnly_nzFlags _ _)
  case mulxsW =>
    rw [← signed_product (s.readW rs) (s.readL rd) (by decide)]
    exact putL_result rfl (flagsOnly_nzFlags _ _)

/-! ### Division -/

theorem divUnsigned_fits {w n m : Nat} {dd : BitVec n} {dv : BitVec m} (h0 : dv ≠ 0)
    (hq : dd.toNat / dv.toNat < 2 ^ w) :
    divUnsigned w dd.toNat dv.toNat =
      some (BitVec.ofNat w (dd.toNat % dv.toNat), BitVec.ofNat w (dd.toNat / dv.toNat)) :=
  if_neg (not_or.2 ⟨mt (BitVec.toNat_inj (y := 0#m)).1 h0, Nat.not_le.2 hq⟩)

theorem divUnsigned_free {w n m : Nat} {dd : BitVec n} {dv : BitVec m} (h : dv = 0 ∨ 2 ^ w ≤ dd.toNat / dv.toNat) :
    divUnsigned w dd.toNat dv.toNat = none :=
  if_pos (h.imp_left fun h0 => (BitVec.toNat_inj (y := 0#m)).2 h0)

theorem toInt_eq_zero {w : Nat} {v : BitVec w} : v.toInt = 0 ↔ v = 0 := by
  rw [← BitVec.toInt_zero (w := w)]
  exact BitVec.toInt_inj

/-- The zero test of a divisor is that of its value. -/
theorem toInt_beq_zero {w : Nat} (v : BitVec w) : (v.toInt == 0) = (v == 0) := by
  rw [Bool.eq_iff_iff, beq_iff_eq, beq_iff_eq, toInt_eq_zero]

theorem divSigned_fits {w n m : Nat} {dd : BitVec n} {dv : BitVec m} (h0 : dv ≠ 0)
    (hq : fitsSigned w (dd.toInt.tdiv dv.toInt)) :
    divSigned w dd.toInt dv.toInt =
      some (BitVec.ofInt w (dd.toInt.tmod dv.toInt), BitVec.ofInt w (dd.toInt.tdiv dv.toInt)) := by
  obtain ⟨hmin, hmax⟩ := hq
  have hfits : ¬(dv.toInt = 0 ∨ dd.toInt.tdiv dv.toInt < -2 ^ (w - 1) ∨ 2 ^ (w - 1) ≤ dd.toInt.tdiv dv.toInt) := by
    rintro (hzero | hlow | hhigh)
    · exact h0 (toInt_eq_zero.1 hzero)
    · exact absurd hmin (Int.not_le.2 hlow)
    · exact absurd hmax (Int.not_lt.2 hhigh)
  unfold divSigned
  rw [if_neg hfits, Int.tmod_def, Int.mul_comm dv.toInt]

theorem divSigned_free {w n m : Nat} {dd : BitVec n} {dv : BitVec m}
    (h : dv = 0 ∨ ¬fitsSigned w (dd.toInt.tdiv dv.toInt)) : divSigned w dd.toInt dv.toInt = none := by
  refine if_pos (h.imp toInt_eq_zero.2 fun hq => ?_)
  unfold fitsSigned at hq
  omega

/-- What a division puts in its destination: the remainder above the quotient, or a free value (41_arithmetic.md R544 to
R547). -/
def State.divValue (s : State) {w : Nat} : Option (BitVec w × BitVec w) → BitVec (w + w)
  | none => Config.draw (w + w) .divResult s.epoch
  | some (m, q) => m ++ q

/-- N after a signed division: a free value where it has no result (41_arithmetic.md R546, R547). -/
def State.divSign (s : State) {w : Nat} (dd dv : Int) : Option (BitVec w × BitVec w) → Bool
  | none => s.drawBit .divN
  | some _ => s.divNegative dd dv

/-- N and Z as given, by name. -/
def nzVal (n z : Bool) : Flag → Bool
  | .n => n
  | .z => z
  | .h | .v | .c | .i | .ui | .u => false

theorem divNegative_eq {s : State} {dd dv : Int} (h : dd.tdiv dv ≠ 0 ∨ (dd < 0 ↔ dv < 0)) :
    s.divNegative dd dv = decide (dd.tdiv dv < 0) := by
  refine if_neg fun ⟨hq, hsign⟩ => ?_
  rw [Ne, decide_eq_decide] at hsign
  exact h.elim (fun hq' => hq' hq) hsign

/-- N and Z written, then a word register. -/
theorem setNZ_writeW_result {x : Instr} {s : State} {len : Nat} {rd : BitVec 4} {v : Word} {n z : Bool}
    {val : Flag → Bool} (hx : exec x s = .next (((s.setNZ n z).writeW rd v).advance len)) (hn : val .n = n)
    (hz : val .z = z) : ResultW x s len rd v [.n, .z] val :=
  putW_result (upd := fun u => u.setNZ n z) hx (flagsOnly_setNZ _ n z val hn hz)

/-- N and Z written, then a long register. -/
theorem setNZ_writeL_result {x : Instr} {s : State} {len : Nat} {rd : BitVec 3} {v : Long} {n z : Bool}
    {val : Flag → Bool} (hx : exec x s = .next (((s.setNZ n z).writeL rd v).advance len)) (hn : val .n = n)
    (hz : val .z = z) : ResultL x s len rd v [.n, .z] val :=
  putL_result (upd := fun u => u.setNZ n z) hx (flagsOnly_setNZ _ n z val hn hz)

/-- DIVXU.B on every operand. -/
theorem divxuB_result (s : State) (rs rd : BitVec 4) :
    ResultW (.divxuB rs rd) s 2 rd (s.divValue (divUnsigned 8 (s.readW rd).toNat (s.readB rs).toNat)) [.n, .z]
      (nz0 (s.readB rs)) := by
  refine setNZ_writeW_result (n := (s.readB rs).msb) (z := s.readB rs == 0) ?_ rfl rfl
  show execDivxuB rs rd s = _
  unfold execDivxuB
  dsimp only
  cases divUnsigned 8 (s.readW rd).toNat (s.readB rs).toNat <;> rfl

/-- DIVXU.W on every operand. -/
theorem divxuW_result (s : State) (rs : BitVec 4) (rd : BitVec 3) :
    ResultL (.divxuW rs rd) s 2 rd (s.divValue (divUnsigned 16 (s.readL rd).toNat (s.readW rs).toNat)) [.n, .z]
      (nz0 (s.readW rs)) := by
  refine setNZ_writeL_result (n := (s.readW rs).msb) (z := s.readW rs == 0) ?_ rfl rfl
  show execDivxuW rs rd s = _
  unfold execDivxuW
  dsimp only
  cases divUnsigned 16 (s.readL rd).toNat (s.readW rs).toNat <;> rfl

/-- DIVXS.B on every operand. -/
theorem divxsB_result (s : State) (rs rd : BitVec 4) :
    ResultW (.divxsB rs rd) s 4 rd (s.divValue (divSigned 8 (s.readW rd).toInt (s.readB rs).toInt)) [.n, .z]
      (nzVal (s.divSign (s.readW rd).toInt (s.readB rs).toInt (divSigned 8 (s.readW rd).toInt (s.readB rs).toInt))
        (s.readB rs == 0)) := by
  refine setNZ_writeW_result (z := (s.readB rs).toInt == 0) ?_ rfl (toInt_beq_zero _).symm
  show execDivxsB rs rd s = _
  unfold execDivxsB
  dsimp only
  cases divSigned 8 (s.readW rd).toInt (s.readB rs).toInt <;> rfl

/-- DIVXS.W on every operand. -/
theorem divxsW_result (s : State) (rs : BitVec 4) (rd : BitVec 3) :
    ResultL (.divxsW rs rd) s 4 rd (s.divValue (divSigned 16 (s.readL rd).toInt (s.readW rs).toInt)) [.n, .z]
      (nzVal (s.divSign (s.readL rd).toInt (s.readW rs).toInt (divSigned 16 (s.readL rd).toInt (s.readW rs).toInt))
        (s.readW rs == 0)) := by
  refine setNZ_writeL_result (z := (s.readW rs).toInt == 0) ?_ rfl (toInt_beq_zero _).symm
  show execDivxsW rs rd s = _
  unfold execDivxsW
  dsimp only
  cases divSigned 16 (s.readL rd).toInt (s.readW rs).toInt <;> rfl

theorem Ends.imp {x : Instr} {s : State} {P Q : State → Prop} (h : Ends x s P) (hpq : ∀ t, P t → Q t) :
    Ends x s Q := by
  obtain ⟨t, ht, hp⟩ := h
  exact ⟨t, ht, hpq t hp⟩

/-- N and Z of a signed division that fits: Z is 0, and N is the quotient's sign unless that is free. -/
theorem signedFlags_fits {t s : State} {w n m : Nat} {dd : BitVec n} {dv : BitVec m} {p : BitVec w × BitVec w}
    (h0 : dv ≠ 0) (h : HasFlags t [.n, .z] (nzVal (s.divSign dd.toInt dv.toInt (some p)) (dv == 0))) :
    t.flag .z = false ∧ (dd.toInt.tdiv dv.toInt ≠ 0 ∨ (dd.toInt < 0 ↔ dv.toInt < 0) →
      t.flag .n = decide (dd.toInt.tdiv dv.toInt < 0)) :=
  ⟨(h .z (by simp)).trans (beq_eq_false_iff_ne.2 h0), fun hn => (h .n (by simp)).trans (divNegative_eq hn)⟩

/-- Settles O14: each division on every operand, with the result its quotient's fit decides. -/
theorem divideResults : Obligations.DivideResults := by
  unfold Obligations.DivideResults
  refine fun s => ⟨fun rs rd => ⟨fun h0 hq => ?_, fun _ => ?_⟩, fun rs rd => ⟨fun h0 hq => ?_, fun _ => ?_⟩,
    fun rs rd => ⟨fun h0 hq => ?_, fun _ => ?_⟩, fun rs rd => ⟨fun h0 hq => ?_, fun _ => ?_⟩⟩
  · have hx := divxuB_result s rs rd
    rwa [divUnsigned_fits h0 hq] at hx
  · exact (divxuB_result s rs rd).imp fun _ => And.right
  · have hx := divxuW_result s rs rd
    rwa [divUnsigned_fits h0 hq] at hx
  · exact (divxuW_result s rs rd).imp fun _ => And.right
  · have hx := divxsB_result s rs rd
    rw [divSigned_fits h0 hq] at hx
    exact hx.imp fun _ ⟨hval, hflags, hrest⟩ => ⟨hval, and_assoc.1 ⟨signedFlags_fits h0 hflags, hrest⟩⟩
  · exact (divxsB_result s rs rd).imp fun _ ⟨_, hflags, hrest⟩ => ⟨hflags .z (by simp), hrest⟩
  · have hx := divxsW_result s rs rd
    rw [divSigned_fits h0 hq] at hx
    exact hx.imp fun _ ⟨hval, hflags, hrest⟩ => ⟨hval, and_assoc.1 ⟨signedFlags_fits h0 hflags, hrest⟩⟩
  · exact (divxsW_result s rs rd).imp fun _ ⟨_, hflags, hrest⟩ => ⟨hflags .z (by simp), hrest⟩

/-! ### TAS -/

/-- Settles O15: the store of a byte read before, through a mode that steps no register. -/
theorem testAndSetResult : Obligations.TestAndSetResult := by
  unfold Obligations.TestAndSetResult
  intro s ra hw hr hm
  obtain ⟨t, ht, hheld, hflags, hpc, -, hframe⟩ := tas_result hw hr hm
  exact ⟨t, ht, hheld, hflags, hpc, hframe⟩

end Sys2Proof.Machine
end

section
/-!
PROOFS. AND, OR, XOR and NOT (42_logic.md R600 to R612).
-/

namespace Sys2Proof.Machine

/-- Settles O6: each form moves its bitwise result to a register, as MOV moves a value. -/
theorem logicResults : Obligations.LogicResults := by
  unfold Obligations.LogicResults
  intro s
  refine ⟨?andBImm, ?andBReg, ?andWImm, ?andWReg, ?andLImm, ?andLReg, ?orBImm, ?orBReg, ?orWImm, ?orWReg, ?orLImm,
    ?orLReg, ?xorBImm, ?xorBReg, ?xorWImm, ?xorWReg, ?xorLImm, ?xorLReg, ?notB, ?notW, ?notL⟩
  case andBImm | andBReg | orBImm | orBReg | xorBImm | xorBReg => exact fun _ _ => moveB_result rfl
  case andWImm | andWReg | orWImm | orWReg | xorWImm | xorWReg => exact fun _ _ => moveW_result rfl
  case andLImm | andLReg | orLImm | orLReg | xorLImm | xorLReg => exact fun _ _ => moveL_result rfl
  case notB => exact fun _ => moveB_result rfl
  case notW => exact fun _ => moveW_result rfl
  case notL => exact fun _ => moveL_result rfl

end Sys2Proof.Machine
end

section
/-!
PROOFS. The shifts and rotates (43_shift_rotate.md R700, R701, R710 to R717): the model's core moves one bit a step, the
statements move all bits at once; the two meet after every number of steps below the width.
-/

namespace Sys2Proof.Machine

/-! ### One step, bit by bit -/

theorem shiftState_ext {w : Nat} {a b : ShiftState w} (hval : a.val = b.val) (hc : a.c = b.c) (hv : a.v = b.v) :
    a = b := by
  cases a
  cases b
  simp_all only

theorem shiftSteps_succ {w : Nat} (op : ShiftOp) (k : Nat) (st : ShiftState w) :
    shiftSteps op (k + 1) st = shiftStep op (shiftSteps op k st) := by
  induction k generalizing st with
  | zero => rfl
  | succ k ih => exact ih (shiftStep op st)

/-- The bit one step moves in (43_shift_rotate.md R701). -/
def ShiftState.incoming {w : Nat} (op : ShiftOp) (st : ShiftState w) : Bool :=
  op.fill st.val.msb (st.val.getLsbD 0) st.c

/-- A step toward the top puts each bit one place up. -/
theorem getLsbD_shiftStep_left {w i : Nat} {op : ShiftOp} (h : op.left = true) (st : ShiftState w) (hi : i < w) :
    (shiftStep op st).val.getLsbD i = if i = 0 then st.incoming op else st.val.getLsbD (i - 1) := by
  have hval : (shiftStep op st).val = (st.val <<< 1) ||| (if st.incoming op then 1#w else 0#w) := by
    unfold shiftStep
    rw [if_pos h]
    rfl
  rw [hval, BitVec.getLsbD_or, BitVec.getLsbD_shiftLeft, apply_ite (BitVec.getLsbD · i), BitVec.getLsbD_one,
    BitVec.getLsbD_zero]
  grind

/-- A step toward the bottom puts each bit one place down. -/
theorem getLsbD_shiftStep_right {w i : Nat} {op : ShiftOp} (h : op.left = false) (st : ShiftState w) (hi : i < w) :
    (shiftStep op st).val.getLsbD i = if i + 1 < w then st.val.getLsbD (i + 1) else st.incoming op := by
  have hval : (shiftStep op st).val =
      (st.val >>> 1) ||| (if st.incoming op then BitVec.twoPow w (w - 1) else 0#w) := by
    unfold shiftStep
    rw [if_neg (by simp [h])]
    rfl
  rw [hval, BitVec.getLsbD_or, BitVec.getLsbD_ushiftRight, apply_ite (BitVec.getLsbD · i), BitVec.getLsbD_twoPow,
    BitVec.getLsbD_zero]
  grind

theorem shiftStep_c {w : Nat} (op : ShiftOp) (st : ShiftState w) :
    (shiftStep op st).c = if op.left then st.val.msb else st.val.getLsbD 0 := by
  cases h : op.left <;> simp [shiftStep, h]

theorem shiftStep_v {w : Nat} (op : ShiftOp) (st : ShiftState w) :
    (shiftStep op st).v = (st.v || (op == .shal && st.val.msb != (shiftStep op st).val.msb)) := by
  cases op <;> simp [shiftStep, ShiftOp.left]

/-! ### The bulk shift, bit by bit -/

/-- The bit that the step after `j` others moves in, from the value and C before the first: a rotate moves in what it
moved out, at once or through C one step later (43_shift_rotate.md R701). -/
def movedIn {w : Nat} (op : ShiftOp) (v : BitVec w) (c : Bool) (j : Nat) : Bool :=
  match op with
  | .shal | .shll | .shlr => false
  | .shar => v.msb
  | .rotl => v.getLsbD (w - 1 - j)
  | .rotr => v.getLsbD j
  | .rotxl => if j = 0 then c else v.getLsbD (w - j)
  | .rotxr => if j = 0 then c else v.getLsbD (j - 1)

/-- Toward the top each bit is `k` places up, and below it are the bits moved in, the last at the bottom. -/
theorem getLsbD_shifted_left {w k i : Nat} {op : ShiftOp} (h : op.left = true) (v : BitVec w) (c : Bool) (hk : k < w)
    (hi : i < w) :
    (shifted op k v c).getLsbD i = if i < k then movedIn op v c (k - 1 - i) else v.getLsbD (i - k) := by
  have hmod : k % w = k := Nat.mod_eq_of_lt hk
  have hmod' : k % (w + 1) = k := Nat.mod_eq_of_lt (by omega)
  cases op
  case shal | shll =>
    rw [shifted, BitVec.getLsbD_shiftLeft]
    grind [movedIn]
  case rotl =>
    rw [shifted, BitVec.getLsbD_rotateLeft, hmod]
    grind [movedIn]
  case rotxl =>
    rw [shifted, BitVec.getLsbD_extractLsb', BitVec.getLsbD_rotateLeft, hmod', withCarry, BitVec.getLsbD_cons,
      BitVec.getLsbD_cons]
    grind [movedIn]
  all_goals exact absurd h (by decide)

/-- Toward the bottom each bit is `k` places down, and above it are the bits moved in, the last at the top. -/
theorem getLsbD_shifted_right {w k i : Nat} {op : ShiftOp} (h : op.left = false) (v : BitVec w) (c : Bool) (hk : k < w)
    (hi : i < w) :
    (shifted op k v c).getLsbD i = if i + k < w then v.getLsbD (i + k) else movedIn op v c (i + k - w) := by
  have hmod : k % w = k := Nat.mod_eq_of_lt hk
  have hmod' : k % (w + 1) = k := Nat.mod_eq_of_lt (by omega)
  cases op
  case shlr =>
    rw [shifted, BitVec.getLsbD_ushiftRight]
    grind [movedIn]
  case shar =>
    rw [shifted, BitVec.getLsbD_sshiftRight]
    grind [movedIn]
  case rotr =>
    rw [shifted, BitVec.getLsbD_rotateRight, hmod]
    grind [movedIn]
  case rotxr =>
    rw [shifted, BitVec.getLsbD_extractLsb', BitVec.getLsbD_rotateRight, hmod', withCarry, BitVec.getLsbD_cons,
      BitVec.getLsbD_cons]
    grind [movedIn]
  all_goals exact absurd h (by decide)

theorem shifted_zero {w : Nat} (hw : 0 < w) (op : ShiftOp) (v : BitVec w) (c : Bool) : shifted op 0 v c = v := by
  refine BitVec.eq_of_getLsbD_eq fun i hi => ?_
  cases h : op.left
  · rw [getLsbD_shifted_right h v c hw hi, Nat.add_zero, if_pos hi]
  · rw [getLsbD_shifted_left h v c hw hi, if_neg (Nat.not_lt_zero i), Nat.sub_zero]

/-! ### V: the doubled number leaves the signed range -/

theorem shiftOverflows_zero {w : Nat} (op : ShiftOp) (v : BitVec w) : shiftOverflows op 0 v = false := by
  have hlo := v.le_toInt
  have hhi := v.toInt_lt
  cases op <;> simp [shiftOverflows, hlo, hhi]

theorem toInt_twoPow_of_lt {w k : Nat} (hk : k + 1 < w) : (BitVec.twoPow w k).toInt = 2 ^ k := by
  rw [BitVec.toInt_twoPow, if_neg (by omega), if_neg (by omega)]

theorem shiftOverflows_shal {w k : Nat} (hk : k + 1 < w) (v : BitVec w) :
    shiftOverflows .shal k v = v.smulOverflow (BitVec.twoPow w k) := by
  simp only [shiftOverflows, BitVec.smulOverflow, toInt_twoPow_of_lt hk]
  grind

theorem toInt_shiftLeft_of_fits {w k : Nat} (hk : k + 1 < w) {v : BitVec w} (h : shiftOverflows .shal k v = false) :
    (v <<< k).toInt = v.toInt * 2 ^ k := by
  rw [shiftOverflows_shal hk] at h
  rw [BitVec.shiftLeft_eq_mul_twoPow, BitVec.toInt_mul_of_not_smulOverflow (by simp [h]),
    toInt_twoPow_of_lt hk]

/-- Doubling a number changes its sign exactly where the double leaves the signed range. -/
theorem msb_bne_msb_shiftLeft_one {w : Nat} (u : BitVec w) : (u.msb != (u <<< 1).msb) = u.saddOverflow u := by
  have hdouble : u <<< 1 = u + u := by
    refine BitVec.eq_of_toNat_eq ?_
    rw [BitVec.toNat_shiftLeft, BitVec.toNat_add, Nat.shiftLeft_eq, pow_one, mul_two]
  rw [BitVec.saddOverflow_eq, hdouble]
  cases u.msb <;> cases (u + u).msb <;> rfl

/-- V so far, with the sign change of one more step: while the doubled number still fits, it is the value to double;
once it has left the signed range, doubling does not bring it back. -/
theorem shiftOverflows_succ {w k : Nat} (hk : k + 1 < w) (op : ShiftOp) (v : BitVec w) (c : Bool) :
    (shiftOverflows op k v || (op == .shal && (shifted op k v c).msb != (shifted op (k + 1) v c).msb)) =
      shiftOverflows op (k + 1) v := by
  cases op
  case shal =>
    show (_ || (v <<< k).msb != (v <<< (k + 1)).msb) = _
    rw [BitVec.shiftLeft_add, msb_bne_msb_shiftLeft_one]
    cases h : shiftOverflows .shal k v
    · rw [BitVec.saddOverflow, toInt_shiftLeft_of_fits hk h]
      simp only [shiftOverflows, pow_succ]
      grind
    · simp only [shiftOverflows, pow_succ, decide_eq_true_eq] at h ⊢
      have hpos : (0 : Int) < 2 ^ (w - 1) := by positivity
      grind
  all_goals rfl

/-! ### The steps and the bulk shift -/

/-- The state after `k` steps: C is the old one as long as nothing has moved out. -/
def shiftedState {w : Nat} (op : ShiftOp) (k : Nat) (v : BitVec w) (c : Bool) : ShiftState w :=
  { val := shifted op k v c
    c := if k = 0 then c else shiftedOut op k v
    v := shiftOverflows op k v }

theorem incoming_shiftedState {w k : Nat} (hk : k < w) (op : ShiftOp) (v : BitVec w) (c : Bool) :
    (shiftedState op k v c).incoming op = movedIn op v c k := by
  cases op
  case shal | shll | shlr => rfl
  case rotxl | rotxr => rfl
  case rotl =>
    show (shifted .rotl k v c).msb = _
    rw [BitVec.msb_eq_getLsbD_last, getLsbD_shifted_left rfl v c hk (by omega)]
    grind [movedIn]
  case shar =>
    show (shifted .shar k v c).msb = _
    rw [BitVec.msb_eq_getLsbD_last, getLsbD_shifted_right rfl v c hk (by omega)]
    grind [movedIn]
  case rotr =>
    show (shifted .rotr k v c).getLsbD 0 = _
    rw [getLsbD_shifted_right rfl v c hk (by omega)]
    grind [movedIn]

theorem shiftStep_shiftedState_val {w k : Nat} (hk : k + 1 < w) (op : ShiftOp) (v : BitVec w) (c : Bool) :
    (shiftStep op (shiftedState op k v c)).val = shifted op (k + 1) v c := by
  refine BitVec.eq_of_getLsbD_eq fun i hi => ?_
  cases h : op.left
  · rw [getLsbD_shiftStep_right h _ hi, incoming_shiftedState (by omega), getLsbD_shifted_right h v c hk hi]
    have hbit (hj : i + 1 < w) := getLsbD_shifted_right h v c (show k < w by omega) hj
    grind [shiftedState]
  · rw [getLsbD_shiftStep_left h _ hi, incoming_shiftedState (by omega), getLsbD_shifted_left h v c hk hi]
    have hbit := getLsbD_shifted_left h v c (show k < w by omega) (show i - 1 < w by omega)
    grind [shiftedState]

/-- The next bit to move out is at the end the bits move to. -/
theorem shiftedOut_succ {w : Nat} (op : ShiftOp) (k : Nat) (v : BitVec w) :
    shiftedOut op (k + 1) v = if op.left then v.getLsbD (w - 1 - k) else v.getLsbD k := by
  cases op <;> simp [shiftedOut, ShiftOp.left, Nat.sub_sub, Nat.add_comm]

theorem shiftStep_shiftedState_c {w k : Nat} (hk : k + 1 < w) (op : ShiftOp) (v : BitVec w) (c : Bool) :
    (shiftStep op (shiftedState op k v c)).c = shiftedOut op (k + 1) v := by
  rw [shiftStep_c, shiftedOut_succ]
  cases h : op.left
  · show (shifted op k v c).getLsbD 0 = v.getLsbD k
    rw [getLsbD_shifted_right h v c (by omega) (by omega), if_pos (by omega), Nat.zero_add]
  · show (shifted op k v c).msb = v.getLsbD (w - 1 - k)
    rw [BitVec.msb_eq_getLsbD_last, getLsbD_shifted_left h v c (by omega) (by omega), if_neg (by omega)]

theorem shiftStep_shiftedState {w k : Nat} (hk : k + 1 < w) (op : ShiftOp) (v : BitVec w) (c : Bool) :
    shiftStep op (shiftedState op k v c) = shiftedState op (k + 1) v c := by
  have hval := shiftStep_shiftedState_val hk op v c
  have hv := shiftStep_v op (shiftedState op k v c)
  rw [hval] at hv
  exact shiftState_ext hval (shiftStep_shiftedState_c hk op v c) (hv.trans (shiftOverflows_succ hk op v c))

/-- `k` steps are one bulk shift by `k` (43_shift_rotate.md R700). -/
theorem shiftCore_eq {w k : Nat} (hk : k < w) (op : ShiftOp) (v : BitVec w) (c : Bool) :
    shiftCore op k v c = shiftedState op k v c := by
  induction k with
  | zero => simp [shiftCore, shiftSteps, shiftedState, shifted_zero hk, shiftOverflows_zero]
  | succ k ih =>
    calc shiftCore op (k + 1) v c = shiftStep op (shiftCore op k v c) := shiftSteps_succ op k _
      _ = shiftStep op (shiftedState op k v c) := by rw [ih (by omega)]
      _ = shiftedState op (k + 1) v c := shiftStep_shiftedState hk op v c

theorem shiftVal_shiftedState {w k : Nat} (h0 : 0 < k) (op : ShiftOp) (v : BitVec w) (c : Bool) :
    shiftVal (shiftedState op k v c) = shiftedFlags op k v c := by
  funext f
  cases f
  case c => exact if_neg (by omega)
  all_goals rfl

/-- The flags a shift by `k` bits writes are those of the bulk shift. -/
theorem flagsOnly_shiftCore {w k : Nat} (h0 : 0 < k) (hk : k < w) (op : ShiftOp) (v : BitVec w) (c : Bool) (t : State) :
    FlagsOnly t (shiftFlags (shiftCore op k v c) t) [.n, .z, .v, .c] (shiftedFlags op k v c) := by
  rw [shiftCore_eq hk, ← shiftVal_shiftedState h0]
  exact flagsOnly_shiftFlags t _

theorem shiftCore_val {w k : Nat} (hk : k < w) (op : ShiftOp) (v : BitVec w) (c : Bool) :
    (shiftCore op k v c).val = shifted op k v c := by rw [shiftCore_eq hk]; rfl

/-! ### The statements -/

theorem shiftB_result {x : Instr} {s : State} {op : ShiftOp} {k : Nat} {rd : BitVec 4}
    (hx : exec x s = shiftB op k rd s) (h0 : 0 < k) (hk : k < 8) : ShiftsB x s op k rd := by
  rw [ShiftsB, ← shiftCore_val hk]
  exact putB_result hx (flagsOnly_shiftCore h0 hk op _ _ _)

theorem shiftW_result {x : Instr} {s : State} {op : ShiftOp} {k : Nat} {rd : BitVec 4}
    (hx : exec x s = shiftW op k rd s) (h0 : 0 < k) (hk : k < 16) : ShiftsW x s op k rd := by
  rw [ShiftsW, ← shiftCore_val hk]
  exact putW_result hx (flagsOnly_shiftCore h0 hk op _ _ _)

theorem shiftL_result {x : Instr} {s : State} {op : ShiftOp} {k : Nat} {rd : BitVec 3}
    (hx : exec x s = shiftL op k rd s) (h0 : 0 < k) (hk : k < 32) : ShiftsL x s op k rd := by
  rw [ShiftsL, ← shiftCore_val hk]
  exact putL_result hx (flagsOnly_shiftCore h0 hk op _ _ _)

/-- Settles O16: each form moves one bit by one or two steps, which are the bulk shift. -/
theorem shiftByteResults : Obligations.ShiftByteResults := by
  unfold Obligations.ShiftByteResults
  intro s
  and_intros
  all_goals exact fun _ => shiftB_result rfl (by decide) (by decide)

/-- Settles O17: as for a byte register, at the widths 16 and 32. -/
theorem shiftWideResults : Obligations.ShiftWideResults := by
  unfold Obligations.ShiftWideResults
  intro s
  refine ⟨?shllW, ?shllW2, ?shalW, ?shalW2, ?shlrW, ?shlrW2, ?sharW, ?sharW2, ?rotxlW, ?rotxlW2, ?rotlW, ?rotlW2,
    ?rotxrW, ?rotxrW2, ?rotrW, ?rotrW2, ?shllL, ?shllL2, ?shalL, ?shalL2, ?shlrL, ?shlrL2, ?sharL, ?sharL2, ?rotxlL,
    ?rotxlL2, ?rotlL, ?rotlL2, ?rotxrL, ?rotxrL2, ?rotrL, ?rotrL2⟩
  case shllW | shllW2 | shalW | shalW2 | shlrW | shlrW2 | sharW | sharW2 | rotxlW | rotxlW2 | rotlW | rotlW2 |
    rotxrW | rotxrW2 | rotrW | rotrW2 =>
    exact fun _ => shiftW_result rfl (by decide) (by decide)
  case shllL | shllL2 | shalL | shalL2 | shlrL | shlrL2 | sharL | sharL2 | rotxlL | rotxlL2 | rotlL | rotlL2 |
    rotxrL | rotxrL2 | rotrL | rotrL2 =>
    exact fun _ => shiftL_result rfl (by decide) (by decide)

end Sys2Proof.Machine
end

section
/-!
PROOFS. The bit instructions (44_bit_manipulation.md R800, R801, R810 to R823): the statements name the changed byte by a
mask, the model replaces one bit.
-/

namespace Sys2Proof.Machine

/-! ### The addressed bit -/

/-- The low 3 bits of a register are its value modulo 8 (44_bit_manipulation.md R800). -/
theorem bitNumber_toNat (s : State) (rn : BitVec 4) : (s.bitNumber rn).toNat = s.bitIndex rn := by
  simp [State.bitNumber, State.bitIndex, BitVec.extractLsb'_toNat]

theorem getLsbD_bitMask {k : Nat} (hk : k < 8) (j : Nat) : (1#8 <<< k).getLsbD j = decide (j = k) := by
  rw [← BitVec.twoPow_eq, BitVec.getLsbD_twoPow, decide_eq_true hk, Bool.true_and, decide_eq_decide]
  exact eq_comm

/-- Replacing a bit is told from any other spelling of it bit by bit. -/
theorem putBit_eq_of_getLsbD {b v : Byte} {k : Nat} {x : Bool} (hk : k < 8)
    (h : ∀ j < 8, v.getLsbD j = if j = k then x else b.getLsbD j) : putBit b k x = v :=
  BitVec.eq_of_getLsbD_eq fun j hj => (getLsbD_putBit b hk x j).trans (h j hj).symm

theorem putBit_true {k : Nat} (hk : k < 8) (b : Byte) : putBit b k true = bitSet b k :=
  putBit_eq_of_getLsbD hk fun j _ => by
    rw [bitSet, BitVec.getLsbD_or, getLsbD_bitMask hk]
    by_cases h : j = k <;> simp [h]

theorem putBit_false {k : Nat} (hk : k < 8) (b : Byte) : putBit b k false = bitCleared b k :=
  putBit_eq_of_getLsbD hk fun j hj => by
    rw [bitCleared, BitVec.getLsbD_and, BitVec.getLsbD_not, getLsbD_bitMask hk]
    by_cases h : j = k <;> simp [h, hj]

theorem putBit_not {k : Nat} (hk : k < 8) (b : Byte) : putBit b k (!b.getLsbD k) = bitInverted b k :=
  putBit_eq_of_getLsbD hk fun j _ => by
    rw [bitInverted, BitVec.getLsbD_xor, getLsbD_bitMask hk]
    by_cases h : j = k <;> simp [h]

theorem putBit_stored {k : Nat} (hk : k < 8) (b : Byte) (x : Bool) : putBit b k x = bitStored b k x := by
  cases x with
  | false => exact putBit_false hk b
  | true => exact putBit_true hk b

/-! ### The modifying instructions by their masks -/

section
variable (s : State) (tgt : BitTarget) (bit : BitVec 3) (rn : BitVec 4)

theorem exec_bsetImm : exec (.bsetImm bit tgt) s = bitModify tgt (fun b => bitSet b bit.toNat) s :=
  congrArg (bitModify tgt · s) (funext (putBit_true bit.isLt))

theorem exec_bclrImm : exec (.bclrImm bit tgt) s = bitModify tgt (fun b => bitCleared b bit.toNat) s :=
  congrArg (bitModify tgt · s) (funext (putBit_false bit.isLt))

theorem exec_bnotImm : exec (.bnotImm bit tgt) s = bitModify tgt (fun b => bitInverted b bit.toNat) s :=
  congrArg (bitModify tgt · s) (funext (putBit_not bit.isLt))

theorem exec_bsetRn : exec (.bsetRn rn tgt) s = bitModify tgt (fun b => bitSet b (s.bitIndex rn)) s :=
  bitNumber_toNat s rn ▸ exec_bsetImm s tgt (s.bitNumber rn)

theorem exec_bclrRn : exec (.bclrRn rn tgt) s = bitModify tgt (fun b => bitCleared b (s.bitIndex rn)) s :=
  bitNumber_toNat s rn ▸ exec_bclrImm s tgt (s.bitNumber rn)

theorem exec_bnotRn : exec (.bnotRn rn tgt) s = bitModify tgt (fun b => bitInverted b (s.bitIndex rn)) s :=
  bitNumber_toNat s rn ▸ exec_bnotImm s tgt (s.bitNumber rn)

theorem exec_bst : exec (.bst bit tgt) s = bitModify tgt (fun b => bitStored b bit.toNat (s.flag .c)) s :=
  congrArg (bitModify tgt · s) (funext fun b => putBit_stored bit.isLt b _)

theorem exec_bist : exec (.bist bit tgt) s = bitModify tgt (fun b => bitStored b bit.toNat (!s.flag .c)) s :=
  congrArg (bitModify tgt · s) (funext fun b => putBit_stored bit.isLt b _)

end

/-! ### The testing instructions whose meaning the statements say otherwise -/

theorem exec_btstRn (s : State) (tgt : BitTarget) (rn : BitVec 4) :
    exec (.btstRn rn tgt) s = bitTest tgt .z (fun b => !b.getLsbD (s.bitIndex rn)) s :=
  bitNumber_toNat s rn ▸ (rfl : exec (.btstRn rn tgt) s = execBtstRn rn tgt s)

/-- BIXOR sets C where C and the bit agree (44_bit_manipulation.md R823). -/
theorem exec_bixor (s : State) (tgt : BitTarget) (bit : BitVec 3) :
    exec (.bixor bit tgt) s = bitTest tgt .c (fun b => s.flag .c == b.getLsbD bit.toNat) s :=
  congrArg (bitTest tgt .c · s) (funext fun b =>
    (Bool.xor_not (s.flag .c) (b.getLsbD bit.toNat)).trans (Bool.not_not _))

/-! ### The statements -/

/-- Settles O18: each form reads the register and writes it back with the byte its mask gives. -/
theorem bitChangeOnRegister : Obligations.BitChangeOnRegister := by
  unfold Obligations.BitChangeOnRegister
  intro s
  refine ⟨?bsetImm, ?bclrImm, ?bnotImm, ?bsetRn, ?bclrRn, ?bnotRn, ?bst, ?bist⟩
  case bsetImm => exact fun bit _ => bitModify_reg (exec_bsetImm s _ bit) _
  case bclrImm => exact fun bit _ => bitModify_reg (exec_bclrImm s _ bit) _
  case bnotImm => exact fun bit _ => bitModify_reg (exec_bnotImm s _ bit) _
  case bsetRn => exact fun rn _ => bitModify_reg (exec_bsetRn s _ rn) _
  case bclrRn => exact fun rn _ => bitModify_reg (exec_bclrRn s _ rn) _
  case bnotRn => exact fun rn _ => bitModify_reg (exec_bnotRn s _ rn) _
  case bst => exact fun bit _ => bitModify_reg (exec_bst s _ bit) _
  case bist => exact fun bit _ => bitModify_reg (exec_bist s _ bit) _

/-- Settles O19: as for a register, on the byte at the target's address. -/
theorem bitChangeOnMemory : Obligations.BitChangeOnMemory := by
  unfold Obligations.BitChangeOnMemory
  intro s tgt a ha hw hr hm
  have changes {x : Instr} {f : Byte → Byte} (hx : exec x s = bitModify tgt f s) :
      StoresByte x s tgt.len a (f (s.byteAt a)) := bitModify_mem hx ha hw hr hm
  exact ⟨fun bit => changes (exec_bsetImm s tgt bit), fun bit => changes (exec_bclrImm s tgt bit),
    fun bit => changes (exec_bnotImm s tgt bit), fun rn => changes (exec_bsetRn s tgt rn),
    fun rn => changes (exec_bclrRn s tgt rn), fun rn => changes (exec_bnotRn s tgt rn),
    fun bit => changes (exec_bst s tgt bit), fun bit => changes (exec_bist s tgt bit)⟩

/-- Settles O20: each form reads its target and writes the one flag, whose value is a function of the byte read. -/
theorem bitTestResults : Obligations.BitTestResults := by
  unfold Obligations.BitTestResults
  intro s tgt hr
  refine ⟨?btstImm, ?btstRn, ?bld, ?bild, ?band, ?biand, ?bor, ?bior, ?bxor, ?bixor⟩
  case btstImm | bild => exact fun bit => bitTest_result (f := fun b => !b.getLsbD bit.toNat) rfl hr
  case btstRn => exact fun rn => bitTest_result (exec_btstRn s tgt rn) hr
  case bld => exact fun bit => bitTest_result (f := fun b => b.getLsbD bit.toNat) rfl hr
  case band => exact fun bit => bitTest_result (f := fun b => s.flag .c && b.getLsbD bit.toNat) rfl hr
  case biand => exact fun bit => bitTest_result (f := fun b => s.flag .c && !b.getLsbD bit.toNat) rfl hr
  case bor => exact fun bit => bitTest_result (f := fun b => s.flag .c || b.getLsbD bit.toNat) rfl hr
  case bior => exact fun bit => bitTest_result (f := fun b => s.flag .c || !b.getLsbD bit.toNat) rfl hr
  case bxor => exact fun bit => bitTest_result (f := fun b => s.flag .c != b.getLsbD bit.toNat) rfl hr
  case bixor => exact fun bit => bitTest_result (exec_bixor s tgt bit) hr

end Sys2Proof.Machine
end

section
/-!
PROOFS. The branches, calls and returns (45_branch.md R900 to R933): what each transfer, call and return does, and the
return that undoes a call.
-/

namespace Sys2Proof.Machine

/-! ### Transfers -/

/-- An instruction that is a transfer and nothing more. -/
theorem transfersTo_of_jumpTo {x : Instr} {s : State} {target : Addr} (hx : exec x s = Out.of (s.jumpTo target)) :
    TransfersTo x s target :=
  ⟨fun h => jumpsTo_of_setPc (by rw [hx, jumpTo_even s h]; rfl),
    fun h => by unfold OddTarget; rw [hx, jumpTo_odd s h]; rfl⟩

/-- JMP @@aa:8 is a transfer once its table entry has been read. -/
theorem exec_jmpMemInd {s : State} {aa : BitVec 8} (hr : s.MayRead (s.longSpan (aa.zeroExtend 32))) :
    exec (.jmpMemInd aa) s = Out.of (s.jumpTo (s.addr (s.longAt (aa.zeroExtend 32)))) := by
  show execJmpMemInd aa s = _
  unfold execJmpMemInd State.memIndTarget
  rw [read32_ok hr]
  rfl

/-- Settles O23: each form is a transfer to the address its operand gives. -/
theorem jumpResults : Obligations.JumpResults := by
  unfold Obligations.JumpResults
  exact fun s => ⟨fun _ => transfersTo_of_jumpTo rfl, fun _ => transfersTo_of_jumpTo rfl,
    fun _ hr => transfersTo_of_jumpTo (exec_jmpMemInd hr)⟩

/-! ### Conditional branches -/

/-- A conditional branch, its predicate given by its value. -/
theorem branches_of_holds {n : Nat} {x : Instr} {s : State} {len : Nat} {disp : BitVec n} {taken : Bool} (cond : Cond)
    (hx : exec x s = branch len cond disp s)
    (hc : cond.holds (s.flag .n) (s.flag .z) (s.flag .v) (s.flag .c) = taken) : Branches x s len disp taken := by
  subst hc
  obtain ⟨heven, hodd, hnot⟩ := branch_result hx
  exact ⟨fun h => ⟨heven h, hodd h⟩, hnot⟩

theorem holds_ge (n z v c : Bool) : Cond.ge.holds n z v c = (n == v) := Bool.not_not _

theorem holds_gt (n z v c : Bool) : Cond.gt.holds n z v c = (!z && n == v) :=
  (Bool.not_or _ _).trans (congrArg (!z && ·) (Bool.not_not _))

/-- Settles O21: the 32 forms are one branch, at sixteen conditions and two lengths. -/
theorem conditionalBranchResults : Obligations.ConditionalBranchResults := by
  unfold Obligations.ConditionalBranchResults
  exact fun s => ⟨
    fun _ => branches_of_holds .always rfl rfl, fun _ => branches_of_holds .always rfl rfl,
    fun _ => branches_of_holds .never rfl rfl, fun _ => branches_of_holds .never rfl rfl,
    fun _ => branches_of_holds .hi rfl rfl, fun _ => branches_of_holds .hi rfl rfl,
    fun _ => branches_of_holds .ls rfl rfl, fun _ => branches_of_holds .ls rfl rfl,
    fun _ => branches_of_holds .cc rfl rfl, fun _ => branches_of_holds .cc rfl rfl,
    fun _ => branches_of_holds .cs rfl rfl, fun _ => branches_of_holds .cs rfl rfl,
    fun _ => branches_of_holds .ne rfl rfl, fun _ => branches_of_holds .ne rfl rfl,
    fun _ => branches_of_holds .eq rfl rfl, fun _ => branches_of_holds .eq rfl rfl,
    fun _ => branches_of_holds .vc rfl rfl, fun _ => branches_of_holds .vc rfl rfl,
    fun _ => branches_of_holds .vs rfl rfl, fun _ => branches_of_holds .vs rfl rfl,
    fun _ => branches_of_holds .pl rfl rfl, fun _ => branches_of_holds .pl rfl rfl,
    fun _ => branches_of_holds .mi rfl rfl, fun _ => branches_of_holds .mi rfl rfl,
    fun _ => branches_of_holds .ge rfl (holds_ge _ _ _ _), fun _ => branches_of_holds .ge rfl (holds_ge _ _ _ _),
    fun _ => branches_of_holds .lt rfl rfl, fun _ => branches_of_holds .lt rfl rfl,
    fun _ => branches_of_holds .gt rfl (holds_gt _ _ _ _), fun _ => branches_of_holds .gt rfl (holds_gt _ _ _ _),
    fun _ => branches_of_holds .le rfl rfl, fun _ => branches_of_holds .le rfl rfl⟩

/-! ### Calls and returns -/

/-- Settles O24: each form is a call to the address its operand gives. -/
theorem callResults : Obligations.CallResults := by
  unfold Obligations.CallResults
  intro s hw
  have calls : ∀ {x len target}, exec x s = call len target s → s.MayStore len (s.longSpan (s.readL sp - 4)) →
      (target.getLsbD 0 = false → Calls x s len target) ∧ (target.getLsbD 0 = true → OddTarget x s) :=
    fun hx hm => ⟨call_result hx hw hm, call_odd hx hm⟩
  exact ⟨fun _ => calls rfl, fun _ => calls rfl, fun _ => calls rfl, fun _ => calls rfl,
    fun _ hm hr => calls (exec_jsrMemInd hr) hm⟩

/-- RTS to an odd address stops (10_state.md R110). -/
theorem rts_odd {s : State} (hr : s.MayRead (s.longSpan (s.readL sp)))
    (ht : (s.addr (s.longAt (s.readL sp))).getLsbD 0 = true) : OddTarget .rts s := by
  show execRts s = _
  unfold execRts
  rw [pop32_ok hr]
  simp only [jumpTo_odd _ ht]
  rfl

/-- Settles O25: an even return address is taken, an odd one stops. -/
theorem returnFromSubroutineResult : Obligations.ReturnFromSubroutineResult := by
  unfold Obligations.ReturnFromSubroutineResult
  exact fun s hr => ⟨rts_result hr, rts_odd hr⟩

/-- The return frame holds the return address below its pad (45_branch.md R903). -/
theorem addr_callFrame {s : State} {ret : Addr} (h : s.addr ret = ret) : s.addr (s.callFrame ret) = ret := by
  unfold State.callFrame
  cases hb : s.params.addrBits with
  | bits32 => exact h
  | bits24 =>
    refine Eq.trans (BitVec.eq_of_toNat_eq ?_) h
    rw [addr_toNat, addr_toNat, hb, AddrBits.toNat, BitVec.toNat_append, BitVec.extractLsb'_toNat, Nat.or_mod_two_pow]
    simp [Nat.shiftLeft_eq]

/-- RTS at the target of a call comes back to `pc_next` with the registers of before the call. -/
theorem rts_undoes_call {x : Instr} {s : State} {len : Nat} {target : Addr} (hc : Calls x s len target)
    (hp : s.PcOk) (hl : len % 2 = 0) (hr : s.MayRead (s.longSpan (s.readL sp - 4)))
    (hd : ∀ a ∈ s.longSpan (s.readL sp - 4), s.isDevice a.toNat = false) :
    ∃ t u, exec x s = .next t ∧ t.pc = target ∧ exec .rts t = .next u ∧ u.pc = s.pcNext len ∧
      ∀ n, u.readL n = s.readL n := by
  obtain ⟨t, ht, htpc, htsp, hheld, htf⟩ := hc
  have hsame := htf.outside
  have hspan : t.longSpan (t.readL sp) = s.longSpan (s.readL sp - 4) := by rw [htsp, longSpan_congr hsame.params]
  have hlong : t.longAt (t.readL sp) = s.callFrame (s.pcNext len) := by
    refine holds_longAt (by rw [hspan]; exact hheld) fun a ha => ?_
    rw [isDevice_congr hsame.hostMap]
    exact hd a (hspan ▸ ha)
  have hret : t.addr (t.longAt (t.readL sp)) = s.pcNext len := by
    rw [hlong, addr_congr hsame.params]; exact addr_callFrame (addr_addr s _)
  have hread : t.MayRead (t.longSpan (t.readL sp)) := fun a ha => by
    rw [canRead_congr hsame.hostMap]
    exact hr a (hspan ▸ ha)
  obtain ⟨u, hu, hupc, husp, huf⟩ := rts_result hread (by rw [hret]; exact pcNext_even hp.2 hl)
  refine ⟨t, u, ht, htpc, hu, hupc.trans hret, fun n => ?_⟩
  by_cases hn : n = sp
  · rw [hn, husp, htsp, BitVec.sub_add_cancel]
  · have hkept : ∀ k, covered [.long sp] n k = false := covered_longs (l := [sp]) (by simpa using hn)
    exact (huf.regs.readL hkept).trans (htf.regs.readL hkept)

/-- Settles O42: the long the call stored below SP is the long RTS takes pc from. -/
theorem returnUndoesCall : Obligations.ReturnUndoesCall := by
  unfold Obligations.ReturnUndoesCall
  intro s hw hp hr hd
  have undoes : ∀ {x len target}, exec x s = call len target s → len % 2 = 0 →
      s.MayStore len (s.longSpan (s.readL sp - 4)) → target.getLsbD 0 = false →
      ∃ t u, exec x s = .next t ∧ t.pc = target ∧ exec .rts t = .next u ∧ u.pc = s.pcNext len ∧
        ∀ n, u.readL n = s.readL n :=
    fun hx hl hm ht => rts_undoes_call (call_result hx hw hm ht) hp hl hr hd
  exact ⟨fun _ => undoes rfl rfl, fun _ => undoes rfl rfl, fun _ => undoes rfl rfl, fun _ => undoes rfl rfl,
    fun _ hm ht htable => undoes (exec_jsrMemInd htable) rfl hm ht⟩

/-! ### Everything the branch family can do -/

/-- A transfer completes at an even address, and sets the program counter alone. -/
theorem jumpTo_next {s t : State} {a : Addr} (h : Out.of (s.jumpTo a) = .next t) :
    a.getLsbD 0 = false ∧ t = s.setPc a := by
  cases ha : a.getLsbD 0 with
  | true => rw [jumpTo_odd s ha] at h; cases h
  | false => rw [jumpTo_even s ha] at h; cases h; exact ⟨rfl, rfl⟩

/-- A branch whose condition does not hold goes on at `pc_next`. -/
theorem branch_notTaken {n len : Nat} {cond : Cond} {disp : BitVec n} {s : State}
    (h : cond.holds (s.flag .n) (s.flag .z) (s.flag .v) (s.flag .c) = false) :
    branch len cond disp s = .next (s.setPc (s.pcNext len)) := by
  unfold branch; rw [h]; rfl

theorem branch_next {n len : Nat} {cond : Cond} {disp : BitVec n} {s t : State}
    (h : branch len cond disp s = .next t) : ∃ a, t = s.setPc a := by
  unfold branch at h
  split at h
  · exact ⟨_, (jumpTo_next h).2⟩
  · cases h; exact ⟨_, rfl⟩

/-- A push that completes found its bytes open to the store. -/
theorem mayStore_of_push32 {s u : State} {len : Nat} {v : Long} (h : s.push32 (some len) v = .ok u) :
    s.MayStore len (s.longSpan (s.readL sp - 4)) := by
  have hclear : ∀ a ∈ s.longSpan (s.readL sp - 4), s.inPrefetch len a = false := fun a ha => by
    by_contra hin
    rw [push32_window ⟨a, ha, by simpa using hin⟩] at h
    cases h
  refine ⟨?_, hclear⟩
  by_contra hw
  obtain ⟨a, -, -, he⟩ := push32_refused (by_ := some len) (v := v) (fun _ hl => by cases hl; exact hclear) hw
  rw [he] at h
  cases h

/-- A call that completes is to an even target and may store its return frame. -/
theorem call_next {s t : State} {len : Nat} {target : Addr} (h : call len target s = .next t) :
    target.getLsbD 0 = false ∧ s.MayStore len (s.longSpan (s.readL sp - 4)) := by
  unfold call at h
  split at h
  · cases h
  · exact ⟨(jumpTo_next h).1, mayStore_of_push32 ‹_›⟩

theorem rts_next {s t : State} (h : exec .rts s = .next t) : ∃ a, t = (s.writeL sp (s.readL sp + 4)).setPc a := by
  change execRts s = _ at h
  unfold execRts at h
  split at h
  · cases h
  · next v u hpop =>
    unfold State.pop32 at hpop
    obtain ⟨w, -, hw⟩ := bind_ok hpop
    cases hw
    exact ⟨_, (jumpTo_next h).2⟩

theorem jmpMemInd_next {s t : State} {aa : BitVec 8} (h : exec (.jmpMemInd aa) s = .next t) : ∃ a, t = s.setPc a := by
  change execJmpMemInd aa s = _ at h
  unfold execJmpMemInd at h
  split at h
  · cases h
  · exact ⟨_, (jumpTo_next h).2⟩

theorem jsrMemInd_next {s t : State} {aa : BitVec 8} (h : exec (.jsrMemInd aa) s = .next t) :
    ∃ target, exec (.jsrMemInd aa) s = call 2 target s := by
  change execJsrMemInd aa s = _ at h
  show ∃ target, execJsrMemInd aa s = _
  unfold execJsrMemInd at h ⊢
  split at h
  · cases h
  · exact ⟨_, rfl⟩

/-- An instruction with a condition is a conditional branch, and no call. -/
theorem exec_of_condition {x : Instr} {cond : Cond} (h : x.condition = some cond) :
    x.isCall = false ∧ ∃ n, ∃ disp : BitVec n, ∀ s, exec x s = branch x.length cond disp s := by
  cases x <;> cases h
  all_goals
    rename_i disp
    exact ⟨rfl, _, disp, fun _ => rfl⟩

/-- A call of the branch family that completes is a call to some target. -/
theorem exec_of_isCall {x : Instr} {s t : State} (h : x.isCall = true) (hx : exec x s = .next t) :
    ∃ target, exec x s = call x.length target s := by
  unfold Instr.isCall at h
  split at h
  · exact ⟨_, rfl⟩
  · exact ⟨_, rfl⟩
  · exact ⟨_, rfl⟩
  · exact ⟨_, rfl⟩
  · exact jsrMemInd_next hx
  · cases h

/-- Everything an instruction of the branch family that completes can do: a transfer, a return, or a call. -/
theorem branchFamily_next {x : Instr} {s t : State} (hf : x.inBranchFamily = true) (hx : exec x s = .next t) :
    (x.isCall = false ∧ ∃ a, t = s.setPc a) ∨ (x = .rts ∧ ∃ a, t = (s.writeL sp (s.readL sp + 4)).setPc a) ∨
      (x.isCall = true ∧ ∃ target, exec x s = call x.length target s) := by
  unfold Instr.inBranchFamily at hf
  split at hf
  · exact .inl ⟨rfl, _, (jumpTo_next hx).2⟩
  · exact .inl ⟨rfl, _, (jumpTo_next hx).2⟩
  · exact .inl ⟨rfl, jmpMemInd_next hx⟩
  · rcases Bool.or_eq_true_iff.1 hf with hc | hm
    · obtain ⟨cond, hc⟩ := Option.isSome_iff_exists.1 hc
      obtain ⟨hcall, n, disp, hb⟩ := exec_of_condition hc
      exact .inl ⟨hcall, branch_next ((hb s).symm.trans hx)⟩
    · unfold Instr.movesStack at hm
      split at hm
      · exact .inr (.inl ⟨rfl, rts_next hx⟩)
      · exact .inr (.inr ⟨hm, exec_of_isCall hm hx⟩)

theorem movesStack_of_isCall {x : Instr} (h : x.isCall = true) : x.movesStack = true := by
  unfold Instr.movesStack
  split
  · rfl
  · exact h

/-- Settles O22: a transfer sets the program counter alone, RTS moves the stack pointer as well, and a call does what
`Calls` says. -/
theorem branchFamilyEffects : Obligations.BranchFamilyEffects := by
  unfold Obligations.BranchFamilyEffects
  intro s t x hw hf hx
  have hnot : ∀ cond, x.condition = some cond →
      cond.holds (s.flag .n) (s.flag .z) (s.flag .v) (s.flag .c) = false → t = s.setPc (s.pcNext x.length) :=
    fun cond hc hfalse => by
      obtain ⟨-, n, disp, hb⟩ := exec_of_condition hc
      rw [hb, branch_notTaken hfalse] at hx
      cases hx
      rfl
  rcases branchFamily_next hf hx with ⟨hcall, a, rfl⟩ | ⟨rfl, a, rfl⟩ | ⟨hcall, target, hc⟩
  case inl =>
    exact ⟨fun _ => rfl, fun _ _ => rfl, fun _ => rfl, fun h => absurd h (by simp [hcall]), hnot⟩
  case inr.inl =>
    refine ⟨fun _ => rfl, fun n hn => ?_, fun _ => rfl, fun h => (by cases h), hnot⟩
    have hne : n ≠ sp := hn.resolve_right (by decide)
    exact readL_writeL_ne s _ hne
  case inr.inr =>
    obtain ⟨heven, hm⟩ := call_next (hc.symm.trans hx)
    obtain ⟨t', hx', -, -, hheld, hfr⟩ := call_result hc hw hm heven
    cases hx.symm.trans hx'
    refine ⟨fun f => hfr.flags.value f (by simp), fun n hn => ?_, fun h => absurd h (by simp [hcall]),
      fun _ => ⟨hheld, hfr.mem⟩, hnot⟩
    have hne : n ≠ sp := hn.resolve_right (by simp [movesStack_of_isCall hcall])
    exact hfr.regs.readL (covered_longs (l := [sp]) (by simpa using hne))

end Sys2Proof.Machine
end

section
/-!
PROOFS. The system control instructions (46_system_control.md R1000 to R1023): LDC, STC, ANDC, ORC, XORC, NOP, SLEEP,
TRAPA and RTE.
-/

namespace Sys2Proof.Machine

/-! ### The control registers -/

/-- The high byte of a word in memory is the byte at its even address (20_memory.md R204). -/
theorem wordAt_highByte (s : State) (a : Addr) : (s.wordAt a).extractLsb' 8 8 = s.byteAt (s.evenAddr a) := by
  unfold State.wordAt
  exact BitVec.extractLsb'_append_eq_left

/-- Settles O34: the five forms write CCR with the value their operand gives. -/
theorem ccrWriteResults : Obligations.CcrWriteResults := by
  unfold Obligations.CcrWriteResults
  exact fun s => ⟨fun _ => putCcr_result rfl, fun _ => putCcr_result rfl, fun _ => putCcr_result rfl,
    fun _ => putCcr_result rfl, fun _ => putCcr_result rfl⟩

/-- Settles O35: the five forms write EXR with the value their operand gives. -/
theorem exrWriteResults : Obligations.ExrWriteResults := by
  unfold Obligations.ExrWriteResults
  exact fun s => ⟨fun _ => putExr_result rfl, fun _ => putExr_result rfl, fun _ => putExr_result rfl,
    fun _ => putExr_result rfl, fun _ => putExr_result rfl⟩

/-- Settles O36: LDC.W writes the high byte of the word it reads. -/
theorem controlRegisterLoadResults : Obligations.ControlRegisterLoadResults := by
  unfold Obligations.ControlRegisterLoadResults
  intro s mem _ hr
  rw [← wordAt_highByte]
  exact ⟨loadCcr_result rfl hr, loadExr_result rfl hr⟩

/-- Settles O37: the pad below the control register is the value STC.W draws. -/
theorem controlRegisterStoreResults : Obligations.ControlRegisterStoreResults := by
  unfold Obligations.ControlRegisterStoreResults
  intro s
  exact ⟨fun _ => putB_result rfl (flagsOnly_noFlags _ _), fun _ => putB_result rfl (flagsOnly_noFlags _ _),
    fun _ _ hw hm => ⟨⟨_, storeControl_result rfl hw hm⟩, _, storeControl_result rfl hw hm⟩⟩

/-- Settles O38: both advance pc, and SLEEP sets `sleeping` as well. -/
theorem nopAndSleepResults : Obligations.NopAndSleepResults := by
  unfold Obligations.NopAndSleepResults
  exact fun _ => ⟨rfl, rfl⟩

/-! ### TRAPA and RTE -/

/-- TRAPA is the exception entry of its vector (46_system_control.md R1010). -/
theorem exec_trapa (s : State) (tn : BitVec 2) :
    exec (.trapa tn) s = Out.of (s.exceptionEntry (some 2) (8 + tn.toNat) (s.pcNext 2) none) := rfl

/-- Settles O39: the entry of vector 8 + n completes where `EntryOk` holds, and stops at a return address the frame
cannot hold. -/
theorem trapResult : Obligations.TrapResult := by
  unfold Obligations.TrapResult
  intro s tn
  refine ⟨fun h => ?_, fun hb hfar => ?_⟩
  · obtain ⟨t, ht, hentered⟩ := exceptionEntry_ok (level := none) h
    exact ⟨t, by rw [exec_trapa, ht]; rfl, hentered⟩
  · rw [exec_trapa, exceptionEntry_far hb hfar]
    rfl

theorem popExr_mode0 {s : State} (hi : s.params.intm = .mode0) : s.popExr = .ok s := by
  unfold State.popExr
  rw [hi]

theorem popExr_mode2 {s : State} (hi : s.params.intm = .mode2) (hw : s.MayRead (s.wordSpan (s.readL sp))) :
    s.popExr = .ok ((s.writeL sp (s.readL sp + 2)).writeExr ((s.wordAt (s.readL sp)).extractLsb' 8 8)) := by
  unfold State.popExr
  rw [hi, pop16_ok hw]

/-- RTE to an odd address stops (10_state.md R110): `u` is the state EXR is popped into, `s` itself under `INTM` = 0. -/
theorem rte_odd {s u : State} (hpop : s.popExr = .ok u) (hpc : u.pc = s.pc) (hr : u.MayRead (u.longSpan (u.readL sp)))
    (ht : (u.longAt (u.readL sp)).getLsbD 0 = true) : OddTarget .rte s := by
  have hodd : (((u.longAt (u.readL sp)).extractLsb' 0 24).zeroExtend 32 : BitVec 32).getLsbD 0 = true := by
    simpa using ht
  show Out.of s.exceptionReturn = _
  unfold State.exceptionReturn
  rw [hpop]
  show Out.of (u.pop32 >>= _) = _
  rw [pop32_ok hr]
  show Out.of (State.jumpTo _ _) = _
  rw [jumpTo_odd _ hodd, writeCcr_pc, writeL_pc, hpc]
  rfl

/-- Settles O40: an even return address is taken, an odd one stops, with EXR popped first under `INTM` = 2. -/
theorem returnFromExceptionResult : Obligations.ReturnFromExceptionResult := by
  unfold Obligations.ReturnFromExceptionResult
  intro s
  refine ⟨fun hi hr => ⟨rte_mode0 hi hr, rte_odd (popExr_mode0 hi) rfl hr⟩, fun hi hw hr => ⟨?_, fun ht => ?_⟩⟩
  · rw [← wordAt_highByte]
    exact rte_mode2 hi hw hr
  · have hsp (v : Byte) : ((s.writeL sp (s.readL sp + 2)).writeExr v).readL sp = s.readL sp + 2 := readL_writeL s sp _
    exact rte_odd (popExr_mode2 hi hw) rfl (by rw [hsp]; exact hr) (by rw [hsp]; exact ht)

end Sys2Proof.Machine
end

section
/-!
PROOFS. Exceptions (60_exceptions.md R1110 to R1140): the return that undoes an entry, what a boundary decides, the
choice among interrupt requests, and the steps that enter an exception or sleep on.
-/

namespace Sys2Proof.Machine

/-! ### A return right after an entry -/

theorem exrStored_of_exrOk {s : State} (h : s.ExrOk) : exrStored s.exr = s.exr := by
  apply BitVec.eq_of_getLsbD_eq
  intro i hi
  have hbit := congrArg (BitVec.getLsbD · i) h
  simp only [BitVec.getLsbD_and] at hbit
  interval_cases i <;> simp_all [exrStored]

/-- The high byte of a frame's long is the CCR image. -/
theorem frameLong_ccr (c : Byte) (ret : Addr) : (c ++ ret.extractLsb' 0 24).extractLsb' 24 8 = c :=
  BitVec.extractLsb'_append_eq_left

/-- The low 24 bits of a frame's long are a return address of 24 bits. -/
theorem frameLong_pc (c : Byte) {ret : Addr} (h : ret.toNat < 2 ^ 24) :
    ((c ++ ret.extractLsb' 0 24).extractLsb' 0 24).zeroExtend 32 = ret := by
  rw [BitVec.extractLsb'_append_eq_right]
  apply BitVec.eq_of_toNat_eq
  simp only [BitVec.truncate_eq_setWidth, BitVec.toNat_setWidth, BitVec.extractLsb'_toNat]
  omega

theorem frameLong_even (c : Byte) {ret : Addr} (h : ret.getLsbD 0 = false) :
    (c ++ ret.extractLsb' 0 24).getLsbD 0 = false := by
  rwa [BitVec.getLsbD_append, if_pos (by decide), BitVec.getLsbD_extractLsb', Nat.zero_add, decide_eq_true (by decide),
    Bool.true_and]

/-- RTE on the stack an entry has left pops what the entry pushed. -/
theorem rte_of_entered {s t : State} {vector : Nat} {ret : Addr} {level : Option (BitVec 3)}
    (he : Entered s t vector ret level) (hr : s.MayRead s.frameSpan)
    (hd : ∀ a ∈ s.frameSpan, s.isDevice a.toNat = false) (heven : ret.getLsbD 0 = false) (hexr : s.ExrOk) :
    Ends .rte t fun u => Returned t u s.frameSize (s.ccrImage ++ ret.extractLsb' 0 24) s.exr := by
  obtain ⟨hparams, hhost⟩ : t.params = s.params ∧ t.hostMap = s.hostMap := ⟨he.outside.params, he.outside.hostMap⟩
  have hheld := he.holds
  have hread : t.MayRead s.frameSpan := fun a ha => (canRead_congr hhost _).trans (hr a ha)
  have hmem : ∀ a ∈ s.frameSpan, t.isDevice a.toNat = false := fun a ha => (isDevice_congr hhost _).trans (hd a ha)
  have hspan := fun a => longSpan_congr hparams a
  have hlow := frameLong_even s.ccrImage heven
  cases hi : s.params.intm with
  | mode0 =>
    have hsp : t.readL sp = s.readL sp - 4 := by rw [he.sp, State.frameSize, hi]
    simp only [State.frameSpan, State.frameBytes, State.frameSize, hi, ← hspan, ← hsp] at hheld hread hmem ⊢
    have hlong := holds_longAt hheld hmem
    have hret := rte_mode0 (hparams ▸ hi) hread (hlong ▸ hlow)
    rwa [hlong, he.exr0 hi] at hret
  | mode2 =>
    have hsp : t.readL sp = s.readL sp - 4 - 2 := by rw [he.sp, State.frameSize, hi, sub_sub]; rfl
    have hup : t.readL sp + 2 = s.readL sp - 4 := by rw [hsp, BitVec.sub_add_cancel]
    simp only [State.frameSpan, State.frameBytes, State.frameSize, hi, ← hspan, ← wordSpan_congr hparams, ← hup,
      BitVec.add_sub_cancel] at hheld hread hmem ⊢
    have hlong := holds_longAt (hheld.left rfl) fun a ha => hmem a (List.mem_append_left _ ha)
    have hword := holds_wordAt (hheld.right rfl) fun a ha => hmem a (List.mem_append_right _ ha)
    have hret := rte_mode2 (hparams ▸ hi) (fun a ha => hread a (List.mem_append_right _ ha))
      (fun a ha => hread a (List.mem_append_left _ ha)) (hlong ▸ hlow)
    rwa [hlong, hword, BitVec.extractLsb'_append_eq_left, exrStored_of_exrOk hexr] at hret

/-- Settles O41: what RTE pops is what the entry pushed, and SP comes back by the size of the frame. -/
theorem returnUndoesExceptionEntry : Obligations.ReturnUndoesExceptionEntry := by
  unfold Obligations.ReturnUndoesExceptionEntry
  intro s vector ret level hok hr hd hlt heven hexr
  obtain ⟨t, ht, he⟩ := exceptionEntry_ok (level := level) hok
  obtain ⟨u, hu, hret⟩ := rte_of_entered he hr hd heven hexr
  refine ⟨t, u, ht, he, hu, hret.pc.trans (frameLong_pc _ hlt), hret.ccr.trans (frameLong_ccr _ _), hret.exr,
    fun n => ?_⟩
  by_cases hn : n = sp
  · rw [hn, hret.sp, he.sp, BitVec.sub_add_cancel]
  · have hkept : ∀ k, covered [.long sp] n k = false := covered_longs (l := [sp]) (by simpa using hn)
    exact (hret.regs.readL hkept).trans (he.regs.readL hkept)

/-! ### What a boundary decides -/

/-- A checked boundary passes the tests for a reset and for the first instruction of a run. -/
theorem due_checked {s : State} (h : s.Checked) :
    s.due = if s.traceDue then .trace
      else if s.irqHold then s.quiet
      else if s.nmiPending then .nmi
      else (s.chosenIrq.map Due.irq).getD s.quiet := by
  obtain ⟨-, hr, hfirst⟩ := h
  have hf : (s.fresh && !s.sleeping) = false := by rcases hfirst with hf | hf <;> simp [hf]
  unfold State.due
  rw [hr, hf]
  cases s.chosenIrq <;> rfl

theorem due_trace {s : State} (h : s.Checked) (ht : s.traceDue = true) : s.due = .trace := by
  rw [due_checked h, ht]
  rfl

theorem due_nmi {s : State} (h : s.Checked) (ht : s.traceDue = false) (hh : s.irqHold = false)
    (hn : s.nmiPending = true) : s.due = .nmi := by
  rw [due_checked h, ht, hh, hn]
  rfl

theorem due_irq {s : State} (h : s.Checked) (ht : s.traceDue = false) (hh : s.irqHold = false)
    (hn : s.nmiPending = false) {r : IrqRequest} (hr : s.chosenIrq = some r) : s.due = .irq r := by
  rw [due_checked h, ht, hh, hn, hr]
  rfl

theorem due_asleep {s : State} (hr : s.resetIn = none) (hs : s.sleeping = true) (ht : s.traceDue = false)
    (hn : s.NoInterrupt) : s.due = .asleep := by
  rw [due_quiet hr (by simp [hs]) ht hn, State.quiet, hs]
  rfl

/-! ### The steps that run no instruction -/

theorem step_trace {s : State} (h : s.Checked) (hd : s.due = .trace) : step s = Out.of (s.enter 5 none) := by
  obtain ⟨hfault, hreset, -⟩ := h
  simp only [step_proceeds hreset, State.proceed, hfault, hd]

theorem step_nmi {s : State} (h : s.Checked) (hd : s.due = .nmi) : step s = Out.of s.enterNmi := by
  obtain ⟨hfault, hreset, -⟩ := h
  simp only [step_proceeds hreset, State.proceed, hfault, hd]

theorem step_irq {s : State} (h : s.Checked) {r : IrqRequest} (hd : s.due = .irq r) :
    step s = Out.of (s.enter r.vector.toNat (some r.level)) := by
  obtain ⟨hfault, hreset, -⟩ := h
  simp only [step_proceeds hreset, State.proceed, hfault, hd]

theorem step_asleep {s : State} (hfault : s.fault = none) (hreset : s.resetIn = none) (hd : s.due = .asleep) :
    step s = .next s.stayAsleep := by
  simp only [step_proceeds hreset, State.proceed, hfault, hd]

/-- An exception entered at a boundary that meets no fault, with the marks of the next boundary. -/
theorem enter_ok {s : State} {vector : Nat} {level : Option (BitVec 3)} (h : EntryOk s none vector s.pc) :
    ∃ u, Entered s u vector s.pc level ∧
      s.enter vector level = .ok { u with traceDue := false, epoch := s.epoch + 1 } := by
  obtain ⟨u, hu, he⟩ := exceptionEntry_ok (level := level) h
  refine ⟨u, he, ?_⟩
  rw [State.enter, hu, ← he.outside.epoch]
  rfl

/-- Settles O53: trace is decided before the shadow, the NMI and the requests are looked at. -/
theorem traceEntryResult : Obligations.TraceEntryResult := by
  unfold Obligations.TraceEntryResult
  intro s hc ht hok
  obtain ⟨u, he, hu⟩ := enter_ok (level := none) hok
  exact ⟨u, he, by rw [step_trace hc (due_trace hc ht), hu]; rfl⟩

/-- Settles O54: the event sets the one bit the acceptance clears. -/
theorem nmiEntryResult : Obligations.NmiEntryResult := by
  unfold Obligations.NmiEntryResult
  refine fun s => ⟨rfl, fun hn => by rw [State.nmiEvent, ← hn], fun hc ht hh hn hok => ?_⟩
  obtain ⟨u, he, hu⟩ := enter_ok (level := some 7) hok
  exact ⟨u, he, by rw [step_nmi hc (due_nmi hc ht hh hn), State.enterNmi, hu]; rfl⟩

/-- Settles O56: awake or asleep, the request chosen is the one that is due. -/
theorem interruptEntryResult : Obligations.InterruptEntryResult := by
  unfold Obligations.InterruptEntryResult
  intro s r hc ht hh hn hr hok
  obtain ⟨u, he, hu⟩ := enter_ok (level := some r.level) hok
  exact ⟨u, he, he.outside.irq, by rw [step_irq hc (due_irq hc ht hh hn hr), hu]; rfl⟩

/-- Settles O57: nothing is due, so the sleeping step reads no memory. -/
theorem sleepWaits : Obligations.SleepWaits := by
  unfold Obligations.SleepWaits
  exact fun s hfault hreset hs ht hn => step_asleep hfault hreset (due_asleep hreset hs ht hn)

/-! ### The choice among interrupt requests -/

/-- A request of the interrupt input is acceptable exactly where the mask lets it through. -/
theorem acceptable_iff {s : State} {r : IrqRequest} (h : 16 ≤ r.vector.toNat) :
    s.acceptable r = true ↔ s.LetsThrough r := by
  refine ⟨letsThrough_of_acceptable, fun hl => ?_⟩
  have hlevel : s.maskLevel.toNat = s.exr.toNat % 8 := by simp [State.maskLevel, BitVec.extractLsb'_toNat]
  unfold State.LetsThrough at hl
  unfold State.acceptable
  cases hi : s.params.intm <;> simp_all

theorem servedFirst_refl (s : State) (r : IrqRequest) : s.ServedFirst r r := by
  unfold State.ServedFirst
  cases s.params.intm <;> simp

theorem servedFirst_trans {s : State} {p q r : IrqRequest} (h1 : s.ServedFirst p q) (h2 : s.ServedFirst q r) :
    s.ServedFirst p r := by
  unfold State.ServedFirst at *
  cases hi : s.params.intm with
  | mode0 => simp only [hi] at *; exact h1.trans h2
  | mode2 =>
    simp only [hi, ← BitVec.toNat_inj] at *
    omega

/-- The preferred of two requests is one of them, to be served before or with each. -/
theorem preferred_servedFirst (s : State) (a b : IrqRequest) :
    (s.preferred a b = a ∨ s.preferred a b = b) ∧ s.ServedFirst (s.preferred a b) a ∧
      s.ServedFirst (s.preferred a b) b := by
  unfold State.preferred State.ServedFirst
  cases s.params.intm with
  | mode0 => grind
  | mode2 =>
    simp only [← BitVec.toNat_inj]
    grind

/-- The preferred of a list of requests is one of them, to be served before or with each. -/
theorem foldl_preferred (s : State) (a : IrqRequest) (l : List IrqRequest) :
    l.foldl s.preferred a ∈ a :: l ∧ ∀ q ∈ a :: l, s.ServedFirst (l.foldl s.preferred a) q := by
  induction l generalizing a with
  | nil => simpa using servedFirst_refl s a
  | cons b l ih =>
    obtain ⟨hone, ha, hb⟩ := preferred_servedFirst s a b
    obtain ⟨hmem, hfirst⟩ := ih (s.preferred a b)
    have hbest := hfirst _ List.mem_cons_self
    refine ⟨?_, fun q hq => ?_⟩
    · simp only [List.foldl_cons, List.mem_cons] at hmem ⊢
      rcases hmem with he | hl
      · rw [he]
        exact hone.imp_right .inl
      · exact .inr (.inr hl)
    · simp only [List.mem_cons] at hq
      rcases hq with rfl | rfl | hl
      · exact servedFirst_trans hbest ha
      · exact servedFirst_trans hbest hb
      · exact hfirst q (List.mem_cons_of_mem _ hl)

/-- The request chosen is the preferred one of the acceptable requests. -/
theorem chosenIrq_of_acceptable {s : State} {a : IrqRequest} {l : List IrqRequest}
    (h : s.irq.filter s.acceptable = a :: l) : s.chosenIrq = some (l.foldl s.preferred a) := by
  unfold State.chosenIrq
  rw [h]
  exact List.foldl_hom some fun _ _ => rfl

/-- A request is chosen where one is acceptable: an acceptable one, to be served before or with each of them. -/
theorem chosenIrq_spec {s : State} {q : IrqRequest} (hq : q ∈ s.irq.filter s.acceptable) :
    ∃ r ∈ s.irq.filter s.acceptable, s.chosenIrq = some r ∧ ∀ q ∈ s.irq.filter s.acceptable, s.ServedFirst r q := by
  cases h : s.irq.filter s.acceptable with
  | nil => rw [h] at hq; cases hq
  | cons a l =>
    obtain ⟨hmem, hfirst⟩ := foldl_preferred s a l
    exact ⟨_, hmem, chosenIrq_of_acceptable h, hfirst⟩

/-- Settles O55: the acceptable requests are those let through, and the choice is the preferred one of them. -/
theorem interruptChoice : Obligations.InterruptChoice := by
  unfold Obligations.InterruptChoice
  intro s hs
  have hmem : ∀ q, q ∈ s.irq.filter s.acceptable ↔ q ∈ s.irq ∧ s.LetsThrough q := fun q => by
    rw [List.mem_filter]
    exact and_congr_right fun hq => acceptable_iff (hs q hq)
  refine ⟨⟨fun hnone q hq hl => ?_, chosenIrq_eq_none⟩, fun r hr => ?_, due_nmi⟩
  · obtain ⟨r, -, hr, -⟩ := chosenIrq_spec ((hmem q).2 ⟨hq, hl⟩)
    rw [hnone] at hr
    cases hr
  · obtain ⟨q, hq, hl⟩ : ∃ q ∈ s.irq, s.LetsThrough q := by
      by_contra! hnone
      rw [chosenIrq_eq_none hnone] at hr
      cases hr
    obtain ⟨r', hr', hchosen, hfirst⟩ := chosenIrq_spec ((hmem q).2 ⟨hq, hl⟩)
    cases hr.symm.trans hchosen
    obtain ⟨hirq, hlets⟩ := (hmem r).1 hr'
    exact ⟨hirq, hlets, fun q hq hl => hfirst q ((hmem q).2 ⟨hq, hl⟩)⟩

end Sys2Proof.Machine
end

section
/-!
PROOFS. Reset (70_reset_and_hazards.md R1200, R1201): the reset sequence, before a step and within one, and the memory
writes each kind of step has completed when a reset cuts it.
-/

namespace Sys2Proof.Machine

/-! ### The reset sequence -/

/-- The reset sequence runs from the reset values over the memory `u` has: its vector is that of `u`. -/
theorem resetSequence_eq {u : State} (hr : u.MayRead (u.longSpan 0)) :
    u.resetSequence = u.resetState.jumpTo (u.handler 0) := by
  have hread : u.resetState.read32 (vectorAddr 0) = .ok (u.longAt (vectorAddr 0)) := read32_ok (s := u.resetState) hr
  unfold State.resetSequence State.vectorEntry
  show ((u.resetState.read32 (vectorAddr 0) >>= _) >>= _) = _
  rw [hread]
  rfl

theorem enterReset_even {u : State} (hr : u.MayRead (u.longSpan 0)) (he : (u.handler 0).getLsbD 0 = false) :
    u.enterReset = .ok ((u.resetState.setPc (u.handler 0)).close false) := by
  simp only [State.enterReset, resetSequence_eq hr, jumpTo_even _ he]

theorem enterReset_odd {u : State} (hr : u.MayRead (u.longSpan 0)) (ho : (u.handler 0).getLsbD 0 = true) :
    u.enterReset = .error (.unmodelled .oddBranchTarget u.pc.toNat) := by
  simp only [State.enterReset, resetSequence_eq hr, jumpTo_odd _ ho, resetState_pc]

/-- The reset values, at the vector's entry (10_state.md R119). -/
theorem resetFrom_resetState (u : State) : ResetFrom u ((u.resetState.setPc (u.handler 0)).close false) where
  pc := rfl
  regs := reset_laneDefined
  masked := (rfl : State.reset.flag .i = true)
  flags := reset_definedFlag
  exr := rfl
  sleeping := rfl
  irqHold := rfl
  nmiPending := rfl
  eepmovActive := rfl
  fault := rfl
  mem := rfl
  irq := rfl
  resetIn := rfl
  hostMap := rfl
  params := rfl
  fresh := rfl

/-- A step that is the reset sequence from `u`, with the program counter of before the step. -/
theorem resetStep_of_enterReset {s u : State} (h : step s = Out.of u.enterReset) (hpc : u.pc = s.pc) :
    ResetStep s u := by
  intro hr
  rw [h, ← hpc]
  exact ⟨fun he => ⟨_, by rw [enterReset_even hr he]; rfl, resetFrom_resetState u⟩,
    fun ho => by rw [enterReset_odd hr ho]; rfl⟩

/-- Settles O49: with the input asserted before the step, the step is the reset sequence from the state itself. -/
theorem resetSequenceResult : Obligations.ResetSequenceResult := by
  unfold Obligations.ResetSequenceResult
  exact fun s h => resetStep_of_enterReset (step_reset h) rfl

/-! ### The step in progress -/

/-- While the run goes on, what the boundary decides is in progress. -/
theorem abandoned_unended {s : State} (hf : s.fault = none) (k : Nat) : s.abandoned k = s.stepUntilWrite k := by
  unfold State.abandoned
  rw [hf]

/-- After a fault, or asleep, nothing is in progress. -/
theorem abandoned_idle {s : State} (h : s.fault ≠ none ∨ s.unreset.due = .asleep) (k : Nat) :
    s.abandoned k = .next s := by
  cases hf : s.fault with
  | some f => simp only [State.abandoned, hf]
  | none =>
    have hd : ({ s with resetIn := none } : State).due = .asleep := h.resolve_left (not_not_intro hf)
    rw [abandoned_unended hf]
    simp only [State.stepUntilWrite, hd]

/-- Where an instruction runs next, it is the one in progress. -/
theorem abandoned_of_nextInstr {s : State} (h : s.unreset.RunsNext) {x : Instr} (hx : s.nextInstr = .ok x) (k : Nat) :
    s.abandoned k = untilWrite x k s.pastBoundary := by
  have hd : ({ s with resetIn := none } : State).due = .run := due_of_runsNext h
  rw [abandoned_unended (s := s) h.1]
  simp only [State.stepUntilWrite, hd, hx]
  rfl

theorem abandoned_of_fetchFault {s : State} (h : s.unreset.RunsNext) {f : Fault} (hx : s.nextInstr = .error f)
    (k : Nat) : s.abandoned k = .fault f := by
  have hd : ({ s with resetIn := none } : State).due = .run := due_of_runsNext h
  rw [abandoned_unended (s := s) h.1]
  simp only [State.stepUntilWrite, hd, hx]

/-- Where an exception is entered next, its frame is in progress. -/
theorem abandoned_of_entered {s : State} (hf : s.fault = none) (h : s.unreset.due.entered ≠ none) (k : Nat) :
    s.abandoned k = Out.of (s.framePart k none s.pc) := by
  rw [abandoned_unended hf]
  cases hd : ({ s with resetIn := none } : State).due with
  | trace | nmi | irq r => simp only [State.stepUntilWrite, hd]
  | reset | asleep | run => exact absurd (congrArg Due.entered hd) h

/-- An instruction not written in parts is in progress as a whole. -/
theorem untilWrite_whole {x : Instr} (h : writesInParts x = false) (k : Nat) (s : State) :
    untilWrite x k s = exec x s := by
  unfold untilWrite
  split
  case h_11 => rfl
  all_goals cases h

/-! ### The cut -/

/-- A cut is a reset over the memory the step has left. -/
theorem resetStep_of_cut {s t : State} {k : Nat} (h : s.resetIn = some (k + 1)) (ht : s.abandoned (k + 1) = .next t) :
    ResetStep s (s.leftWith t.mem) := resetStep_of_enterReset (step_cut h ht) rfl

/-- A cut after the bytes `bs` have been stored at the different addresses `as`. -/
theorem cutAfter_of_stored {s t : State} {k : Nat} {as : List Addr} {bs : List Byte} (h : s.resetIn = some (k + 1))
    (ht : s.abandoned (k + 1) = .next t) (hmem : t.mem = (s.stored (as.zip bs)).mem) (hw : s.mem.wf)
    (hlen : as.length = bs.length) (hn : (as.map BitVec.toNat).Nodup) : CutAfter s as bs := by
  refine ⟨t.mem, resetStep_of_cut h ht, fun p hp hd => ?_, fun a ha => ?_⟩
  · show t.mem.get _ = _
    rw [hmem]
    exact holds_stored hw hlen.le hn p hp ((stored_isDevice _ _ _).trans hd)
  · show t.mem.get _ = _
    have hf := frame_stored s (as.zip bs)
    rw [map_zip_fst hlen.le] at hf
    rw [hmem]
    exact hf.mem a ha

/-- What may be stored before the boundary is passed may be stored after it. -/
theorem allows_pastBoundary {s : State} {len : Nat} {as : List Addr} (h : s.MayStore len as) :
    s.pastBoundary.Allows (some len) as := allows_congr (s := s) rfl rfl rfl (allows_of_mayStore h)

theorem stored_pastBoundary (s : State) (ps : List (Addr × Byte)) :
    (s.pastBoundary.stored ps).mem = (s.stored ps).mem := stored_mem_congr (s := s) (t := s.pastBoundary) rfl rfl ps

/-- STM.L of a list cut short has pushed the first registers of the list. -/
theorem cutAfter_storeList {s : State} {k : Nat} {x : Instr} {regs : List (BitVec 3)} (h : s.resetIn = some (k + 1))
    (hw : s.mem.wf) (hrun : s.unreset.RunsNext) (hx : s.nextInstr = .ok x)
    (huntil : ∀ u, untilWrite x (k + 1) u = Out.of (pushPart (k + 1) regs u)) (hlen : regs.length ≤ 8) (hsp : sp ∉ regs)
    (hm : s.MayStore 4 (s.pushSpan (min (k + 1) regs.length) (s.readL sp))) :
    CutAfter s (s.pushSpan (min (k + 1) regs.length) (s.readL sp))
      ((regs.take (k + 1)).flatMap fun r => longBytes (s.readL r)) := by
  have hpushed : (regs.take (k + 1)).length = min (k + 1) regs.length := List.length_take
  rw [← hpushed] at hm ⊢
  have hspan := pushSpan_congr (s := s) (t := s.pastBoundary) rfl (regs.take (k + 1)).length (s.readL sp)
  obtain ⟨t, ht, hmem, -⟩ := pushRegs_ok (s := s.pastBoundary) (fun hmem => hsp (List.mem_of_mem_take hmem))
    (hspan ▸ allows_pastBoundary hm)
  have hpart : pushPart (k + 1) regs s.pastBoundary = .ok t := by
    rw [pushPart, if_neg (by simpa using hsp), ht]
  have habandoned : s.abandoned (k + 1) = Out.of (.ok t) := by
    rw [abandoned_of_nextInstr hrun hx, huntil, hpart]
  refine cutAfter_of_stored h habandoned ?_ hw ?_ (pushSpan_nodup s (by omega) _)
  · rw [← hspan]
    exact hmem.trans (stored_pastBoundary s _)
  · rw [pushSpan_length, flatMap_longBytes_length]

/-- EEPMOV.B cut short has copied the first bytes. -/
theorem resetStep_eepmovB {s : State} {k n : Nat} (h : s.resetIn = some (k + 1)) (hrun : s.unreset.RunsNext)
    (hx : s.nextInstr = .ok .eepmovB) (hn : n = min (k + 1) (s.readB 12).toNat)
    (hr : s.MayRead (s.byteRange (s.readL 5) n)) (hm : s.MayStore 4 (s.byteRange (s.readL 6) n)) :
    ResetStep s (s.leftWith (s.copied (s.readL 5) (s.readL 6) n)) := by
  have h8 := (s.readB 12).isLt
  obtain ⟨t, ht, -⟩ := moveBytes_ok (s := s.pastBoundary) (n := n) (by omega) hr hm
  have hcopied : t.mem = s.copied (s.readL 5) (s.readL 6) n :=
    (moveBytes_copied (s := s.pastBoundary) hr hm ht).trans
      (copied_congr (s := s) (t := s.pastBoundary) ⟨rfl, rfl, rfl, rfl⟩ _ _ n)
  have habandoned : s.abandoned (k + 1) = Out.of (.ok t) := by
    rw [abandoned_of_nextInstr hrun hx, ← ht, hn]
    rfl
  rw [← hcopied]
  exact resetStep_of_cut h habandoned

/-- The first writes of an exception's frame: the long of CCR and PC, then the rest. -/
theorem framePart_ok {s : State} {by_ : Option Nat} {ret : Addr} (k : Nat) (hfits : s.FitsFrame ret)
    (h : s.Allows by_ (s.frameSpan.take (frameLength (k + 1)))) :
    ∃ t, s.framePart (k + 1) by_ ret = .ok t ∧
      t.mem = (s.stored ((s.frameSpan.take (frameLength (k + 1))).zip
        ((s.frameBytes ret).take (frameLength (k + 1))))).mem := by
  have hfar : ¬(s.params.addrBits = .bits32 ∧ 2 ^ 24 ≤ ret.toNat) := fun hc => absurd (hfits hc.1) (by omega)
  unfold State.framePart
  rw [if_neg hfar]
  cases k with
  | zero =>
    have hspan : s.frameSpan.take (frameLength 1) = s.longSpan (s.readL sp - 4) := by
      unfold State.frameSpan; cases s.params.intm <;> rfl
    have hbytes : (s.frameBytes ret).take (frameLength 1) = longBytes (s.ccrImage ++ ret.extractLsb' 0 24) := by
      unfold State.frameBytes; cases s.params.intm <;> rfl
    rw [hspan] at h ⊢
    rw [hbytes]
    exact ⟨_, push32_ok _ h, rfl⟩
  | succ k =>
    have hspan : s.frameSpan.take (frameLength (k + 2)) = s.frameSpan := by
      unfold State.frameSpan; cases s.params.intm <;> rfl
    have hbytes : (s.frameBytes ret).take (frameLength (k + 2)) = s.frameBytes ret := by
      unfold State.frameBytes; cases s.params.intm <;> rfl
    rw [hspan] at h ⊢
    rw [hbytes]
    obtain ⟨t, ht, hmem, -⟩ := pushFrame_ok ret h
    exact ⟨t, ht, hmem⟩

/-- A frame cut short: the first of its bytes are stored. -/
theorem cutAfter_frame {s t : State} {k : Nat} {ret : Addr} (h : s.resetIn = some (k + 1)) (hw : s.mem.wf)
    (ht : s.abandoned (k + 1) = .next t)
    (hmem : t.mem = (s.stored ((s.frameSpan.take (frameLength (k + 1))).zip
      ((s.frameBytes ret).take (frameLength (k + 1))))).mem) :
    CutAfter s (s.frameSpan.take (frameLength (k + 1))) ((s.frameBytes ret).take (frameLength (k + 1))) := by
  refine cutAfter_of_stored h ht hmem hw ?_ ?_
  · rw [List.length_take, List.length_take, frameBytes_length s ret]
  · rw [List.map_take]
    exact (frameSpan_nodup s).sublist (List.take_sublist _ _)

/-- An exception's entry at a boundary cut short. -/
theorem cutAfter_entered {s : State} {k : Nat} (h : s.resetIn = some (k + 1)) (hw : s.mem.wf) (hf : s.fault = none)
    (hd : s.unreset.due.entered ≠ none) (hfits : s.FitsFrame s.pc)
    (hm : s.MayWrite (s.frameSpan.take (frameLength (k + 1)))) :
    CutAfter s (s.frameSpan.take (frameLength (k + 1))) ((s.frameBytes s.pc).take (frameLength (k + 1))) := by
  obtain ⟨t, ht, hmem⟩ := framePart_ok (by_ := none) k hfits ⟨hm, fun _ hl => by cases hl⟩
  exact cutAfter_frame h hw (by rw [abandoned_of_entered hf hd, ht]; rfl) hmem

/-- TRAPA cut short. -/
theorem cutAfter_trapa {s : State} {k : Nat} {tn : BitVec 2} (h : s.resetIn = some (k + 1)) (hw : s.mem.wf)
    (hrun : s.unreset.RunsNext) (hx : s.nextInstr = .ok (.trapa tn)) (hfits : s.FitsFrame (s.pcNext 2))
    (hm : s.MayStore 2 (s.frameSpan.take (frameLength (k + 1)))) :
    CutAfter s (s.frameSpan.take (frameLength (k + 1))) ((s.frameBytes (s.pcNext 2)).take (frameLength (k + 1))) := by
  obtain ⟨t, ht, hmem⟩ := framePart_ok (s := s.pastBoundary) k hfits (allows_pastBoundary hm)
  have habandoned : s.abandoned (k + 1) = Out.of (.ok t) :=
    (abandoned_of_nextInstr hrun hx _).trans (congrArg Out.of ht)
  exact cutAfter_frame h hw habandoned (hmem.trans (stored_pastBoundary s _))

/-- A call is in progress up to its return frame, once its target has been read. -/
theorem untilWrite_call {x : Instr} (hx : x.isCall = true) (k : Nat) {s : State}
    (hr : ∀ aa, x = .jsrMemInd aa → s.MayRead (s.longSpan (aa.zeroExtend 32))) :
    untilWrite x k s = Out.of (s.pushReturn x.length) := by
  unfold Instr.isCall at hx
  split at hx
  · rfl
  · rfl
  · rfl
  · rfl
  · next aa =>
    have htarget : s.memIndTarget aa = .ok (s.addr (s.longAt (aa.zeroExtend 32))) := by
      unfold State.memIndTarget
      rw [read32_ok (hr aa rfl)]
      rfl
    simp only [untilWrite, htarget]
    rfl
  · cases hx

/-- A call cut short has pushed its return frame. -/
theorem cutAfter_call {s : State} {k : Nat} {x : Instr} (h : s.resetIn = some (k + 1)) (hw : s.mem.wf)
    (hrun : s.unreset.RunsNext) (hx : s.nextInstr = .ok x) (hcall : x.isCall = true)
    (hr : ∀ aa, x = .jsrMemInd aa → s.MayRead (s.longSpan (aa.zeroExtend 32)))
    (hm : s.MayStore x.length (s.longSpan (s.readL sp - 4))) :
    CutAfter s (s.longSpan (s.readL sp - 4)) (longBytes (s.callFrame (s.pcNext x.length))) := by
  have hpush := push32_ok (s := s.pastBoundary) (s.callFrame (s.pcNext x.length)) (allows_pastBoundary hm)
  have habandoned : s.abandoned (k + 1) = _ :=
    (abandoned_of_nextInstr hrun hx _).trans
      ((untilWrite_call (s := s.pastBoundary) hcall _ hr).trans (congrArg Out.of hpush))
  exact cutAfter_of_stored h habandoned (stored_pastBoundary s _) hw rfl (longSpan_nodup s _)

/-- Settles O50: what each kind of step has stored when it is cut, and the reset sequence over that memory. -/
theorem resetCutsAStepShort : Obligations.ResetCutsAStepShort := by
  unfold Obligations.ResetCutsAStepShort
  intro s k h hw
  refine ⟨fun hidle => resetStep_of_cut h (abandoned_idle hidle _),
    fun hrun f hf => step_cut_fault h (abandoned_of_fetchFault hrun hf _), fun hrun x hx hwhole => ?_,
    fun hrun r hx => cutAfter_storeList h hw hrun hx (fun _ => rfl) (by simp),
    fun hrun r hx => cutAfter_storeList h hw hrun hx (fun _ => rfl) (by simp),
    fun hrun r hx => cutAfter_storeList h hw hrun hx (fun _ => rfl) (by simp),
    fun hrun hx => resetStep_eepmovB h hrun hx rfl, fun hrun tn => cutAfter_trapa h hw hrun, cutAfter_entered h hw,
    fun hrun x => cutAfter_call h hw hrun⟩
  have habandoned := (abandoned_of_nextInstr hrun hx (k + 1)).trans (untilWrite_whole hwhole _ _)
  exact ⟨fun t ht => resetStep_of_cut h (habandoned.trans ht), fun f hf => step_cut_fault h (habandoned.trans hf)⟩

end Sys2Proof.Machine
end
